-- ==== Sys2Proof/Word.lean ====
section
/-!
DEFINITION. The machine's words.
Host registers, command words and event words are 32 bits (spec/00_scope.md R9); a byte of DMEM and a soft bit are
8 bits. A soft bit is read as a two's-complement integer with `BitVec.toInt` (R9, spec/20_memory.md R106).
-/

namespace Sys2Proof

/-- A host register, command word or event word (R9). -/
abbrev Word := BitVec 32

/-- One byte of DMEM (R103). -/
abbrev Byte := BitVec 8

/-- A soft bit: an 8-bit two's-complement integer (R9). -/
abbrev Llr := BitVec 8

end Sys2Proof
end

