-- ==== Sys2Proof/Syntax.lean ====
section
/-!
DEFINITION. The operations of the block, one constructor per row of spec/opcode_table.json.
Their fields are the operand fields of spec/30_encoding.md R141 to R152; a field the encoding fixes (a reserved field,
an ARG that R152 gives as 0) is no field here.
-/

namespace Sys2Proof

/-- The three UCI fields, with the codes ARG gives them in UCI_DECODE (R152: 0 ACK, 1 CSI1, 2 CSI2). -/
inductive UciField where
  | ack
  | csi1
  | csi2
  deriving DecidableEq, Repr

/-- The operations of R140 in the opcode table's order. -/
inductive Instr where
  /-- PROCESS_PDU (R420). -/
  | processPdu (tag : BitVec 8)
  /-- CONFIGURE_CSI_PART2 (R256): the payload bits, the encoded bits and the final UL-SCH budget. -/
  | configureCsiPart2 (tag : BitVec 8) (bits : BitVec 11) (gCsi2 : BitVec 24) (gUlsch : BitVec 24)
  /-- CSI2_NONE (R258). -/
  | csi2None (tag : BitVec 8)
  /-- HARQ_FREE (R355). -/
  | harqFree (handle : BitVec 8)
  /-- NOP (R445), with its ignored hint bits. -/
  | nop (hint : BitVec 24)
  /-- RESERVE_VIEW (R201). -/
  | reserveView (port : BitVec 4) (n : BitVec 19) (owner : BitVec 8)
  /-- PUBLISH_BLOCK with IN_PLACE = 1 (R202). -/
  | publishInPlace (port : BitVec 4) (n : BitVec 19) (owner : BitVec 8)
  /-- PUBLISH_BLOCK with IN_PLACE = 0 (R203): N is the number of soft bits in `data` (R147). -/
  | publishCopy (port : BitVec 4) (owner : BitVec 8) (data : List (BitVec 8))
  /-- CLOSE (R204). -/
  | close (port : BitVec 4) (owner : BitVec 8)
  /-- CB_DECODE (R300). -/
  | cbDecode (tbx : BitVec 8) (r : BitVec 16)
  /-- CB_RATE_DEMATCH (R305). -/
  | cbRateDematch (tbx : BitVec 8) (r : BitVec 16)
  /-- CHEST (R380). -/
  | chest (b : BitVec 8)
  /-- DEMOD_SYMBOL (R388). -/
  | demodSymbol (b : BitVec 8) (l : BitVec 16)
  /-- DESCRAMBLE (R384): `n` is the soft-bit count modulo 2^16. -/
  | descramble (b : BitVec 8) (n : BitVec 16)
  /-- END_STATS (R396). -/
  | endStats (b : BitVec 8)
  /-- DEMUX_SYMBOL (R245). -/
  | demuxSymbol (b : BitVec 8) (l : BitVec 16)
  /-- DEMUX_FLUSH (R252). -/
  | demuxFlush (b : BitVec 8)
  /-- UCI_DECODE (R436). -/
  | uciDecode (b : BitVec 8) (f : UciField)
  /-- TB_CONFIGURE (R330). -/
  | tbConfigure (t : BitVec 8)
  /-- SET_NOF_SOFTBITS (R334). -/
  | setNofSoftbits (t : BitVec 8)
  /-- CLOSE_DISPATCH (R336). -/
  | closeDispatch (t : BitVec 8)
  /-- CLOSE_COMMIT (R338). -/
  | closeCommit (t : BitVec 8)
  /-- CB_COMPLETE (R343). -/
  | cbComplete (t : BitVec 8) (r : BitVec 16)
  /-- TB_JOIN (R346). -/
  | tbJoin (t : BitVec 8)
  /-- SEQ_END (R433). -/
  | seqEnd (b : BitVec 8)
  /-- DEMUX_RESUME (R257). -/
  | demuxResume (b : BitVec 8) (l : BitVec 16)
  deriving DecidableEq, Repr

end Sys2Proof
end

