-- ==== Sys2Proof/Config.lean ====
section
/-!
DEFINITION. What is fixed for the block but not by the spec: the instance parameters (spec/00_scope.md R8), the
configuration functions (R12) and the model's free values. A free value is an opaque constant: nothing proves what it is.
-/

namespace Sys2Proof

/-- RSVD_FORWARD (R8, spec/41_demux.md R249). -/
inductive RsvdForward where
  | toUlsch
  | discard
  deriving DecidableEq, Repr

/-- ACK_START (R8, R236). -/
inductive AckStart where
  | doc
  | ts38212
  deriving DecidableEq, Repr

/-- LDPC base graph (R4). -/
inductive BaseGraph where
  | bg1
  | bg2
  deriving DecidableEq, Repr

/-- The instance parameters of R8 and spec/10_state.md R49, by the spec's names. -/
structure Params where
  nBundles : Nat
  nTbdec : Nat
  nCbe : Nat
  taskqDepth : Nat
  nHarq : Nat
  maxCb : Nat
  softbufLlrs : Nat
  maxCwBits : Nat
  nlMax : Nat
  nrxMax : Nat
  llrMax : Nat
  llrFiller : Int
  cmdqDepth : Nat
  evqDepth : Nat
  maxUciG : Nat
  rsvdForward : RsvdForward
  ackStart : AckStart
  deriving DecidableEq, Repr

/-- The reference values of R8. DESIGN CHOICE (log 1): `State.reset` is the reset of the reference instance. Unsafe for
a claim about `State.reset` alone; statements over all states cover every instance. -/
def Params.reference : Params where
  nBundles := 2
  nTbdec := 2
  nCbe := 2
  taskqDepth := 8
  nHarq := 4
  maxCb := 8
  softbufLlrs := 2 ^ 18
  maxCwBits := 2 ^ 18
  nlMax := 4
  nrxMax := 4
  llrMax := 120
  llrFiller := 127
  cmdqDepth := 64
  evqDepth := 1024
  maxUciG := 2 ^ 16
  rsvdForward := .toUlsch
  ackStart := .doc

/-- The legal ranges of R8 and R49. DESIGN CHOICE (log 31): R8 gives SOFTBUF_LLRS no upper bound; the bound 2^32 here is the
model's, so that the 32 bits of PARAM3 (R32) can show the value. -/
def Params.legal (p : Params) : Bool :=
  decide (p.nBundles ≤ 15) && decide (1 ≤ p.nTbdec ∧ p.nTbdec ≤ 15) && decide (p.nCbe ≤ 255)
    && decide (p.taskqDepth ≤ 255) && decide (1 ≤ p.nHarq ∧ p.nHarq ≤ 256) && decide (1 ≤ p.maxCb ∧ p.maxCb ≤ 255)
    && decide (25344 ≤ p.softbufLlrs ∧ p.softbufLlrs < 2 ^ 32) && decide (1 ≤ p.maxCwBits ∧ p.maxCwBits < 2 ^ 24)
    && decide (1 ≤ p.nlMax ∧ p.nlMax ≤ 4) && decide (1 ≤ p.nrxMax ∧ p.nrxMax ≤ 15)
    && decide (1 ≤ p.llrMax ∧ p.llrMax ≤ 127) && decide (-127 ≤ p.llrFiller ∧ p.llrFiller ≤ 127)
    && decide (4 ≤ p.cmdqDepth ∧ p.cmdqDepth ≤ 65535) && decide (256 ≤ p.evqDepth ∧ p.evqDepth ≤ 65535)
    && decide (16 ≤ p.maxUciG ∧ p.maxUciG ≤ 2 ^ 20 ∧ p.maxUciG % 16 = 0)

/-- The PDU descriptor: the registers 0x080 to 0x0C0 of spec/10_state.md R42, each a 32-bit word. Their fields are read in
Machine/Operands.lean. -/
structure Descriptor where
  bwp : Word
  alloc : Word
  symb : Word
  dmrs : Word
  mod : Word
  tbs : Word
  lbrm : Word
  harq : Word
  scr : Word
  ack : Word
  gAck : Word
  gAckRvd : Word
  csi1 : Word
  gCsi1 : Word
  gUlsch : Word
  tbDest : Word
  nrx : Word
  deriving DecidableEq, Repr

/-- The descriptor registers at reset: all 0 (R42). -/
def Descriptor.zero : Descriptor :=
  ⟨0, 0, 0, 0, 0, 0, 0, 0, 0, 0, 0, 0, 0, 0, 0, 0, 0⟩

/-- What HOST can do on its bus (spec/20_memory.md R100, R107, R108): CSR accesses carry their width in bits, so that
a bad width can be refused. -/
inductive HostOp where
  | csrRead (width : Nat) (off : BitVec 12)
  | csrWrite (width : Nat) (off : BitVec 12) (v : Word)
  | dmemRead (a : BitVec 32)
  | dmemWrite (a : BitVec 32) (v : Byte)
  deriving DecidableEq, Repr, Inhabited

/-- The agents of spec/00_scope.md R11, and the reset input of spec/70_reset_and_hazards.md R500. -/
inductive Agent where
  | host (op : HostOp)
  | cmdu
  | seq (b : Nat)
  | cbe (e : Nat)
  /-- CBE[e] completes the task behind `i` tasks that other engines have taken and not completed yet (spec/43_tb_decoder.md R340,
  order (a) of R360; log 32). -/
  | cbeAhead (e i : Nat)
  | resetInput
  deriving DecidableEq, Repr, Inhabited

/-- A received sample of the grid. The spec gives its content no form (R102): a code number stands for it (log 4). -/
abbrev Sample := Nat

/-- The received grid as the spec reads it: port, symbol, absolute subcarrier (spec/20_memory.md R102). -/
abbrev Grid := Nat → Nat → Nat → Sample

/-- A channel estimate `H`, opaque in R12: a code number (log 4). -/
abbrev ChanEst := Nat

/-- An equalised soft symbol `y`, opaque to the block (R12): a code number (log 4). -/
abbrev SoftSymbol := Nat

/-- The running EVM accumulator, opaque in spec/44_demod.md R393: a code number (log 4). -/
abbrev EvmAcc := Nat

/-- A non-negative real number as plain data (log 5): the sum of a rational number and of the positive numbers that the codes
stand for. Which number a code stands for is left open (`CodedReals`). -/
structure ExactReal where
  rational : Rat
  coded : List Nat
  deriving DecidableEq, Repr

/-- What the codes of `ExactReal` stand for (log 5): a positive real number each, and the comparisons of the mean of `n` numbers
whose sum is `sum` with the powers `10^(k / (10·2^150))`, which are all that rounding a SINR needs (spec/44_demod.md R393). -/
structure CodedReals where
  value : Nat → ℝ
  positive : ∀ c, 0 < value c
  compareMean : ExactReal → Nat → Int → Ordering
  exact : ∀ (sum : ExactReal) (n : Nat) (k : Int),
    (compareMean sum n k).Compares (((sum.rational : ℝ) + (sum.coded.map value).sum) / n)
      ((10 : ℝ) ^ ((k : ℝ) / ((10 * 2 ^ 150 : Nat) : ℝ)))

/-- A noise variance (R12): `none` is +∞. -/
abbrev NoiseVar := Option ExactReal

/-- The grid of the accepted PDU number `n` (R102, D54: how it arrives is open; log 13). -/
opaque Config.grid (n : Nat) : Grid

/-- `chest(pdu, grid)` (R12). -/
opaque Config.chest (d : Descriptor) (g : Grid) : ChanEst

/-- The soft symbol of `equalize(pdu, grid, H, l, k, v)` (R12). -/
opaque Config.equalizeSymbol (d : Descriptor) (g : Grid) (h : ChanEst) (l k v : Nat) : SoftSymbol

/-- The noise variance of `equalize(pdu, grid, H, l, k, v)` (R12); Machine/Demod.lean keeps it at or above 0. -/
opaque Config.equalizeNoise (d : Descriptor) (g : Grid) (h : ChanEst) (l k v : Nat) : NoiseVar

/-- `tp_revert(ys)` (R12), symbol `i` of its result. -/
opaque Config.tpRevert (ys : List (Option SoftSymbol)) (i : Nat) : SoftSymbol

/-- `demap(Qm, y, nv)` (R12), soft bit `q` of its result before Machine/Demod.lean keeps it in ±LLR_MAX. -/
opaque Config.demap (qm : Nat) (y : Option SoftSymbol) (nv : NoiseVar) (q : Nat) : Int

/-- What the codes of `ExactReal` stand for: real numbers of which nothing else is known, or, where it is `none`, 1 each
(log 5). -/
opaque Config.codedReals : Option CodedReals

/-- `evm_sym(pdu, ys, llrs)` (R12) as the binary32 word PROV_STATS reports (spec/44_demod.md R392), before Machine/Demod.lean
keeps it one of a real number (log 25). -/
opaque Config.evmSymbol (d : Descriptor) (ys : List (Option SoftSymbol)) (llrs : List Llr) : Word

/-- The initial EVM accumulator (R380). -/
opaque Config.evmInitial : EvmAcc

/-- Folding one symbol's EVM into the accumulator (R393). -/
opaque Config.evmFold (acc : EvmAcc) (d : Descriptor) (ys : List (Option SoftSymbol)) (llrs : List Llr) : EvmAcc

/-- `evm_end(acc)` (R396) as the binary32 word END_STATS reports, before Machine/Demod.lean keeps it one of a real number
(log 25). -/
opaque Config.evmEnd (acc : EvmAcc) : Word

/-- `ldpc(bg, Zc, x, k)` (R12), hard bit `i` of its result. -/
opaque Config.ldpc (bg : BaseGraph) (zc : Nat) (x : List Llr) (k : Nat) (i : Nat) : Bool

/-- Whether `uci_decode(kind, nbits, llrs)` answers VALID (R12). -/
opaque Config.uciValid (f : UciField) (nbits : Nat) (llrs : List Llr) : Bool

/-- Payload bit `i` of a VALID `uci_decode(kind, nbits, llrs)` (R12). -/
opaque Config.uciBit (f : UciField) (nbits : Nat) (llrs : List Llr) (i : Nat) : Bool

/-- The byte DMEM holds at an address that neither HOST nor the block has written (R500: DMEM is not reset; log 11). -/
opaque Config.dmemInit (a : Nat) : Byte

/-- The byte a racing host read of DMEM returns (R114; log 12). -/
opaque Config.raceByte (n : Nat) : Byte

/-- Whether a join's write takes effect on a byte it races for (R114, R512; log 12). -/
opaque Config.raceTakesNew (n : Nat) : Bool

/-- Which of the racing writers' bytes a host write leaves (R114; log 12). -/
opaque Config.racePick (n : Nat) : Nat

/-- How many tasks may complete ahead of head number `number` of the task queue: a number left open, and finite, so that no task is
passed for ever (spec/70_reset_and_hazards.md R526; log 32). -/
opaque Config.taskPasses (number : Nat) : Nat

/-- The agent that moves next where `State.sched` does not say (R110: any interleaving; log 7). -/
opaque Config.nextAgent (n : Nat) : Agent

end Sys2Proof
end

