-- ==== Sys2Proof/WellFormed.lean ====
section
/-!
DEFINITION. What an operation's operands must meet beyond the widths their types give.
-/

namespace Sys2Proof

/-- The one operand whose width its type does not fix is the data of a copying PUBLISH_BLOCK: its length is the 19-bit
field N (spec/30_encoding.md R145, R148). -/
def Instr.wellFormed : Instr → Bool
  | .publishCopy _ _ data => decide (data.length < 2 ^ 19)
  | .processPdu _ => true
  | .configureCsiPart2 _ _ _ _ => true
  | .csi2None _ => true
  | .harqFree _ => true
  | .nop _ => true
  | .reserveView _ _ _ => true
  | .publishInPlace _ _ _ => true
  | .close _ _ => true
  | .cbDecode _ _ => true
  | .cbRateDematch _ _ => true
  | .chest _ => true
  | .demodSymbol _ _ => true
  | .descramble _ _ => true
  | .endStats _ => true
  | .demuxSymbol _ _ => true
  | .demuxFlush _ => true
  | .uciDecode _ _ => true
  | .tbConfigure _ => true
  | .setNofSoftbits _ => true
  | .closeDispatch _ => true
  | .closeCommit _ => true
  | .cbComplete _ _ => true
  | .tbJoin _ => true
  | .seqEnd _ => true
  | .demuxResume _ _ => true

end Sys2Proof
end

