-- ==== Sys2Proof/Decode.lean ====
section
/-!
DEFINITION. The decoder and the encoder of the block's operations (spec/30_encoding.md).
`decode` reads one operation from the front of a list of 32-bit words, the first word first, and rejects by name.
-/

namespace Sys2Proof

/-! ### Fields of a word -/

/-- OPC, bits 31 to 24 of every header (R141, R145, R150, R152). -/
def Word.opc (w : Word) : BitVec 8 := w.extractLsb' 24 8

/-- TAG, TBX or UNIT, bits 23 to 16 (R141, R150, R152). -/
def Word.unit (w : Word) : BitVec 8 := w.extractLsb' 16 8

/-- IMM16, R or ARG, bits 15 to 0 (R141, R150, R152). -/
def Word.imm16 (w : Word) : BitVec 16 := w.extractLsb' 0 16

/-- PORT, bits 23 to 20 of a port operation's header (R145). -/
def Word.port (w : Word) : BitVec 4 := w.extractLsb' 20 4

/-- IN_PLACE, bit 19 of a port operation's header (R145). -/
def Word.inPlace (w : Word) : Bool := w.getLsbD 19

/-- N, bits 18 to 0 of a port operation's header (R145). -/
def Word.count19 (w : Word) : BitVec 19 := w.extractLsb' 0 19

/-- A 24-bit argument field, bits 23 to 0 (R144). -/
def Word.low24 (w : Word) : BitVec 24 := w.extractLsb' 0 24

/-- Bits 31 to 24 of an argument word, reserved (R144). -/
def Word.high8 (w : Word) : BitVec 8 := w.extractLsb' 24 8

/-- OWNER, bits 7 to 0 of an owner word (R145). -/
def Word.owner (w : Word) : BitVec 8 := w.extractLsb' 0 8

/-- Bits 31 to 8 of an owner word, reserved (R145). -/
def Word.high24 (w : Word) : BitVec 24 := w.extractLsb' 8 24

/-! ### Soft bits in data words (R147, R105) -/

/-- The four bytes of a data word, the least significant first (R105). -/
def bytesOfWord (w : Word) : List (BitVec 8) :=
  [w.extractLsb' 0 8, w.extractLsb' 8 8, w.extractLsb' 16 8, w.extractLsb' 24 8]

/-- The data words of a list of soft bits: four to a word, little-endian, unused high bytes 0 (R147). -/
def packLlrs : List (BitVec 8) → List Word
  | [] => []
  | [a] => [0#8 ++ 0#8 ++ 0#8 ++ a]
  | [a, b] => [0#8 ++ 0#8 ++ b ++ a]
  | [a, b, c] => [0#8 ++ c ++ b ++ a]
  | a :: b :: c :: d :: rest => (d ++ c ++ b ++ a) :: packLlrs rest

/-- `n` soft bits read back from the front of a list of data words: `none` where an unused high byte of the last word is
not 0 or a word is missing (R147). -/
def unpackLlrs : Nat → List Word → Option (List (BitVec 8) × List Word)
  | 0, ws => some ([], ws)
  | _ + 1, [] => none
  | 1, w :: ws => if w.extractLsb' 8 24 = 0#24 then some ([w.extractLsb' 0 8], ws) else none
  | 2, w :: ws => if w.extractLsb' 16 16 = 0#16 then some ([w.extractLsb' 0 8, w.extractLsb' 8 8], ws) else none
  | 3, w :: ws =>
    if w.extractLsb' 24 8 = 0#8 then some ([w.extractLsb' 0 8, w.extractLsb' 8 8, w.extractLsb' 16 8], ws) else none
  | n + 4, w :: ws =>
    match unpackLlrs n ws with
    | some (ls, rest) => some (bytesOfWord w ++ ls, rest)
    | none => none

/-! ### Lengths and classes -/

/-- The opcodes HOST may push (R144). -/
def isHostOpcode (opc : BitVec 8) : Bool :=
  opc = 0x01#8 || opc = 0x02#8 || opc = 0x03#8 || opc = 0x05#8 || opc = 0x0F#8

/-- NARG of a host command (R144). -/
def hostNarg (opc : BitVec 8) : Nat := if opc = 0x02#8 then 2 else 0

/-- The words after the header that an operation has, read from its header alone (R155). -/
def wordsAfterHeader (w : Word) : Nat :=
  if w.opc = 0x02#8 then 2
  else if w.opc = 0x10#8 ∨ w.opc = 0x12#8 then 1
  else if w.opc = 0x11#8 then 1 + (if w.inPlace then 0 else (w.count19.toNat + 3) / 4)
  else 0

/-- Why a word sequence is no operation. -/
inductive DecodeError where
  /-- No word at all. -/
  | noWord
  /-- An OPC that R154 gives no operation. -/
  | illegalOpcode (opc : BitVec 8)
  /-- Words of the operation are missing (R142, R155). -/
  | missingWords (opc : BitVec 8)
  /-- A reserved field, a fixed ARG or an unused data byte is not 0 (R144, R145, R147, R152), or an ARG names no UCI field. -/
  | reservedField (opc : BitVec 8)
  deriving DecidableEq, Repr

/-! ### The decoder -/

/-- ARG of UCI_DECODE (R152). -/
def UciField.ofArg (a : BitVec 16) : Option UciField :=
  if a = 0#16 then some .ack else if a = 1#16 then some .csi1 else if a = 2#16 then some .csi2 else none

/-- A micro-operation whose ARG R152 gives as 0. -/
def fixedArg (w : Word) (i : Instr) (rest : List Word) : Except DecodeError (Instr × List Word) :=
  if w.imm16 = 0#16 then .ok (i, rest) else .error (.reservedField w.opc)

/-- A port operation whose owner word follows (R145): its reserved bits and `extra` must be clear. -/
def withOwner (w : Word) (extra : Bool) (k : BitVec 8 → List Word → Except DecodeError (Instr × List Word)) :
    List Word → Except DecodeError (Instr × List Word)
  | [] => .error (.missingWords w.opc)
  | ow :: rest =>
    if ow.high24 = 0#24 ∧ extra = true then k ow.owner rest else .error (.reservedField w.opc)

/-- The operations of class H (R141, R144). -/
def decodeHost (w : Word) (rest : List Word) : Except DecodeError (Instr × List Word) :=
  match w.opc with
  | 0x01#8 => if w.imm16 = 0#16 then .ok (.processPdu w.unit, rest) else .error (.reservedField w.opc)
  | 0x02#8 =>
    match rest with
    | a1 :: a2 :: rest' =>
      if w.extractLsb' 11 5 = 0#5 ∧ a1.high8 = 0#8 ∧ a2.high8 = 0#8 then
        .ok (.configureCsiPart2 w.unit (w.extractLsb' 0 11) a1.low24 a2.low24, rest')
      else .error (.reservedField w.opc)
    | _ => .error (.missingWords w.opc)
  | 0x03#8 => if w.imm16 = 0#16 then .ok (.csi2None w.unit, rest) else .error (.reservedField w.opc)
  | 0x05#8 =>
    if w.extractLsb' 8 16 = 0#16 then .ok (.harqFree (w.extractLsb' 0 8), rest) else .error (.reservedField w.opc)
  | 0x0F#8 => .ok (.nop w.low24, rest)
  | _ => .error (.illegalOpcode w.opc)

/-- The operations of class P (R145 to R147). -/
def decodePort (w : Word) (rest : List Word) : Except DecodeError (Instr × List Word) :=
  match w.opc with
  | 0x10#8 => withOwner w (!w.inPlace) (fun o r => .ok (.reserveView w.port w.count19 o, r)) rest
  | 0x11#8 =>
    if w.inPlace then withOwner w true (fun o r => .ok (.publishInPlace w.port w.count19 o, r)) rest
    else
      withOwner w true
        (fun o r =>
          if r.length < (w.count19.toNat + 3) / 4 then .error (.missingWords w.opc)
          else
            match unpackLlrs w.count19.toNat r with
            | some (ls, r') => .ok (.publishCopy w.port o ls, r')
            | none => .error (.reservedField w.opc))
        rest
  | 0x12#8 => withOwner w (!w.inPlace && decide (w.count19 = 0#19)) (fun o r => .ok (.close w.port o, r)) rest
  | _ => .error (.illegalOpcode w.opc)

/-- The operations of classes T (R150) and U (R152). -/
def decodeUnit (w : Word) (rest : List Word) : Except DecodeError (Instr × List Word) :=
  match w.opc with
  | 0x20#8 => .ok (.cbDecode w.unit w.imm16, rest)
  | 0x21#8 => .ok (.cbRateDematch w.unit w.imm16, rest)
  | 0x30#8 => fixedArg w (.chest w.unit) rest
  | 0x31#8 => .ok (.demodSymbol w.unit w.imm16, rest)
  | 0x32#8 => .ok (.descramble w.unit w.imm16, rest)
  | 0x33#8 => fixedArg w (.endStats w.unit) rest
  | 0x34#8 => .ok (.demuxSymbol w.unit w.imm16, rest)
  | 0x35#8 => fixedArg w (.demuxFlush w.unit) rest
  | 0x36#8 =>
    match UciField.ofArg w.imm16 with
    | some f => .ok (.uciDecode w.unit f, rest)
    | none => .error (.reservedField w.opc)
  | 0x37#8 => fixedArg w (.tbConfigure w.unit) rest
  | 0x38#8 => fixedArg w (.setNofSoftbits w.unit) rest
  | 0x39#8 => fixedArg w (.closeDispatch w.unit) rest
  | 0x3A#8 => fixedArg w (.closeCommit w.unit) rest
  | 0x3B#8 => .ok (.cbComplete w.unit w.imm16, rest)
  | 0x3C#8 => fixedArg w (.tbJoin w.unit) rest
  | 0x3D#8 => fixedArg w (.seqEnd w.unit) rest
  | 0x3E#8 => .ok (.demuxResume w.unit w.imm16, rest)
  | _ => .error (.illegalOpcode w.opc)

/-- One operation from the front of a list of words, and the words after it. -/
def decode : List Word → Except DecodeError (Instr × List Word)
  | [] => .error .noWord
  | w :: rest =>
    if w.opc.toNat < 0x10 then decodeHost w rest
    else if w.opc.toNat < 0x20 then decodePort w rest
    else decodeUnit w rest

/-- What CMDU reads at the head of the command FIFO (R142, R143): an opcode of another class is illegal there. -/
def decodeCommand : List Word → Except DecodeError (Instr × List Word)
  | [] => .error .noWord
  | w :: rest => if isHostOpcode w.opc then decodeHost w rest else .error (.illegalOpcode w.opc)

/-- What a codeblock engine reads in a task descriptor (R150). -/
def decodeTask (w : Word) : Option Instr :=
  if w.opc = 0x20#8 then some (.cbDecode w.unit w.imm16)
  else if w.opc = 0x21#8 then some (.cbRateDematch w.unit w.imm16)
  else none

/-! ### The encoder -/

/-- A header of class H, T or U: OPC, an 8-bit field and a 16-bit field (R141, R150, R152). -/
def header (opc unit : BitVec 8) (imm : BitVec 16) : Word := opc ++ unit ++ imm

/-- A header of class P (R145). -/
def portHeader (opc : BitVec 8) (port : BitVec 4) (inPlace : BitVec 1) (n : BitVec 19) : Word :=
  opc ++ port ++ inPlace ++ n

/-- An owner word (R145). -/
def ownerWord (owner : BitVec 8) : Word := 0#24 ++ owner

/-- An argument word of CONFIGURE_CSI_PART2 (R144). -/
def argWord (v : BitVec 24) : Word := 0#8 ++ v

/-- ARG of a UCI field (R152). -/
def UciField.arg : UciField → BitVec 16
  | .ack => 0#16
  | .csi1 => 1#16
  | .csi2 => 2#16

/-- The words of an operation, the header first (R141 to R152). -/
def encode : Instr → List Word
  | .processPdu tag => [header 0x01#8 tag 0#16]
  | .configureCsiPart2 tag bits g2 gu => [header 0x02#8 tag (0#5 ++ bits), argWord g2, argWord gu]
  | .csi2None tag => [header 0x03#8 tag 0#16]
  | .harqFree h => [header 0x05#8 0#8 (0#8 ++ h)]
  | .nop hint => [0x0F#8 ++ hint]
  | .reserveView port n owner => [portHeader 0x10#8 port 0#1 n, ownerWord owner]
  | .publishInPlace port n owner => [portHeader 0x11#8 port 1#1 n, ownerWord owner]
  | .publishCopy port owner data =>
    portHeader 0x11#8 port 0#1 (BitVec.ofNat 19 data.length) :: ownerWord owner :: packLlrs data
  | .close port owner => [portHeader 0x12#8 port 0#1 0#19, ownerWord owner]
  | .cbDecode t r => [header 0x20#8 t r]
  | .cbRateDematch t r => [header 0x21#8 t r]
  | .chest b => [header 0x30#8 b 0#16]
  | .demodSymbol b l => [header 0x31#8 b l]
  | .descramble b n => [header 0x32#8 b n]
  | .endStats b => [header 0x33#8 b 0#16]
  | .demuxSymbol b l => [header 0x34#8 b l]
  | .demuxFlush b => [header 0x35#8 b 0#16]
  | .uciDecode b f => [header 0x36#8 b f.arg]
  | .tbConfigure t => [header 0x37#8 t 0#16]
  | .setNofSoftbits t => [header 0x38#8 t 0#16]
  | .closeDispatch t => [header 0x39#8 t 0#16]
  | .closeCommit t => [header 0x3A#8 t 0#16]
  | .cbComplete t r => [header 0x3B#8 t r]
  | .tbJoin t => [header 0x3C#8 t 0#16]
  | .seqEnd b => [header 0x3D#8 b 0#16]
  | .demuxResume b l => [header 0x3E#8 b l]

/-! ### The host's word, numbered as spec/opcode_table.json numbers bits -/

/-- The words of an operation whose bits are `w`, bit 0 the least significant bit of the first word: the header, then as
many words as the header says the operation has (R155). Bits at or above `nbits` are 0. -/
def tableWords (nbits w : Nat) : List Word :=
  let v := w % 2 ^ nbits
  let w0 := BitVec.ofNat 32 v
  w0 :: (List.range (wordsAfterHeader w0)).map (fun i => BitVec.ofNat 32 (v >>> (32 * (i + 1))))

/-- The instruction the decoder reads from the instruction whose bits are `w`. -/
def decodeTableWord (nbits w : Nat) : Option Instr :=
  match decode (tableWords nbits w) with
  | .ok (i, _) => some i
  | .error _ => none

end Sys2Proof
end

