-- ==== Sys2Proof/Machine/State.lean ====
section
/-!
DEFINITION. The state of the block as plain data (spec/10_state.md), the reasons a step can stop, and reset (R66, R500).
A field marked MODEL is the model's own: the spec only implies it. Registers for which R66 gives no value hold 0 at reset
(DESIGN CHOICE, log 2); the block's internal memories hold no value in a slot nothing has written (log 3).
-/

namespace Sys2Proof.Machine

/-- The model faults. -/
inductive Fault where
  /-- A read of a slot of an internal memory, of a symbol's sets or of a codeblock buffer that holds no value. Raised by the
  operations that read `Slots`, `Demux.sets`, `Harq.cbs` or a data cache. R66, R202 and 93_implementation_defined.md 1.2
  call such a read a model fault, and no run of the block reaches one. Safe: the model stops where the spec gives no value. -/
  | unspecifiedRead
  /-- A write to DMEM at an address at or above 2^32, which does not exist (R9, R100). Raised by TB_JOIN. Validation (R424, code
  0x09 detail 5) refuses every PDU whose output would reach such an address. Safe: the model stops where the spec has no
  address. -/
  | noSuchAddress
  deriving DecidableEq, Repr

/-- The refusals. -/
inductive Refusal where
  /-- An operation that has no meaning in this model yet. Raised only by `exec`. Safe. -/
  | notModelled (mnemonic : String)
  /-- A CSR access that is not 32 bits wide and 4-byte aligned. Raised by the HOST turn. R107 gives it no step. Safe. -/
  | busError
  /-- A word sequence that is no operation, offered to the issue turn. Raised by the issue turn alone; no rule of the spec
  issues such words (log 8). Safe. -/
  | malformedOperation
  deriving DecidableEq, Repr

/-- The phases of a bundle (R45, R430). -/
inductive Phase where
  | free
  | chest
  | demod
  | holdCsi2
  | resume
  | endPdu
  | commit
  deriving DecidableEq, Repr

/-- CSI Part 2 late binding (R46, R254). -/
inductive Csi2State where
  | off
  | waiting
  | await
  | configured
  | declined
  deriving DecidableEq, Repr

/-- A port's binding (R47). -/
inductive Binding where
  | null
  | real
  deriving DecidableEq, Repr

/-- A UCI field's status (R18, R48). -/
inductive UciStatus where
  | unknown
  | valid
  | invalid
  deriving DecidableEq, Repr

/-- The transport-block decoder's states (R50). -/
inductive TbFsm where
  | idle
  | collecting
  | decoding
  | decoded
  deriving DecidableEq, Repr

/-- A HARQ handle's states (R51). -/
inductive HState where
  | free
  | locked
  | held
  deriving DecidableEq, Repr

/-- An internal memory of soft bits (R101): slot `i` holds a value only where entry `i` is `some` (R66, log 3). -/
abbrev Slots := List (Option Llr)

/-- A stream port (R47). -/
structure Port where
  bound : Binding
  isOpen : Bool
  viewLen : Nat
  viewBase : Nat
  count : Nat
  deriving DecidableEq, Repr

/-- The sets of a symbol (R240), each a list of positions in ascending order (R233). -/
structure Sets where
  u : List Nat
  s : List Nat
  r : List Nat
  a : List Nat
  c1 : List Nat
  c2 : List Nat
  sch : List Nat
  rsv : List Nat
  deriving DecidableEq, Repr

/-- The bits still to place: `rvd_rem`, `ack_rem`, `csi1_rem`, `csi2_rem` (R46). -/
structure Budgets where
  rvdRem : Nat
  ackRem : Nat
  csi1Rem : Nat
  csi2Rem : Nat
  deriving DecidableEq, Repr

/-- The demultiplexer of a bundle (R46). `sets` is `none` where no symbol's sets are held (R240, R248). -/
structure Demux where
  symBuf : Slots
  symCnt : Nat
  bud : Budgets
  csi2State : Csi2State
  csi2Bits : Nat
  sets : Option Sets
  deriving DecidableEq, Repr

/-- A UCI field of a bundle: its port (R47), its buffer and its results (R48). -/
structure FieldUnit where
  port : Port
  llr : Slots
  status : UciStatus
  payload : List Bool
  deriving DecidableEq, Repr

/-- A front-end context (R45 to R48). -/
structure Bundle where
  phase : Phase
  tag : BitVec 8
  tbx : Nat
  d : Descriptor
  l : Nat
  cwPos : Nat
  chanEst : ChanEst
  nvSum : ExactReal
  nvCnt : Nat
  evmAcc : EvmAcc
  dm : Demux
  demuxIn : Port
  ack : FieldUnit
  csi1 : FieldUnit
  csi2 : FieldUnit
  /-- MODEL: the soft bits DEMOD_SYMBOL is working on (R384, R385, R388; log 16). -/
  work : List Llr
  /-- MODEL: the G_CSI2 budget, which R205 names as the CSI2 port's (log 17). -/
  gCsi2 : Nat
  /-- MODEL: which reception the grid input holds for this PDU (R102; log 13). -/
  grid : Nat
  deriving DecidableEq, Repr

/-- The segmentation record of R50, its fields in the order and with the names of spec/42_cb_decoder.md R282 to R289. -/
structure Seg where
  c : Nat
  lTb : Nat
  lCb : Nat
  b : Nat
  kPrime : Nat
  kb : Nat
  zc : Nat
  k : Nat
  f : Nat
  n : Nat
  ncb : Nat
  k0 : Nat
  e : List Nat
  off : List Nat
  deriving DecidableEq, Repr

/-- A transport-block decoder context (R50), with its SCH port. -/
structure TbCtx where
  fsm : TbFsm
  counter : Nat
  tag : BitVec 8
  handle : Nat
  tbDest : Nat
  tbs : Nat
  bg : BaseGraph
  rv : Nat
  qm : Nat
  nl : Nat
  newData : Bool
  lbrmEn : Bool
  nref : Nat
  maxIter : Nat
  earlyStop : Bool
  g : Nat
  stage : Slots
  seg : Seg
  iter : List Nat
  decoded : List Bool
  tbCrcOk : Bool
  sch : Port
  deriving DecidableEq, Repr

/-- The geometry a HARQ buffer was built for (R51, R332). -/
structure Geometry where
  tbs : Nat
  bg : BaseGraph
  c : Nat
  ncb : Nat
  deriving DecidableEq, Repr

/-- One codeblock's part of a HARQ buffer (R51). -/
structure CbBuf where
  llr : List Llr
  data : List Bool
  crcOk : Bool
  deriving DecidableEq, Repr

/-- A HARQ handle (R51). A codeblock missing from `cbs` has no specified contents (R66). -/
structure Harq where
  hstate : HState
  geo : Geometry
  cbs : List CbBuf
  deriving DecidableEq, Repr

/-- MODEL: the DMEM range of an accepted PDU until its SCH_RESULT is popped (R114, R512; log 12). A PDU on the pool-empty
path has an empty one, so that SCH_RESULT records and windows of one tag keep step. -/
structure Window where
  tag : BitVec 8
  base : Nat
  len : Nat
  /-- The PDU's SCH_RESULT has been emitted. -/
  joined : Bool
  /-- The bytes of the PDU's transport block, once it has been written to the range (R350: only where its CRC passed). -/
  block : List Byte
  /-- Addresses of the range that another writer has written since the PDU was accepted. -/
  touched : List Nat
  deriving DecidableEq, Repr

/-- MODEL: which head of the task queue this is, counted over the whole run, and how many tasks have completed ahead of it (R340,
R526; log 32). -/
structure QueueHead where
  number : Nat
  passed : Nat
  deriving DecidableEq, Repr

/-- The head after this one. -/
def QueueHead.next (h : QueueHead) : QueueHead := ⟨h.number + 1, 0⟩

/-- The same head, which one more task has passed. -/
def QueueHead.pass (h : QueueHead) : QueueHead := ⟨h.number, h.passed + 1⟩

/-- MODEL: a turn. `issue` stands for a producing unit issuing an internal operation, whose words the model decodes and
runs; no rule of the spec puts one into `sched` (log 8). -/
inductive Turn where
  | agent (a : Agent)
  | issue (ws : List Word)
  deriving DecidableEq, Repr

end Sys2Proof.Machine

namespace Sys2Proof.Machine

/-- The state of the block. -/
structure State where
  /-- The instance parameters, which no step changes (R8; log 1). -/
  params : Params
  /-- ERR.CODE and ERR.DETAIL (R35). -/
  errCode : BitVec 8
  errDetail : BitVec 24
  /-- IRQ_STATUS.CMDERR (R36). -/
  cmdErr : Bool
  /-- IRQ_ENABLE (R37). -/
  irqEnable : BitVec 3
  /-- DEC_CFG (R41). -/
  decCfg : Word
  /-- The descriptor registers (R42). -/
  desc : Descriptor
  /-- The command FIFO, head first (R60). -/
  cmdq : List Word
  /-- The event FIFO, head first (R61). -/
  evq : List Word
  /-- The task queue, head first (R62). -/
  taskq : List Word
  /-- MODEL: the head of the task queue (log 32). -/
  taskHead : QueueHead
  /-- The fatal state (R63). -/
  fatal : Bool
  bundles : List Bundle
  tbs : List TbCtx
  harq : List Harq
  /-- DMEM (R100) as (address, byte) pairs in rising order of address (log 11). -/
  dmem : List Host.Cell
  /-- MODEL: the output ranges not yet popped, the oldest first (log 12). -/
  windows : List Window
  /-- MODEL: payload words left of the event record HOST is popping (log 12). -/
  popLeft : Nat
  /-- MODEL: the command unit's latch of argument word a2 (R142, R334; log 14). -/
  a2 : Word
  /-- MODEL: what the last host load returned (log 10). -/
  rdata : Word
  /-- MODEL: the operation words recorded so far (R153; log 19). -/
  trace : List Word
  /-- MODEL: the turns already determined, and how many free turns have been taken (log 7). -/
  sched : List Turn
  turnNo : Nat
  /-- MODEL: how many free choices of DMEM races have been taken (log 12). -/
  freeNo : Nat
  /-- MODEL: how many PDUs have been accepted (log 13). -/
  gridNo : Nat
  /-- MODEL: the last turn was a hold: its step was not enabled (R15; log 9). -/
  held : Bool
  deriving DecidableEq, Repr

/-- A port at reset (R47). -/
def Port.reset : Port := ⟨.null, false, 0, 0, 0⟩

/-- A UCI field at reset (R48). -/
def FieldUnit.reset : FieldUnit := ⟨Port.reset, [], .unknown, []⟩

/-- A demultiplexer at reset: nothing of it is specified (R46; DESIGN CHOICE log 2, log 3). -/
def Demux.reset : Demux := ⟨[], 0, ⟨0, 0, 0, 0⟩, .off, 0, none⟩

/-- A bundle at reset: FREE, its ports closed, its UCI statuses UNKNOWN (R66); the rest DESIGN CHOICE (log 2). -/
def Bundle.reset : Bundle where
  phase := .free
  tag := 0
  tbx := 0
  d := Descriptor.zero
  l := 0
  cwPos := 0
  chanEst := 0
  nvSum := ⟨0, []⟩
  nvCnt := 0
  evmAcc := 0
  dm := Demux.reset
  demuxIn := Port.reset
  ack := FieldUnit.reset
  csi1 := FieldUnit.reset
  csi2 := FieldUnit.reset
  work := []
  gCsi2 := 0
  grid := 0

/-- A segmentation record at reset (DESIGN CHOICE log 2). -/
def Seg.zero : Seg := ⟨0, 0, 0, 0, 0, 0, 0, 0, 0, 0, 0, 0, [], []⟩

/-- A TB context at reset: IDLE, its port closed (R66); the rest DESIGN CHOICE (log 2). -/
def TbCtx.reset (p : Params) : TbCtx where
  fsm := .idle
  counter := 0
  tag := 0
  handle := 0
  tbDest := 0
  tbs := 0
  bg := .bg1
  rv := 0
  qm := 0
  nl := 0
  newData := false
  lbrmEn := false
  nref := 0
  maxIter := 0
  earlyStop := false
  g := 0
  stage := []
  seg := Seg.zero
  iter := List.replicate p.maxCb 0
  decoded := List.replicate p.maxCb false
  tbCrcOk := false
  sch := Port.reset

/-- A HARQ handle at reset: FREE, its contents unspecified (R66; `geo` DESIGN CHOICE log 2). -/
def Harq.reset : Harq := ⟨.free, ⟨0, .bg1, 0, 0⟩, []⟩

/-- The block of the instance `p` right after power-on reset (R66, R500). -/
def State.resetOf (p : Params) : State where
  params := p
  errCode := 0
  errDetail := 0
  cmdErr := false
  irqEnable := 0
  decCfg := 0
  desc := Descriptor.zero
  cmdq := []
  evq := []
  taskq := []
  taskHead := ⟨0, 0⟩
  fatal := false
  bundles := List.replicate p.nBundles Bundle.reset
  tbs := List.replicate p.nTbdec (TbCtx.reset p)
  harq := List.replicate p.nHarq Harq.reset
  dmem := []
  windows := []
  popLeft := 0
  a2 := 0
  rdata := 0
  trace := []
  sched := []
  turnNo := 0
  freeNo := 0
  gridNo := 0
  held := false

/-- The reference instance right after reset (R8; log 1). -/
def State.reset : State := State.resetOf Params.reference

end Sys2Proof.Machine
end

