-- ==== Sys2Proof/Machine/Operands.lean ====
section
/-!
DEFINITION. How operands are read: the fields of the descriptor and DEC_CFG registers (spec/10_state.md R41, R42), the
writable bits of each register, the ports a port operation can name (spec/30_encoding.md R146) and slots of the internal
memories.
-/

namespace Sys2Proof.Machine

/-! ### Descriptor fields (R42). Every field is an unsigned integer (R141). -/

/-- Bits `lo + len - 1` to `lo` of a register as an unsigned integer (R13). -/
def field (w : Word) (lo len : Nat) : Nat := (w.extractLsb' lo len).toNat

def bwpStart (d : Descriptor) : Nat := field d.bwp 0 9
def bwpSize (d : Descriptor) : Nat := field d.bwp 16 9
def prbStart (d : Descriptor) : Nat := field d.alloc 0 9
def nofPrb (d : Descriptor) : Nat := field d.alloc 16 9
def startSymb (d : Descriptor) : Nat := field d.symb 0 4
def nofSymb (d : Descriptor) : Nat := field d.symb 4 4
/-- DMRS_MASK as 14 bits: bit `l` is register bit `8 + l`. -/
def dmrsMask (d : Descriptor) : BitVec 14 := d.symb.extractLsb' 8 14
def dmrsVariant (d : Descriptor) : Nat := field d.dmrs 0 1
def dmrsType (d : Descriptor) : Nat := field d.dmrs 1 1
def cdmNoData (d : Descriptor) : Nat := field d.dmrs 2 2
def dmrsNId (d : Descriptor) : Nat := field d.dmrs 4 16
def dmrsNScid (d : Descriptor) : Nat := field d.dmrs 20 1
def qm (d : Descriptor) : Nat := field d.mod 0 4
def nl (d : Descriptor) : Nat := field d.mod 4 3
def tp (d : Descriptor) : Nat := field d.mod 7 1
def rv (d : Descriptor) : Nat := field d.mod 8 2
def baseGraph (d : Descriptor) : BaseGraph := if d.mod.getLsbD 10 then .bg2 else .bg1
def newData (d : Descriptor) : Bool := d.mod.getLsbD 11
def dcEn (d : Descriptor) : Nat := field d.mod 12 1
def dcSc (d : Descriptor) : Nat := field d.mod 16 12
def tbSize (d : Descriptor) : Nat := field d.tbs 0 24
def lbrmEn (d : Descriptor) : Bool := d.lbrm.getLsbD 0
def nref (d : Descriptor) : Nat := field d.lbrm 8 16
def harqHandle (d : Descriptor) : Nat := field d.harq 0 8
def cInit (d : Descriptor) : BitVec 31 := d.scr.extractLsb' 0 31
def ackBits (d : Descriptor) : Nat := field d.ack 0 11
def gAck (d : Descriptor) : Nat := field d.gAck 0 24
def gAckRvd (d : Descriptor) : Nat := field d.gAckRvd 0 24
def csi1Bits (d : Descriptor) : Nat := field d.csi1 0 11
def csi2En (d : Descriptor) : Nat := field d.csi1 16 1
def gCsi1 (d : Descriptor) : Nat := field d.gCsi1 0 24
def gUlsch (d : Descriptor) : Nat := field d.gUlsch 0 24
def tbDest (d : Descriptor) : Nat := d.tbDest.toNat
def nrx (d : Descriptor) : Nat := field d.nrx 0 4

/-- DEC_CFG.MAX_ITER (R41). -/
def maxIter (dc : Word) : Nat := field dc 0 8

/-- DEC_CFG.EARLY_STOP (R41). -/
def earlyStop (dc : Word) : Bool := dc.getLsbD 8

/-- `bpr`, the soft bits of one RE position: QM·NL (R17, R231). -/
def bpr (d : Descriptor) : Nat := qm d * nl d

/-! ### Writable bits (R41, R42): reserved bits read 0 and ignore writes -/

/-- The writable bits of DEC_CFG (R41). -/
def decCfgMask : Word := 0x000001FF#32

/-- The writable bits of the descriptor registers (R42). -/
def descMask : Descriptor where
  bwp := 0x01FF01FF#32
  alloc := 0x01FF01FF#32
  symb := 0x003FFFFF#32
  dmrs := 0x001FFFFF#32
  mod := 0x0FFF1FFF#32
  tbs := 0x00FFFFFF#32
  lbrm := 0x00FFFF01#32
  harq := 0x000000FF#32
  scr := 0x7FFFFFFF#32
  ack := 0x000007FF#32
  gAck := 0x00FFFFFF#32
  gAckRvd := 0x00FFFFFF#32
  csi1 := 0x000107FF#32
  gCsi1 := 0x00FFFFFF#32
  gUlsch := 0x00FFFFFF#32
  tbDest := 0xFFFFFFFF#32
  nrx := 0x0000000F#32

/-- The descriptor register at a byte offset (R42). -/
def descRead (d : Descriptor) (off : BitVec 12) : Option Word :=
  match off with
  | 0x080#12 => some d.bwp
  | 0x084#12 => some d.alloc
  | 0x088#12 => some d.symb
  | 0x08C#12 => some d.dmrs
  | 0x090#12 => some d.mod
  | 0x094#12 => some d.tbs
  | 0x098#12 => some d.lbrm
  | 0x09C#12 => some d.harq
  | 0x0A0#12 => some d.scr
  | 0x0A4#12 => some d.ack
  | 0x0A8#12 => some d.gAck
  | 0x0AC#12 => some d.gAckRvd
  | 0x0B0#12 => some d.csi1
  | 0x0B4#12 => some d.gCsi1
  | 0x0B8#12 => some d.gUlsch
  | 0x0BC#12 => some d.tbDest
  | 0x0C0#12 => some d.nrx
  | _ => none

/-- A write of `v` to the descriptor register at a byte offset: only its writable bits are stored (R42). -/
def descWrite (d : Descriptor) (off : BitVec 12) (v : Word) : Descriptor :=
  match off with
  | 0x080#12 => { d with bwp := v &&& descMask.bwp }
  | 0x084#12 => { d with alloc := v &&& descMask.alloc }
  | 0x088#12 => { d with symb := v &&& descMask.symb }
  | 0x08C#12 => { d with dmrs := v &&& descMask.dmrs }
  | 0x090#12 => { d with mod := v &&& descMask.mod }
  | 0x094#12 => { d with tbs := v &&& descMask.tbs }
  | 0x098#12 => { d with lbrm := v &&& descMask.lbrm }
  | 0x09C#12 => { d with harq := v &&& descMask.harq }
  | 0x0A0#12 => { d with scr := v &&& descMask.scr }
  | 0x0A4#12 => { d with ack := v &&& descMask.ack }
  | 0x0A8#12 => { d with gAck := v &&& descMask.gAck }
  | 0x0AC#12 => { d with gAckRvd := v &&& descMask.gAckRvd }
  | 0x0B0#12 => { d with csi1 := v &&& descMask.csi1 }
  | 0x0B4#12 => { d with gCsi1 := v &&& descMask.gCsi1 }
  | 0x0B8#12 => { d with gUlsch := v &&& descMask.gUlsch }
  | 0x0BC#12 => { d with tbDest := v &&& descMask.tbDest }
  | 0x0C0#12 => { d with nrx := v &&& descMask.nrx }
  | _ => d

/-! ### Ports (R146) -/

/-- A stream port: its unit and, for a field port, its field. -/
inductive PortRef where
  | demuxIn (b : Nat)
  | sch (t : Nat)
  | uci (f : UciField) (b : Nat)
  deriving DecidableEq, Repr

/-- The port that PORT and OWNER name (R145, R146): ids 5 to 15 are reserved. -/
def PortRef.ofId (id : BitVec 4) (owner : BitVec 8) : Option PortRef :=
  if id = 0#4 then some (.demuxIn owner.toNat)
  else if id = 1#4 then some (.sch owner.toNat)
  else if id = 2#4 then some (.uci .ack owner.toNat)
  else if id = 3#4 then some (.uci .csi1 owner.toNat)
  else if id = 4#4 then some (.uci .csi2 owner.toNat)
  else none

/-- PORT of a port (R146). -/
def PortRef.id : PortRef → BitVec 4
  | .demuxIn _ => 0#4
  | .sch _ => 1#4
  | .uci .ack _ => 2#4
  | .uci .csi1 _ => 3#4
  | .uci .csi2 _ => 4#4

/-- OWNER of a port (R145). -/
def PortRef.owner : PortRef → BitVec 8
  | .demuxIn b => BitVec.ofNat 8 b
  | .sch t => BitVec.ofNat 8 t
  | .uci _ b => BitVec.ofNat 8 b

/-- A UCI field of a bundle. -/
def Bundle.uci (x : Bundle) : UciField → FieldUnit
  | .ack => x.ack
  | .csi1 => x.csi1
  | .csi2 => x.csi2

/-- A bundle with one UCI field changed. -/
def Bundle.modUci (x : Bundle) (f : UciField) (g : FieldUnit → FieldUnit) : Bundle :=
  match f with
  | .ack => { x with ack := g x.ack }
  | .csi1 => { x with csi1 := g x.csi1 }
  | .csi2 => { x with csi2 := g x.csi2 }

/-- The payload size `P_f` of a UCI field (R244, R436). -/
def Bundle.payloadBits (x : Bundle) : UciField → Nat
  | .ack => ackBits x.d
  | .csi1 => csi1Bits x.d
  | .csi2 => x.dm.csi2Bits

/-- The encoded-bit budget `G_f` of a UCI field (R205). -/
def Bundle.encodedBits (x : Bundle) : UciField → Nat
  | .ack => gAck x.d
  | .csi1 => gCsi1 x.d
  | .csi2 => x.gCsi2

/-- The bits `rem_f` a UCI field still has to get (R244). -/
def Bundle.remBits (x : Bundle) : UciField → Nat
  | .ack => x.dm.bud.ackRem
  | .csi1 => x.dm.bud.csi1Rem
  | .csi2 => x.dm.bud.csi2Rem

/-! ### Slots of an internal memory (R101) -/

/-- The values of a list of slots, if every one holds a value. -/
def allSome : List (Option α) → Option (List α)
  | [] => some []
  | none :: _ => none
  | some a :: rest =>
    match allSome rest with
    | some l => some (a :: l)
    | none => none

/-- The values of slots `i` to `i + n - 1`, if every one holds a value. -/
def Slots.get? (m : Slots) (i n : Nat) : Option (List Llr) :=
  if i + n ≤ m.length then allSome ((m.drop i).take n) else none

/-- Slots `i`, `i + 1`, ... set to `xs`, slots before `i` that do not exist yet holding no value. -/
def Slots.put (m : Slots) (i : Nat) (xs : Slots) : Slots :=
  m.take i ++ List.replicate (i - m.length) none ++ xs ++ m.drop (i + xs.length)

/-- Slots `i`, `i + 1`, ... set to the values `ls`. -/
def Slots.write (m : Slots) (i : Nat) (ls : List Llr) : Slots := Slots.put m i (ls.map some)

/-- Slots `i` to `i + n - 1` left without a value. -/
def Slots.forget (m : Slots) (i n : Nat) : Slots := Slots.put m i (List.replicate n none)

end Sys2Proof.Machine
end

