-- ==== Sys2Proof/Machine/Numeric.lean ====
section
/-!
DEFINITION. The block's arithmetic on soft bits, bits and event words: saturation (spec/00_scope.md R14), the scrambling
sequence (spec/44_demod.md R383), the CRC calculator (spec/42_cb_decoder.md R285), payload packing
(spec/30_encoding.md R163) and the SINR word (R393).
-/

namespace Sys2Proof.Machine

/-! ### Soft bits -/

/-- `sat(v)` of R14 as a soft bit: the exact integer clamped to ±LLR_MAX. -/
def sat (p : Params) (v : Int) : Llr :=
  BitVec.ofInt 8 (max (-(p.llrMax : Int)) (min (p.llrMax : Int) v))

/-- `x · sgn(b)` (R14): a soft bit, negated where the bit is 1. -/
def signBy (b : Bool) (x : Llr) : Llr := if b then -x else x

/-! ### The scrambling sequence (R383) -/

/-- `k n`, with `n` evaluated before `k` starts: so a long loop is evaluated step by step (`evalNat n k = k n`). -/
def evalNat (n : Nat) (k : Nat → α) : α :=
  match n with
  | 0 => k 0
  | m + 1 => k (m + 1)

/-- The same for a bit vector. -/
def evalBits (x : BitVec w) (k : BitVec w → α) : α := evalNat x.toNat (fun n => k (BitVec.ofNat w n))

/-- One shift of `x1`: `x1[n+31] = x1[n+3] + x1[n]`. Bit `i` of the register is `x1[n+i]`. -/
def goldStep1 (x : BitVec 31) : BitVec 31 :=
  BitVec.cons (x.getLsbD 3 ^^ x.getLsbD 0) (x.extractLsb' 1 30)

/-- One shift of `x2`: `x2[n+31] = x2[n+3] + x2[n+2] + x2[n+1] + x2[n]`. -/
def goldStep2 (x : BitVec 31) : BitVec 31 :=
  BitVec.cons (x.getLsbD 3 ^^ x.getLsbD 2 ^^ x.getLsbD 1 ^^ x.getLsbD 0) (x.extractLsb' 1 30)

/-- Both registers after `n` shifts. -/
def goldAdvance : Nat → BitVec 31 × BitVec 31 → BitVec 31 × BitVec 31
  | 0, st => st
  | n + 1, st => evalBits (goldStep1 st.1) (fun a => evalBits (goldStep2 st.2) (fun b => goldAdvance n (a, b)))

/-- The next `n` bits of the sum of the two registers' outputs. -/
def goldBits : Nat → BitVec 31 × BitVec 31 → List Bool
  | 0, _ => []
  | n + 1, st =>
    (st.1.getLsbD 0 ^^ st.2.getLsbD 0) ::
      evalBits (goldStep1 st.1) (fun a => evalBits (goldStep2 st.2) (fun b => goldBits n (a, b)))

/-- The registers for codeword position `p`: `Nc + p` shifts from `x1 = 1, 0, ..., 0` and `x2 = C_INIT` (R383). -/
def goldAt (cinit : BitVec 31) (p : Nat) : BitVec 31 × BitVec 31 :=
  goldAdvance (1600 + p) (1#31, cinit)

/-- `c[p]` (R383). -/
def scrambleBit (cinit : BitVec 31) (p : Nat) : Bool :=
  let st := goldAt cinit p
  st.1.getLsbD 0 ^^ st.2.getLsbD 0

/-- `c[p .. p + n)` (R383). -/
def scrambleBits (cinit : BitVec 31) (p n : Nat) : List Bool := goldBits n (goldAt cinit p)

/-- DESCRAMBLE's loop (R384): soft bits at codeword positions `p`, `p + 1`, ... negated where `c` is 1. -/
def descrambleLlrs (cinit : BitVec 31) (p : Nat) (ls : List Llr) : List Llr :=
  List.zipWith signBy (scrambleBits cinit p ls.length) ls

/-- The placeholder correction of a soft bit at codeword position `p` of a field of `P` payload bits (R242). -/
def place (cinit : BitVec 31) (qm payload : Nat) (x : Llr) (p : Nat) : Llr :=
  let kq := p % qm
  if kq < payload then x
  else signBy (scrambleBit cinit (p - kq + payload - 1)) (signBy (scrambleBit cinit p) x)

/-! ### CRC (R285) -/

/-- The CRC kinds of R285. -/
inductive CrcKind where
  | crc16
  | crc24a
  | crc24b
  deriving DecidableEq, Repr

/-- The length L of a CRC (R285). -/
def CrcKind.len : CrcKind → Nat
  | .crc16 => 16
  | .crc24a => 24
  | .crc24b => 24

/-- The generator `g` of a CRC (R285). -/
def CrcKind.poly : CrcKind → Nat
  | .crc16 => 0x1021
  | .crc24a => 0x864CFB
  | .crc24b => 0x800063

/-- One bit of the CRC calculator: the register `reg` of L bits takes the bit `b` (R285). -/
def crcStep (k : CrcKind) (reg : Nat) (b : Bool) : Nat :=
  let fb := reg.testBit (k.len - 1) ^^ b
  let sh := (2 * reg) % 2 ^ k.len
  if fb then sh ^^^ k.poly else sh

/-- The register after the bits `s`, from `reg`. -/
def crcFrom (k : CrcKind) : List Bool → Nat → Nat
  | [], reg => reg
  | b :: s, reg => evalNat (crcStep k reg b) (crcFrom k s)

/-- `crc_rem(kind, s)`, from a zero register (R285). -/
def crcRem (k : CrcKind) (s : List Bool) : Nat := crcFrom k s 0

/-- `crc_pass(kind, s)` (R285). -/
def crcPass (k : CrcKind) (s : List Bool) : Bool := crcRem k s == 0

/-! ### Bits in bytes and words -/

/-- The number whose binary digits are the bits, the first the most significant. -/
def bitsToNat (bits : List Bool) : Nat := bits.foldl (fun acc b => 2 * acc + b.toNat) 0

/-- Byte `i` of a bit payload, the payload's bit `8 i` the most significant (R104). -/
def payloadByte (bits : List Bool) (i : Nat) : Byte :=
  BitVec.ofNat 8 (bitsToNat ((List.range 8).map (fun j => bits.getD (8 * i + j) false)))

/-- Word `i` of a bit payload: bit `32 i + j` is word bit `31 - j`, unused low bits are 0 (R163). -/
def payloadWord (bits : List Bool) (i : Nat) : Word :=
  BitVec.ofNat 32 (bitsToNat ((List.range 32).map (fun j => bits.getD (32 * i + j) false)))

/-- The `⌈n/32⌉` words of a bit payload (R163). -/
def payloadWords (bits : List Bool) : List Word :=
  (List.range ((bits.length + 31) / 32)).map (payloadWord bits)

/-! ### Sums of real numbers (R393; log 5) -/

/-- The sum of no numbers. -/
def ExactReal.zero : ExactReal := ⟨0, []⟩

/-- The exact sum of two numbers. -/
def ExactReal.add (a b : ExactReal) : ExactReal := ⟨a.rational + b.rational, a.coded ++ b.coded⟩

/-- The exact sum of a list of numbers. -/
def ExactReal.sum (vs : List ExactReal) : ExactReal := vs.foldr ExactReal.add ExactReal.zero

/-! ### SINR as binary32 (R393)

`sinr_db(v)` is `−10·log10(v)` rounded to the nearest binary32, ties to even. A positive binary32 of bit pattern `n` is
`f32Units n / 2^149`, so every midpoint of two neighbours is a multiple `m` of `2^-150`, and rounding needs no more of `v` than
its comparisons with the powers `10^(k / (10·2^150))`, for `k = -m` where `v ≤ 1` and `k = m` above. -/

/-- The value of the non-negative binary32 pattern `n` in units of `2^-149`; pattern 0x7F800000 counts as `2^128`, the value
that overflow rounds at (log 6). -/
def f32Units (n : Nat) : Nat :=
  if n < 2 ^ 23 then n else (2 ^ 23 + n % 2 ^ 23) * 2 ^ (n / 2 ^ 23 - 1)

/-- Whether a number rounds to a pattern above `n`: it lies above the midpoint of patterns `n` and `n + 1`, or on it with `n` odd
(ties to even). `c m` compares the number with `m / 2^150`. -/
def roundsAbove (c : Nat → Ordering) (n : Nat) : Bool :=
  let o := c (f32Units n + f32Units (n + 1))
  decide (o = .gt) || (decide (o = .eq) && n % 2 == 1)

/-- The greatest pattern, at most 0x7F800000, that the number which `c` compares rounds to or above, found bit by bit from bit
`i - 1` down. -/
def roundSearch (c : Nat → Ordering) : Nat → Nat → Nat
  | 0, acc => acc
  | i + 1, acc =>
    let next := acc + 2 ^ i
    if next ≤ 0x7F800000 ∧ roundsAbove c (next - 1) = true then roundSearch c i next
    else roundSearch c i acc

/-- `sinr_db(v)` as binary32 (R393), where `c k` compares `v` with `10^(k / (10·2^150))`: negative above 1, never `−0` (D56). -/
def sinrWord (c : Int → Ordering) : Word :=
  if c 0 = .gt then
    let m := roundSearch (fun k => c k) 31 0
    if m = 0 then 0#32 else BitVec.ofNat 32 (0x80000000 + m)
  else BitVec.ofNat 32 (roundSearch (fun k => (c (-k)).swap) 31 0)

/-- The comparison of a positive rational with `10^(k / e)`: of its power `e` with `10^k`, in natural numbers. -/
def comparePower (e : Nat) (v : Rat) : Int → Ordering
  | .ofNat k => compare (v.num.toNat ^ e) (10 ^ k * v.den ^ e)
  | .negSucc k => compare (10 ^ (k + 1) * v.num.toNat ^ e) (v.den ^ e)

/-- `sinr_db(v)` of a rational (R393): +∞ for 0. -/
def sinrDb (v : Rat) : Word := if v ≤ 0 then 0x7F800000#32 else sinrWord (comparePower (10 * 2 ^ 150) v)

/-- `sinr_db` of the mean of `n` numbers whose sum is `sum` (R393; log 5). -/
def sinrMean (sum : ExactReal) (n : Nat) : Word :=
  if sum.coded = [] then sinrDb (sum.rational / n)
  else
    match Config.codedReals with
    | some r => sinrWord (r.compareMean sum n)
    | none => sinrDb ((sum.rational + sum.coded.length) / n)

/-- The binary32 word `w` kept one of a real number: no NaN is (R392, R396; log 25). -/
def realWord (w : Word) : Word := if w.extractLsb' 23 8 = 0xFF#8 ∧ w.extractLsb' 0 23 ≠ 0#23 then 0#32 else w

end Sys2Proof.Machine
end

