-- ==== Sys2Proof/Machine/Partition.lean ====
section
/-!
DEFINITION. Resource-element positions and their partition (spec/41_demux.md R230 to R243, R260; spec/44_demod.md R381,
R382). Every set is a list of positions in ascending order (R233).
-/

namespace Sys2Proof.Machine

/-! ### Positions (R231, R381, R382) -/

/-- Symbol `l` carries DM-RS (R42: register bit `8 + l`). -/
def isDmrs (d : Descriptor) (l : Nat) : Bool := (dmrsMask d).getLsbD l

/-- Symbol `l` is allocated (R424). -/
def allocated (d : Descriptor) (l : Nat) : Bool := decide (startSymb d ≤ l ∧ l < startSymb d + nofSymb d)

/-- The symbol after the last allocated one (R248). -/
def endSymb (d : Descriptor) : Nat := startSymb d + nofSymb d

/-- `k_lo`, the lowest allocated subcarrier (R231). -/
def kLo (d : Descriptor) : Nat := 12 * (bwpStart d + prbStart d)

/-- The allocated subcarriers, in ascending order (R231). -/
def allocatedSubcarriers (d : Descriptor) : List Nat := List.range' (kLo d) (12 * nofPrb d)

/-- The CDM group of subcarrier `k` (R381): low-PAPR DM-RS has the type-1 pattern. -/
def cdmGroup (d : Descriptor) (k : Nat) : Nat :=
  if dmrsVariant d = 1 ∨ dmrsType d = 0 then k % 2 else (k % 6) / 2

/-- CDM groups without data: 2 for low-PAPR DM-RS (R381). -/
def cdmGroupsNoData (d : Descriptor) : Nat := if dmrsVariant d = 1 then 2 else cdmNoData d

/-- The subcarriers of the positions of symbol `l`: position `i` is entry `i` (R231, R381). -/
def subcarriers (d : Descriptor) (l : Nat) : List Nat :=
  if isDmrs d l then (allocatedSubcarriers d).filter (fun k => decide (cdmGroupsNoData d ≤ cdmGroup d k))
  else allocatedSubcarriers d

/-- `M(l)`, the number of positions of symbol `l` (R231). -/
def nofPositions (d : Descriptor) (l : Nat) : Nat := (subcarriers d l).length

/-- The soft bits of symbol `l`: `M(l)·bpr` (R231). -/
def symbolBits (d : Descriptor) (l : Nat) : Nat := nofPositions d l * bpr d

/-- Subcarrier `k` is the DC subcarrier, which counts only without transform precoding (R382). -/
def isDc (d : Descriptor) (k : Nat) : Bool := decide (dcEn d = 1 ∧ tp d = 0 ∧ k = dcSc d)

/-! ### Selection and eligibility (R234, R236) -/

/-- `sel(X, rem)` (R234): the selected positions and the bits they take. -/
def sel (bpr : Nat) (xs : List Nat) (rem : Nat) : List Nat × Nat :=
  let n := xs.length
  if n = 0 ∨ rem = 0 then ([], 0)
  else if n * bpr ≤ rem then (xs, n * bpr)
  else
    let stride := n * bpr / rem
    let cnt := (rem + bpr - 1) / bpr
    ((List.range cnt).filterMap (fun j => xs[j * stride]?), rem)

/-- The positions of `xs` that are not in `ys`, in order. -/
def minus (xs ys : List Nat) : List Nat := xs.filter (fun x => !ys.contains x)

/-- HARQ-ACK eligibility of symbol `l` (R236). -/
def ackEligible (p : Params) (d : Descriptor) (l : Nat) : Bool :=
  !isDmrs d l &&
    match p.ackStart with
    | .doc => true
    | .ts38212 => (List.range l).any (fun m => allocated d m && isDmrs d m)

/-! ### The partition (R235, R237, R238) -/

/-- The budgets `dm_init` sets (R235). -/
def initialBudgets (d : Descriptor) : Budgets where
  rvdRem := if 1 ≤ ackBits d ∧ ackBits d ≤ 2 then gAckRvd d else 0
  ackRem := if 0 < ackBits d then gAck d else 0
  csi1Rem := if 0 < csi1Bits d then gCsi1 d else 0
  csi2Rem := 0

/-- The UCI candidates `U(l)` (R232, R233). -/
def uciCandidates (d : Descriptor) (l : Nat) : List Nat :=
  if isDmrs d l then [] else List.range (nofPositions d l)

/-- Step 1 of R237: the reserved positions and the bits they take. -/
def stepReserve (p : Params) (d : Descriptor) (l : Nat) (bud : Budgets) (u : List Nat) : List Nat × Nat :=
  if 0 < ackBits d ∧ ackEligible p d l = true ∧ 0 < bud.rvdRem then sel (bpr d) u bud.rvdRem else ([], 0)

/-- Step 2 of R237: a HARQ-ACK of more than 2 bits. -/
def stepLongAck (p : Params) (d : Descriptor) (l : Nat) (bud : Budgets) (u r : List Nat) : List Nat × Nat :=
  if 2 < ackBits d ∧ ackEligible p d l = true ∧ 0 < bud.ackRem then sel (bpr d) (minus u r) bud.ackRem else ([], 0)

/-- Step 3 of R237: CSI Part 1. -/
def stepCsi1 (d : Descriptor) (bud : Budgets) (u r : List Nat) : List Nat × Nat :=
  if 0 < bud.csi1Rem then sel (bpr d) (minus u r) bud.csi1Rem else ([], 0)

/-- Step 6 of R237: a HARQ-ACK of 1 or 2 bits, from the reserved positions. -/
def stepShortAck (d : Descriptor) (bud : Budgets) (r : List Nat) : List Nat × Nat :=
  if 1 ≤ ackBits d ∧ ackBits d ≤ 2 ∧ 0 < bud.ackRem then sel (bpr d) r bud.ackRem else ([], 0)

/-- `partition_a` (R237): the sets before steps 4 and 5, and the budgets left. -/
def partitionA (p : Params) (d : Descriptor) (l : Nat) (bud : Budgets) : Sets × Budgets :=
  let u0 := uciCandidates d l
  let s0 := List.range (nofPositions d l)
  let (r, kr) := stepReserve p d l bud u0
  let (aLong, ka) := stepLongAck p d l bud u0 r
  let u1 := minus u0 aLong
  let s1 := minus s0 aLong
  let (c1, kc) := stepCsi1 d bud u1 r
  let u2 := minus u1 c1
  let s2 := minus s1 c1
  let (aShort, ks) := stepShortAck d bud r
  let a := if 2 < ackBits d then aLong else aShort
  (⟨u2, s2, r, a, c1, [], [], minus r a⟩,
    { bud with rvdRem := bud.rvdRem - kr, ackRem := bud.ackRem - ka - ks, csi1Rem := bud.csi1Rem - kc })

/-- `partition_b` (R238): steps 4 and 5; `configured` says that CSI Part 2 has a size. -/
def partitionB (d : Descriptor) (configured : Bool) (x : Sets) (bud : Budgets) : Sets × Budgets :=
  let (c2, k) :=
    if configured = true ∧ 0 < bud.csi2Rem then sel (bpr d) (minus x.u x.r) bud.csi2Rem else ([], 0)
  let s := minus x.s c2
  ({ x with s := s, c2 := c2, sch := minus s x.r }, { bud with csi2Rem := bud.csi2Rem - k })

/-- The positions whose soft bits `emit_sch` publishes (R249), in ascending order. -/
def schPositions (p : Params) (d : Descriptor) (l : Nat) (x : Sets) : List Nat :=
  match p.rsvdForward with
  | .toUlsch => (List.range (nofPositions d l)).filter (fun i => x.sch.contains i || x.r.contains i)
  | .discard => x.sch

/-! ### The plan (R260) -/

/-- The bits each field gets over a whole PDU (R260). -/
structure Plan where
  rvd : Nat
  ack : Nat
  csi1 : Nat
  csi2 : Nat
  sch : Nat
  deriving DecidableEq, Repr

/-- One symbol of the plan: the partition on counts alone. -/
def planSymbol (p : Params) (d : Descriptor) (configured : Bool) (l : Nat) (st : Plan × Budgets) : Plan × Budgets :=
  let (x, bud1) := partitionA p d l st.2
  let (y, bud2) := partitionB d configured x bud1
  ({ rvd := st.1.rvd + (st.2.rvdRem - bud1.rvdRem)
     ack := st.1.ack + (st.2.ackRem - bud1.ackRem)
     csi1 := st.1.csi1 + (st.2.csi1Rem - bud1.csi1Rem)
     csi2 := st.1.csi2 + (bud1.csi2Rem - bud2.csi2Rem)
     sch := st.1.sch + (schPositions p d l y).length * bpr d }, bud2)

/-- `plan(d, g2)` (R260): CSI Part 2 counts as configured with `g2` bits from the first symbol where `g2 > 0`. -/
def plan (p : Params) (d : Descriptor) (g2 : Nat) : Plan :=
  ((List.range' (startSymb d) (nofSymb d)).foldl (fun st l => planSymbol p d (decide (0 < g2)) l st)
    (⟨0, 0, 0, 0, 0⟩, { initialBudgets d with csi2Rem := g2 })).1

/-! ### Extraction (R241, R242, R249) -/

/-- `bits(X)` (R241): the soft bits of the positions `xs` with their codeword positions, read from the symbol buffer; `none`
where a slot holds no value. -/
def positionBits (d : Descriptor) (buf : Slots) (cwPos : Nat) (xs : List Nat) : Option (List (Llr × Nat)) :=
  match allSome (xs.map (fun i => Slots.get? buf (i * bpr d) (bpr d))) with
  | some groups =>
    some ((List.zip groups xs).flatMap
      (fun gi => gi.1.zip ((List.range (bpr d)).map (fun k => cwPos + gi.2 * bpr d + k))))
  | none => none

/-- What `emit_field` publishes (R244): the bits, corrected where the field has 1 or 2 payload bits (R242). -/
def fieldLlrs (d : Descriptor) (payload : Nat) (bits : List (Llr × Nat)) : List Llr :=
  bits.map (fun xp => if payload ≤ 2 then place (cInit d) (qm d) payload xp.1 xp.2 else xp.1)

/-- What `emit_sch` publishes (R249): under TO_ULSCH, the soft bits of HARQ-ACK positions as erasures. -/
def schLlrs (p : Params) (d : Descriptor) (buf : Slots) (l : Nat) (x : Sets) : Option (List Llr) :=
  match allSome ((schPositions p d l x).map (fun i =>
      match Slots.get? buf (i * bpr d) (bpr d) with
      | some ls => some (if p.rsvdForward = .toUlsch ∧ x.a.contains i = true then ls.map (fun _ => 0#8) else ls)
      | none => none)) with
  | some groups => some groups.flatten
  | none => none

end Sys2Proof.Machine
end

