-- ==== Sys2Proof/Machine/Segment.lean ====
section
/-!
DEFINITION. Codeblock segmentation, rate dematching, the LDPC input and the iteration loop (spec/42_cb_decoder.md).
-/

namespace Sys2Proof.Machine

/-! ### Segmentation (R282 to R284) -/

/-- `L_TB`, the transport-block CRC length (R282). -/
def tbCrcLen (tbs : Nat) : Nat := if 3824 < tbs then 24 else 16

/-- `B = A + L_TB` (R282). -/
def tbWithCrc (tbs : Nat) : Nat := tbs + tbCrcLen tbs

/-- `Kcb` (R282). -/
def kcb : BaseGraph → Nat
  | .bg1 => 8448
  | .bg2 => 3840

/-- `L_CB` (R282). -/
def cbCrcLen (tbs : Nat) (bg : BaseGraph) : Nat := if tbWithCrc tbs ≤ kcb bg then 0 else 24

/-- `C`, the codeblock count (R282). -/
def nofCodeblocks (tbs : Nat) (bg : BaseGraph) : Nat :=
  if tbWithCrc tbs ≤ kcb bg then 1 else (tbWithCrc tbs + (kcb bg - 24) - 1) / (kcb bg - 24)

/-- `B'` (R282). -/
def bitsWithCbCrcs (tbs : Nat) (bg : BaseGraph) : Nat :=
  tbWithCrc tbs + nofCodeblocks tbs bg * cbCrcLen tbs bg

/-- `K'` (R282). -/
def kPrime (tbs : Nat) (bg : BaseGraph) : Nat := bitsWithCbCrcs tbs bg / nofCodeblocks tbs bg

/-- `Kb` (R283). -/
def kbOf (tbs : Nat) : BaseGraph → Nat
  | .bg1 => 22
  | .bg2 => if 640 < tbWithCrc tbs then 10 else if 560 < tbWithCrc tbs then 9 else if 192 < tbWithCrc tbs then 8 else 6

/-- The lifting set (R284). -/
def liftingSet : List Nat :=
  [2, 3, 4, 5, 6, 7, 8, 9, 10, 11, 12, 13, 14, 15, 16, 18, 20, 22, 24, 26, 28, 30, 32, 36, 40, 44, 48, 52, 56, 60, 64, 72,
    80, 88, 96, 104, 112, 120, 128, 144, 160, 176, 192, 208, 224, 240, 256, 288, 320, 352, 384]

/-- `Zc`, the least lifting size with `Kb·Zc ≥ K'` (R283); one exists for every transport block (R283). -/
def liftingSize (tbs : Nat) (bg : BaseGraph) : Nat :=
  (liftingSet.find? (fun z => decide (kPrime tbs bg ≤ kbOf tbs bg * z))).getD 384

/-- `K`, the message length with filler bits (R283). -/
def messageLen (tbs : Nat) (bg : BaseGraph) : Nat :=
  match bg with
  | .bg1 => 22 * liftingSize tbs bg
  | .bg2 => 10 * liftingSize tbs bg

/-- `N`, the full length (R283). -/
def fullLen (tbs : Nat) (bg : BaseGraph) : Nat :=
  match bg with
  | .bg1 => 66 * liftingSize tbs bg
  | .bg2 => 50 * liftingSize tbs bg

/-- `Ncb` (R283). -/
def bufferLen (tbs : Nat) (bg : BaseGraph) (lbrm : Bool) (nref : Nat) : Nat :=
  if lbrm then min (fullLen tbs bg) nref else fullLen tbs bg

/-- `geometry(A, bg, lbrm_en, nref)` (R332). -/
def geometry (tbs : Nat) (bg : BaseGraph) (lbrm : Bool) (nref : Nat) : Geometry :=
  ⟨tbs, bg, nofCodeblocks tbs bg, bufferLen tbs bg lbrm nref⟩

/-- `k0` (R287). -/
def startPosition (bg : BaseGraph) (rv ncb zc : Nat) : Nat :=
  match bg with
  | .bg1 => ((if rv = 0 then 0 else if rv = 1 then 17 else if rv = 2 then 33 else 56) * ncb / (66 * zc)) * zc
  | .bg2 => ((if rv = 0 then 0 else if rv = 1 then 13 else if rv = 2 then 25 else 43) * ncb / (50 * zc)) * zc

/-- `E[r]` (R288), with `bpr = NL·QM` and `q = g / bpr`. -/
def rateMatchedLen (c bpr g r : Nat) : Nat :=
  let q := g / bpr
  if r + q % c + 1 ≤ c then bpr * (q / c) else bpr * ((q + c - 1) / c)

/-- `off[r] = E[0] + ... + E[r-1]` (R289). -/
def rateMatchedOffset (c bpr g r : Nat) : Nat := ((List.range r).map (rateMatchedLen c bpr g)).sum

/-- `segment(A, bg, g, QM, NL, RV, LBRM_EN, NREF)` (R281). -/
def segment (tbs : Nat) (bg : BaseGraph) (g qm nl rv : Nat) (lbrm : Bool) (nref : Nat) : Seg :=
  let c := nofCodeblocks tbs bg
  let zc := liftingSize tbs bg
  let ncb := bufferLen tbs bg lbrm nref
  { c := c
    lTb := tbCrcLen tbs
    lCb := cbCrcLen tbs bg
    b := tbWithCrc tbs
    kPrime := kPrime tbs bg
    kb := kbOf tbs bg
    zc := zc
    k := messageLen tbs bg
    f := messageLen tbs bg - kPrime tbs bg
    n := fullLen tbs bg
    ncb := ncb
    k0 := startPosition bg rv ncb zc
    e := (List.range c).map (rateMatchedLen c (nl * qm) g)
    off := (List.range c).map (rateMatchedOffset c (nl * qm) g) }

/-- `cb_crc_kind(seg)` (R286, R306). -/
def cbCrcKind (seg : Seg) : CrcKind :=
  if 1 < seg.c then .crc24b else if seg.lTb = 16 then .crc16 else .crc24a

/-! ### Rate dematching (R291 to R294) -/

/-- Buffer position `m` is a filler position (R290). -/
def isFiller (seg : Seg) (m : Nat) : Bool :=
  decide (seg.kPrime - 2 * seg.zc ≤ m ∧ m < seg.k - 2 * seg.zc)

/-- Bit de-interleaving (R291): `e[i·(E/QM) + j] = f[i + j·QM]`. -/
def deinterleave (qm : Nat) (f : List Llr) : List Llr :=
  (List.range qm).flatMap (fun i =>
    (List.range (f.length / qm)).map (fun j => f.getD (i + j * qm) 0#8))

/-- The non-filler buffer positions in the order the walk of R292 meets them, from `k0` once around the buffer. -/
def walkPositions (seg : Seg) : List Nat :=
  ((List.range seg.ncb).map (fun j => (seg.k0 + j) % seg.ncb)).filter (fun m => !isFiller seg m)

/-- One saturating combine of R292: soft bit `x` added at buffer position `m`. -/
def combineAt (p : Params) (buf : List Llr) (m : Nat) (x : Llr) : List Llr :=
  buf.modify m (fun y => sat p (y.toInt + x.toInt))

/-- `dematch_combine(buf, e)` (R292): `e[k]` lands at the k-th position of the walk, which repeats its positions each time
around. -/
def dematchCombine (p : Params) (seg : Seg) (buf : List Llr) (e : List Llr) : List Llr :=
  let ps := walkPositions seg
  e.zipIdx.foldl (fun b xk =>
    match ps[xk.2 % ps.length]? with
    | some m => combineAt p b m xk.1
    | none => b) buf

/-- The buffer with every filler position at LLR_FILLER (R293). -/
def fillFillers (p : Params) (seg : Seg) (buf : List Llr) : List Llr :=
  buf.mapIdx (fun m x => if isFiller seg m then BitVec.ofInt 8 p.llrFiller else x)

/-- `rate_dematch` on the buffer of a codeblock (R294): `f` are the new soft bits. -/
def rateDematch (p : Params) (seg : Seg) (qm : Nat) (isNew : Bool) (buf : List Llr) (f : List Llr) : List Llr :=
  let start := if isNew then buf.map (fun _ => 0#8) else buf
  fillFillers p seg (dematchCombine p seg start (deinterleave qm f))

/-! ### The LDPC input and loop (R295, R296) -/

/-- The LDPC input `x[0 .. N + 2·Zc)` (R295). -/
def ldpcInput (seg : Seg) (buf : List Llr) : List Llr :=
  List.replicate (2 * seg.zc) 0#8 ++ (List.range seg.n).map (fun m => if m < seg.ncb then buf.getD m 0#8 else 0#8)

/-- The hard bits `c[0 .. K)` after exactly `k` iterations (R295, R12). -/
def ldpcBits (bg : BaseGraph) (seg : Seg) (x : List Llr) (k : Nat) : List Bool :=
  (List.range seg.k).map (Config.ldpc bg seg.zc x k)

/-- The hard bits after `k` iterations pass the codeblock CRC over `c[0 .. K')` (R296). -/
def ldpcPasses (bg : BaseGraph) (seg : Seg) (x : List Llr) (k : Nat) : Bool :=
  crcPass (cbCrcKind seg) ((ldpcBits bg seg x k).take seg.kPrime)

/-- `ldpc_loop` (R296): the iteration count on a pass, and the hard bits. -/
def ldpcLoop (bg : BaseGraph) (seg : Seg) (early : Bool) (maxIt : Nat) (x : List Llr) : Option Nat × List Bool :=
  if early then
    match (List.range' 1 maxIt).find? (ldpcPasses bg seg x) with
    | some k => (some k, ldpcBits bg seg x k)
    | none => (none, ldpcBits bg seg x maxIt)
  else (if ldpcPasses bg seg x maxIt then some maxIt else none, ldpcBits bg seg x maxIt)

end Sys2Proof.Machine
end

