-- ==== Sys2Proof/Machine/Flags.lean ====
section
/-!
DEFINITION. The block's status: the read-only host registers, the interrupt and what is free or in flight
(spec/10_state.md R31 to R40, R64; spec/45_sequencer.md R440; spec/60_exceptions.md R470).
-/

namespace Sys2Proof.Machine

/-- One bit as a bit vector. -/
def flag (b : Bool) : BitVec 1 := BitVec.ofBool b

/-! ### What is free and what is in flight -/

/-- The bundles in phase FREE (R34, R45). -/
def State.freeBundles (s : State) : Nat := s.bundles.countP (fun x => decide (x.phase = .free))

/-- The TB contexts in state IDLE (R34, R50). -/
def State.freeTbdec (s : State) : Nat := s.tbs.countP (fun t => decide (t.fsm = .idle))

/-- The FREE bundle of least index (R420). -/
def State.firstFreeBundle (s : State) : Option Nat := s.bundles.findIdx? (fun x => decide (x.phase = .free))

/-- The IDLE TB context of least index (R420). -/
def State.firstIdleTb (s : State) : Option Nat := s.tbs.findIdx? (fun t => decide (t.fsm = .idle))

/-- The bundle that is not FREE and has this tag (R256, R258, R440). -/
def State.bundleOfTag (s : State) (tag : BitVec 8) : Option Nat :=
  s.bundles.findIdx? (fun x => decide (x.phase ≠ .free) && decide (x.tag = tag))

/-- The tag is in flight (R440). -/
def State.tagInFlight (s : State) (tag : BitVec 8) : Bool :=
  s.bundles.any (fun x => decide (x.phase ≠ .free) && decide (x.tag = tag))
    || s.tbs.any (fun t => decide (t.fsm ≠ .idle) && decide (t.tag = tag))

/-! ### The queues' flags (R34) -/

/-- STATUS.CMDQ_FULL (R34; log 22). -/
def State.cmdqFull (s : State) : Bool := decide (s.params.cmdqDepth ≤ s.cmdq.length)

/-- STATUS.EVQ_NONEMPTY (R34). -/
def State.evqNonempty (s : State) : Bool := !s.evq.isEmpty

/-- STATUS.CMD_PENDING (R34). -/
def State.cmdPending (s : State) : Bool := !s.cmdq.isEmpty

/-- STATUS.CMDQ_FREE (R34). -/
def State.cmdqFree (s : State) : Nat := min 65535 (s.params.cmdqDepth - s.cmdq.length)

/-! ### The computed registers -/

/-- ID (R31). -/
def idWord : Word := 0x50470007#32

/-- PARAM0 to PARAM5 (R32). DESIGN CHOICE: PARAM3 shows SOFTBUF_LLRS modulo 2^32, which `Params.legal` keeps the value below
(log 31), and PARAM4 shows `MAX_UCI_G / 16` modulo 2^16 (log 26). -/
def paramWord (p : Params) : Nat → Word
  | 0 =>
    0#1 ++ BitVec.ofNat 4 p.nrxMax ++ BitVec.ofNat 3 p.nlMax ++ BitVec.ofNat 8 p.taskqDepth ++ BitVec.ofNat 8 p.nCbe
      ++ BitVec.ofNat 4 p.nTbdec ++ BitVec.ofNat 4 p.nBundles
  | 1 => 0#1 ++ BitVec.ofNat 7 p.llrMax ++ BitVec.ofNat 8 p.maxCb ++ 0#7 ++ BitVec.ofNat 9 p.nHarq
  | 2 => BitVec.ofInt 8 p.llrFiller ++ BitVec.ofNat 24 p.maxCwBits
  | 3 => BitVec.ofNat 32 p.softbufLlrs
  | 4 => BitVec.ofNat 16 (p.maxUciG / 16) ++ BitVec.ofNat 16 p.cmdqDepth
  | 5 =>
    0#14 ++ flag (decide (p.ackStart = .ts38212)) ++ flag (decide (p.rsvdForward = .discard))
      ++ BitVec.ofNat 16 p.evqDepth
  | _ => 0#32

/-- STATUS (R34). -/
def State.statusWord (s : State) : Word :=
  BitVec.ofNat 16 s.cmdqFree ++ BitVec.ofNat 4 s.freeTbdec ++ BitVec.ofNat 4 s.freeBundles ++ 0#4
    ++ flag s.cmdPending ++ flag s.evqNonempty ++ flag s.cmdqFull ++ flag s.fatal

/-- ERR (R35). -/
def State.errWord (s : State) : Word := s.errDetail ++ s.errCode

/-- The three defined bits of IRQ_STATUS: FATAL, CMDERR, EVT (R36). -/
def State.irqStatus (s : State) : BitVec 3 := flag s.fatal ++ flag s.cmdErr ++ flag s.evqNonempty

/-- The interrupt output (R37, R470). -/
def State.irq (s : State) : Bool := decide (s.irqStatus &&& s.irqEnable ≠ 0#3)

/-- EVT_COUNT (R40). -/
def State.evtCount (s : State) : Word := 0#16 ++ BitVec.ofNat 16 s.evq.length

end Sys2Proof.Machine
end

