-- ==== Sys2Proof/Machine/Memory.lean ====
section
/-!
DEFINITION. DMEM (spec/20_memory.md R100, R103) and its races (R114, spec/70_reset_and_hazards.md R512).
DMEM is a list of (address, byte) pairs, addresses strictly rising. An unlisted address has no stored value: neither HOST
nor the block has written it since power-on (log 11). So no entry can equal what an unlisted address reads as.
-/

namespace Sys2Proof.Machine

/-- The byte stored at an address, if one is. -/
def Memory.read : List Host.Cell → Nat → Option Byte
  | [], _ => none
  | (b, w) :: m, a => if a = b then some w else Memory.read m a

/-- One byte stored at an address. -/
def Memory.write : List Host.Cell → Nat → Byte → List Host.Cell
  | [], a, v => [(a, v)]
  | (b, w) :: m, a, v =>
    if a < b then (a, v) :: (b, w) :: m
    else if a = b then (a, v) :: m
    else (b, w) :: Memory.write m a v

/-- The canonical form: addresses strictly rising and below 2^32. -/
def Memory.wf : List Host.Cell → Bool
  | [] => true
  | [(a, _)] => decide (a < 2 ^ 32)
  | (a, _) :: (b, w) :: m => decide (a < b) && Memory.wf ((b, w) :: m)

/-- The byte a read of DMEM gives outside every race (log 11). -/
def State.dmemByte (s : State) (a : Nat) : Byte := (Memory.read s.dmem a).getD (Config.dmemInit a)

/-- The address lies in the window's range. -/
def Window.contains (w : Window) (a : Nat) : Bool := decide (w.base ≤ a ∧ a < w.base + w.len)

/-- A write at `a` by another writer than the window's own PDU is noted in a window whose PDU has not joined yet. -/
def Window.touch (w : Window) (a : Nat) : Window :=
  if w.contains a && !w.joined && !w.touched.contains a then { w with touched := a :: w.touched } else w

/-- Some unpopped output range contains the address: a host access to it races (R114). -/
def State.raced (s : State) (a : Nat) : Bool := s.windows.any (fun w => w.contains a)

/-- The byte of the window's transport block at the address, where that block stands there. -/
def Window.blockByte (w : Window) (a : Nat) : Option Byte := if w.contains a then w.block[a - w.base]? else none

/-- The bytes that the transport blocks of unpopped output ranges have at the address. -/
def State.blockBytes (s : State) (a : Nat) : List Byte := s.windows.filterMap (fun w => w.blockByte a)

/-- A host read of DMEM (R114): inside an unpopped output range it gives any byte. -/
def State.dmemRead (s : State) (a : Nat) : State :=
  if s.raced a then { s with rdata := 0#24 ++ Config.raceByte s.freeNo, freeNo := s.freeNo + 1 }
  else { s with rdata := 0#24 ++ s.dmemByte a }

/-- The byte that race number `n` leaves where the writers of `v` and of the bytes `bs` race (R114; log 12). -/
def raceByteOf (n : Nat) (v : Byte) (bs : List Byte) : Byte := (v :: bs).getD (Config.racePick n % (bs.length + 1)) v

/-- A host write of DMEM (R114): where PDUs' transport blocks stand that are not popped yet, the byte is a block's or the new
value; anywhere else the write takes effect, and before a join it is noted, because it races the join's write. -/
def State.dmemWrite (s : State) (a : Nat) (v : Byte) : State :=
  let noted : List Window := s.windows.map (fun w => w.touch a)
  if s.blockBytes a = [] then { s with windows := noted, dmem := Memory.write s.dmem a v }
  else
    { s with
      windows := noted
      dmem := Memory.write s.dmem a (raceByteOf s.freeNo v (s.blockBytes a))
      freeNo := s.freeNo + 1 }

/-- The index of the window of the PDU that is joining: the oldest one of its tag whose SCH_RESULT is not out. -/
def State.joiningWindow (s : State) (tag : BitVec 8) : Option Nat :=
  s.windows.findIdx? (fun w => decide (w.tag = tag) && !w.joined)

/-- Another writer wrote the address since the PDU of window number `own` was accepted. -/
def State.contested (s : State) (own : Option Nat) (a : Nat) : Bool :=
  match own with
  | some i => (s.windows[i]?.map (fun w => w.touched.contains a)).getD false
  | none => false

/-- `MemWrite(addr, 1, v)` (R103) of the PDU whose window is number `own`: the byte is the old or the new value where another
writer wrote the address since the PDU was accepted (R114, R512). The write is noted in the other PDUs' windows. -/
def State.memWrite (s : State) (own : Option Nat) (a : Nat) (v : Byte) : State :=
  let noted : List Window := s.windows.mapIdx (fun i w => if some i = own then w else w.touch a)
  if s.contested own a then
    { s with
      windows := noted
      dmem := if Config.raceTakesNew s.freeNo then Memory.write s.dmem a v else s.dmem
      freeNo := s.freeNo + 1 }
  else { s with windows := noted, dmem := Memory.write s.dmem a v }

/-- The window of a PDU whose SCH_RESULT has been emitted, with the bytes of its transport block as far as they are written. -/
def Window.join (block : List Byte) (w : Window) : Window := { w with joined := true, block := block }

/-- The window that closes when HOST pops a SCH_RESULT header of this tag (R114): the oldest one of the tag. -/
def closeWindow (tag : BitVec 8) : List Window → List Window
  | [] => []
  | w :: ws => if w.tag = tag then ws else w :: closeWindow tag ws

end Sys2Proof.Machine
end

