-- ==== Sys2Proof/Machine/Ops.lean ====
section
/-!
DEFINITION. The operations every unit shares: the error codes (spec/60_exceptions.md R461), how a step ends, taking an
exception (R462, R465) and the return from one (R500), events (spec/30_encoding.md R160), the units, and the parts of the
stream-port contract that touch no consumer (spec/40_stream.md R205 to R208).
-/

namespace Sys2Proof.Machine

/-! ### Error codes (R461) -/

/-- The command error codes: those of validation and those of the command unit. -/
inductive CmdCode where
  | allocExceedsBwp
  | dmrsUnsupported
  | lbrmZero
  | dmrsMaskInconsistent
  | badModulation
  | badLayers
  | tpConstraint
  | badSymbolAlloc
  | badTbs
  | budgetNotMultiple
  | ackConfig
  | uciConfig
  | badHarqHandle
  | harqGeometryMismatch
  | softbufCapacity
  | badDecCfg
  | ncbTooSmall
  | ulschBudget
  | tagInUse
  | badDc
  | cbBudgetTooSmall
  | illegalOpcode
  | reservedFieldNonzero
  | cmdqOverflow
  | noSuchPdu
  | harqBusy
  | csi2NotExpected
  deriving DecidableEq, Repr

/-- The number of a command error code (R461). -/
def CmdCode.code : CmdCode → BitVec 8
  | .allocExceedsBwp => 0x01#8
  | .dmrsUnsupported => 0x02#8
  | .lbrmZero => 0x03#8
  | .dmrsMaskInconsistent => 0x04#8
  | .badModulation => 0x05#8
  | .badLayers => 0x06#8
  | .tpConstraint => 0x07#8
  | .badSymbolAlloc => 0x08#8
  | .badTbs => 0x09#8
  | .budgetNotMultiple => 0x0A#8
  | .ackConfig => 0x0B#8
  | .uciConfig => 0x0C#8
  | .badHarqHandle => 0x0D#8
  | .harqGeometryMismatch => 0x0E#8
  | .softbufCapacity => 0x0F#8
  | .badDecCfg => 0x10#8
  | .ncbTooSmall => 0x11#8
  | .ulschBudget => 0x12#8
  | .tagInUse => 0x13#8
  | .badDc => 0x14#8
  | .cbBudgetTooSmall => 0x15#8
  | .illegalOpcode => 0x20#8
  | .reservedFieldNonzero => 0x21#8
  | .cmdqOverflow => 0x22#8
  | .noSuchPdu => 0x23#8
  | .harqBusy => 0x24#8
  | .csi2NotExpected => 0x25#8

/-- The fatal codes. -/
inductive FatalCode where
  | publishAfterClose
  | doubleClose
  | staleView
  | doubleNotify
  | harqOverwriteLocked
  | uciNotifierTwice
  | harqNoDisposition
  | softbitCountMismatch
  | cwOverflow
  | stateViolation
  deriving DecidableEq, Repr

/-- The number of a fatal code (R461). -/
def FatalCode.code : FatalCode → BitVec 8
  | .publishAfterClose => 0x80#8
  | .doubleClose => 0x81#8
  | .staleView => 0x82#8
  | .doubleNotify => 0x83#8
  | .harqOverwriteLocked => 0x84#8
  | .uciNotifierTwice => 0x85#8
  | .harqNoDisposition => 0x86#8
  | .softbitCountMismatch => 0x87#8
  | .cwOverflow => 0x88#8
  | .stateViolation => 0x89#8

/-! ### How an operation ends -/

/-- Why an operation does not run to its end: it holds (R15), raises a command error (R462), raises a fatal error (R465),
reads what holds no value (R66), or writes an address that does not exist (R100). -/
inductive Stop where
  | hold
  | cmdError (c : CmdCode) (detail : BitVec 24)
  | fatal (c : FatalCode)
  | unspecified
  | noAddress
  deriving DecidableEq, Repr

/-- An operation on the state; the error side carries no state, so every effect of an operation that stops is discarded. -/
abbrev Op := State → Except Stop State

/-- A condition an operation needs. -/
def check (c : Prop) [Decidable c] (e : Stop) : Except Stop Unit := if c then .ok () else .error e

/-- A value an operation needs. -/
def need (o : Option α) (e : Stop) : Except Stop α :=
  match o with
  | some a => .ok a
  | none => .error e

/-! ### Events (R160, R111) -/

/-- The header of an event record (R160). -/
def eventHeader (ty tag : BitVec 8) (len : Nat) : Word := ty ++ tag ++ BitVec.ofNat 16 len

/-- An event record: the header and its payload words (R160). -/
def eventRecord (ty tag : BitVec 8) (payload : List Word) : List Word := eventHeader ty tag payload.length :: payload

/-- The event FIFO has room for `w` words (R111). -/
def State.evtRoom (s : State) (w : Nat) : Bool := decide (s.evq.length + w ≤ s.params.evqDepth)

/-- `emit` (R15): a whole record, or a hold while there is no room (R111). -/
def emit (ws : List Word) : Op := fun s =>
  if s.evtRoom ws.length then .ok { s with evq := s.evq ++ ws } else .error .hold

/-! ### The trace (R153) -/

/-- What the trace records of an operation (R153): a host command's header word, the words of any other operation. -/
def traceWords : Instr → List Word
  | .configureCsiPart2 tag bits g2 gu => (encode (.configureCsiPart2 tag bits g2 gu)).take 1
  | i => encode i

/-- Words recorded (R153; log 19). -/
def State.log (s : State) (ws : List Word) : State := { s with trace := s.trace ++ ws }

/-- The words of an operation, recorded where it starts (R153; log 19). -/
def State.record (s : State) (i : Instr) : State := s.log (traceWords i)

/-! ### Taking an exception, and the return from one -/

/-- Entry to the fatal state (R465): `s` is the state before the step, less the words or the task the step removed. -/
def State.enterFatal (s : State) (c : FatalCode) : State :=
  { s with fatal := true, errCode := c.code, errDetail := 0#24 }

/-- ERR and IRQ_STATUS.CMDERR on a command error (R462). -/
def State.noteCmdError (s : State) (c : CmdCode) (detail : BitVec 24) : State :=
  { s with errCode := c.code, errDetail := detail, cmdErr := true }

/-- The ERROR record of a command error (R161, R462). -/
def errorRecord (tag : BitVec 8) (c : CmdCode) (detail : BitVec 24) : List Word :=
  eventRecord 0x05#8 tag [detail ++ c.code]

/-- `raise CmdError` of a CMDU step (R462): `none` while the event FIFO has no room for the record. -/
def State.raiseCmdError (s : State) (tag : BitVec 8) (c : CmdCode) (detail : BitVec 24) : Option State :=
  if s.evtRoom 2 then some { s.noteCmdError c detail with evq := s.evq ++ errorRecord tag c detail } else none

/-- The step has no effect and is not enabled (R15; log 9). -/
def State.hold (s : State) : State := { s with held := true }

/-- Taking an exception, the one place where an operation's stop becomes a state: a hold has no effect, a command error
reports and leaves the state as before the command (R462), a fatal error leaves the state as before the step and stops the
block (R465), a read of what holds no value (R66) and a write outside DMEM (R100) are model faults. `ws` are the words of the
step's top-level operation, recorded where the step is taken (R153; log 19); `tag` is the tag of the ERROR record. -/
def State.takeStop (s : State) (ws : List Word) (tag : BitVec 8) : Stop → Host.Outcome State Fault Refusal
  | .hold => .next s.hold
  | .cmdError c detail =>
    match (s.log ws).raiseCmdError tag c detail with
    | some t => .next t
    | none => .next s.hold
  | .fatal c => .next ((s.log ws).enterFatal c)
  | .unspecified => .fault .unspecifiedRead
  | .noAddress => .fault .noSuchAddress

/-- The operation `i`, whose effect is `op`, run as a step (R465: no step is enabled in the fatal state). `tag` is the tag its
ERROR record carries. -/
def runOp (i : Instr) (tag : BitVec 8) (op : Op) (s : State) : Host.Outcome State Fault Refusal :=
  if s.fatal then .next s.hold
  else
    match op s with
    | .ok t => .next t
    | .error e => s.takeStop (traceWords i) tag e

/-- The return from the fatal state is reset (R468, R500): every state element at its reset value; DMEM keeps what it held.
The model's own counters and record go on; the emptied task queue gets its next head. -/
def State.applyReset (s : State) : State :=
  { State.resetOf s.params with
    dmem := s.dmem
    trace := s.trace
    sched := s.sched
    taskHead := s.taskHead.next
    turnNo := s.turnNo
    freeNo := s.freeNo
    gridNo := s.gridNo }

/-! ### Units -/

/-- Bundle `b`; an operation that names no bundle of the instance is a state violation (R461; log 15). -/
def State.getBundle (s : State) (b : Nat) : Except Stop Bundle := need s.bundles[b]? (.fatal .stateViolation)

/-- TB context `t` (R151). -/
def State.getTb (s : State) (t : Nat) : Except Stop TbCtx := need s.tbs[t]? (.fatal .stateViolation)

/-- HARQ handle `h`. -/
def State.getHarq (s : State) (h : Nat) : Except Stop Harq := need s.harq[h]? (.fatal .stateViolation)

def State.modBundle (s : State) (b : Nat) (g : Bundle → Bundle) : State := { s with bundles := s.bundles.modify b g }

def State.modTb (s : State) (t : Nat) (g : TbCtx → TbCtx) : State := { s with tbs := s.tbs.modify t g }

def State.modHarq (s : State) (h : Nat) (g : Harq → Harq) : State := { s with harq := s.harq.modify h g }

/-! ### Ports (R47, R200) -/

/-- The port's state. -/
def State.port? (s : State) : PortRef → Option Port
  | .demuxIn b => s.bundles[b]?.map (fun x => x.demuxIn)
  | .sch t => s.tbs[t]?.map (fun x => x.sch)
  | .uci f b => s.bundles[b]?.map (fun x => (x.uci f).port)

def State.getPort (s : State) (r : PortRef) : Except Stop Port := need (s.port? r) (.fatal .stateViolation)

def State.modPort (s : State) (r : PortRef) (g : Port → Port) : State :=
  match r with
  | .demuxIn b => s.modBundle b (fun x => { x with demuxIn := g x.demuxIn })
  | .sch t => s.modTb t (fun x => { x with sch := g x.sch })
  | .uci f b => s.modBundle b (fun x => x.modUci f (fun u => { u with port := g u.port }))

/-- The soft bits the port's consumer can still take in the current logical unit (R205); `none` is unbounded (a port bound
NULL). A CLOSED port offers 0. -/
def State.offer (s : State) (r : PortRef) (p : Port) : Option Nat :=
  if p.isOpen = false then some 0
  else if p.bound = .null then none
  else
    match r with
    | .demuxIn b => some ((s.bundles[b]?.map (fun x => symbolBits x.d x.l - x.dm.symCnt)).getD 0)
    | .sch t => some ((s.tbs[t]?.map (fun x => x.g - p.count)).getD 0)
    | .uci f b => some ((s.bundles[b]?.map (fun x => x.encodedBits f - p.count)).getD 0)

/-- The offer covers `n` soft bits. -/
def offers (o : Option Nat) (n : Nat) : Bool :=
  match o with
  | none => true
  | some k => decide (n ≤ k)

/-- The slots a reserved view of `n` gets (R201). -/
def viewSize (o : Option Nat) (n : Nat) : Nat :=
  match o with
  | none => n
  | some k => min n k

/-- The consumer's storage of a port, with the slot at which the port's view begins (R210). -/
def State.storage? (s : State) : PortRef → Option (Slots × Nat)
  | .demuxIn b => s.bundles[b]?.map (fun x => (x.dm.symBuf, x.dm.symCnt))
  | .sch t => s.tbs[t]?.map (fun x => (x.stage, x.sch.viewBase))
  | .uci f b => s.bundles[b]?.map (fun x => ((x.uci f).llr, (x.uci f).port.viewBase))

/-- A change of the consumer's storage of a port. -/
def State.modStorage (s : State) (r : PortRef) (g : Slots → Slots) : State :=
  match r with
  | .demuxIn b => s.modBundle b (fun x => { x with dm := { x.dm with symBuf := g x.dm.symBuf } })
  | .sch t => s.modTb t (fun x => { x with stage := g x.stage })
  | .uci f b => s.modBundle b (fun x => x.modUci f (fun u => { u with llr := g u.llr }))

/-- The first `n` slots of the port's view (R202); nothing is read of a port bound NULL, which discards its data (R206). -/
def State.viewLlrs (s : State) (r : PortRef) (p : Port) (n : Nat) : Option (List Llr) :=
  if p.bound = .null then some (List.replicate n 0#8)
  else
    match s.storage? r with
    | some (m, i) => Slots.get? m i n
    | none => none

/-- A view of `n` slots whose contents are unspecified until the producer writes them (R201). -/
def State.openView (s : State) (r : PortRef) (p : Port) (n : Nat) : State :=
  let s1 := s.modPort r (fun q => { q with viewBase := q.count, viewLen := n })
  if p.bound = .null then s1
  else
    match s1.storage? r with
    | some (_, i) => s1.modStorage r (fun m => Slots.forget m i n)
    | none => s1

/-- The producer writes the soft bits `ls` into the port's view (R210). -/
def State.writeView (s : State) (r : PortRef) (ls : List Llr) : State :=
  match s.storage? r with
  | some (_, i) => s.modStorage r (fun m => Slots.write m i ls)
  | none => s

/-- `open_port(P, binding)` (R207). -/
def openPort (r : PortRef) (bound : Binding) : Op := fun s => do
  let p ← s.getPort r
  check (p.isOpen = false) (.fatal .stateViolation)
  .ok (s.modPort r (fun _ => ⟨bound, true, 0, 0, 0⟩))

/-- Rebinding a port to REAL (R208). -/
def rebindPort (r : PortRef) : Op := fun s => do
  let p ← s.getPort r
  check (p.isOpen = true ∧ p.count = 0 ∧ p.bound = .null) (.fatal .stateViolation)
  .ok (s.modPort r (fun q => { q with bound := .real }))

/-- RESERVE_VIEW (R201): the size of the view, and the state with it. -/
def reserveView (r : PortRef) (n : Nat) (s : State) : Except Stop (Nat × State) := do
  let p ← s.getPort r
  check (p.isOpen = true) (.fatal .publishAfterClose)
  check (n = 0 ∨ s.offer r p ≠ some 0) (.fatal .cwOverflow)
  .ok (viewSize (s.offer r p) n, s.openView r p (viewSize (s.offer r p) n))

/-- A consumer's action, which a port bound NULL does not have (R206). -/
def whenReal (p : Port) (op : Op) : Op := fun s => if p.bound = .null then .ok s else op s

/-- The consumer's action `op` on the published block `ls`: an empty block publishes nothing and has none (R202, R203). -/
def deliver (p : Port) (ls : List Llr) (op : Op) : Op := fun s => if ls = [] then .ok s else whenReal p op s

/-- PUBLISH_BLOCK in place (R202), with the consumer's action `consume` (R209). -/
def publishInPlaceWith (consume : PortRef → List Llr → Op) (r : PortRef) (n : Nat) : Op := fun s => do
  let p ← s.getPort r
  check (p.isOpen = true) (.fatal .publishAfterClose)
  check (n ≤ p.viewLen) (.fatal .staleView)
  let ls ← need (s.viewLlrs r p n) .unspecified
  let s1 := s.modPort r (fun q => { q with viewLen := 0 })
  let s2 ← deliver p ls (consume r ls) s1
  .ok (s2.modPort r (fun q => { q with count := q.count + n }))

/-- PUBLISH_BLOCK by copy (R203), with the consumer's action `consume` (R209). -/
def publishCopyWith (consume : PortRef → List Llr → Op) (r : PortRef) (ls : List Llr) : Op := fun s => do
  let p ← s.getPort r
  check (p.isOpen = true) (.fatal .publishAfterClose)
  check (offers (s.offer r p) ls.length = true) (.fatal .cwOverflow)
  let s1 := s.modPort r (fun q => { q with viewLen := 0 })
  let s2 ← deliver p ls (consume r ls) s1
  .ok (s2.modPort r (fun q => { q with count := q.count + ls.length }))

/-- CLOSE (R204), with the consumer's action `consume` (R209). -/
def closeWith (consume : PortRef → Op) (r : PortRef) : Op := fun s => do
  let p ← s.getPort r
  check (p.isOpen = true) (.fatal .doubleClose)
  let s1 := s.modPort r (fun q => { q with isOpen := false, viewLen := 0 })
  whenReal p (consume r) s1

/-- `consumer_publish` of SCH and of the UCI field ports (R209): the soft bits go into the consumer's buffer at `count`. -/
def storeAtCount (r : PortRef) (ls : List Llr) : Op := fun s => do
  let p ← s.getPort r
  .ok (s.modStorage r (fun m => Slots.write m p.count ls))

end Sys2Proof.Machine
end

