-- ==== Sys2Proof/Machine/TbDecoder.lean ====
section
/-!
DEFINITION. The transport-block decoder (spec/43_tb_decoder.md): TB_CONFIGURE, SET_NOF_SOFTBITS, CLOSE_COMMIT, CB_COMPLETE,
TB_JOIN and HARQ_FREE.
-/

namespace Sys2Proof.Machine

/-! ### The HARQ lease (R331) -/

/-- A codeblock buffer as a new-data lease leaves it (R331). -/
def zeroedCb (geo : Geometry) : CbBuf :=
  ⟨List.replicate geo.ncb 0#8, List.replicate (kPrime geo.tbs geo.bg) false, false⟩

/-- The geometry TB context `x` needs (R332). -/
def TbCtx.geometry (x : TbCtx) : Geometry := Machine.geometry x.tbs x.bg x.lbrmEn x.nref

/-- A handle as the lease of R331 leaves it: zeroed where it was FREE or the data is new, LOCKED in any case. -/
def Harq.lease (h : Harq) (geo : Geometry) (isNew : Bool) : Harq :=
  if h.hstate = .free ∨ isNew = true then ⟨.locked, geo, List.replicate geo.c (zeroedCb geo)⟩
  else { h with hstate := .locked }

/-- `harq_lease(t)` (R331). -/
def harqLease (t : Nat) : Op := fun s => do
  let x ← s.getTb t
  let h ← s.getHarq x.handle
  check (h.hstate ≠ .locked) (.fatal .harqOverwriteLocked)
  .ok (s.modHarq x.handle (fun h => h.lease x.geometry x.newData))

/-- TB context `t` is IDLE while its handle is LOCKED and no other context at work holds the handle (R348; log 18). -/
def State.undisposed (s : State) (t : Nat) : Bool :=
  match s.tbs[t]? with
  | none => false
  | some x =>
    decide (x.fsm = .idle)
      && decide ((s.harq[x.handle]?.map (fun h => h.hstate)) = some .locked)
      && !(s.tbs.any (fun y => decide (y.fsm ≠ .idle) && decide (y.handle = x.handle)))

/-- The assertion of R348. -/
def assertDisposed (t : Nat) : Op := fun s => do
  check (s.undisposed t = false) (.fatal .harqNoDisposition)
  .ok s

/-! ### TB_CONFIGURE and SET_NOF_SOFTBITS (R330, R334) -/

/-- The TB context with the bundle's descriptor and DEC_CFG latched (R330). -/
def TbCtx.latch (x : TbCtx) (tag : BitVec 8) (d : Descriptor) (dc : Word) : TbCtx :=
  { x with
    tag := tag
    handle := harqHandle d
    tbDest := Machine.tbDest d
    tbs := tbSize d
    bg := baseGraph d
    rv := Machine.rv d
    qm := Machine.qm d
    nl := Machine.nl d
    newData := Machine.newData d
    lbrmEn := Machine.lbrmEn d
    nref := Machine.nref d
    maxIter := Machine.maxIter dc
    earlyStop := Machine.earlyStop dc
    g := gUlsch d }

/-- TB_CONFIGURE (R330) of TB context `t` for bundle `b`. -/
def tbConfigure (t b : Nat) : Op := fun s0 => do
  let s := s0.record (.tbConfigure (BitVec.ofNat 8 t))
  let x ← s.getTb t
  check (x.fsm = .idle) (.fatal .stateViolation)
  let s ← assertDisposed t s
  let y ← s.getBundle b
  let s ← harqLease t (s.modTb t (fun x => x.latch y.tag y.d s.decCfg))
  .ok (s.modTb t (fun x => { x with tbCrcOk := false, fsm := .collecting }))

/-- The bundle a TB_CONFIGURE word stands for (log 14): the FREE bundle of least index that is latched to context `t`. -/
def State.bundleConfiguring (s : State) (t : Nat) : Option Nat :=
  s.bundles.findIdx? (fun x => decide (x.phase = .free) && decide (x.tbx = t))

/-- `e_ok(t, g)` (R334): every codeblock gets at least one modulation symbol. -/
def TbCtx.eOk (x : TbCtx) (g : Nat) : Bool := decide (nofCodeblocks x.tbs x.bg ≤ g / (x.nl * x.qm))

/-- SET_NOF_SOFTBITS (R334). -/
def setNofSoftbits (t g : Nat) : Op := fun s0 => do
  let s := s0.record (.setNofSoftbits (BitVec.ofNat 8 t))
  let x ← s.getTb t
  check (x.fsm = .collecting) (.fatal .stateViolation)
  check (x.sch.count ≤ g) (.fatal .cwOverflow)
  .ok (s.modTb t (fun x => { x with g := g }))

/-! ### The join (R346, R347, R350) -/

/-- What TB_JOIN finds: whether the transport block is good, its bits, and whether every CRC flag is reset (R347). -/
structure JoinResult where
  ok : Bool
  bits : List Bool
  clearFlags : Bool
  deriving DecidableEq, Repr

/-- The first `n` bits of a data cache, if it holds that many (R66). -/
def readBits (n : Nat) (data : List Bool) : Option (List Bool) :=
  if n ≤ data.length then some (data.take n) else none

/-- The combine policy of R346 on the codeblocks `cbs` of a transport block of `a` bits; `none` where a cache lacks bits. -/
def joinResult (a kp : Nat) (cbs : List CbBuf) : Option JoinResult :=
  match cbs with
  | [cb] =>
    match readBits a cb.data with
    | some bits => some ⟨cb.crcOk, bits, false⟩
    | none => none
  | _ =>
    if cbs.all (fun cb => cb.crcOk) then
      match allSome (cbs.map (fun cb => readBits (kp - 24) cb.data)) with
      | some parts =>
        match readBits a parts.flatten with
        | some bits => some ⟨crcPass .crc24a parts.flatten, bits, !crcPass .crc24a parts.flatten⟩
        | none => none
      | none => none
    else some ⟨false, [], false⟩

/-- The iteration counts of the codeblocks LDPC-decoded in this attempt (R345). -/
def TbCtx.decodedIters (x : TbCtx) : List Nat :=
  ((List.range x.seg.c).filter (fun r => x.decoded.getD r false)).map (fun r => x.iter.getD r 0)

/-- The least of a list of counts, 0 for none (R164). -/
def minOf : List Nat → Nat
  | [] => 0
  | a :: l => l.foldl min a

/-- The greatest of a list of counts, 0 for none (R164). -/
def maxOf (l : List Nat) : Nat := l.foldl max 0

/-- The SCH_RESULT record (R161, R164). -/
def schResult (tag : BitVec 8) (ok : Bool) (nofCb : Nat) (iters : List Nat) : List Word :=
  eventRecord 0x04#8 tag
    [BitVec.ofNat 16 nofCb ++ 0#15 ++ flag ok,
      BitVec.ofNat 16 iters.length ++ BitVec.ofNat 8 (maxOf iters) ++ BitVec.ofNat 8 (minOf iters),
      BitVec.ofNat 32 iters.sum]

/-- The `n` bytes of a transport block (R350). -/
def tbBytes (n : Nat) (bits : List Bool) : List Byte := (List.range n).map (payloadByte bits)

/-- `write_tb(t, a)` (R350): the bytes of the transport block, in rising order of address. -/
def writeTb (own : Option Nat) (dest nbytes : Nat) (bits : List Bool) (s : State) : State :=
  (List.range nbytes).foldl (fun s i => s.memWrite own (dest + i) (payloadByte bits i)) s

/-- The handle after a join (R346): flags reset where the policy of R347 says so, released or unlocked. -/
def Harq.dispose (h : Harq) (j : JoinResult) (c : Nat) : Harq :=
  { h with
    hstate := if j.ok then .free else .held
    cbs := if j.clearFlags then h.cbs.mapIdx (fun r cb => if r < c then { cb with crcOk := false } else cb) else h.cbs }

/-- The codeblocks of a transport block: the first `c` buffers of its handle, if it has that many (R66). -/
def Harq.codeblocks (h : Harq) (c : Nat) : Option (List CbBuf) :=
  if c ≤ h.cbs.length then some (h.cbs.take c) else none

/-- The joining PDU's window is noted as joined, with the bytes that the join wrote (R114, R350; log 12). -/
def State.markJoined (s : State) (own : Option Nat) (block : List Byte) : State :=
  { s with
    windows := match own with
      | some i => s.windows.modify i (Window.join block)
      | none => s.windows }

/-- TB_JOIN (R346). -/
def tbJoin (t : Nat) : Op := fun s0 => do
  let s := s0.record (.tbJoin (BitVec.ofNat 8 t))
  let x ← s.getTb t
  check ((x.fsm = .decoding ∨ x.fsm = .decoded) ∧ x.counter = 0) (.fatal .doubleNotify)
  let h ← s.getHarq x.handle
  let cbs ← need (h.codeblocks x.seg.c) .unspecified
  let j ← need (joinResult x.tbs x.seg.kPrime cbs) .unspecified
  check (j.ok = false ∨ x.tbDest + x.tbs / 8 ≤ 2 ^ 32) .noAddress
  let own := s.joiningWindow x.tag
  let s1 := if j.ok then writeTb own x.tbDest (x.tbs / 8) j.bits s else s
  let s2 := s1.modHarq x.handle (fun h => h.dispose j x.seg.c)
  let s3 ← emit (schResult x.tag j.ok x.seg.c x.decodedIters) s2
  assertDisposed t ((s3.markJoined own (if j.ok then tbBytes (x.tbs / 8) j.bits else [])).modTb t
    (fun x => { x with tbCrcOk := j.ok, fsm := .idle }))

/-! ### Completion and commit (R343, R338) -/

/-- CB_COMPLETE (R343) of codeblock `r`. -/
def cbComplete (t r : Nat) : Op := fun s0 => do
  let s := s0.record (.cbComplete (BitVec.ofNat 8 t) (BitVec.ofNat 16 r))
  let x ← s.getTb t
  check (x.counter ≠ 0) (.fatal .doubleNotify)
  let s1 := s.modTb t (fun x => { x with counter := x.counter - 1 })
  if x.counter - 1 ≠ 0 then .ok s1
  else
    match x.fsm with
    | .decoding => tbJoin t s1
    | .collecting => .ok (s1.modTb t (fun x => { x with fsm := .decoded }))
    | .idle => .error (.fatal .stateViolation)
    | .decoded => .error (.fatal .stateViolation)

/-- CLOSE_COMMIT (R338). -/
def closeCommit (t : Nat) : Op := fun s0 => do
  let s := s0.record (.closeCommit (BitVec.ofNat 8 t))
  let x ← s.getTb t
  match x.fsm with
  | .collecting => .ok (s.modTb t (fun x => { x with fsm := .decoding }))
  | .decoded => tbJoin t s
  | .idle => .error (.fatal .stateViolation)
  | .decoding => .error (.fatal .stateViolation)

/-! ### HARQ_FREE (R355) -/

/-- A handle after HARQ_FREE: FREE, a retained buffer's contents no longer specified (log 21). -/
def Harq.release (h : Harq) : Harq := if h.hstate = .free then h else { h with hstate := .free, cbs := [] }

/-- HARQ_FREE (R355). -/
def harqFree (handle : BitVec 8) : Op := fun s0 => do
  let s := s0.record (.harqFree handle)
  check (handle.toNat < s.params.nHarq) (.cmdError .badHarqHandle (0#16 ++ handle))
  let h ← s.getHarq handle.toNat
  check (h.hstate ≠ .locked) (.cmdError .harqBusy (0#16 ++ handle))
  .ok (s.modHarq handle.toNat Harq.release)

/-! ### The meanings -/

/-- HARQ_FREE (R355). -/
def execHarqFree (handle : BitVec 8) (s : State) : Host.Outcome State Fault Refusal :=
  runOp (.harqFree handle) 0#8 (harqFree handle) s

/-- TB_CONFIGURE (R330), for the bundle its word stands for (log 14). -/
def execTbConfigure (t : BitVec 8) (s : State) : Host.Outcome State Fault Refusal :=
  runOp (.tbConfigure t) 0#8 (fun s => do
    let b ← need (s.bundleConfiguring t.toNat) (.fatal .stateViolation)
    tbConfigure t.toNat b s) s

/-- SET_NOF_SOFTBITS (R334), with the budget the command unit has latched (log 14). -/
def execSetNofSoftbits (t : BitVec 8) (s : State) : Host.Outcome State Fault Refusal :=
  runOp (.setNofSoftbits t) 0#8 (setNofSoftbits t.toNat (field s.a2 0 24)) s

/-- CLOSE_COMMIT (R338). -/
def execCloseCommit (t : BitVec 8) (s : State) : Host.Outcome State Fault Refusal :=
  runOp (.closeCommit t) 0#8 (closeCommit t.toNat) s

/-- CB_COMPLETE (R343). -/
def execCbComplete (t : BitVec 8) (r : BitVec 16) (s : State) : Host.Outcome State Fault Refusal :=
  runOp (.cbComplete t r) 0#8 (cbComplete t.toNat r.toNat) s

/-- TB_JOIN (R346). -/
def execTbJoin (t : BitVec 8) (s : State) : Host.Outcome State Fault Refusal :=
  runOp (.tbJoin t) 0#8 (tbJoin t.toNat) s

end Sys2Proof.Machine
end

