-- ==== Sys2Proof/Machine/CbDecoder.lean ====
section
/-!
DEFINITION. The codeblock tasks CB_DECODE and CB_RATE_DEMATCH (spec/42_cb_decoder.md R300, R305) and the step that dispatches
them, CLOSE_DISPATCH (spec/43_tb_decoder.md R336).
-/

namespace Sys2Proof.Machine

/-- Codeblock `r` with its buffer and the task's results (R300, R305). -/
def Harq.modCb (h : Harq) (r : Nat) (g : CbBuf → CbBuf) : Harq := { h with cbs := h.cbs.modify r g }

/-- A task finds its TB context and handle (R151, R300, R305): the handle LOCKED, work outstanding, the codeblock one of the
transport block's. Its values: the context, and the codeblock's buffer. -/
def taskContext (t r : Nat) (s : State) : Except Stop (TbCtx × CbBuf) := do
  let x ← s.getTb t
  let h ← s.getHarq x.handle
  check (h.hstate = .locked ∧ (x.fsm = .collecting ∨ x.fsm = .decoding) ∧ r < x.seg.c) (.fatal .stateViolation)
  let cb ← need h.cbs[r]? .unspecified
  .ok (x, cb)

/-- The new soft bits of codeblock `r` (R289, R294). -/
def TbCtx.newLlrs (x : TbCtx) (r : Nat) : Option (List Llr) :=
  Slots.get? x.stage (x.seg.off.getD r 0) (x.seg.e.getD r 0)

/-- What CB_DECODE makes of a codeblock's buffer `buf` after rate dematching: the iteration count on a pass, and the hard
bits (R295, R296). -/
def TbCtx.decodeLlrs (x : TbCtx) (buf : List Llr) : Option Nat × List Bool :=
  ldpcLoop x.bg x.seg x.earlyStop x.maxIter (ldpcInput x.seg buf)

/-- CB_DECODE (R300). -/
def cbDecode (t r : Nat) : Op := fun s0 => do
  let s := s0.record (.cbDecode (BitVec.ofNat 8 t) (BitVec.ofNat 16 r))
  let (x, cb) ← taskContext t r s
  let f ← need (x.newLlrs r) .unspecified
  let buf := rateDematch s.params x.seg x.qm x.newData cb.llr f
  let (res, hard) := x.decodeLlrs buf
  let s1 := s.modHarq x.handle (fun h => h.modCb r (fun _ => ⟨buf, hard.take x.seg.kPrime, res.isSome⟩))
  let s2 := s1.modTb t (fun x =>
    { x with iter := x.iter.set r (res.getD x.maxIter), decoded := x.decoded.set r true })
  cbComplete t r s2

/-- CB_RATE_DEMATCH (R305). -/
def cbRateDematch (t r : Nat) : Op := fun s0 => do
  let s := s0.record (.cbRateDematch (BitVec.ofNat 8 t) (BitVec.ofNat 16 r))
  let (x, cb) ← taskContext t r s
  let f ← need (x.newLlrs r) .unspecified
  let buf := rateDematch s.params x.seg x.qm x.newData cb.llr f
  let s1 := s.modHarq x.handle (fun h => h.modCb r (fun cb => { cb with llr := buf }))
  let s2 := s1.modTb t (fun x => { x with iter := x.iter.set r 0, decoded := x.decoded.set r false })
  cbComplete t r s2

/-! ### CLOSE_DISPATCH (R336) -/

/-- A codeblock task descriptor (R150). -/
def taskWord (isDematch : Bool) (t r : Nat) : Word :=
  header (if isDematch then 0x21#8 else 0x20#8) (BitVec.ofNat 8 t) (BitVec.ofNat 16 r)

/-- A task goes to the task queue: there are engines, more than one codeblock, and a free slot (R336). -/
def State.queues (s : State) (c : Nat) : Bool :=
  decide (1 ≤ s.params.nCbe) && decide (1 < c) && decide (s.taskq.length < s.params.taskqDepth)

/-- One codeblock of CLOSE_DISPATCH (R336): the task is chosen by the codeblock's CRC flag and queued or run inline. -/
def dispatchCb (t c r : Nat) : Op := fun s => do
  let x ← s.getTb t
  let h ← s.getHarq x.handle
  let cb ← need h.cbs[r]? .unspecified
  let dematch := cb.crcOk && !x.newData
  if s.queues c then .ok { s with taskq := s.taskq ++ [taskWord dematch t r] }
  else if dematch then cbRateDematch t r s
  else cbDecode t r s

/-- The codeblocks `rs` one after the other. -/
def dispatchAll (t c : Nat) : List Nat → Op
  | [], s => .ok s
  | r :: rs, s => do
    let s ← dispatchCb t c r s
    dispatchAll t c rs s

/-- The context as CLOSE_DISPATCH starts it (R336): segmented, its counter at C, its statistics zeroed. -/
def TbCtx.start (x : TbCtx) : TbCtx :=
  let seg := segment x.tbs x.bg x.g x.qm x.nl x.rv x.lbrmEn x.nref
  { x with
    seg := seg
    counter := seg.c
    iter := x.iter.mapIdx (fun r k => if r < seg.c then 0 else k)
    decoded := x.decoded.mapIdx (fun r b => if r < seg.c then false else b) }

/-- CLOSE_DISPATCH (R336). -/
def closeDispatch (t : Nat) : Op := fun s0 => do
  let s := s0.record (.closeDispatch (BitVec.ofNat 8 t))
  let x ← s.getTb t
  check (x.fsm = .collecting) (.fatal .stateViolation)
  check (x.sch.count = x.g) (.fatal .softbitCountMismatch)
  let c := x.start.seg.c
  dispatchAll t c (List.range c) (s.modTb t TbCtx.start)

/-! ### The meanings -/

/-- CB_DECODE (R300). -/
def execCbDecode (t : BitVec 8) (r : BitVec 16) (s : State) : Host.Outcome State Fault Refusal :=
  runOp (.cbDecode t r) 0#8 (cbDecode t.toNat r.toNat) s

/-- CB_RATE_DEMATCH (R305). -/
def execCbRateDematch (t : BitVec 8) (r : BitVec 16) (s : State) : Host.Outcome State Fault Refusal :=
  runOp (.cbRateDematch t r) 0#8 (cbRateDematch t.toNat r.toNat) s

/-- CLOSE_DISPATCH (R336). -/
def execCloseDispatch (t : BitVec 8) (s : State) : Host.Outcome State Fault Refusal :=
  runOp (.closeDispatch t) 0#8 (closeDispatch t.toNat) s

end Sys2Proof.Machine
end

