-- ==== Sys2Proof/Machine/Demux.lean ====
section
/-!
DEFINITION. The UCI decoders (spec/45_sequencer.md R436) and the demultiplexer (spec/41_demux.md): DEMUX_SYMBOL, DEMUX_FLUSH,
DEMUX_RESUME, CONFIGURE_CSI_PART2 and CSI2_NONE.
-/

namespace Sys2Proof.Machine

/-! ### UCI_DECODE and the follow-up of the CSI Part 1 close (R436, R250) -/

/-- A UCI field with the result of `uci_decode` on the soft bits `ls` (R436). -/
def FieldUnit.decode (u : FieldUnit) (f : UciField) (payload : Nat) (ls : List Llr) : FieldUnit :=
  if Config.uciValid f payload ls then
    { u with status := .valid, payload := (List.range payload).map (Config.uciBit f payload ls) }
  else { u with status := .invalid }

/-- UCI_DECODE (R436). It does not test the binding of the field's port: the block runs it inside the close of a port bound REAL
only (R206, R209). DESIGN CHOICE (log 33): issued on its own for a port bound NULL, it decodes all the same. -/
def uciDecode (b : Nat) (f : UciField) : Op := fun s0 => do
  let s := s0.record (.uciDecode (BitVec.ofNat 8 b) f)
  let x ← s.getBundle b
  let ls ← need (Slots.get? (x.uci f).llr 0 (x.uci f).port.count) .unspecified
  .ok (s.modBundle b (fun x => x.modUci f (fun u => u.decode f (x.payloadBits f) ls)))

def setCsi2State (b : Nat) (c : Csi2State) (s : State) : State :=
  s.modBundle b (fun x => { x with dm := { x.dm with csi2State := c } })

/-- The CSI2_REQUEST record (R161). -/
def csi2Request (tag : BitVec 8) (csi1Bits : Nat) (payload : List Bool) : List Word :=
  eventRecord 0x06#8 tag ((0#21 ++ BitVec.ofNat 11 csi1Bits) :: payloadWords payload)

/-- `after_csi1_close` (R250). -/
def afterCsi1Close (b : Nat) : Op := fun s => do
  let x ← s.getBundle b
  if x.dm.csi2State = .waiting then
    if x.csi1.status = .valid then
      emit (csi2Request x.tag (csi1Bits x.d) x.csi1.payload) (setCsi2State b .await s)
    else .ok (setCsi2State b .declined s)
  else .ok s

/-! ### The ports the demultiplexer produces for (R209) -/

/-- `consumer_close` of a UCI field port and of SCH (R209). DEMUX_IN has another consumer (Machine/Stream.lean). -/
def consumeClose : PortRef → Op
  | .uci .csi1 b => fun s => do
    let s ← uciDecode b .csi1 s
    afterCsi1Close b s
  | .uci f b => uciDecode b f
  | .sch t => closeDispatch t
  | .demuxIn _ => fun _ => .error (.fatal .stateViolation)

/-- `consumer_close` of a UCI field port inside the flush: no follow-up (R252). -/
def consumeFlush : PortRef → Op
  | .uci f b => uciDecode b f
  | .sch t => closeDispatch t
  | .demuxIn _ => fun _ => .error (.fatal .stateViolation)

/-- A copying publish that the demultiplexer issues (R203). -/
def issuePublish (r : PortRef) (ls : List Llr) : Op := fun s =>
  publishCopyWith storeAtCount r ls (s.record (.publishCopy r.id r.owner ls))

/-- A close that the demultiplexer issues (R204). -/
def issueClose (consume : PortRef → Op) (r : PortRef) : Op := fun s =>
  closeWith consume r (s.record (.close r.id r.owner))

/-! ### The per-symbol algorithm (R244 to R249) -/

/-- `emit_field(b, f, X)` (R244). -/
def emitField (b : Nat) (f : UciField) (xs : List Nat) : Op := fun s =>
  if xs = [] then .ok s
  else do
    let x ← s.getBundle b
    let bits ← need (positionBits x.d x.dm.symBuf x.cwPos xs) .unspecified
    let s ← issuePublish (.uci f b) (fieldLlrs x.d (x.payloadBits f) bits) s
    if x.remBits f = 0 then issueClose consumeClose (.uci f b) s else .ok s

/-- `emit_sch(b)` (R249). -/
def emitSch (b : Nat) : Op := fun s => do
  let x ← s.getBundle b
  let sets ← need x.dm.sets .unspecified
  let ls ← need (schLlrs s.params x.d x.dm.symBuf x.l sets) .unspecified
  if ls = [] then .ok s else issuePublish (.sch x.tbx) ls s

/-- The bundle after `advance` (R248). -/
def Bundle.advance (x : Bundle) : Bundle :=
  { x with
    cwPos := x.cwPos + symbolBits x.d x.l
    l := x.l + 1
    dm := { x.dm with symCnt := 0, sets := none }
    phase := if x.l + 1 = endSymb x.d then .endPdu else .demod }

/-- The bundle with the symbol's sets and budgets. -/
def Bundle.withSets (x : Bundle) (y : Sets × Budgets) : Bundle :=
  { x with dm := { x.dm with sets := some y.1, bud := y.2 } }

/-- `finish_symbol(b, l)` (R245): steps 4 and 5, CSI Part 2, UL-SCH, advance. -/
def finishSymbol (b : Nat) : Op := fun s => do
  let x ← s.getBundle b
  let sets ← need x.dm.sets .unspecified
  let y := partitionB x.d (decide (x.dm.csi2State = .configured)) sets x.dm.bud
  let s ← emitField b .csi2 y.1.c2 (s.modBundle b (fun x => x.withSets y))
  let s ← emitSch b s
  .ok (s.modBundle b Bundle.advance)

/-- DEMUX_SYMBOL (R245), with the hold of R247. -/
def demuxSymbol (b : Nat) : Op := fun s0 => do
  let x0 ← s0.getBundle b
  let s := s0.record (.demuxSymbol (BitVec.ofNat 8 b) (BitVec.ofNat 16 x0.l))
  let x ← s.getBundle b
  let y := partitionA s.params x.d x.l x.dm.bud
  let s ← emitField b .ack y.1.a (s.modBundle b (fun x => x.withSets y))
  let s ← emitField b .csi1 y.1.c1 s
  let x ← s.getBundle b
  if x.dm.csi2State = .await then .ok (s.modBundle b (fun x => { x with phase := .holdCsi2 }))
  else finishSymbol b s

/-- DEMUX_RESUME (R257). -/
def demuxResume (b : Nat) : Op := fun s0 => do
  let x ← s0.getBundle b
  check (x.phase = .resume) .hold
  finishSymbol b (s0.record (.demuxResume (BitVec.ofNat 8 b) (BitVec.ofNat 16 x.l)))

/-- The flush's close of one field port that is still open (R252). -/
def flushField (b : Nat) (f : UciField) : Op := fun s => do
  let p ← s.getPort (.uci f b)
  if p.isOpen = true then issueClose consumeFlush (.uci f b) s else .ok s

/-- CSI Part 2 declined by the flush where it was still open (R252). -/
def Bundle.decline (x : Bundle) : Bundle :=
  if x.dm.csi2State = .waiting ∨ x.dm.csi2State = .await then { x with dm := { x.dm with csi2State := .declined } }
  else x

/-- DEMUX_FLUSH (R252). -/
def demuxFlush (b : Nat) : Op := fun s0 => do
  let s := s0.record (.demuxFlush (BitVec.ofNat 8 b))
  let x ← s.getBundle b
  check (x.dm.symCnt = 0) (.fatal .stateViolation)
  let s ← flushField b .ack s
  let s ← flushField b .csi1 s
  let s ← flushField b .csi2 s
  issueClose consumeFlush (.sch x.tbx) (s.modBundle b Bundle.decline)

/-! ### CSI Part 2 late binding (R256, R258) -/

/-- The first check that fails, with its code and detail (R475). -/
def firstFailing : List (Bool × CmdCode × Nat) → Option (CmdCode × Nat)
  | [] => none
  | (bad, c, dt) :: rest => if bad then some (c, dt) else firstFailing rest

/-- A command goes on only when no check fails (R475). -/
def checkAll (cs : List (Bool × CmdCode × Nat)) : Except Stop Unit :=
  match firstFailing cs with
  | some (c, dt) => .error (.cmdError c (BitVec.ofNat 24 dt))
  | none => .ok ()

/-- The budget checks of CONFIGURE_CSI_PART2 (R256). -/
def configureChecks (p : Params) (x : Bundle) (t : TbCtx) (bits g2 gu : Nat) : List (Bool × CmdCode × Nat) :=
  [(decide (g2 % bpr x.d ≠ 0), .budgetNotMultiple, 4),
    (decide (bits = 0 ∨ 1706 < bits ∨ g2 = 0 ∨ p.maxUciG < g2), .uciConfig, 4),
    (decide ((plan p x.d g2).csi2 ≠ g2), .uciConfig, 5),
    (decide (gu ≠ (plan p x.d g2).sch ∨ p.maxCwBits < gu), .ulschBudget, 1),
    (!t.eOk gu, .cbBudgetTooSmall, 0)]

/-- The bundle with CSI Part 2 configured (R256). -/
def Bundle.configure (x : Bundle) (bits g2 : Nat) : Bundle :=
  { x with
    gCsi2 := g2
    dm := { x.dm with csi2Bits := bits, csi2State := .configured, bud := { x.dm.bud with csi2Rem := g2 } } }

/-- CONFIGURE_CSI_PART2 (R256). -/
def configureCsiPart2 (tag : BitVec 8) (bits : BitVec 11) (g2 gu : BitVec 24) : Op := fun s0 => do
  let s := { s0.record (.configureCsiPart2 tag bits g2 gu) with a2 := argWord gu }
  let b ← need (s.bundleOfTag tag) (.cmdError .noSuchPdu (0#16 ++ tag))
  let x ← s.getBundle b
  check (x.dm.csi2State ≠ .configured) (.fatal .uciNotifierTwice)
  check (x.dm.csi2State = .await) (.cmdError .csi2NotExpected (0#16 ++ tag))
  let t ← s.getTb x.tbx
  checkAll (configureChecks s.params x t bits.toNat g2.toNat gu.toNat)
  let s ← rebindPort (.uci .csi2 b) s
  let s ← setNofSoftbits x.tbx gu.toNat (s.modBundle b (fun x => x.configure bits.toNat g2.toNat))
  .ok (s.modBundle b (fun x => { x with phase := .resume }))

/-- CSI2_NONE (R258). -/
def csi2None (tag : BitVec 8) : Op := fun s0 => do
  let s := s0.record (.csi2None tag)
  let b ← need (s.bundleOfTag tag) (.cmdError .noSuchPdu (0#16 ++ tag))
  let x ← s.getBundle b
  check (x.dm.csi2State = .await) (.cmdError .csi2NotExpected (0#16 ++ tag))
  .ok ((setCsi2State b .declined s).modBundle b (fun x => { x with phase := .resume }))

/-! ### The meanings -/

/-- UCI_DECODE (R436), of a field whose port is bound NULL too (log 33). -/
def execUciDecode (b : BitVec 8) (f : UciField) (s : State) : Host.Outcome State Fault Refusal :=
  runOp (.uciDecode b f) 0#8 (uciDecode b.toNat f) s

/-- DEMUX_SYMBOL (R245). ARG names the bundle's current symbol, which must be complete (log 15). -/
def execDemuxSymbol (b : BitVec 8) (l : BitVec 16) (s : State) : Host.Outcome State Fault Refusal :=
  runOp (.demuxSymbol b l) 0#8 (fun s => do
    let x ← s.getBundle b.toNat
    check (BitVec.ofNat 16 x.l = l ∧ x.dm.symCnt = symbolBits x.d x.l) (.fatal .stateViolation)
    demuxSymbol b.toNat s) s

/-- DEMUX_FLUSH (R252). -/
def execDemuxFlush (b : BitVec 8) (s : State) : Host.Outcome State Fault Refusal :=
  runOp (.demuxFlush b) 0#8 (demuxFlush b.toNat) s

/-- DEMUX_RESUME (R257). ARG names the bundle's current symbol (log 15). -/
def execDemuxResume (b : BitVec 8) (l : BitVec 16) (s : State) : Host.Outcome State Fault Refusal :=
  runOp (.demuxResume b l) 0#8 (fun s => do
    let x ← s.getBundle b.toNat
    check (x.phase = .resume) .hold
    check (BitVec.ofNat 16 x.l = l) (.fatal .stateViolation)
    demuxResume b.toNat s) s

/-- CONFIGURE_CSI_PART2 (R256). -/
def execConfigureCsiPart2 (tag : BitVec 8) (bits : BitVec 11) (g2 gu : BitVec 24) (s : State) :
    Host.Outcome State Fault Refusal :=
  runOp (.configureCsiPart2 tag bits g2 gu) tag (configureCsiPart2 tag bits g2 gu) s

/-- CSI2_NONE (R258). -/
def execCsi2None (tag : BitVec 8) (s : State) : Host.Outcome State Fault Refusal :=
  runOp (.csi2None tag) tag (csi2None tag) s

end Sys2Proof.Machine
end

