-- ==== Sys2Proof/Machine/Stream.lean ====
section
/-!
DEFINITION. The stream-port operations as a producer issues them (spec/40_stream.md R201 to R204), with the consumer action
of every port (R209), DEMUX_IN's among them.
-/

namespace Sys2Proof.Machine

/-- The bundle with soft bits `ls` received for the current symbol (R209). -/
def Bundle.receive (x : Bundle) (ls : List Llr) : Bundle :=
  { x with dm := { x.dm with symBuf := Slots.write x.dm.symBuf x.dm.symCnt ls, symCnt := x.dm.symCnt + ls.length } }

/-- `consumer_publish` (R209) of every port. -/
def consumePublish : PortRef → List Llr → Op
  | .demuxIn b, ls => fun s => do
    let x ← s.getBundle b
    let s := s.modBundle b (fun x => x.receive ls)
    if x.dm.symCnt + ls.length = symbolBits x.d x.l then demuxSymbol b s else .ok s
  | .sch t, ls => storeAtCount (.sch t) ls
  | .uci f b, ls => storeAtCount (.uci f b) ls

/-- `consumer_close` (R209) of every port. -/
def consumeCloseAll : PortRef → Op
  | .demuxIn b => demuxFlush b
  | .sch t => consumeClose (.sch t)
  | .uci f b => consumeClose (.uci f b)

/-- The port a port operation names; a reserved port id is a contract violation (R146). -/
def portOf (id : BitVec 4) (owner : BitVec 8) : Except Stop PortRef := need (PortRef.ofId id owner) (.fatal .stateViolation)

/-- RESERVE_VIEW (R201) as a producer issues it: the size of the view, and the state with it. -/
def issueReserve (r : PortRef) (n : Nat) (s : State) : Except Stop (Nat × State) :=
  reserveView r n (s.record (.reserveView r.id (BitVec.ofNat 19 n) r.owner))

/-- PUBLISH_BLOCK in place (R202) as a producer issues it. -/
def issuePublishInPlace (r : PortRef) (n : Nat) : Op := fun s =>
  publishInPlaceWith consumePublish r n (s.record (.publishInPlace r.id (BitVec.ofNat 19 n) r.owner))

/-! ### The meanings -/

/-- RESERVE_VIEW (R201). -/
def execReserveView (port : BitVec 4) (n : BitVec 19) (owner : BitVec 8) (s : State) : Host.Outcome State Fault Refusal :=
  runOp (.reserveView port n owner) 0#8 (fun s => do
    let r ← portOf port owner
    let v ← issueReserve r n.toNat s
    .ok v.2) s

/-- PUBLISH_BLOCK in place (R202). -/
def execPublishInPlace (port : BitVec 4) (n : BitVec 19) (owner : BitVec 8) (s : State) :
    Host.Outcome State Fault Refusal :=
  runOp (.publishInPlace port n owner) 0#8 (fun s => do
    let r ← portOf port owner
    issuePublishInPlace r n.toNat s) s

/-- PUBLISH_BLOCK by copy (R203). -/
def execPublishCopy (port : BitVec 4) (owner : BitVec 8) (data : List (BitVec 8)) (s : State) :
    Host.Outcome State Fault Refusal :=
  runOp (.publishCopy port owner data) 0#8 (fun s => do
    let r ← portOf port owner
    publishCopyWith consumePublish r data (s.record (.publishCopy port owner data))) s

/-- CLOSE (R204). -/
def execClose (port : BitVec 4) (owner : BitVec 8) (s : State) : Host.Outcome State Fault Refusal :=
  runOp (.close port owner) 0#8 (fun s => do
    let r ← portOf port owner
    issueClose consumeCloseAll r s) s

end Sys2Proof.Machine
end

