-- ==== Sys2Proof/Machine/Demod.lean ====
section
/-!
DEFINITION. The demodulation sequencer (spec/44_demod.md): CHEST, DEMOD_SYMBOL, DESCRAMBLE and END_STATS.
-/

namespace Sys2Proof.Machine

/-! ### CHEST (R380) -/

/-- The bundle after channel estimation (R380). -/
def Bundle.estimate (x : Bundle) : Bundle :=
  { x with
    chanEst := Config.chest x.d (Config.grid x.grid)
    nvSum := ExactReal.zero
    nvCnt := 0
    evmAcc := Config.evmInitial
    l := startSymb x.d
    cwPos := 0
    phase := .demod }

/-- CHEST (R380). -/
def chestOp (b : Nat) : Op := fun s0 => do
  let s := s0.record (.chest (BitVec.ofNat 8 b))
  let x ← s.getBundle b
  check (x.phase = .chest) .hold
  .ok (s.modBundle b Bundle.estimate)

/-! ### Soft bits of a symbol (R385, R386) -/

/-- What one symbol's demodulation gives: per (position, layer) pair, positions first, the soft symbol and the noise variance;
and the soft bits. -/
structure SymbolData where
  ys : List (Option SoftSymbol)
  nvs : List NoiseVar
  llrs : List Llr
  deriving DecidableEq, Repr

/-- The (subcarrier, layer) pairs of a symbol in soft-bit order (R231). -/
def symbolPairs (d : Descriptor) (l : Nat) : List (Nat × Nat) :=
  (subcarriers d l).flatMap (fun k => (List.range (nl d)).map (fun v => (k, v)))

/-- A noise variance kept at or above 0, as R12 says it is (log 25): the numbers that codes stand for are positive (log 5). -/
def clampNoise : NoiseVar → NoiseVar
  | none => none
  | some v => some { v with rational := max 0 v.rational }

/-- The noise variance of one pair: +∞ on the DC subcarrier (R382, R385). -/
def pairNoise (x : Bundle) (kv : Nat × Nat) : NoiseVar :=
  if isDc x.d kv.1 then none
  else clampNoise (Config.equalizeNoise x.d (Config.grid x.grid) x.chanEst x.l kv.1 kv.2)

/-- The equalised soft symbol of one pair: none on the DC subcarrier (R382, R385). -/
def pairSymbol (x : Bundle) (kv : Nat × Nat) : Option SoftSymbol :=
  if isDc x.d kv.1 then none
  else some (Config.equalizeSymbol x.d (Config.grid x.grid) x.chanEst x.l kv.1 kv.2)

/-- Transform precoding reverted on the symbols of layer 0 (R385, R386). -/
def revertPrecoding (d : Descriptor) (ys : List (Option SoftSymbol)) : List (Option SoftSymbol) :=
  if tp d = 1 then
    let layer0 := (List.range (ys.length / nl d)).map (fun i => (ys[i * nl d]?).getD none)
    ys.mapIdx (fun j y => if j % nl d = 0 then some (Config.tpRevert layer0 (j / nl d)) else y)
  else ys

/-- The QM soft bits of one pair: 0 on the DC subcarrier, else `demap` kept in ±LLR_MAX (R382, R385, R12; log 25). -/
def pairLlrs (p : Params) (d : Descriptor) (k : Nat) (y : Option SoftSymbol) (nv : NoiseVar) : List Llr :=
  (List.range (qm d)).map (fun q => if isDc d k then 0#8 else sat p (Config.demap (qm d) y nv q))

/-- R385 for the bundle's current symbol. -/
def demodulate (p : Params) (x : Bundle) : SymbolData :=
  let ps := symbolPairs x.d x.l
  let nvs := ps.map (pairNoise x)
  let ys := revertPrecoding x.d (ps.map (pairSymbol x))
  { ys := ys
    nvs := nvs
    llrs := (ps.zip (ys.zip nvs)).flatMap (fun t => pairLlrs p x.d t.1.1 t.2.1 t.2.2) }

/-! ### Statistics (R392, R393, R396) -/

/-- The finite noise variances (R393). -/
def finiteNoise (nvs : List NoiseVar) : List ExactReal := nvs.filterMap id

/-- SINR_VALID and the SINR word of a sum of `n` finite variances (R392, R393, R396). -/
def sinrOf (sum : ExactReal) (n : Nat) : Bool × Word := if 0 < n then (true, sinrMean sum n) else (false, 0#32)

/-- `accumulate` (R393). -/
def Bundle.accumulate (x : Bundle) (y : SymbolData) : Bundle :=
  { x with
    nvSum := ExactReal.add x.nvSum (ExactReal.sum (finiteNoise y.nvs))
    nvCnt := x.nvCnt + (finiteNoise y.nvs).length
    evmAcc := Config.evmFold x.evmAcc x.d y.ys y.llrs }

/-- The PROV_STATS record (R161, R392). -/
def provStats (x : Bundle) (y : SymbolData) : List Word :=
  let v := sinrOf (ExactReal.sum (finiteNoise y.nvs)) (finiteNoise y.nvs).length
  eventRecord 0x01#8 x.tag
    [0#23 ++ flag v.1 ++ 0#4 ++ BitVec.ofNat 4 x.l, v.2, realWord (Config.evmSymbol x.d y.ys y.llrs)]

/-- The END_STATS record (R161, R396). -/
def endStatsRecord (x : Bundle) : List Word :=
  let v := sinrOf x.nvSum x.nvCnt
  eventRecord 0x02#8 x.tag [0#23 ++ flag v.1 ++ 0#8, v.2, realWord (Config.evmEnd x.evmAcc)]

/-- END_STATS (R396). -/
def endStats (b : Nat) : Op := fun s0 => do
  let s := s0.record (.endStats (BitVec.ofNat 8 b))
  let x ← s.getBundle b
  emit (endStatsRecord x) s

/-! ### DESCRAMBLE (R384) -/

/-- DESCRAMBLE (R384) of the soft bits the bundle's demodulator is working on (log 16). -/
def descrambleOp (b : Nat) : Op := fun s0 => do
  let x ← s0.getBundle b
  let n := symbolBits x.d x.l
  let s := s0.record (.descramble (BitVec.ofNat 8 b) (BitVec.ofNat 16 n))
  check (n ≤ x.work.length) .unspecified
  .ok (s.modBundle b (fun x =>
    { x with work := descrambleLlrs (cInit x.d) x.cwPos (x.work.take n) ++ x.work.drop n }))

/-! ### DEMOD_SYMBOL (R388) -/

/-- The streaming loop of DEMOD_SYMBOL (R388) from soft bit `j`; it runs at most `fuel` times, and `ls.length` is enough,
because every view it gets holds a soft bit (R201). -/
def streamLoop (b : Nat) (ls : List Llr) : Nat → Nat → Op
  | 0, _ => .ok
  | fuel + 1, j => fun s =>
    if ls.length ≤ j then .ok s
    else do
      let v ← issueReserve (.demuxIn b) (ls.length - j) s
      let s ← issuePublishInPlace (.demuxIn b) v.1 (v.2.writeView (.demuxIn b) ((ls.drop j).take v.1))
      streamLoop b ls fuel (j + v.1) s

/-- DEMOD_SYMBOL (R388). With no positions, DESCRAMBLE has no soft bits to work on. -/
def demodSymbol (b : Nat) : Op := fun s0 => do
  let x ← s0.getBundle b
  let s := s0.record (.demodSymbol (BitVec.ofNat 8 b) (BitVec.ofNat 16 x.l))
  check (x.phase = .demod) .hold
  let y := demodulate s.params x
  let s := s.modBundle b (fun x => { x.accumulate y with work := y.llrs })
  if nofPositions x.d x.l = 0 then do
    let s ← descrambleOp b s
    demuxSymbol b s
  else do
    let s ← emit (provStats x y) s
    let s ← descrambleOp b s
    let x ← s.getBundle b
    streamLoop b x.work x.work.length 0 s

/-! ### The meanings -/

/-- CHEST (R380). -/
def execChest (b : BitVec 8) (s : State) : Host.Outcome State Fault Refusal :=
  runOp (.chest b) 0#8 (chestOp b.toNat) s

/-- DEMOD_SYMBOL (R388). ARG names the bundle's current symbol (log 15). -/
def execDemodSymbol (b : BitVec 8) (l : BitVec 16) (s : State) : Host.Outcome State Fault Refusal :=
  runOp (.demodSymbol b l) 0#8 (fun s => do
    let x ← s.getBundle b.toNat
    check (x.phase = .demod) .hold
    check (BitVec.ofNat 16 x.l = l) (.fatal .stateViolation)
    demodSymbol b.toNat s) s

/-- DESCRAMBLE (R384). ARG is the symbol's soft-bit count modulo 2^16 (log 15). -/
def execDescramble (b : BitVec 8) (n : BitVec 16) (s : State) : Host.Outcome State Fault Refusal :=
  runOp (.descramble b n) 0#8 (fun s => do
    let x ← s.getBundle b.toNat
    check (BitVec.ofNat 16 (symbolBits x.d x.l) = n) (.fatal .stateViolation)
    descrambleOp b.toNat s) s

/-- END_STATS (R396). -/
def execEndStats (b : BitVec 8) (s : State) : Host.Outcome State Fault Refusal :=
  runOp (.endStats b) 0#8 (endStats b.toNat) s

end Sys2Proof.Machine
end

