-- ==== Sys2Proof/Machine/Sequencer.lean ====
section
/-!
DEFINITION. The PDU sequencer (spec/45_sequencer.md): PROCESS_PDU with its validation and the pool-empty path, SEQ_END and NOP.
-/

namespace Sys2Proof.Machine

/-! ### Validation (R424) -/

/-- `n` is of the form `2^a·3^b·5^c` (R424 code 0x07 detail 5), for `n` below 2^9 (R42: NOF_PRB has 9 bits). -/
def isSmooth (n : Nat) : Bool :=
  (List.range 9).any (fun a => (List.range 6).any (fun b => (List.range 4).any (fun c => n == 2 ^ a * 3 ^ b * 5 ^ c)))

/-- Some symbol marked as DM-RS is not allocated (R424 code 0x04 detail 2). -/
def maskOutside (d : Descriptor) : Bool := (List.range 14).any (fun l => isDmrs d l && !allocated d l)

/-- A UCI field's size and budget do not fit together (R424 code 0x0C detail 1). -/
def csi1Inconsistent (p : Params) (d : Descriptor) : Bool :=
  decide (1706 < csi1Bits d) || decide (0 < csi1Bits d ∧ gCsi1 d = 0) || decide (csi1Bits d = 0 ∧ gCsi1 d ≠ 0)
    || decide (p.maxUciG < gCsi1 d)

/-- The plan does not place the UCI budgets exactly (R424 code 0x0C detail 3). -/
def uciUnplaced (p : Params) (d : Descriptor) : Bool :=
  let pl := plan p d 0
  decide (pl.rvd ≠ if 1 ≤ ackBits d ∧ ackBits d ≤ 2 then gAckRvd d else 0) || decide (pl.ack ≠ gAck d)
    || decide (pl.csi1 ≠ gCsi1 d)

/-- The descriptor's HARQ handle is HELD, the data are not new, and its geometry differs (R424 code 0x0E). -/
def State.geometryDiffers (s : State) (d : Descriptor) : Bool :=
  match s.harq[harqHandle d]? with
  | some h =>
    decide (h.hstate = .held) && !newData d
      && decide (h.geo ≠ geometry (tbSize d) (baseGraph d) (lbrmEn d) (nref d))
  | none => false

/-- The checks of codes 0x01 to 0x08. -/
def allocationChecks (p : Params) (d : Descriptor) : List (Bool × CmdCode × Nat) :=
  [(decide (bwpSize d = 0 ∨ 275 < bwpSize d ∨ 274 < bwpStart d ∨ 275 < bwpStart d + bwpSize d), .allocExceedsBwp, 1),
    (decide (nofPrb d = 0), .allocExceedsBwp, 2),
    (decide (bwpSize d < prbStart d + nofPrb d), .allocExceedsBwp, 3),
    (decide (dmrsVariant d = 0 ∧ dmrsType d = 0 ∧ cdmNoData d ≠ 1 ∧ cdmNoData d ≠ 2), .dmrsUnsupported, 1),
    (decide (dmrsVariant d = 0 ∧ dmrsType d = 1 ∧ cdmNoData d ≠ 1 ∧ cdmNoData d ≠ 2 ∧ cdmNoData d ≠ 3),
      .dmrsUnsupported, 2),
    (decide (dmrsVariant d = 1 ∧ (dmrsType d ≠ 0 ∨ cdmNoData d ≠ 2)), .dmrsUnsupported, 3),
    (lbrmEn d && decide (nref d = 0), .lbrmZero, 1),
    (decide (dmrsMask d = 0#14), .dmrsMaskInconsistent, 1),
    (maskOutside d, .dmrsMaskInconsistent, 2),
    (decide (qm d ≠ 1 ∧ qm d ≠ 2 ∧ qm d ≠ 4 ∧ qm d ≠ 6 ∧ qm d ≠ 8), .badModulation, 1),
    (decide (nl d = 0 ∨ p.nlMax < nl d), .badLayers, 1),
    (decide (nrx d = 0 ∨ p.nrxMax < nrx d), .badLayers, 2),
    (decide (tp d = 1 ∧ dmrsVariant d = 0), .tpConstraint, 1),
    (decide (tp d = 0 ∧ dmrsVariant d = 1), .tpConstraint, 2),
    (decide (tp d = 1 ∧ nl d ≠ 1), .tpConstraint, 3),
    (decide (qm d = 1 ∧ tp d = 0), .tpConstraint, 4),
    (decide (tp d = 1) && !isSmooth (nofPrb d), .tpConstraint, 5),
    (decide (13 < startSymb d), .badSymbolAlloc, 1),
    (decide (nofSymb d = 0 ∨ 14 < startSymb d + nofSymb d), .badSymbolAlloc, 2)]

/-- The checks of codes 0x09 to 0x0C. -/
def budgetChecks (p : Params) (d : Descriptor) : List (Bool × CmdCode × Nat) :=
  [(decide (tbSize d < 24), .badTbs, 1),
    (decide (tbSize d % 8 ≠ 0), .badTbs, 2),
    (decide (p.maxCb < nofCodeblocks (tbSize d) (baseGraph d)), .badTbs, 3),
    (decide (bitsWithCbCrcs (tbSize d) (baseGraph d) % nofCodeblocks (tbSize d) (baseGraph d) ≠ 0), .badTbs, 4),
    (decide (2 ^ 32 < tbDest d + tbSize d / 8), .badTbs, 5),
    (decide (gAck d % bpr d ≠ 0), .budgetNotMultiple, 1),
    (decide (gAckRvd d % bpr d ≠ 0), .budgetNotMultiple, 2),
    (decide (gCsi1 d % bpr d ≠ 0), .budgetNotMultiple, 3),
    (decide (gUlsch d % bpr d ≠ 0), .budgetNotMultiple, 5),
    (decide (1706 < ackBits d), .ackConfig, 1),
    (decide (0 < ackBits d ∧ gAck d = 0), .ackConfig, 2),
    (decide (ackBits d = 0 ∧ (gAck d ≠ 0 ∨ gAckRvd d ≠ 0)), .ackConfig, 3),
    (decide (1 ≤ ackBits d ∧ ackBits d ≤ 2 ∧ gAckRvd d < gAck d), .ackConfig, 4),
    (decide (2 < ackBits d ∧ gAckRvd d ≠ 0), .ackConfig, 5),
    (decide (p.maxUciG < gAck d), .ackConfig, 6),
    (csi1Inconsistent p d, .uciConfig, 1),
    (decide (csi2En d = 1 ∧ csi1Bits d = 0), .uciConfig, 2),
    (uciUnplaced p d, .uciConfig, 3)]

/-- The checks of codes 0x0D to 0x15. -/
def resourceChecks (s : State) (tag : BitVec 8) (d : Descriptor) : List (Bool × CmdCode × Nat) :=
  let geo := geometry (tbSize d) (baseGraph d) (lbrmEn d) (nref d)
  [(decide (s.params.nHarq ≤ harqHandle d), .badHarqHandle, 1),
    (s.geometryDiffers d, .harqGeometryMismatch, 1),
    (decide (s.params.softbufLlrs < geo.c * geo.ncb), .softbufCapacity, 1),
    (decide (maxIter s.decCfg = 0), .badDecCfg, 1),
    (decide (geo.ncb < messageLen (tbSize d) (baseGraph d) - 2 * liftingSize (tbSize d) (baseGraph d)), .ncbTooSmall, 1),
    (decide (gUlsch d ≠ (plan s.params d 0).sch ∨ s.params.maxCwBits < gUlsch d), .ulschBudget, 1),
    (decide (gUlsch d = 0), .ulschBudget, 2),
    (s.tagInFlight tag, .tagInUse, 1),
    (decide (dcEn d = 1 ∧ 3299 < dcSc d), .badDc, 1),
    (decide (gUlsch d / bpr d < nofCodeblocks (tbSize d) (baseGraph d)), .cbBudgetTooSmall, 0)]

/-- `validate(d, dc, tag)` (R424): the checks in ascending order of code and detail. -/
def validateChecks (s : State) (tag : BitVec 8) (d : Descriptor) : List (Bool × CmdCode × Nat) :=
  allocationChecks s.params d ++ budgetChecks s.params d ++ resourceChecks s tag d

/-! ### UCI_RESULT (R162) -/

/-- A UCI status in an event word (R162). -/
def UciStatus.code : UciStatus → BitVec 2
  | .unknown => 0#2
  | .valid => 1#2
  | .invalid => 2#2

/-- The payload a field reports: none unless it is VALID (R162). -/
def FieldUnit.reported (u : FieldUnit) : List Bool := if u.status = .valid then u.payload else []

/-- The UCI_RESULT record of three statuses and payloads (R161 to R163). -/
def uciResult (tag : BitVec 8) (sa s1 s2 : UciStatus) (pa p1 p2 : List Bool) : List Word :=
  eventRecord 0x03#8 tag
    ([0#26 ++ s2.code ++ s1.code ++ sa.code,
        0#5 ++ BitVec.ofNat 11 p1.length ++ 0#5 ++ BitVec.ofNat 11 pa.length,
        0#21 ++ BitVec.ofNat 11 p2.length]
      ++ payloadWords pa ++ payloadWords p1 ++ payloadWords p2)

/-- The UCI_RESULT record of a bundle (R162, R437). -/
def Bundle.uciResult (x : Bundle) : List Word :=
  Machine.uciResult x.tag x.ack.status x.csi1.status x.csi2.status x.ack.reported x.csi1.reported x.csi2.reported

/-! ### PROCESS_PDU (R420) -/

/-- `pool_empty_result(tag, d)` (R427): both records, or a hold. The window it leaves is empty (log 12). -/
def poolEmptyResult (tag : BitVec 8) (d : Descriptor) : Op := fun s => do
  let s ← emit (uciResult tag (if 0 < ackBits d then .invalid else .unknown) .unknown .unknown [] [] []) s
  let s ← emit (schResult tag false 0 []) s
  .ok { s with windows := s.windows ++ [⟨tag, 0, 0, true, [], []⟩] }

/-- `latch` (R421) and `dm_init` (R235): the bundle of a new PDU. -/
def Bundle.latch (x : Bundle) (tag : BitVec 8) (t : Nat) (d : Descriptor) (grid : Nat) : Bundle :=
  { x with
    tag := tag
    tbx := t
    d := d
    grid := grid
    ack := { x.ack with status := .unknown }
    csi1 := { x.csi1 with status := .unknown }
    csi2 := { x.csi2 with status := .unknown }
    dm := { x.dm with
      bud := initialBudgets d
      csi2State := if csi2En d = 1 then .waiting else .off
      csi2Bits := 0
      symCnt := 0 } }

/-- The binding of a field port: REAL exactly when the field has payload bits (R428). -/
def bindingOf (bits : Nat) : Binding := if 0 < bits then .real else .null

/-- `open_ports(b, t)` (R428). -/
def openPorts (b t : Nat) (d : Descriptor) : Op := fun s => do
  let s ← openPort (.demuxIn b) .real s
  let s ← openPort (.sch t) .real s
  let s ← openPort (.uci .ack b) (bindingOf (ackBits d)) s
  let s ← openPort (.uci .csi1 b) (bindingOf (csi1Bits d)) s
  openPort (.uci .csi2 b) .null s

/-- The PDU's output range is the block's from acceptance on (R114, R512; log 12), and its grid is the next one (log 13). -/
def State.acceptPdu (s : State) (tag : BitVec 8) (d : Descriptor) : State :=
  { s with
    windows := s.windows ++ [⟨tag, tbDest d, tbSize d / 8, false, [], []⟩]
    gridNo := s.gridNo + 1 }

/-- PROCESS_PDU (R420). -/
def processPdu (tag : BitVec 8) : Op := fun s0 => do
  let s := s0.record (.processPdu tag)
  let d := s.desc
  checkAll (validateChecks s tag d)
  match s.firstFreeBundle, s.firstIdleTb with
  | some b, some t =>
    let h ← s.getHarq (harqHandle d)
    check (h.hstate ≠ .locked) (.fatal .harqOverwriteLocked)
    let s := (s.modBundle b (fun x => x.latch tag t d s.gridNo)).acceptPdu tag d
    let s ← openPorts b t d s
    let s ← tbConfigure t b s
    .ok (s.modBundle b (fun x => { x with phase := .chest }))
  | _, _ => poolEmptyResult tag d s

/-! ### SEQ_END (R433) -/

/-- SEQ_END (R433). -/
def seqEndOp (b : Nat) : Op := fun s0 => do
  let s := s0.record (.seqEnd (BitVec.ofNat 8 b))
  let x ← s.getBundle b
  check (x.phase = .endPdu) .hold
  let s ← endStats b s
  let s ← issueClose consumeCloseAll (.demuxIn b) s
  let x ← s.getBundle b
  let s ← emit x.uciResult s
  .ok (s.modBundle b (fun x => { x with phase := .commit }))

/-! ### The meanings -/

/-- PROCESS_PDU (R420). -/
def execProcessPdu (tag : BitVec 8) (s : State) : Host.Outcome State Fault Refusal :=
  runOp (.processPdu tag) tag (processPdu tag) s

/-- SEQ_END (R433). -/
def execSeqEnd (b : BitVec 8) (s : State) : Host.Outcome State Fault Refusal :=
  runOp (.seqEnd b) 0#8 (seqEndOp b.toNat) s

/-- NOP (R445): no effect beyond the removal of its word. -/
def execNop (hint : BitVec 24) (s : State) : Host.Outcome State Fault Refusal :=
  runOp (.nop hint) 0#8 (fun s => .ok (s.record (.nop hint))) s

end Sys2Proof.Machine
end

