-- ==== Sys2Proof/Machine/Dispatch.lean ====
section
/-!
DEFINITION. The meaning of every operation: one arm per constructor of `Instr`, in the opcode table's order.
-/

namespace Sys2Proof.Machine

def exec (i : Instr) (s : State) : Host.Outcome State Fault Refusal :=
  match i with
  | .processPdu tag => Sys2Proof.Machine.execProcessPdu tag s
  | .configureCsiPart2 tag bits gCsi2 gUlsch => Sys2Proof.Machine.execConfigureCsiPart2 tag bits gCsi2 gUlsch s
  | .csi2None tag => Sys2Proof.Machine.execCsi2None tag s
  | .harqFree handle => Sys2Proof.Machine.execHarqFree handle s
  | .nop hint => Sys2Proof.Machine.execNop hint s
  | .reserveView port n owner => Sys2Proof.Machine.execReserveView port n owner s
  | .publishInPlace port n owner => Sys2Proof.Machine.execPublishInPlace port n owner s
  | .publishCopy port owner data => Sys2Proof.Machine.execPublishCopy port owner data s
  | .close port owner => Sys2Proof.Machine.execClose port owner s
  | .cbDecode t r => Sys2Proof.Machine.execCbDecode t r s
  | .cbRateDematch t r => Sys2Proof.Machine.execCbRateDematch t r s
  | .chest b => Sys2Proof.Machine.execChest b s
  | .demodSymbol b l => Sys2Proof.Machine.execDemodSymbol b l s
  | .descramble b n => Sys2Proof.Machine.execDescramble b n s
  | .endStats b => Sys2Proof.Machine.execEndStats b s
  | .demuxSymbol b l => Sys2Proof.Machine.execDemuxSymbol b l s
  | .demuxFlush b => Sys2Proof.Machine.execDemuxFlush b s
  | .uciDecode b f => Sys2Proof.Machine.execUciDecode b f s
  | .tbConfigure t => Sys2Proof.Machine.execTbConfigure t s
  | .setNofSoftbits t => Sys2Proof.Machine.execSetNofSoftbits t s
  | .closeDispatch t => Sys2Proof.Machine.execCloseDispatch t s
  | .closeCommit t => Sys2Proof.Machine.execCloseCommit t s
  | .cbComplete t r => Sys2Proof.Machine.execCbComplete t r s
  | .tbJoin t => Sys2Proof.Machine.execTbJoin t s
  | .seqEnd b => Sys2Proof.Machine.execSeqEnd b s
  | .demuxResume b l => Sys2Proof.Machine.execDemuxResume b l s

end Sys2Proof.Machine
end

