-- ==== Sys2Proof/Machine/HostBus.lean ====
section
/-!
DEFINITION. What HOST does on its bus: CSR loads and stores (spec/10_state.md R31 to R43, spec/20_memory.md R107, R108) and
DMEM accesses (R100, R114). A load leaves its value in `rdata` (log 10).
-/

namespace Sys2Proof.Machine

/-- The value of a CSR load that has no side effect (R31 to R43); CMD and every unlisted offset read 0. -/
def State.csrValue (s : State) (off : BitVec 12) : Word :=
  match off with
  | 0x000#12 => idWord
  | 0x004#12 => paramWord s.params 0
  | 0x008#12 => paramWord s.params 1
  | 0x00C#12 => paramWord s.params 2
  | 0x010#12 => paramWord s.params 3
  | 0x014#12 => paramWord s.params 4
  | 0x018#12 => paramWord s.params 5
  | 0x020#12 => s.statusWord
  | 0x024#12 => s.errWord
  | 0x028#12 => 0#29 ++ s.irqStatus
  | 0x02C#12 => 0#29 ++ s.irqEnable
  | 0x038#12 => s.evtCount
  | 0x040#12 => s.decCfg
  | _ => (descRead s.desc off).getD 0#32

/-- What popping the word `w` tells of the record it belongs to (R160, R114; log 12): a header starts a record of LEN payload
words, and a SCH_RESULT header closes its PDU's window. -/
def State.notePop (s : State) (w : Word) : State :=
  if s.popLeft = 0 then
    { s with
      popLeft := field w 0 16
      windows := if Word.opc w = 0x04#8 then closeWindow (Word.unit w) s.windows else s.windows }
  else { s with popLeft := s.popLeft - 1 }

/-- A load of EVT (R39). -/
def State.popEvent (s : State) : State :=
  match s.evq with
  | [] => { s with rdata := 0#32 }
  | w :: rest => { s.notePop w with evq := rest, rdata := w }

/-- A CSR load (R39, R108). -/
def State.csrRead (s : State) (off : BitVec 12) : State :=
  if off = 0x034#12 then s.popEvent else { s with rdata := s.csrValue off }

/-- A store to CMD (R38, R465): dropped silently in the fatal state, CMDQ_OVERFLOW while the FIFO is full. -/
def State.pushCommand (s : State) (v : Word) : State :=
  if s.fatal then s
  else if s.cmdqFull then s.noteCmdError .cmdqOverflow 0#24
  else { s with cmdq := s.cmdq ++ [v] }

/-- A CSR store (R36 to R43, R108): only writable bits are stored, and other offsets ignore it. -/
def State.csrWrite (s : State) (off : BitVec 12) (v : Word) : State :=
  match off with
  | 0x028#12 => { s with cmdErr := s.cmdErr && !v.getLsbD 1 }
  | 0x02C#12 => { s with irqEnable := v.extractLsb' 0 3 }
  | 0x030#12 => s.pushCommand v
  | 0x040#12 => { s with decCfg := v &&& decCfgMask }
  | _ => { s with desc := descWrite s.desc off v }

/-- A CSR access is 32 bits wide and 4-byte aligned (R107). -/
def csrAligned (width : Nat) (off : BitVec 12) : Bool := decide (width = 32) && decide (off.extractLsb' 0 2 = 0#2)

/-- A step of HOST (R11, R107). -/
def stepHost (op : HostOp) (s : State) : Host.Outcome State Fault Refusal :=
  match op with
  | .csrRead width off => if csrAligned width off then .next (s.csrRead off) else .refused .busError
  | .csrWrite width off v => if csrAligned width off then .next (s.csrWrite off v) else .refused .busError
  | .dmemRead a => .next (s.dmemRead a.toNat)
  | .dmemWrite a v => .next (s.dmemWrite a.toNat v)

end Sys2Proof.Machine
end

