-- ==== Sys2Proof/Machine/Agents.lean ====
section
/-!
DEFINITION. The steps of the agents (spec/00_scope.md R11) and whose turn it is (spec/20_memory.md R110).
-/

namespace Sys2Proof.Machine

/-- A step that removed a command or a task holds with nothing removed (R15): `s` is the state before the removal. -/
def settle (s : State) (o : Host.Outcome State Fault Refusal) : Host.Outcome State Fault Refusal :=
  match o with
  | .next t => if t.held then .next s.hold else .next t
  | .fault r => .fault r
  | .refused r => .refused r

/-- A CMDU step (R142, R447). The words of an illegal or malformed command are removed with the error (R142, R462). -/
def stepCmdu (s : State) : Host.Outcome State Fault Refusal :=
  if s.fatal then .next s.hold
  else
    match s.cmdq with
    | [] => .next s.hold
    | w :: rest =>
      match decodeCommand (w :: rest) with
      | .ok (i, left) => settle s (exec i { s with cmdq := left })
      | .error (.illegalOpcode opc) =>
        settle s (State.takeStop { s with cmdq := rest } [w] w.unit (.cmdError .illegalOpcode (0#16 ++ opc)))
      | .error (.reservedField opc) =>
        settle s (State.takeStop { s with cmdq := rest.drop (hostNarg opc) } [w] w.unit
          (.cmdError .reservedFieldNonzero (0#16 ++ opc)))
      | .error (.missingWords _) => .next s.hold
      | .error .noWord => .next s.hold

/-- The COMMIT step (R434) of bundle `b`, which holds TB context `t`. -/
def commitStep (b t : Nat) (s : State) : Host.Outcome State Fault Refusal :=
  match exec (.closeCommit (BitVec.ofNat 8 t)) s with
  | .next u => if u.held ∨ u.fatal = true then .next u else .next (u.modBundle b (fun x => { x with phase := .free }))
  | .fault r => .fault r
  | .refused r => .refused r

/-- A SEQ[b] step (R430): the one operation its phase enables. -/
def stepSeq (b : Nat) (s : State) : Host.Outcome State Fault Refusal :=
  match s.bundles[b]? with
  | none => .next s.hold
  | some x =>
    match x.phase with
    | .free => .next s.hold
    | .holdCsi2 => .next s.hold
    | .chest => exec (.chest (BitVec.ofNat 8 b)) s
    | .demod => exec (.demodSymbol (BitVec.ofNat 8 b) (BitVec.ofNat 16 x.l)) s
    | .resume => exec (.demuxResume (BitVec.ofNat 8 b) (BitVec.ofNat 16 x.l)) s
    | .endPdu => exec (.seqEnd (BitVec.ofNat 8 b)) s
    | .commit => commitStep b x.tbx s

/-- CBE[e] runs the task behind the first `i` of the task queue to completion in one atomic step, which leaves `head` as the
queue's head. Where those `i` tasks can not be in the hands of other engines, it is not enabled. -/
def runTask (e i : Nat) (head : QueueHead) (s : State) : Host.Outcome State Fault Refusal :=
  if s.fatal ∨ s.params.nCbe ≤ e ∨ s.params.nCbe ≤ i then .next s.hold
  else
    match s.taskq[i]? with
    | none => .next s.hold
    | some w =>
      let rest : State := { s with taskq := s.taskq.eraseIdx i, taskHead := head }
      match decodeTask w with
      | some op => settle s (exec op rest)
      | none => State.takeStop rest [w] 0#8 (.fatal .stateViolation)

/-- A CBE[e] step (R340): the task at the head of the task queue. -/
def stepCbe (e : Nat) (s : State) : Host.Outcome State Fault Refusal := runTask e 0 s.taskHead.next s

/-- CBE[e] completes a task ahead of `i` earlier ones, so that codeblocks complete in any order, as R340 says and order (a) of R360
has it. DESIGN CHOICE (log 32): the earlier tasks, which other engines have taken, stay in the queue until they complete, and no
more tasks complete ahead of the head than `Config.taskPasses` of it, so that the head runs too (R526). -/
def stepCbeAhead (e i : Nat) (s : State) : Host.Outcome State Fault Refusal :=
  if 0 < i ∧ s.taskHead.passed < Config.taskPasses s.taskHead.number then runTask e i s.taskHead.pass s else .next s.hold

/-- The turn in which a producing unit issues one operation, given as its words (R140; log 8). -/
def stepIssue (ws : List Word) (s : State) : Host.Outcome State Fault Refusal :=
  match decode ws with
  | .ok (i, []) => exec i s
  | .ok (_, _ :: _) => .refused .malformedOperation
  | .error _ => .refused .malformedOperation

/-- One turn of an agent. -/
def runAgent (a : Agent) (s : State) : Host.Outcome State Fault Refusal :=
  match a with
  | .host op => stepHost op s
  | .cmdu => stepCmdu s
  | .seq b => stepSeq b s
  | .cbe e => stepCbe e s
  | .cbeAhead e i => stepCbeAhead e i s
  | .resetInput => .next s.applyReset

/-- One turn. -/
def runTurn (t : Turn) (s : State) : Host.Outcome State Fault Refusal :=
  match t with
  | .agent a => runAgent a s
  | .issue ws => stepIssue ws s

/-- The next turn, and the state with that turn taken out: the head of `sched`, or a free one (R110; log 7). -/
def State.takeTurn (s : State) : Turn × State :=
  match s.sched with
  | t :: rest => (t, { s with sched := rest, held := false })
  | [] => (.agent (Config.nextAgent s.turnNo), { s with turnNo := s.turnNo + 1, held := false })

/-- One step of the block. -/
def stepTurn (s : State) : Host.Outcome State Fault Refusal := runTurn s.takeTurn.1 s.takeTurn.2

/-- The words `ws` placed where the next step takes its operation from: a task at the head of the task queue with a turn of
CBE[0], a stream-port operation or micro-operation in an issue turn, any other words at the head of the command FIFO with a
turn of CMDU (R140; log 8). -/
def State.placeWords (s : State) (ws : List Word) : State :=
  let opc := Word.opc (ws.headD 0#32)
  if opc = 0x20#8 ∨ opc = 0x21#8 then
    { s with taskq := ws ++ s.taskq, sched := .agent (.cbe 0) :: s.sched }
  else if (0x10 ≤ opc.toNat ∧ opc.toNat ≤ 0x12) ∨ (0x30 ≤ opc.toNat ∧ opc.toNat ≤ 0x3E) then
    { s with sched := .issue ws :: s.sched }
  else { s with cmdq := ws ++ s.cmdq, sched := .agent .cmdu :: s.sched }

end Sys2Proof.Machine
end

