-- ==== Sys2Proof/Machine/Step.lean ====
section
/-!
DEFINITION. One step of the block, and the host's word placed where it is run next.
-/

namespace Sys2Proof.Machine

/-- One step of the block (spec/20_memory.md R110). -/
def step (s : State) : Host.Outcome State Fault Refusal := stepTurn s

/-- The state with the instruction whose bits are `w` placed where the very next step runs it (log 8). -/
def State.withFetchWord (s : State) (nbits w : Nat) : State := s.placeWords (tableWords nbits w)

end Sys2Proof.Machine
end

