-- ==== Sys2Proof/Safety.lean ====
section
/-!
DEFINITION. What claims call a sound state of the block: bounded FIFOs, the instance's units, DMEM in its canonical form,
reserved register bits 0, no view on a closed port, every LOCKED HARQ handle held by exactly one attempt, and ERR telling why
the block is stopped.
-/

namespace Sys2Proof

/-! ### Reserved bits (spec/10_state.md R41, R42) -/

/-- The writable bits of every descriptor register. -/
def Descriptor.writable (d : Descriptor) : Descriptor where
  bwp := d.bwp &&& Machine.descMask.bwp
  alloc := d.alloc &&& Machine.descMask.alloc
  symb := d.symb &&& Machine.descMask.symb
  dmrs := d.dmrs &&& Machine.descMask.dmrs
  mod := d.mod &&& Machine.descMask.mod
  tbs := d.tbs &&& Machine.descMask.tbs
  lbrm := d.lbrm &&& Machine.descMask.lbrm
  harq := d.harq &&& Machine.descMask.harq
  scr := d.scr &&& Machine.descMask.scr
  ack := d.ack &&& Machine.descMask.ack
  gAck := d.gAck &&& Machine.descMask.gAck
  gAckRvd := d.gAckRvd &&& Machine.descMask.gAckRvd
  csi1 := d.csi1 &&& Machine.descMask.csi1
  gCsi1 := d.gCsi1 &&& Machine.descMask.gCsi1
  gUlsch := d.gUlsch &&& Machine.descMask.gUlsch
  tbDest := d.tbDest &&& Machine.descMask.tbDest
  nrx := d.nrx &&& Machine.descMask.nrx

/-- Every reserved bit of the descriptor registers is 0. -/
def Descriptor.masked (d : Descriptor) : Prop := d.writable = d

/-- The operations that a join can be part of (spec/43_tb_decoder.md R338, R343, R346). -/
def Instr.canJoin : Instr → Bool
  | .processPdu _ => false
  | .configureCsiPart2 _ _ _ _ => false
  | .csi2None _ => false
  | .harqFree _ => false
  | .nop _ => false
  | .reserveView _ _ _ => false
  | .publishInPlace _ _ _ => false
  | .publishCopy _ _ _ => false
  | .close _ _ => false
  | .cbDecode _ _ => true
  | .cbRateDematch _ _ => true
  | .chest _ => false
  | .demodSymbol _ _ => false
  | .descramble _ _ => false
  | .endStats _ => false
  | .demuxSymbol _ _ => false
  | .demuxFlush _ => false
  | .uciDecode _ _ => false
  | .tbConfigure _ => false
  | .setNofSoftbits _ => false
  | .closeDispatch _ => false
  | .closeCommit _ => true
  | .cbComplete _ _ => true
  | .tbJoin _ => true
  | .seqEnd _ => false
  | .demuxResume _ _ => false

/-- The codeblock tasks, which come from the task queue (spec/43_tb_decoder.md R340). -/
def Instr.isTask : Instr → Bool
  | .processPdu _ => false
  | .configureCsiPart2 _ _ _ _ => false
  | .csi2None _ => false
  | .harqFree _ => false
  | .nop _ => false
  | .reserveView _ _ _ => false
  | .publishInPlace _ _ _ => false
  | .publishCopy _ _ _ => false
  | .close _ _ => false
  | .cbDecode _ _ => true
  | .cbRateDematch _ _ => true
  | .chest _ => false
  | .demodSymbol _ _ => false
  | .descramble _ _ => false
  | .endStats _ => false
  | .demuxSymbol _ _ => false
  | .demuxFlush _ => false
  | .uciDecode _ _ => false
  | .tbConfigure _ => false
  | .setNofSoftbits _ => false
  | .closeDispatch _ => false
  | .closeCommit _ => false
  | .cbComplete _ _ => false
  | .tbJoin _ => false
  | .seqEnd _ => false
  | .demuxResume _ _ => false

/-! ### Agents (spec/00_scope.md R11) -/

/-- The agents of R11. -/
inductive Actor where
  | host
  | cmdu
  | seq (b : Nat)
  | cbe (e : Nat)
  deriving DecidableEq, Repr

/-- Whose step a turn is: both turns of an engine are steps of that engine, and the reset input is no agent. -/
def Agent.actor : Agent → Option Actor
  | .host _ => some .host
  | .cmdu => some .cmdu
  | .seq b => some (.seq b)
  | .cbe e => some (.cbe e)
  | .cbeAhead e _ => some (.cbe e)
  | .resetInput => none

end Sys2Proof

namespace Sys2Proof.Machine

/-! ### Ports (spec/40_stream.md R204, R207) -/

/-- A CLOSED port has no view. -/
def Port.viewOk (p : Port) : Prop := p.isOpen = false → p.viewLen = 0

/-- No CLOSED port of the bundle has a view. -/
def Bundle.viewsOk (x : Bundle) : Prop :=
  x.demuxIn.viewOk ∧ x.ack.port.viewOk ∧ x.csi1.port.viewOk ∧ x.csi2.port.viewOk

/-! ### The invariant of every step -/

/-- What holds at reset and after every step. -/
structure State.Sound (s : State) : Prop where
  /-- The instance has its N_BUNDLES, N_TBDEC and N_HARQ units (R45, R50, R51). -/
  bundleCount : s.bundles.length = s.params.nBundles
  tbCount : s.tbs.length = s.params.nTbdec
  harqCount : s.harq.length = s.params.nHarq
  /-- No FIFO holds more words than its depth (R60, R61, R62). -/
  cmdqBound : s.cmdq.length ≤ s.params.cmdqDepth
  evqBound : s.evq.length ≤ s.params.evqDepth
  taskqBound : s.taskq.length ≤ s.params.taskqDepth
  /-- DMEM is in its canonical form (R100). -/
  dmemForm : Memory.wf s.dmem = true
  /-- Reserved bits read 0 (R41, R42), in the registers and in every latched descriptor (R421). -/
  decCfgMasked : s.decCfg &&& decCfgMask = s.decCfg
  descMasked : s.desc.masked
  latchedMasked : ∀ x ∈ s.bundles, x.d.masked
  /-- No CLOSED port has a view (R204, R207). -/
  bundleViews : ∀ x ∈ s.bundles, x.viewsOk
  schViews : ∀ x ∈ s.tbs, x.sch.viewOk
  /-- In the fatal state, ERR holds a fatal code with detail 0 (R465). -/
  fatalCode : s.fatal = true → s.errDetail = 0#24 ∧ ∃ c : FatalCode, s.errCode = c.code

/-! ### HARQ handles (spec/20_memory.md R117, spec/43_tb_decoder.md R348) -/

/-- The handle that TB context `t` holds: a context at work holds the one it has leased (R331). -/
def State.holds (s : State) (t : Nat) : Option Nat :=
  match s.tbs[t]? with
  | some x => if x.fsm = .idle then none else some x.handle
  | none => none

/-- Handle `h` is LOCKED. -/
def State.lockedAt (s : State) (h : Nat) : Prop := (s.harq[h]?.map (fun y => y.hstate)) = some .locked

/-- A handle is LOCKED exactly while one TB context holds it, and no two contexts hold the same handle. -/
structure State.Exclusive (s : State) : Prop where
  lockedIff : ∀ h, s.lockedAt h ↔ ∃ t, s.holds t = some h
  unique : ∀ t u h, s.holds t = some h → s.holds u = some h → t = u

/-! ### When operations complete -/

/-- No UCI soft bits are due in the bundle's current symbol, and CSI Part 2 is not awaited (R237, R238, R247). -/
def Bundle.noUciDue (p : Params) (x : Bundle) : Prop :=
  let y := partitionA p x.d x.l x.dm.bud
  y.1.a = [] ∧ y.1.c1 = [] ∧ x.dm.csi2State ≠ .await ∧
    (partitionB x.d (decide (x.dm.csi2State = .configured)) y.1 y.2).1.c2 = []

/-- The sets of the bundle's current symbol after steps 4 and 5, where no field closes in between (R237, R238). -/
def Bundle.symbolSets (p : Params) (x : Bundle) : Sets × Budgets :=
  let y := partitionA p x.d x.l x.dm.bud
  partitionB x.d (decide (x.dm.csi2State = .configured)) y.1 y.2

/-- The SCH port of a TB context is OPEN, bound REAL, and takes `n` more soft bits (R205). -/
def TbCtx.takes (x : TbCtx) (n : Nat) : Prop := x.sch.isOpen = true ∧ x.sch.bound = .real ∧ x.sch.count + n ≤ x.g

/-- Slots `i` to `i + n - 1` of `new` hold the soft bits `f 0`, `f 1`, ..., each of which has a value, and every other slot what it
held in `old`. -/
def Slots.holdsFrom (old new : Slots) (i n : Nat) (f : Nat → Option Llr) : Prop :=
  (∀ j, j < n → ∃ v, f j = some v ∧ new[i + j]? = some (some v)) ∧ ∀ k, (k < i ∨ i + n ≤ k) → new[k]?.join = old[k]?.join

/-- Soft bit `q` of position `i` in the bundle's symbol buffer (R241). -/
def Bundle.softBit (x : Bundle) (i q : Nat) : Option Llr := (x.dm.symBuf[i * bpr x.d + q]?).join

/-- The same as a UCI field of `payload` bits gets it: of 2 bits or less, negated behind the first `payload` bits of its
modulation symbol where its scrambling bit and that of the symbol's last information bit differ (R242). -/
def Bundle.fieldBit (x : Bundle) (payload i q : Nat) : Option Llr :=
  let p := x.cwPos + i * bpr x.d + q
  let c := scrambleBit (cInit x.d)
  (x.softBit i q).map (fun v =>
    if payload ≤ 2 ∧ payload ≤ p % qm x.d ∧ c p ≠ c (p - p % qm x.d + payload - 1) then -v else v)

/-- From `u` to `u'`, the field's port has got the soft bits of the positions `xs`, as a field of `payload` bits gets them (R244).
A port bound NULL counts them only (R206). -/
def Bundle.gives (x : Bundle) (payload : Nat) (xs : List Nat) (u u' : FieldUnit) : Prop :=
  let k := bpr x.d
  u'.port.count = u.port.count + xs.length * k ∧
  (u.port.bound = .null → u'.llr = u.llr) ∧
  (u.port.bound = .real →
    Slots.holdsFrom u.llr u'.llr u.port.count (xs.length * k) (fun j => x.fieldBit payload (xs.getD (j / k) 0) (j % k)))

/-- From `c` to `c'`, SCH has got the soft bits that `emit_sch` publishes of the sets `z`: under TO_ULSCH, 0 for those of HARQ-ACK
positions (R249). -/
def Bundle.givesSch (x : Bundle) (p : Params) (z : Sets) (c c' : TbCtx) : Prop :=
  let k := bpr x.d
  let xs := schPositions p x.d x.l z
  c'.sch.count = c.sch.count + xs.length * k ∧
  (c.sch.bound = .null → c'.stage = c.stage) ∧
  (c.sch.bound = .real →
    Slots.holdsFrom c.stage c'.stage c.sch.count (xs.length * k) (fun j =>
      (x.softBit (xs.getD (j / k) 0) (j % k)).map (fun v =>
        if p.rsvdForward = .toUlsch ∧ xs.getD (j / k) 0 ∈ z.a then 0#8 else v)))

/-- A close of the field's port decodes nothing: the port is CLOSED or bound NULL (R206). -/
def FieldUnit.quiet (u : FieldUnit) : Prop := u.port.isOpen = true → u.port.bound = .null

/-- The field with its port closed (R204). -/
def FieldUnit.shut (u : FieldUnit) : FieldUnit :=
  if u.port.isOpen = true then { u with port := { u.port with isOpen := false, viewLen := 0 } } else u

/-- The bundle as DEMUX_FLUSH leaves it where its field ports decode nothing (R252). -/
def Bundle.flushed (x : Bundle) : Bundle :=
  { x with
    ack := x.ack.shut
    csi1 := x.csi1.shut
    csi2 := x.csi2.shut
    dm := { x.dm with
      csi2State := if x.dm.csi2State = .waiting ∨ x.dm.csi2State = .await then .declined else x.dm.csi2State } }

/-- The words of the closes that DEMUX_FLUSH of bundle `b` issues for its field ports (R252). -/
def Bundle.closeWords (x : Bundle) (b : BitVec 8) : List Word :=
  (if x.ack.port.isOpen = true then encode (.close 2#4 b) else []) ++
    (if x.csi1.port.isOpen = true then encode (.close 3#4 b) else []) ++
    (if x.csi2.port.isOpen = true then encode (.close 4#4 b) else [])

/-- TB context `t` can dispatch (R336): it is COLLECTING, has got exactly its budget, has the buffers of its codeblocks, and the
task queue takes all of its tasks. -/
def State.dispatchable (s : State) (t : Nat) : Prop :=
  ∃ x h, s.tbs[t]? = some x ∧ s.harq[x.handle]? = some h ∧ x.fsm = .collecting ∧ x.sch.count = x.g ∧
    1 ≤ s.params.nCbe ∧ 1 < nofCodeblocks x.tbs x.bg ∧ nofCodeblocks x.tbs x.bg ≤ h.cbs.length ∧
    s.taskq.length + nofCodeblocks x.tbs x.bg ≤ s.params.taskqDepth

/-! ### Progress under a fair scheduler (spec/00_scope.md R11, spec/70_reset_and_hazards.md R526) -/

/-- The agent has a step to take: some turn of it does not hold. -/
def State.enabled (s : State) (x : Actor) : Prop :=
  ∃ a t, a.actor = some x ∧ runAgent a { s with held := false } = .next t ∧ t.held = false

/-- The step from `s` to `t` is one of the agent's, and not a hold. -/
def State.takes (s t : State) (x : Actor) : Prop :=
  ∃ a, s.takeTurn.1 = .agent a ∧ a.actor = some x ∧ t.held = false

/-- A run without end under a fair scheduler: every agent that stays enabled eventually takes a step (R526). -/
structure FairRun (r : Nat → State) : Prop where
  steps : ∀ n, step (r n) = .next (r (n + 1))
  fair : ∀ x n, (∀ m, n ≤ m → (r m).enabled x) → ∃ m, n ≤ m ∧ (r m).takes (r (m + 1)) x

/-- Where the step from `s` to `t` leaves the task that was at place `j` of the task queue: nowhere, once it has run or a reset has
emptied the queue. -/
def State.place (s t : State) (j : Nat) : Option Nat :=
  if t.held = true then some j
  else
    match s.takeTurn.1 with
    | .agent (.cbe _) => if j = 0 then none else some (j - 1)
    | .agent (.cbeAhead _ i) => if j = i then none else if j < i then some j else some (j - 1)
    | .agent .resetInput => none
    | .agent (.host _) => some j
    | .agent .cmdu => some j
    | .agent (.seq _) => some j
    | .issue _ => some j

/-- Where the task at place `j` of step `n`'s queue waits `m` steps later. -/
def waitsAt (r : Nat → State) (n j : Nat) : Nat → Option Nat
  | 0 => some j
  | m + 1 => (waitsAt r n j m).bind (fun k => (r (n + m)).place (r (n + m + 1)) k)

end Sys2Proof.Machine
end

