-- ==== Sys2Proof/Certificates/Slice0/Obligations.lean ====
section
/-!
DEFINITION. What the provers are asked to prove about the block. `s`, `t`, `u` are states; a conclusion
`exec i s = .next t` gives the whole next state, so it says what changes and that nothing else does. "In the model's own form"
names the parts of a statement that speak of the model's own fields and free values, with the log entries that choose them:
about these the rules it cites say nothing.
-/

open Sys2Proof Sys2Proof.Machine

/-! ### Encoding (spec/30_encoding.md) -/

/-- Decoding the words of a well-formed operation gives it back, with the words after it (R141 to R155). -/
def Obligations.DecodeOfEncode : Prop :=
  ∀ (i : Instr) (rest : List Word), i.wellFormed = true → decode (encode i ++ rest) = .ok (i, rest)

/-- Every word sequence that decodes is the encoding of the operation it gives, which is well-formed: no bit of an operation
is ignored but those its operands hold, and no two word sequences are one operation (R141 to R155). -/
def Obligations.EncodeOfDecode : Prop :=
  ∀ (ws rest : List Word) (i : Instr), decode ws = .ok (i, rest) → i.wellFormed = true ∧ ws = encode i ++ rest

/-- Words written out from the encoding tables decode to the operations they stand for (R144, R145, R147, R150, R152). -/
def Obligations.WrittenWordsDecode : Prop :=
  decode [0x01070000#32] = .ok (.processPdu 7#8, []) ∧
  decode [0x02090005#32, 0x00000014#32, 0x000000F6#32] = .ok (.configureCsiPart2 9#8 5#11 20#24 246#24, []) ∧
  decode [0x10000018#32, 0x00000001#32] = .ok (.reserveView 0#4 24#19 1#8, []) ∧
  decode [0x11200004#32, 0x00000000#32, 0xF20D0201#32] =
    .ok (.publishCopy 2#4 0#8 [0x01#8, 0x02#8, 0x0D#8, 0xF2#8], []) ∧
  decode [0x12100000#32, 0x00000001#32] = .ok (.close 1#4 1#8, []) ∧
  decode [0x20010002#32] = .ok (.cbDecode 1#8 2#16, []) ∧
  decode [0x31000003#32] = .ok (.demodSymbol 0#8 3#16, []) ∧
  decode [0x36010002#32] = .ok (.uciDecode 1#8 .csi2, [])

/-! ### Steps (spec/00_scope.md R11, spec/20_memory.md R110) -/

/-- A step runs the decoded operation. An issue turn runs the operation its words decode to; a turn of CMDU the command at the
head of the command FIFO, its words removed (R142); a turn of a codeblock engine the task at the head of the task queue
(R340), or, ahead of `k` tasks that other engines have taken, the one behind them (order (a) of R360). Around `exec` a step takes
the turn out of `sched`, clears `held`, and gives a removed command or task back when the operation holds (R15; logs 7, 8, 9).
In the model's own form: that tasks which other engines have taken are still in the queue, and that only so many tasks complete
ahead of the queue's head as its `Config.taskPasses` allows, a free number, which `taskHead` counts (log 32). -/
def Obligations.StepRunsTheDecodedOperation : Prop :=
  ∀ (s s0 : State) (i : Instr) (turns : List Turn), s0 = { s with sched := turns, held := false } →
    (∀ ws, s.sched = .issue ws :: turns → decode ws = .ok (i, []) → step s = exec i s0) ∧
    (∀ left, s.sched = .agent .cmdu :: turns → s.fatal = false → decodeCommand s.cmdq = .ok (i, left) →
      step s = match exec i { s0 with cmdq := left } with
        | .next t => .next (if t.held then { s0 with held := true } else t)
        | .fault r => .fault r
        | .refused r => .refused r) ∧
    (∀ e w tasks, s.sched = .agent (.cbe e) :: turns → s.fatal = false → e < s.params.nCbe → s.taskq = w :: tasks →
      decodeTask w = some i →
      step s = match exec i { s0 with taskq := tasks, taskHead := s.taskHead.next } with
        | .next t => .next (if t.held then { s0 with held := true } else t)
        | .fault r => .fault r
        | .refused r => .refused r) ∧
    ∀ e k w earlier later, s.sched = .agent (.cbeAhead e k) :: turns → s.fatal = false → e < s.params.nCbe →
      k < s.params.nCbe → s.taskq = earlier ++ w :: later → earlier.length = k → decodeTask w = some i →
      step s = if 0 < k ∧ s.taskHead.passed < Config.taskPasses s.taskHead.number then
          match exec i { s0 with taskq := earlier ++ later, taskHead := s.taskHead.pass } with
          | .next t => .next (if t.held then { s0 with held := true } else t)
          | .fault r => .fault r
          | .refused r => .refused r
        else .next { s0 with held := true }

/-- The words of a well-formed operation, placed where the host's `withFetchWord` places them, are what the very next step
runs: a codeblock task from the task queue, an internal operation in an issue turn, a host command from the command FIFO. In
the last step's state nothing else of the placing is left when the operation does not hold (log 8). In the model's own form:
what a hold leaves (log 9) and the count of the task queue's heads (log 32). -/
def Obligations.PlacedOperationRunsNext : Prop :=
  ∀ (s s0 : State) (i : Instr), i.wellFormed = true → s.fatal = false → 0 < s.params.nCbe →
    s0 = { s with
      held := false
      taskHead := if i.isTask = true then s.taskHead.next else s.taskHead } →
    (∀ t, exec i s0 = .next t → t.held = false → step (s.placeWords (encode i)) = .next t) ∧
    (∀ r, exec i s0 = .fault r → step (s.placeWords (encode i)) = .fault r)

/-- R430, the steps of SEQ[b]: FREE and HOLD_CSI2 have none; in every other phase, a step that does not hold or stop the block
takes one of the transitions of the table. In the model's own form: what a hold leaves (log 9). -/
def Obligations.SequencerPhases : Prop :=
  ∀ (s : State) (b : Nat) (x : Bundle), s.bundles[b]? = some x → b < 256 →
    ((x.phase = .free ∨ x.phase = .holdCsi2) → runAgent (.seq b) s = .next s.hold) ∧
    (∀ t y, runAgent (.seq b) s = .next t → t.held = false → t.fatal = false → t.bundles[b]? = some y →
      (x.phase = .chest ∧ y.phase = .demod) ∨
      (x.phase = .demod ∧ (y.phase = .demod ∨ y.phase = .endPdu ∨ y.phase = .holdCsi2)) ∨
      (x.phase = .resume ∧ (y.phase = .demod ∨ y.phase = .endPdu)) ∨
      (x.phase = .endPdu ∧ y.phase = .commit) ∨
      (x.phase = .commit ∧ y.phase = .free))

/-! ### Invariants -/

/-- Every step keeps `State.Sound`: the units and bounds of the FIFOs (R45, R50, R51, R60 to R62), DMEM's canonical form
(R100), reserved bits 0 (R41, R42), no view on a closed port (R204, R207), and ERR holding a fatal code while the block is
stopped (R465). -/
def Obligations.SoundKept : Prop :=
  ∀ s t : State, s.Sound → step s = .next t → t.Sound

/-- Every step keeps the exclusive ownership of HARQ handles: a handle is LOCKED exactly while one TB context at work holds it,
and no two contexts hold the same one (R117, R348). -/
def Obligations.HandleOwnershipKept : Prop :=
  ∀ s t : State, s.Exclusive → step s = .next t → t.Exclusive

/-- Both invariants hold right after reset, for every instance. -/
def Obligations.InvariantsAtReset : Prop :=
  (∀ p : Params, (State.resetOf p).Sound ∧ (State.resetOf p).Exclusive) ∧ State.reset.Sound ∧ State.reset.Exclusive

/-! ### Exceptions (spec/60_exceptions.md) -/

/-- R465: in the fatal state no operation has an effect, and no CMDU, SEQ or CBE step is enabled. In the model's own form: what
a hold leaves (log 9) and `cbeAhead` (log 32). -/
def Obligations.NothingRunsWhileFatal : Prop :=
  ∀ s : State, s.fatal = true →
    (∀ i, exec i s = .next s.hold) ∧ runAgent .cmdu s = .next s.hold ∧
    (∀ b, runAgent (.seq b) s = .next s.hold) ∧ (∀ e, runAgent (.cbe e) s = .next s.hold) ∧
    ∀ e k, runAgent (.cbeAhead e k) s = .next s.hold

/-- R465, R468: only reset leaves the fatal state; until then ERR and the units stay, the event FIFO only loses the word at its
head, and only to HOST, and no other turn than HOST's changes DMEM. -/
def Obligations.OnlyResetLeavesFatal : Prop :=
  ∀ s t : State, s.fatal = true → step s = .next t →
    s.takeTurn.1 = .agent .resetInput ∨
    (t.fatal = true ∧ t.errCode = s.errCode ∧ t.errDetail = s.errDetail ∧ t.cmdq = s.cmdq ∧ t.taskq = s.taskq ∧
      t.bundles = s.bundles ∧ t.tbs = s.tbs ∧ t.harq = s.harq ∧ (t.evq = s.evq ∨ t.evq = s.evq.tail) ∧
      ((∀ op, s.takeTurn.1 ≠ .agent (.host op)) → t.evq = s.evq ∧ t.dmem = s.dmem))

/-- Everything a completed operation, a hold, a command error or a fatal error can do to the host's registers and FIFOs. A hold
changes `held` alone (R15); a fatal error sets `fatal` and ERR and discards the rest (R465); a command error sets ERR and
CMDERR and emits ERROR, and discards the rest (R462); the trace records the operation that raised either (R153); a completed
operation leaves every host register, the command FIFO and the interrupt enables alone and only appends to the event FIFO (R35,
R36, R111). In the model's own form: turns (log 7), what a hold leaves (log 9), `rdata` (log 10), output ranges (log 12),
the trace (log 19) and the count of the task queue's heads (log 32). -/
def Obligations.OperationOutcomes : Prop :=
  ∀ (i : Instr) (s t : State), exec i s = .next t →
    t = s.hold ∨
    (∃ c : FatalCode, t = { s.record i with fatal := true, errCode := c.code, errDetail := 0#24 }) ∨
    (∃ (tag : BitVec 8) (c : CmdCode) (d : BitVec 24), s.evq.length + 2 ≤ s.params.evqDepth ∧
      t = { s.record i with
        errCode := c.code
        errDetail := d
        cmdErr := true
        evq := s.evq ++ [0x05#8 ++ tag ++ 1#16, d ++ c.code] }) ∨
    (t.fatal = s.fatal ∧ t.errCode = s.errCode ∧ t.errDetail = s.errDetail ∧ t.cmdErr = s.cmdErr ∧
      t.irqEnable = s.irqEnable ∧ t.decCfg = s.decCfg ∧ t.desc = s.desc ∧ t.params = s.params ∧ t.cmdq = s.cmdq ∧
      t.rdata = s.rdata ∧ t.popLeft = s.popLeft ∧ t.sched = s.sched ∧ t.turnNo = s.turnNo ∧ t.held = s.held ∧
      t.taskHead = s.taskHead ∧ ∃ ws, t.evq = s.evq ++ ws)

/-! ### DMEM (spec/20_memory.md R100, R103) -/

/-- R103: the block writes DMEM only from TB_JOIN; an operation that no join is part of leaves every byte alone. In the model's
own form: output ranges (log 12). -/
def Obligations.OnlyJoinsWriteDmem : Prop :=
  ∀ (i : Instr) (s t : State), i.canJoin = false → exec i s = .next t → t.dmem = s.dmem ∧ t.freeNo = s.freeNo

/-- The join is the only way to DMEM, and it writes only the joining PDU's output range `[tb_dest, tb_dest + A/8)` (R103, R350):
after an operation on TB context `u` that a join can be part of, every other byte reads as before. -/
def Obligations.JoinWritesOnlyTheTransportBlock : Prop :=
  ∀ (i : Instr) (u : BitVec 8) (k : BitVec 16) (s t : State) (x : TbCtx),
    (i = .tbJoin u ∨ i = .cbComplete u k ∨ i = .closeCommit u ∨ i = .cbDecode u k ∨ i = .cbRateDematch u k) →
    s.tbs[u.toNat]? = some x → exec i s = .next t →
    ∀ a, (a < x.tbDest ∨ x.tbDest + x.tbs / 8 ≤ a) → Memory.read t.dmem a = Memory.read s.dmem a

/-! ### Reset (spec/70_reset_and_hazards.md) -/

/-- R32: in every state, PARAM0 to PARAM5 read the instance's parameters in the fields of R32, and 0 in their reserved bits.
`MAX_UCI_G / 16` is read modulo 2^16: the legal value MAX_UCI_G = 2^20 does not fit its 16-bit field (R49; log 26). In the
model's own form: `rdata` (log 10). -/
def Obligations.ParameterRegisters : Prop :=
  ∀ s : State, s.params.legal = true →
    ∃ w0 w1 w2 w3 w4 w5 : Word,
      w0 = (s.csrRead 0x004#12).rdata ∧ w1 = (s.csrRead 0x008#12).rdata ∧ w2 = (s.csrRead 0x00C#12).rdata ∧
      w3 = (s.csrRead 0x010#12).rdata ∧ w4 = (s.csrRead 0x014#12).rdata ∧ w5 = (s.csrRead 0x018#12).rdata ∧
      field w0 0 4 = s.params.nBundles ∧ field w0 4 4 = s.params.nTbdec ∧ field w0 8 8 = s.params.nCbe ∧
      field w0 16 8 = s.params.taskqDepth ∧ field w0 24 3 = s.params.nlMax ∧ field w0 27 4 = s.params.nrxMax ∧
      field w0 31 1 = 0 ∧
      field w1 0 9 = s.params.nHarq ∧ field w1 9 7 = 0 ∧ field w1 16 8 = s.params.maxCb ∧ field w1 24 7 = s.params.llrMax ∧
      field w1 31 1 = 0 ∧
      field w2 0 24 = s.params.maxCwBits ∧ (w2.extractLsb' 24 8).toInt = s.params.llrFiller ∧
      w3.toNat = s.params.softbufLlrs ∧
      field w4 0 16 = s.params.cmdqDepth ∧ field w4 16 16 = s.params.maxUciG / 16 % 2 ^ 16 ∧
      field w5 0 16 = s.params.evqDepth ∧ (field w5 16 1 = 1 ↔ s.params.rsvdForward = .discard) ∧
      (field w5 17 1 = 1 ↔ s.params.ackStart = .ts38212) ∧ field w5 18 14 = 0

/-- R502: what a load of each register returns right after reset, for every instance `p` (PARAM0 to PARAM5 are those of
`ParameterRegisters`; a load of CMD and, from an empty FIFO, of EVT returns 0). In the model's own form: `rdata` (log 10). -/
def Obligations.RegistersAfterReset : Prop :=
  ∀ p : Params, p.legal = true →
    ((State.resetOf p).csrRead 0x000#12).rdata = 0x50470007#32 ∧
    ((State.resetOf p).csrRead 0x020#12).rdata =
      BitVec.ofNat 16 (min 65535 p.cmdqDepth) ++ BitVec.ofNat 4 p.nTbdec ++ BitVec.ofNat 4 p.nBundles ++ 0#8 ∧
    (∀ off ∈ [0x024#12, 0x028#12, 0x02C#12, 0x030#12, 0x034#12, 0x038#12, 0x040#12, 0x080#12, 0x084#12, 0x088#12, 0x08C#12,
        0x090#12, 0x094#12, 0x098#12, 0x09C#12, 0x0A0#12, 0x0A4#12, 0x0A8#12, 0x0AC#12, 0x0B0#12, 0x0B4#12, 0x0B8#12,
        0x0BC#12, 0x0C0#12],
      ((State.resetOf p).csrRead off).rdata = 0#32) ∧
    (State.resetOf p).irq = false

/-- R66, R500: a reset, whenever it comes, gives every host register its reset value, leaves the fatal state, empties every
FIFO, frees every bundle, TB context and handle, closes every port, bound NULL with no view and nothing counted, makes every
UCI status UNKNOWN, and does not touch DMEM or the instance's parameters. The model's own trace and counters go on (the model's
choice, log 20). In the model's own form: turns (log 7), output ranges (log 12), numbers of receptions (log 13), the trace
(log 19) and the count of the task queue's heads (log 32). -/
def Obligations.ResetResult : Prop :=
  ∀ (s : State) (turns : List Turn), s.sched = .agent .resetInput :: turns →
    let closed (p : Port) : Prop := p.isOpen = false ∧ p.bound = .null ∧ p.viewLen = 0 ∧ p.count = 0
    ∃ t, step s = .next t ∧ t.dmem = s.dmem ∧ t.params = s.params ∧ t.fatal = false ∧ t.cmdq = [] ∧ t.evq = [] ∧
      t.taskq = [] ∧ t.errWord = 0#32 ∧ t.irqStatus = 0#3 ∧ t.irqEnable = 0#3 ∧ t.decCfg = 0#32 ∧
      t.desc = Descriptor.zero ∧ t.bundles.length = s.params.nBundles ∧ t.tbs.length = s.params.nTbdec ∧
      t.harq.length = s.params.nHarq ∧
      (∀ x ∈ t.bundles, x.phase = .free ∧ closed x.demuxIn ∧ closed x.ack.port ∧ closed x.csi1.port ∧
        closed x.csi2.port ∧ x.ack.status = .unknown ∧ x.csi1.status = .unknown ∧ x.csi2.status = .unknown) ∧
      (∀ x ∈ t.tbs, x.fsm = .idle ∧ closed x.sch) ∧ (∀ h ∈ t.harq, h.hstate = .free) ∧
      t.windows = [] ∧ t.trace = s.trace ∧ t.sched = turns ∧ t.turnNo = s.turnNo ∧ t.freeNo = s.freeNo ∧
      t.gridNo = s.gridNo ∧ t.taskHead = s.taskHead.next

/-- After reset no agent but HOST has an enabled step (R504). In the model's own form: what a hold leaves (log 9) and
`cbeAhead` (log 32). -/
def Obligations.NothingEnabledAfterReset : Prop :=
  ∀ p : Params, runAgent .cmdu (State.resetOf p) = .next (State.resetOf p).hold ∧
    (∀ b, runAgent (.seq b) (State.resetOf p) = .next (State.resetOf p).hold) ∧
    (∀ e, runAgent (.cbe e) (State.resetOf p) = .next (State.resetOf p).hold) ∧
    ∀ e k, runAgent (.cbeAhead e k) (State.resetOf p) = .next (State.resetOf p).hold

/-! ### The host's bus (spec/10_state.md, spec/20_memory.md) -/

/-- R38, R462, R465: a store to CMD appends the word; while the FIFO is full it raises CMDQ_OVERFLOW with detail 0 and no
event; in the fatal state it is dropped. A load of CMD returns 0. That the FIFO counts as full with more than CMDQ_DEPTH words
too, which no run reaches, is read from R34 and R60 by the model (log 22). In the model's own form: `rdata` (log 10). -/
def Obligations.CommandStore : Prop :=
  ∀ (s : State) (v : Word),
    (s.fatal = false → s.cmdq.length < s.params.cmdqDepth →
      runAgent (.host (.csrWrite 32 0x030#12 v)) s = .next { s with cmdq := s.cmdq ++ [v] }) ∧
    (s.fatal = false → s.params.cmdqDepth ≤ s.cmdq.length →
      runAgent (.host (.csrWrite 32 0x030#12 v)) s = .next { s with errCode := 0x22#8, errDetail := 0#24, cmdErr := true }) ∧
    (s.fatal = true → runAgent (.host (.csrWrite 32 0x030#12 v)) s = .next s) ∧
    runAgent (.host (.csrRead 32 0x030#12)) s = .next { s with rdata := 0#32 }

/-- R39, R114: a load of EVT returns the word at the head of the event FIFO and removes it; from an empty FIFO it returns 0 and
has no effect. A store is ignored. Which words are headers the model follows by their LEN fields; removing the header of a
SCH_RESULT ends the race on the output range of its PDU, the oldest one of the header's tag (log 12). In the model's own form:
`rdata` (log 10). -/
def Obligations.EventLoad : Prop :=
  ∀ (s : State) (v : Word),
    (∀ w rest, s.evq = w :: rest →
      let popped : State := { s with evq := rest, rdata := w }
      (0 < s.popLeft →
        runAgent (.host (.csrRead 32 0x034#12)) s = .next { popped with popLeft := s.popLeft - 1 }) ∧
      (s.popLeft = 0 → w.opc ≠ 0x04#8 →
        runAgent (.host (.csrRead 32 0x034#12)) s = .next { popped with popLeft := (w.extractLsb' 0 16).toNat }) ∧
      (s.popLeft = 0 → w.opc = 0x04#8 →
        runAgent (.host (.csrRead 32 0x034#12)) s = .next { popped with
          popLeft := (w.extractLsb' 0 16).toNat
          windows := s.windows.eraseP (fun x => decide (x.tag = w.unit)) })) ∧
    (s.evq = [] → runAgent (.host (.csrRead 32 0x034#12)) s = .next { s with rdata := 0#32 }) ∧
    runAgent (.host (.csrWrite 32 0x034#12 v)) s = .next s

/-- The status registers in every state. R36, R37, R470: IRQ_STATUS reads EVT, CMDERR and FATAL; a store clears CMDERR exactly
where bit 1 is 1 and nothing else; the interrupt output is high exactly while an enabled source is. R35: ERR reads the latest
error's code and detail. R34, R40: what STATUS and EVT_COUNT read, of a legal instance with its units and bounded FIFOs. R108:
a load of any register but EVT has no effect. In the model's own form: `rdata` (log 10). -/
def Obligations.StatusRegisters : Prop :=
  ∀ (s : State) (v : Word),
    (s.csrRead 0x028#12).rdata = 0#29 ++ BitVec.ofBool s.fatal ++ BitVec.ofBool s.cmdErr ++ BitVec.ofBool (!s.evq.isEmpty) ∧
    runAgent (.host (.csrWrite 32 0x028#12 v)) s = .next { s with cmdErr := s.cmdErr && !v.getLsbD 1 } ∧
    runAgent (.host (.csrWrite 32 0x02C#12 v)) s = .next { s with irqEnable := v.extractLsb' 0 3 } ∧
    (s.csrRead 0x02C#12).rdata = 0#29 ++ s.irqEnable ∧
    (s.irq = true ↔ (s.evq ≠ [] ∧ s.irqEnable.getLsbD 0 = true) ∨ (s.cmdErr = true ∧ s.irqEnable.getLsbD 1 = true) ∨
      (s.fatal = true ∧ s.irqEnable.getLsbD 2 = true)) ∧
    (s.csrRead 0x024#12).rdata = s.errDetail ++ s.errCode ∧
    (s.params.legal = true → s.Sound →
      let w := (s.csrRead 0x020#12).rdata
      (field w 0 1 = 1 ↔ s.fatal = true) ∧ (field w 1 1 = 1 ↔ s.cmdq.length = s.params.cmdqDepth) ∧
      (field w 2 1 = 1 ↔ s.evq ≠ []) ∧ (field w 3 1 = 1 ↔ s.cmdq ≠ []) ∧ field w 4 4 = 0 ∧
      field w 8 4 = (s.bundles.filter (fun x => decide (x.phase = .free))).length ∧
      field w 12 4 = (s.tbs.filter (fun x => decide (x.fsm = .idle))).length ∧
      field w 16 16 = min 65535 (s.params.cmdqDepth - s.cmdq.length) ∧
      ((s.csrRead 0x038#12).rdata).toNat = s.evq.length) ∧
    ∀ off : BitVec 12, off.toNat % 4 = 0 → off ≠ 0x034#12 →
      runAgent (.host (.csrRead 32 off)) s = .next { s with rdata := (s.csrRead off).rdata }

/-- R41, R42, R43: DEC_CFG and every descriptor register read back what was written to their defined bits and 0 elsewhere, and
a write of one leaves every other register as it was. A store to a read-only register or to an unlisted offset has no effect,
and an unlisted offset reads 0. In the model's own form: `rdata` (log 10). -/
def Obligations.ConfigurationRegisters : Prop :=
  ∀ (s : State) (off other : BitVec 12) (m v : Word),
    (off, m) ∈ [(0x040#12, 0x000001FF#32), (0x080#12, 0x01FF01FF#32), (0x084#12, 0x01FF01FF#32), (0x088#12, 0x003FFFFF#32),
      (0x08C#12, 0x001FFFFF#32), (0x090#12, 0x0FFF1FFF#32), (0x094#12, 0x00FFFFFF#32), (0x098#12, 0x00FFFF01#32),
      (0x09C#12, 0x000000FF#32), (0x0A0#12, 0x7FFFFFFF#32), (0x0A4#12, 0x000007FF#32), (0x0A8#12, 0x00FFFFFF#32),
      (0x0AC#12, 0x00FFFFFF#32), (0x0B0#12, 0x000107FF#32), (0x0B4#12, 0x00FFFFFF#32), (0x0B8#12, 0x00FFFFFF#32),
      (0x0BC#12, 0xFFFFFFFF#32), (0x0C0#12, 0x0000000F#32)] →
    (s.csrWrite off v).csrValue off = v &&& m ∧
    (other ≠ off → (s.csrWrite off v).csrValue other = s.csrValue other) ∧
    { s.csrWrite off v with decCfg := s.decCfg, desc := s.desc } = s ∧
    ∀ o : BitVec 12, o.toNat % 4 = 0 → o ∉ [0x040#12, 0x080#12, 0x084#12, 0x088#12, 0x08C#12, 0x090#12, 0x094#12, 0x098#12,
        0x09C#12, 0x0A0#12, 0x0A4#12, 0x0A8#12, 0x0AC#12, 0x0B0#12, 0x0B4#12, 0x0B8#12, 0x0BC#12, 0x0C0#12] →
      (o ∉ [0x028#12, 0x02C#12, 0x030#12] → runAgent (.host (.csrWrite 32 o v)) s = .next s) ∧
      (o ∉ [0x000#12, 0x004#12, 0x008#12, 0x00C#12, 0x010#12, 0x014#12, 0x018#12, 0x020#12, 0x024#12, 0x028#12, 0x02C#12,
          0x034#12, 0x038#12] →
        runAgent (.host (.csrRead 32 o)) s = .next { s with rdata := 0#32 })

/-- R107: a CSR access of another width than 32 bits, or at an offset that is no multiple of 4, is a bus error; every other CSR
access completes, and so does a DMEM byte write at any address. -/
def Obligations.BusErrors : Prop :=
  ∀ (s : State) (width : Nat) (off : BitVec 12) (v : Word),
    ((width ≠ 32 ∨ off.toNat % 4 ≠ 0) →
      runAgent (.host (.csrRead width off)) s = .refused .busError ∧
      runAgent (.host (.csrWrite width off v)) s = .refused .busError) ∧
    (width = 32 → off.toNat % 4 = 0 →
      (∃ t, runAgent (.host (.csrRead width off)) s = .next t) ∧ ∃ t, runAgent (.host (.csrWrite width off v)) s = .next t) ∧
    ∀ (a : BitVec 32) (x : Byte), ∃ t, runAgent (.host (.dmemWrite a x)) s = .next t

/-- Host accesses of DMEM (R100, R114): outside every output range that is not popped yet, a load returns the byte last stored.
Outside the ranges in which a transport block stands, a store changes its own byte alone (and the model's note of it, log 12);
so a store to the range of a PDU whose decoding failed lands. Where blocks stand, a store leaves its own byte or a block's, and
never an earlier store's. In the model's own form: `rdata` (log 10) and bytes never written (log 11). -/
def Obligations.HostDmemAccess : Prop :=
  ∀ (s : State) (a : BitVec 32) (v : Byte),
    (s.raced a.toNat = false →
      runAgent (.host (.dmemRead a)) s = .next { s with rdata := 0#24 ++ s.dmemByte a.toNat }) ∧
    (s.blockBytes a.toNat = [] →
      ∃ t, runAgent (.host (.dmemWrite a v)) s = .next t ∧ t.dmemByte a.toNat = v ∧
        (∀ c, c ≠ a.toNat → t.dmemByte c = s.dmemByte c) ∧
        t.windows.map (fun w => { w with touched := [] }) = s.windows.map (fun w => { w with touched := [] }) ∧
        (s.raced a.toNat = false → t.windows = s.windows) ∧
        { t with dmem := s.dmem, windows := s.windows } = s) ∧
    (s.blockBytes a.toNat ≠ [] →
      ∃ t, runAgent (.host (.dmemWrite a v)) s = .next t ∧ t.dmemByte a.toNat ∈ v :: s.blockBytes a.toNat ∧
        (∀ c, c ≠ a.toNat → t.dmemByte c = s.dmemByte c) ∧
        t.windows.map (fun w => { w with touched := [] }) = s.windows.map (fun w => { w with touched := [] }) ∧
        { t with dmem := s.dmem, windows := s.windows, freeNo := s.freeNo } = s)

/-! ### CMDU (spec/30_encoding.md R142, R143; spec/60_exceptions.md R462) -/

/-- R142, R143, R462: what CMDU does with words that are no command. An illegal opcode removes one word; a nonzero reserved
field removes the whole command; both report ERR, CMDERR and an ERROR record with the header's tag byte, and hold while the
event FIFO has no room for it. A command with missing argument words holds. In the model's own form: what a hold leaves (log 9)
and the trace (log 19). -/
def Obligations.CommandDecodeErrors : Prop :=
  ∀ (s : State) (w : Word) (rest : List Word), s.fatal = false → s.held = false → s.cmdq = w :: rest →
    (isHostOpcode w.opc = false → s.evq.length + 2 ≤ s.params.evqDepth →
      runAgent .cmdu s = .next { s with
        cmdq := rest
        trace := s.trace ++ [w]
        errCode := 0x20#8
        errDetail := 0#16 ++ w.opc
        cmdErr := true
        evq := s.evq ++ [0x05#8 ++ w.unit ++ 1#16, 0#16 ++ w.opc ++ 0x20#8] }) ∧
    (∀ opc, decodeCommand s.cmdq = .error (.reservedField opc) → s.evq.length + 2 ≤ s.params.evqDepth →
      opc = w.opc ∧
      runAgent .cmdu s = .next { s with
        cmdq := rest.drop (hostNarg w.opc)
        trace := s.trace ++ [w]
        errCode := 0x21#8
        errDetail := 0#16 ++ w.opc
        cmdErr := true
        evq := s.evq ++ [0x05#8 ++ w.unit ++ 1#16, 0#16 ++ w.opc ++ 0x21#8] }) ∧
    ((w.opc = 0x02#8 ∧ rest.length < 2) → runAgent .cmdu s = .next s.hold) ∧
    (isHostOpcode w.opc = false → s.params.evqDepth < s.evq.length + 2 → runAgent .cmdu s = .next s.hold) ∧
    (∀ opc, decodeCommand s.cmdq = .error (.reservedField opc) → s.params.evqDepth < s.evq.length + 2 →
      runAgent .cmdu s = .next s.hold)

/-! ### Host commands -/

/-- R445: NOP, whatever its hint bits hold, has no effect but the removal of its word and its record in the trace
(R153). In the model's own form: the trace (log 19). -/
def Obligations.NopResult : Prop :=
  ∀ (s : State) (hint : BitVec 24), s.fatal = false →
    exec (.nop hint) s = .next { s with trace := s.trace ++ [0x0F#8 ++ hint] } ∧
    ∀ rest, s.held = false → s.cmdq = (0x0F#8 ++ hint) :: rest →
      runAgent .cmdu s = .next { s with cmdq := rest, trace := s.trace ++ [0x0F#8 ++ hint] }

/-- R355: HARQ_FREE. A HELD handle becomes FREE, its contents unspecified; a FREE one stays as it is; a handle of N_HARQ or
more, and a LOCKED one, is a command error that leaves the handle alone (R462), and holds while the event FIFO lacks the room
for its record (R111). That a freed handle's geo, which nothing reads, stays as it was is the model's choice (log 21). In the
model's own form: what a hold leaves (log 9) and the trace (log 19). -/
def Obligations.HarqFreeResult : Prop :=
  ∀ (s : State) (handle : BitVec 8), s.fatal = false →
    (∀ y, handle.toNat < s.params.nHarq → s.harq[handle.toNat]? = some y →
      (y.hstate = .free → exec (.harqFree handle) s = .next (s.record (.harqFree handle))) ∧
      (y.hstate = .held → ∃ c, exec (.harqFree handle) s =
        .next { s.record (.harqFree handle) with harq := s.harq.set handle.toNat { y with hstate := .free, cbs := c } }) ∧
      (y.hstate = .locked → s.evq.length + 2 ≤ s.params.evqDepth → exec (.harqFree handle) s =
        .next { s.record (.harqFree handle) with
          errCode := 0x24#8
          errDetail := 0#16 ++ handle
          cmdErr := true
          evq := s.evq ++ [0x05000001#32, 0#16 ++ handle ++ 0x24#8] }) ∧
      (y.hstate = .locked → s.params.evqDepth < s.evq.length + 2 → exec (.harqFree handle) s = .next s.hold)) ∧
    (s.params.nHarq ≤ handle.toNat → s.evq.length + 2 ≤ s.params.evqDepth → exec (.harqFree handle) s =
        .next { s.record (.harqFree handle) with
          errCode := 0x0D#8
          errDetail := 0#16 ++ handle
          cmdErr := true
          evq := s.evq ++ [0x05000001#32, 0#16 ++ handle ++ 0x0D#8] }) ∧
    (s.params.nHarq ≤ handle.toNat → s.params.evqDepth < s.evq.length + 2 → exec (.harqFree handle) s = .next s.hold)

/-- R258: CSI2_NONE of a bundle that awaits CSI Part 2 declines it and lets the bundle go on; the tag of no bundle, and a
bundle that does not await it, are command errors (R462), which hold while the event FIFO lacks the room for their record
(R111). In the model's own form: what a hold leaves (log 9) and the trace (log 19). -/
def Obligations.Csi2NoneResult : Prop :=
  ∀ (s : State) (tag : BitVec 8), s.fatal = false →
    (∀ b x, s.bundleOfTag tag = some b → s.bundles[b]? = some x → x.dm.csi2State = .await →
      exec (.csi2None tag) s = .next { s.record (.csi2None tag) with
        bundles := s.bundles.set b { x with phase := .resume, dm := { x.dm with csi2State := .declined } } }) ∧
    (∀ b x, s.bundleOfTag tag = some b → s.bundles[b]? = some x → x.dm.csi2State ≠ .await →
      s.evq.length + 2 ≤ s.params.evqDepth →
      exec (.csi2None tag) s = .next { s.record (.csi2None tag) with
        errCode := 0x25#8
        errDetail := 0#16 ++ tag
        cmdErr := true
        evq := s.evq ++ [0x05#8 ++ tag ++ 1#16, 0#16 ++ tag ++ 0x25#8] }) ∧
    (s.bundleOfTag tag = none → s.evq.length + 2 ≤ s.params.evqDepth →
      exec (.csi2None tag) s = .next { s.record (.csi2None tag) with
        errCode := 0x23#8
        errDetail := 0#16 ++ tag
        cmdErr := true
        evq := s.evq ++ [0x05#8 ++ tag ++ 1#16, 0#16 ++ tag ++ 0x23#8] }) ∧
    ((∀ b x, s.bundleOfTag tag = some b → s.bundles[b]? = some x → x.dm.csi2State ≠ .await →
        s.params.evqDepth < s.evq.length + 2 → exec (.csi2None tag) s = .next s.hold) ∧
      (s.bundleOfTag tag = none → s.params.evqDepth < s.evq.length + 2 → exec (.csi2None tag) s = .next s.hold))

/-- R256, R334: CONFIGURE_CSI_PART2 of a bundle that awaits CSI Part 2, with budgets that pass the checks, binds the CSI2 port
to its decoder, sets the sizes and budgets, gives the TB context its final UL-SCH budget and lets the bundle go on. That the
command unit latches `a2` (log 14) and the bundle keeps the CSI2 port's budget in `gCsi2` (log 17) is the model's choice. In
the model's own form: the trace (log 19). -/
def Obligations.ConfigureCsiPart2Accepts : Prop :=
  ∀ (s : State) (tag : BitVec 8) (bits : BitVec 11) (g2 gu : BitVec 24) (b : Nat) (x : Bundle) (t : TbCtx),
    s.fatal = false → s.bundleOfTag tag = some b → s.bundles[b]? = some x → x.dm.csi2State = .await →
    s.tbs[x.tbx]? = some t → t.fsm = .collecting → t.sch.count ≤ gu.toNat →
    x.csi2.port.isOpen = true → x.csi2.port.count = 0 → x.csi2.port.bound = .null →
    g2.toNat % (qm x.d * nl x.d) = 0 → 1 ≤ bits.toNat → bits.toNat ≤ 1706 → 0 < g2.toNat → g2.toNat ≤ s.params.maxUciG →
    (plan s.params x.d g2.toNat).csi2 = g2.toNat → (plan s.params x.d g2.toNat).sch = gu.toNat →
    gu.toNat ≤ s.params.maxCwBits → nofCodeblocks t.tbs t.bg ≤ gu.toNat / (t.nl * t.qm) →
    exec (.configureCsiPart2 tag bits g2 gu) s =
      .next { (s.record (.configureCsiPart2 tag bits g2 gu)).record (.setNofSoftbits (BitVec.ofNat 8 x.tbx)) with
        a2 := 0#8 ++ gu
        bundles := s.bundles.set b { x with
          phase := .resume
          gCsi2 := g2.toNat
          dm := { x.dm with
            csi2Bits := bits.toNat
            csi2State := .configured
            bud := { x.dm.bud with csi2Rem := g2.toNat } }
          csi2 := { x.csi2 with port := { x.csi2.port with bound := .real } } }
        tbs := s.tbs.set x.tbx { t with g := gu.toNat } }

/-- R256, R475: what CONFIGURE_CSI_PART2 reports instead, in the order of its checks: the tag of no bundle; CSI Part 2 already
configured, which is fatal; a bundle that does not await it; then the budget checks in ascending code and detail. In the
model's own form: what a hold leaves (log 9) and the trace (log 19). -/
def Obligations.ConfigureCsiPart2Refuses : Prop :=
  ∀ (s : State) (tag : BitVec 8) (bits : BitVec 11) (g2 gu : BitVec 24), s.fatal = false →
    let i : Instr := .configureCsiPart2 tag bits g2 gu
    let refused (c : BitVec 8) (d : BitVec 24) : Host.Outcome State Fault Refusal :=
      if s.evq.length + 2 ≤ s.params.evqDepth then
        .next { s.record i with
          errCode := c
          errDetail := d
          cmdErr := true
          evq := s.evq ++ [0x05#8 ++ tag ++ 1#16, d ++ c] }
      else .next s.hold
    (s.bundleOfTag tag = none → exec i s = refused 0x23#8 (0#16 ++ tag)) ∧
    ∀ b x, s.bundleOfTag tag = some b → s.bundles[b]? = some x →
      (x.dm.csi2State = .configured → exec i s = .next { s.record i with fatal := true, errCode := 0x85#8, errDetail := 0#24 }) ∧
      (x.dm.csi2State ≠ .configured → x.dm.csi2State ≠ .await → exec i s = refused 0x25#8 (0#16 ++ tag)) ∧
      ∀ t, x.dm.csi2State = .await → s.tbs[x.tbx]? = some t →
        let c1 := g2.toNat % (qm x.d * nl x.d) ≠ 0
        let c2 := bits.toNat = 0 ∨ 1706 < bits.toNat ∨ g2.toNat = 0 ∨ s.params.maxUciG < g2.toNat
        let c3 := (plan s.params x.d g2.toNat).csi2 ≠ g2.toNat
        let c4 := gu.toNat ≠ (plan s.params x.d g2.toNat).sch ∨ s.params.maxCwBits < gu.toNat
        let c5 := gu.toNat / (t.nl * t.qm) < nofCodeblocks t.tbs t.bg
        (c1 → exec i s = refused 0x0A#8 4#24) ∧
        (¬ c1 → c2 → exec i s = refused 0x0C#8 4#24) ∧
        (¬ c1 → ¬ c2 → c3 → exec i s = refused 0x0C#8 5#24) ∧
        (¬ c1 → ¬ c2 → ¬ c3 → c4 → exec i s = refused 0x12#8 1#24) ∧
        (¬ c1 → ¬ c2 → ¬ c3 → ¬ c4 → c5 → exec i s = refused 0x15#8 0#24)

/-- R420, R421, R428, R330, R331: an accepted PROCESS_PDU takes the FREE bundle and the IDLE TB context of least index, latches
the descriptor and DEC_CFG, opens the PDU's ports, leases the HARQ handle (zeroed where it was FREE or the data is new) and
enters CHEST. The output range [TB_DEST, TB_DEST + A/8) is the block's from here on (R114). Nothing else changes but the
model's count of grids and its trace. In the model's own form: output ranges (log 12), numbers of receptions (log 13) and the
trace (log 19). -/
def Obligations.ProcessPduAccepts : Prop :=
  ∀ (s : State) (tag : BitVec 8) (b t : Nat) (x : Bundle) (c : TbCtx) (h : Harq),
    s.fatal = false → s.Exclusive → firstFailing (validateChecks s tag s.desc) = none →
    s.firstFreeBundle = some b → s.firstIdleTb = some t → s.bundles[b]? = some x → s.tbs[t]? = some c →
    s.harq[harqHandle s.desc]? = some h → h.hstate ≠ .locked →
    x.demuxIn.isOpen = false → x.ack.port.isOpen = false → x.csi1.port.isOpen = false → x.csi2.port.isOpen = false →
    c.sch.isOpen = false →
    ∃ u, exec (.processPdu tag) s = .next u ∧
      u.bundles = s.bundles.set b { x with
        phase := .chest
        tag := tag
        tbx := t
        d := s.desc
        grid := s.gridNo
        demuxIn := ⟨.real, true, 0, 0, 0⟩
        ack := { x.ack with port := ⟨if 0 < ackBits s.desc then .real else .null, true, 0, 0, 0⟩, status := .unknown }
        csi1 := { x.csi1 with port := ⟨if 0 < csi1Bits s.desc then .real else .null, true, 0, 0, 0⟩, status := .unknown }
        csi2 := { x.csi2 with port := ⟨.null, true, 0, 0, 0⟩, status := .unknown }
        dm := { x.dm with
          symCnt := 0
          csi2Bits := 0
          csi2State := if csi2En s.desc = 1 then .waiting else .off
          bud := ⟨if 1 ≤ ackBits s.desc ∧ ackBits s.desc ≤ 2 then gAckRvd s.desc else 0,
            if 0 < ackBits s.desc then gAck s.desc else 0, if 0 < csi1Bits s.desc then gCsi1 s.desc else 0, 0⟩ } } ∧
      u.tbs = s.tbs.set t { c with
        fsm := .collecting
        tag := tag
        handle := harqHandle s.desc
        tbDest := tbDest s.desc
        tbs := tbSize s.desc
        bg := baseGraph s.desc
        rv := rv s.desc
        qm := qm s.desc
        nl := nl s.desc
        newData := newData s.desc
        lbrmEn := lbrmEn s.desc
        nref := nref s.desc
        maxIter := maxIter s.decCfg
        earlyStop := earlyStop s.decCfg
        g := gUlsch s.desc
        tbCrcOk := false
        sch := ⟨.real, true, 0, 0, 0⟩ } ∧
      (let geo := geometry (tbSize s.desc) (baseGraph s.desc) (lbrmEn s.desc) (nref s.desc)
       u.harq = s.harq.set (harqHandle s.desc)
        (if h.hstate = .free ∨ newData s.desc = true then
          ⟨.locked, geo, List.replicate geo.c
            ⟨List.replicate geo.ncb 0#8, List.replicate (kPrime (tbSize s.desc) (baseGraph s.desc)) false, false⟩⟩
        else { h with hstate := .locked })) ∧
      u.windows = s.windows ++ [⟨tag, tbDest s.desc, tbSize s.desc / 8, false, [], []⟩] ∧ u.gridNo = s.gridNo + 1 ∧
      { u with
        bundles := s.bundles
        tbs := s.tbs
        harq := s.harq
        windows := s.windows
        gridNo := s.gridNo
        trace := s.trace } = s

/-- R424, R462, R475: a PROCESS_PDU whose descriptor fails validation reports the first failing check, and has no other effect
(the trace records it, R153); it holds while the event FIFO lacks the room for its record (R111). R422, R465: one that passes,
finds room in the pool and names a LOCKED handle is fatal. The checks stand in ascending order of code and detail. In the
model's own form: what a hold leaves (log 9) and the trace (log 19). -/
def Obligations.ProcessPduRefuses : Prop :=
  ∀ (s : State) (tag : BitVec 8), s.fatal = false →
    (∀ c d, firstFailing (validateChecks s tag s.desc) = some (c, d) → s.evq.length + 2 ≤ s.params.evqDepth →
      exec (.processPdu tag) s = .next { s.record (.processPdu tag) with
        errCode := c.code
        errDetail := BitVec.ofNat 24 d
        cmdErr := true
        evq := s.evq ++ [0x05#8 ++ tag ++ 1#16, BitVec.ofNat 24 d ++ c.code] }) ∧
    (∀ c d, firstFailing (validateChecks s tag s.desc) = some (c, d) → s.params.evqDepth < s.evq.length + 2 →
      exec (.processPdu tag) s = .next s.hold) ∧
    (∀ b t h, firstFailing (validateChecks s tag s.desc) = none → s.firstFreeBundle = some b → s.firstIdleTb = some t →
      s.harq[harqHandle s.desc]? = some h → h.hstate = .locked →
      exec (.processPdu tag) s = .next { s.record (.processPdu tag) with fatal := true, errCode := 0x84#8, errDetail := 0#24 }) ∧
    (validateChecks s tag s.desc).Pairwise (fun p q =>
      p.2.1.code.toNat < q.2.1.code.toNat ∨ (p.2.1.code = q.2.1.code ∧ p.2.2 < q.2.2))

/-- R427: a PROCESS_PDU that passes validation and finds no FREE bundle or no IDLE TB context reports the failure at once, as a
UCI_RESULT and a SCH_RESULT, or holds while the event FIFO lacks room for both. No handle, bundle, TB context or port changes;
no address becomes the block's. That the model notes an empty output range for it is the model's choice (log 12). In the
model's own form: what a hold leaves (log 9) and the trace (log 19). -/
def Obligations.ProcessPduPoolEmpty : Prop :=
  ∀ (s : State) (tag : BitVec 8), s.fatal = false → firstFailing (validateChecks s tag s.desc) = none →
    (s.firstFreeBundle = none ∨ s.firstIdleTb = none) →
    (s.evq.length + 8 ≤ s.params.evqDepth → exec (.processPdu tag) s = .next { s.record (.processPdu tag) with
      windows := s.windows ++ [⟨tag, 0, 0, true, [], []⟩]
      evq := s.evq ++
        [0x03#8 ++ tag ++ 3#16, if 0 < ackBits s.desc then 2#32 else 0#32, 0#32, 0#32,
          0x04#8 ++ tag ++ 3#16, 0#32, 0#32, 0#32] }) ∧
    (s.params.evqDepth < s.evq.length + 8 → exec (.processPdu tag) s = .next s.hold)

/-! ### Stream ports (spec/40_stream.md) -/

/-- R201, R206, R210: RESERVE_VIEW of `n` slots on an OPEN port that still takes soft bits (or `n = 0`) gives a view of `min(n,
offer)` slots at `count` (`n` slots on a port bound NULL). Nothing but the port's view and, on a port bound REAL, the contents
of the view's slots changes: putting both back gives the state before. In the model's own form: that a slot of the new view, whose
content R201 calls unspecified, holds no value (R66; log 3), and the trace (log 19). -/
def Obligations.ReserveViewResult : Prop :=
  ∀ (s : State) (port : BitVec 4) (n : BitVec 19) (owner : BitVec 8) (r : PortRef) (p : Port) (m : Nat),
    s.fatal = false → PortRef.ofId port owner = some r → s.port? r = some p → p.isOpen = true →
    (n = 0#19 ∨ s.offer r p ≠ some 0) →
    m = (match s.offer r p with
      | none => n.toNat
      | some k => min n.toNat k) →
    ∃ t, exec (.reserveView port n owner) s = .next t ∧
      t.port? r = some { p with viewBase := p.count, viewLen := m } ∧
      (p.bound = .null → t.modPort r (fun _ => p) = s.record (.reserveView port n owner)) ∧
      (p.bound = .real → ∃ old new i, s.storage? r = some old ∧ t.storage? r = some (new, i) ∧
        (t.modPort r (fun _ => p)).modStorage r (fun _ => old.1) = s.record (.reserveView port n owner) ∧
        (∀ k, (k < i ∨ i + m ≤ k) → new[k]?.join = old.1[k]?.join) ∧ (∀ k, i ≤ k → k < i + m → new[k]? = some none))

/-- R202, R203, R206, R209: PUBLISH_BLOCK on an OPEN port other than DEMUX_IN, by copy where the offer covers the data, in
place where the view does. A port bound NULL discards the data; SCH and the UCI ports store them in their consumer's buffer
from slot `count` on. In both cases the view is gone and `count` grows. An empty block has no other effect than on the view. In
the model's own form: the trace (log 19). -/
def Obligations.PublishStores : Prop :=
  ∀ (s : State) (port : BitVec 4) (owner : BitVec 8) (r : PortRef) (p : Port) (data : List (BitVec 8)) (n : BitVec 19),
    s.fatal = false → PortRef.ofId port owner = some r → s.port? r = some p → p.isOpen = true → (∀ b, r ≠ .demuxIn b) →
    let after (u : State) : State :=
      let v := u.modPort r (fun q => { q with viewLen := 0, count := q.count + data.length })
      if p.bound = .null ∨ data = [] then v else v.modStorage r (fun m => Slots.write m p.count data)
    (offers (s.offer r p) data.length = true →
      exec (.publishCopy port owner data) s = .next (after (s.record (.publishCopy port owner data)))) ∧
    (n.toNat = data.length → n.toNat ≤ p.viewLen → (p.bound = .real → s.viewLlrs r p n.toNat = some data) →
      exec (.publishInPlace port n owner) s = .next (after (s.record (.publishInPlace port n owner))))

/-- R202, R203, R209: PUBLISH_BLOCK on DEMUX_IN of a bundle, bound REAL. The soft bits go into the symbol buffer from slot
`sym_cnt` on. While the symbol is not complete nothing else happens; the block that completes it runs DEMUX_SYMBOL on the
bundle's current symbol, and `count` grows when that has run. An empty block only ends the view, whatever the symbol holds. In
the model's own form: what a hold leaves (log 9) and the trace (log 19). -/
def Obligations.PublishFillsTheSymbol : Prop :=
  ∀ (s : State) (b : BitVec 8) (x : Bundle) (data : List (BitVec 8)) (n : BitVec 19) (i : Instr),
    s.fatal = false → s.bundles[b.toNat]? = some x → x.demuxIn.isOpen = true → x.demuxIn.bound = .real →
    (i = .publishCopy 0#4 b data ∧ data.length ≤ symbolBits x.d x.l - x.dm.symCnt ∨
      i = .publishInPlace 0#4 n b ∧ n.toNat = data.length ∧ n.toNat ≤ x.demuxIn.viewLen ∧
        s.viewLlrs (.demuxIn b.toNat) x.demuxIn n.toNat = some data) →
    let s1 := (s.record i).modBundle b.toNat (fun _ => { x with
      demuxIn := { x.demuxIn with viewLen := 0 }
      dm := { x.dm with
        symBuf := Slots.write x.dm.symBuf x.dm.symCnt data
        symCnt := x.dm.symCnt + data.length } })
    let counted (u : State) : State :=
      u.modPort (.demuxIn b.toNat) (fun q => { q with count := q.count + data.length })
    (data = [] → exec i s = .next ((s.record i).modBundle b.toNat (fun _ =>
      { x with demuxIn := { x.demuxIn with viewLen := 0 } }))) ∧
    (data ≠ [] → x.dm.symCnt + data.length ≠ symbolBits x.d x.l → exec i s = .next (counted s1)) ∧
    (data ≠ [] → x.dm.symCnt + data.length = symbolBits x.d x.l → ∀ u,
      exec (.demuxSymbol b (BitVec.ofNat 16 x.l)) s1 = .next u → u.held = false → u.fatal = false →
      exec i s = .next (counted u))

/-- R204, R206, R209: CLOSE of an OPEN port ends its view and its logical unit. A port bound NULL does nothing else; a UCI port
bound REAL decodes its field, and for CSI1 the follow-up of R250 comes after that (`Csi1CloseAsksForCsi2`); SCH dispatches the
transport block; DEMUX_IN flushes the demultiplexer. In the model's own form: what a hold leaves (log 9) and the trace (log
19). -/
def Obligations.CloseRunsTheConsumer : Prop :=
  ∀ (s : State) (port : BitVec 4) (owner : BitVec 8) (r : PortRef) (p : Port),
    s.fatal = false → PortRef.ofId port owner = some r → s.port? r = some p → p.isOpen = true →
    let s1 := (s.record (.close port owner)).modPort r (fun q => { q with isOpen := false, viewLen := 0 })
    (p.bound = .null → exec (.close port owner) s = .next s1) ∧
    (∀ f x ls, p.bound = .real → r = .uci f owner.toNat → s.bundles[owner.toNat]? = some x →
      Slots.get? (x.uci f).llr 0 p.count = some ls → (f = .csi1 → x.dm.csi2State ≠ .waiting) →
      ∃ t, exec (.uciDecode owner f) s1 = .next t ∧ exec (.close port owner) s = .next t) ∧
    (p.bound = .real → r = .sch owner.toNat → ∀ u, exec (.closeDispatch owner) s1 = .next u → u.held = false →
      u.fatal = false → exec (.close port owner) s = .next u) ∧
    (p.bound = .real → r = .demuxIn owner.toNat → ∀ u, exec (.demuxFlush owner) s1 = .next u → u.held = false →
      u.fatal = false → exec (.close port owner) s = .next u)

/-- R250: the close of CSI1 while CSI Part 2 waits for it. With a VALID result it asks the host for the size of CSI Part 2 and
awaits the answer; with an INVALID one CSI Part 2 is declined. In the model's own form: the trace (log 19). -/
def Obligations.Csi1CloseAsksForCsi2 : Prop :=
  ∀ (s : State) (b : BitVec 8) (x : Bundle) (ls : List Llr),
    s.fatal = false → s.bundles[b.toNat]? = some x → x.csi1.port.isOpen = true → x.csi1.port.bound = .real →
    x.dm.csi2State = .waiting → Slots.get? x.csi1.llr 0 x.csi1.port.count = some ls →
    let n := csi1Bits x.d
    let pay := (List.range n).map (Config.uciBit .csi1 n ls)
    let closed : Port := { x.csi1.port with isOpen := false, viewLen := 0 }
    let s1 := (s.record (.close 3#4 b)).record (.uciDecode b .csi1)
    (Config.uciValid .csi1 n ls = true →
      s.evq.length + (2 + (pay.length + 31) / 32) ≤ s.params.evqDepth →
      exec (.close 3#4 b) s = .next { s1 with
        bundles := s.bundles.set b.toNat { x with
          csi1 := { x.csi1 with port := closed, status := .valid, payload := pay }
          dm := { x.dm with csi2State := .await } }
        evq := s.evq ++ ((0x06#8 ++ x.tag ++ BitVec.ofNat 16 (1 + (pay.length + 31) / 32)) ::
          (0#21 ++ BitVec.ofNat 11 n) :: payloadWords pay) }) ∧
    (Config.uciValid .csi1 n ls = false →
      exec (.close 3#4 b) s = .next { s1 with
        bundles := s.bundles.set b.toNat { x with
          csi1 := { x.csi1 with port := closed, status := .invalid }
          dm := { x.dm with csi2State := .declined } } })

/-- R146, R201 to R204, R465: the port operations' contract violations, each fatal, with the state as before but for the trace
(R153): a reserved port id; a reserve or a publish on a CLOSED port; a second close; a publish in place beyond the view; a
reserve or a copy beyond what the consumer can take. In the model's own form: the trace (log 19). -/
def Obligations.PortViolations : Prop :=
  ∀ (s : State) (port : BitVec 4) (n : BitVec 19) (owner : BitVec 8) (data : List (BitVec 8)), s.fatal = false →
    let stopped (i : Instr) (c : BitVec 8) : Host.Outcome State Fault Refusal :=
      .next { s.record i with fatal := true, errCode := c, errDetail := 0#24 }
    (5 ≤ port.toNat → exec (.reserveView port n owner) s = stopped (.reserveView port n owner) 0x89#8 ∧
      exec (.publishInPlace port n owner) s = stopped (.publishInPlace port n owner) 0x89#8 ∧ exec (.publishCopy port owner data) s = stopped (.publishCopy port owner data) 0x89#8 ∧
      exec (.close port owner) s = stopped (.close port owner) 0x89#8) ∧
    ∀ r p, PortRef.ofId port owner = some r → s.port? r = some p →
      (p.isOpen = false → exec (.reserveView port n owner) s = stopped (.reserveView port n owner) 0x80#8 ∧
        exec (.publishInPlace port n owner) s = stopped (.publishInPlace port n owner) 0x80#8 ∧ exec (.publishCopy port owner data) s = stopped (.publishCopy port owner data) 0x80#8 ∧
        exec (.close port owner) s = stopped (.close port owner) 0x81#8) ∧
      (p.isOpen = true → p.viewLen < n.toNat → exec (.publishInPlace port n owner) s = stopped (.publishInPlace port n owner) 0x82#8) ∧
      (p.isOpen = true → ∀ k, s.offer r p = some k →
        (k = 0 → n ≠ 0#19 → exec (.reserveView port n owner) s = stopped (.reserveView port n owner) 0x88#8) ∧
        (k < data.length → exec (.publishCopy port owner data) s = stopped (.publishCopy port owner data) 0x88#8))

/-! ### Codeblock tasks (spec/42_cb_decoder.md) -/

/-- R288, R289: the rate-matched lengths of `c` codeblocks for `g` soft bits, `q` modulation symbols of `m` bits each: whole symbols,
the first codeblocks the shorter ones, together all of `g`, and at least one symbol each where there are `c` of them. Codeblock
`r + 1` begins where codeblock `r` ends (R289). That the lengths add up to `g` is what R288 itself derives from its formula. -/
def Obligations.RateMatchedLengths : Prop :=
  ∀ c m g : Nat, 0 < c → 0 < m → g % m = 0 →
    let q := g / m
    ((List.range c).map (rateMatchedLen c m g)).sum = g ∧
    rateMatchedOffset c m g 0 = 0 ∧ rateMatchedOffset c m g c = g ∧
    ∀ r, r < c →
      (r + q % c < c → rateMatchedLen c m g r = m * (q / c)) ∧
      (c ≤ r + q % c → rateMatchedLen c m g r = m * (q / c + 1)) ∧
      (c ≤ q → m ≤ rateMatchedLen c m g r) ∧
      rateMatchedOffset c m g (r + 1) = rateMatchedOffset c m g r + rateMatchedLen c m g r

/-- R106, R292, R293: rate dematching keeps the buffer's length, leaves LLR_FILLER at every filler position, and a soft bit within
±LLR_MAX at every other one, where the buffer held one there or the data is new. -/
def Obligations.RateDematchKeepsRange : Prop :=
  ∀ (p : Params) (seg : Seg) (qm : Nat) (isNew : Bool) (buf f : List Llr), p.legal = true →
    let out := rateDematch p seg qm isNew buf f
    out.length = buf.length ∧
    ∀ m v y, out[m]? = some v → buf[m]? = some y →
      (seg.kPrime ≤ m + 2 * seg.zc ∧ m + 2 * seg.zc < seg.k → v.toInt = p.llrFiller) ∧
      (¬ (seg.kPrime ≤ m + 2 * seg.zc ∧ m + 2 * seg.zc < seg.k) →
        isNew = true ∨ (-(p.llrMax : Int) ≤ y.toInt ∧ y.toInt ≤ (p.llrMax : Int)) →
        -(p.llrMax : Int) ≤ v.toInt ∧ v.toInt ≤ (p.llrMax : Int))

/-- R300, R305, R343: a codeblock task on a TB context `t` whose handle is LOCKED and whose soft bits are there. CB_DECODE
rate-dematches them into the codeblock's buffer, decodes it and writes the hard bits, the CRC flag and the iteration count;
CB_RATE_DEMATCH only rate-dematches, leaves the data and the CRC flag, and counts no iteration. Both complete: the counter goes
down by one, and where it reaches 0 before close() has returned the context becomes DECODED. In the model's own form: the trace
(log 19). -/
def Obligations.CodeblockTasks : Prop :=
  ∀ (s : State) (t : BitVec 8) (r : BitVec 16) (x : TbCtx) (h : Harq) (cb : CbBuf) (f : List Llr),
    s.fatal = false → s.tbs[t.toNat]? = some x → s.harq[x.handle]? = some h → h.hstate = .locked →
    (x.fsm = .collecting ∨ x.fsm = .decoding) → r.toNat < x.seg.c → h.cbs[r.toNat]? = some cb →
    Slots.get? x.stage (x.seg.off.getD r.toNat 0) (x.seg.e.getD r.toNat 0) = some f →
    (2 ≤ x.counter ∨ (x.counter = 1 ∧ x.fsm = .collecting)) →
    let buf := rateDematch s.params x.seg x.qm x.newData cb.llr f
    let out := ldpcLoop x.bg x.seg x.earlyStop x.maxIter (ldpcInput x.seg buf)
    let done : TbCtx := { x with counter := x.counter - 1, fsm := if x.counter = 1 then .decoded else x.fsm }
    exec (.cbDecode t r) s = .next { (s.record (.cbDecode t r)).record (.cbComplete t r) with
      harq := s.harq.set x.handle
        { h with cbs := h.cbs.set r.toNat ⟨buf, out.2.take x.seg.kPrime, out.1.isSome⟩ }
      tbs := s.tbs.set t.toNat
        { done with iter := x.iter.set r.toNat (out.1.getD x.maxIter), decoded := x.decoded.set r.toNat true } } ∧
    exec (.cbRateDematch t r) s = .next { (s.record (.cbRateDematch t r)).record (.cbComplete t r) with
      harq := s.harq.set x.handle { h with cbs := h.cbs.set r.toNat { cb with llr := buf } }
      tbs := s.tbs.set t.toNat { done with iter := x.iter.set r.toNat 0, decoded := x.decoded.set r.toNat false } }

/-- R300, R305, R343, R346: the task that brings the counter to 0 in DECODING joins. The state in which TB_JOIN runs has the
task's results, the counter at 0 and everything else as before. In the model's own form: what a hold leaves (log 9) and the
trace (log 19). -/
def Obligations.LastTaskJoins : Prop :=
  ∀ (s : State) (t : BitVec 8) (r : BitVec 16) (x : TbCtx) (h : Harq) (cb : CbBuf) (f : List Llr) (u : State),
    s.fatal = false → s.tbs[t.toNat]? = some x → s.harq[x.handle]? = some h → h.hstate = .locked →
    x.fsm = .decoding → r.toNat < x.seg.c → h.cbs[r.toNat]? = some cb →
    Slots.get? x.stage (x.seg.off.getD r.toNat 0) (x.seg.e.getD r.toNat 0) = some f → x.counter = 1 →
    u.held = false → u.fatal = false →
    let buf := rateDematch s.params x.seg x.qm x.newData cb.llr f
    let out := ldpcLoop x.bg x.seg x.earlyStop x.maxIter (ldpcInput x.seg buf)
    let decoded : State := { (s.record (.cbDecode t r)).record (.cbComplete t r) with
      harq := s.harq.set x.handle
        { h with cbs := h.cbs.set r.toNat ⟨buf, out.2.take x.seg.kPrime, out.1.isSome⟩ }
      tbs := s.tbs.set t.toNat { x with
        counter := 0
        iter := x.iter.set r.toNat (out.1.getD x.maxIter)
        decoded := x.decoded.set r.toNat true } }
    let dematched : State := { (s.record (.cbRateDematch t r)).record (.cbComplete t r) with
      harq := s.harq.set x.handle { h with cbs := h.cbs.set r.toNat { cb with llr := buf } }
      tbs := s.tbs.set t.toNat { x with
        counter := 0
        iter := x.iter.set r.toNat 0
        decoded := x.decoded.set r.toNat false } }
    (exec (.tbJoin t) decoded = .next u → exec (.cbDecode t r) s = .next u) ∧
    (exec (.tbJoin t) dematched = .next u → exec (.cbRateDematch t r) s = .next u)

/-! ### The front end (spec/44_demod.md) -/

/-- R380: CHEST of a bundle in phase CHEST estimates the channel, clears the statistics, points at the first allocated symbol
and at codeword position 0, and enters DEMOD. In another phase it has no step. In the model's own form: codes for opaque values
(log 4), sums of real numbers (log 5), what a hold leaves (log 9), numbers of receptions (log 13) and the trace (log 19). -/
def Obligations.ChestResult : Prop :=
  ∀ (s : State) (b : BitVec 8) (x : Bundle), s.fatal = false → s.bundles[b.toNat]? = some x →
    (x.phase = .chest → exec (.chest b) s = .next { s.record (.chest b) with
      bundles := s.bundles.set b.toNat { x with
        chanEst := Config.chest x.d (Config.grid x.grid)
        nvSum := ⟨0, []⟩
        nvCnt := 0
        evmAcc := Config.evmInitial
        l := startSymb x.d
        cwPos := 0
        phase := .demod } }) ∧
    (x.phase ≠ .chest → exec (.chest b) s = .next s.hold)

/-- R384: DESCRAMBLE negates exactly the soft bits of the current symbol whose scrambling bit is 1, and changes nothing else.
Which soft bits it works on, and that it stops where ARG is not their count modulo 2^16, is the model's choice (logs 15, 16).
In the model's own form: the trace (log 19). -/
def Obligations.DescrambleResult : Prop :=
  ∀ (s : State) (b : BitVec 8) (n : BitVec 16) (x : Bundle), s.fatal = false → s.bundles[b.toNat]? = some x →
    symbolBits x.d x.l ≤ x.work.length →
    (n = BitVec.ofNat 16 (symbolBits x.d x.l) →
      ∃ w, exec (.descramble b n) s = .next { s.record (.descramble b n) with
          bundles := s.bundles.set b.toNat { x with work := w } } ∧
        w.length = x.work.length ∧
        (∀ j v, j < symbolBits x.d x.l → x.work[j]? = some v →
          w[j]? = some (if scrambleBit (cInit x.d) (x.cwPos + j) then -v else v)) ∧
        ∀ j, symbolBits x.d x.l ≤ j → w[j]? = x.work[j]?) ∧
    (n ≠ BitVec.ofNat 16 (symbolBits x.d x.l) →
      exec (.descramble b n) s = .next { s.record (.descramble b n) with fatal := true, errCode := 0x89#8, errDetail := 0#24 })

/-- R396: END_STATS emits the END_STATS record: SINR_VALID and the SINR of the mean of the finite noise variances, 0 where
there are none, and the EVM; it holds while the event FIFO lacks the room. In the model's own form: codes for opaque values
(log 4), sums of real numbers (log 5), what a hold leaves (log 9), the trace (log 19) and EVM words (log 25). -/
def Obligations.EndStatsResult : Prop :=
  ∀ (s : State) (b : BitVec 8) (x : Bundle), s.fatal = false → s.bundles[b.toNat]? = some x →
    (s.evq.length + 4 ≤ s.params.evqDepth → exec (.endStats b) s = .next { s.record (.endStats b) with
      evq := s.evq ++ [0x02#8 ++ x.tag ++ 3#16, if 0 < x.nvCnt then 0x100#32 else 0#32,
        if 0 < x.nvCnt then sinrMean x.nvSum x.nvCnt else 0#32, realWord (Config.evmEnd x.evmAcc)] }) ∧
    (s.params.evqDepth < s.evq.length + 4 → exec (.endStats b) s = .next s.hold)

/-- R388, R248: DEMOD_SYMBOL of a symbol without positions emits no PROV_STATS and publishes nothing; it runs DESCRAMBLE on no
soft bits and DEMUX_SYMBOL, which finds nothing to partition and advances. In the model's own form: that the finished symbol's
sets, unspecified by R248, hold no value (R66; log 3), codes for opaque values (log 4), `work` (log 16) and the trace (log 19). -/
def Obligations.SymbolWithoutPositions : Prop :=
  ∀ (s : State) (b : BitVec 8) (x : Bundle), s.fatal = false → s.bundles[b.toNat]? = some x → x.phase = .demod →
    nofPositions x.d x.l = 0 → x.dm.csi2State ≠ .await →
    exec (.demodSymbol b (BitVec.ofNat 16 x.l)) s =
      .next { s with
        trace := s.trace ++ encode (.demodSymbol b (BitVec.ofNat 16 x.l)) ++ encode (.descramble b 0#16) ++
          encode (.demuxSymbol b (BitVec.ofNat 16 x.l))
        bundles := s.bundles.set b.toNat { x with
          evmAcc := Config.evmFold x.evmAcc x.d [] []
          work := []
          l := x.l + 1
          phase := if x.l + 1 = startSymb x.d + nofSymb x.d then .endPdu else .demod
          dm := { x.dm with symCnt := 0, sets := none } } }

/-- R388, R392, R393: DEMOD_SYMBOL of a symbol with `n > 0` soft bits. It accumulates the statistics, emits PROV_STATS,
descrambles the soft bits and streams them to DEMUX_IN through one view of `n` slots; the publish completes the symbol, so
DEMUX_SYMBOL runs, in the state `s1`. Where no UCI soft bits are due and SCH takes the symbol's, it completes. In another
phase, or while the event FIFO lacks the room for PROV_STATS, it holds. In the model's own form: codes for opaque values (log
4), sums of real numbers (log 5), what a hold leaves (log 9), `work` (log 16), the trace (log 19) and EVM words (log 25). -/
def Obligations.DemodSymbolStreams : Prop :=
  ∀ (s : State) (b : BitVec 8) (x : Bundle), s.fatal = false → s.bundles[b.toNat]? = some x →
    let i : Instr := .demodSymbol b (BitVec.ofNat 16 x.l)
    let n := symbolBits x.d x.l
    let y := demodulate s.params x
    let fin := y.nvs.filterMap id
    let w := descrambleLlrs (cInit x.d) x.cwPos y.llrs
    let s1 : State := { s with
      trace := s.trace ++ encode i ++ encode (.descramble b (BitVec.ofNat 16 n)) ++
        encode (.reserveView 0#4 (BitVec.ofNat 19 n) b) ++ encode (.publishInPlace 0#4 (BitVec.ofNat 19 n) b)
      evq := s.evq ++ [0x01#8 ++ x.tag ++ 3#16,
        (if fin = [] then 0#32 else 0x100#32) ||| (0#28 ++ BitVec.ofNat 4 x.l),
        if fin = [] then 0#32 else sinrMean (ExactReal.sum fin) fin.length, realWord (Config.evmSymbol x.d y.ys y.llrs)]
      bundles := s.bundles.set b.toNat { x with
        nvSum := ExactReal.add x.nvSum (ExactReal.sum fin)
        nvCnt := x.nvCnt + fin.length
        evmAcc := Config.evmFold x.evmAcc x.d y.ys y.llrs
        work := w
        demuxIn := { x.demuxIn with viewBase := x.demuxIn.count, viewLen := 0 }
        dm := { x.dm with symBuf := Slots.write x.dm.symBuf 0 w, symCnt := n } } }
    let counted (u : State) : State := u.modPort (.demuxIn b.toNat) (fun q => { q with count := q.count + n })
    (x.phase ≠ .demod → exec i s = .next s.hold) ∧
    (x.phase = .demod → nofPositions x.d x.l ≠ 0 → s.params.evqDepth < s.evq.length + 4 → exec i s = .next s.hold) ∧
    (x.phase = .demod → 0 < n → s.evq.length + 4 ≤ s.params.evqDepth → x.demuxIn.isOpen = true →
      x.demuxIn.bound = .real → x.dm.symCnt = 0 →
      (∀ u, exec (.demuxSymbol b (BitVec.ofNat 16 x.l)) s1 = .next u → u.held = false → u.fatal = false →
        exec i s = .next (counted u)) ∧
      (∀ c, s.tbs[x.tbx]? = some c → s.held = false → x.noUciDue s.params →
        c.takes ((schPositions s.params x.d x.l (x.symbolSets s.params).1).length * bpr x.d) →
        ∃ u, exec (.demuxSymbol b (BitVec.ofNat 16 x.l)) s1 = .next u ∧ exec i s = .next (counted u)))

/-! ### The demultiplexer (spec/41_demux.md) -/

/-- R239: after `partition_b`, on a symbol without DM-RS, SCH, A, C1, C2 and RSV are pairwise disjoint and together are all the
symbol's positions; on a DM-RS symbol SCH is all of them and the others are empty; a HARQ-ACK of 1 or 2 bits lies in R, a
larger one is disjoint from it. -/
def Obligations.PartitionIsExact : Prop :=
  ∀ (p : Params) (d : Descriptor) (l : Nat) (bud : Budgets) (configured : Bool),
    let y := partitionA p d l bud
    let z := (partitionB d configured y.1 y.2).1
    (isDmrs d l = false →
      [z.sch, z.a, z.c1, z.c2, z.rsv].Pairwise List.Disjoint ∧
      ∀ i, i < nofPositions d l ↔ i ∈ z.sch ∨ i ∈ z.a ∨ i ∈ z.c1 ∨ i ∈ z.c2 ∨ i ∈ z.rsv) ∧
    (isDmrs d l = true → z.sch = List.range (nofPositions d l) ∧ z.a = [] ∧ z.c1 = [] ∧ z.c2 = [] ∧ z.rsv = []) ∧
    (1 ≤ ackBits d → ackBits d ≤ 2 → ∀ i ∈ z.a, i ∈ z.r) ∧
    (2 < ackBits d → List.Disjoint z.a z.r)

/-- R245, R247, R248, R249: DEMUX_SYMBOL of a complete symbol in which no UCI soft bits are due. UL-SCH gets the soft bits of
its positions, published to SCH where there are any, and the bundle advances. Where CSI Part 2 is awaited and neither HARQ-ACK
nor CSI Part 1 bits are due, the bundle holds. A symbol that is not complete, or another symbol number, stops the block (log
15). In the model's own form: that the finished symbol's sets, unspecified by R248, hold no value (R66; log 3), what a hold leaves
(log 9) and the trace (log 19). -/
def Obligations.DemuxSymbolResult : Prop :=
  ∀ (s : State) (b : BitVec 8) (x : Bundle) (c : TbCtx) (ls : List Llr), s.fatal = false →
    s.bundles[b.toNat]? = some x → s.tbs[x.tbx]? = some c →
    let i : Instr := .demuxSymbol b (BitVec.ofNat 16 x.l)
    let y := partitionA s.params x.d x.l x.dm.bud
    let z := x.symbolSets s.params
    let after := s.bundles.set b.toNat { x with
      cwPos := x.cwPos + symbolBits x.d x.l
      l := x.l + 1
      phase := if x.l + 1 = startSymb x.d + nofSymb x.d then .endPdu else .demod
      dm := { x.dm with bud := z.2, symCnt := 0, sets := none } }
    (x.dm.symCnt = symbolBits x.d x.l → x.noUciDue s.params →
      schLlrs s.params x.d x.dm.symBuf x.l z.1 = some ls → c.takes ls.length →
      (ls = [] → exec i s = .next { s.record i with bundles := after }) ∧
      (ls ≠ [] → exec i s = .next { (s.record i).record (.publishCopy 1#4 (BitVec.ofNat 8 x.tbx) ls) with
        bundles := after
        tbs := s.tbs.set x.tbx { c with
          stage := Slots.write c.stage c.sch.count ls
          sch := { c.sch with viewLen := 0, count := c.sch.count + ls.length } } })) ∧
    (x.dm.symCnt = symbolBits x.d x.l → x.dm.csi2State = .await → y.1.a = [] → y.1.c1 = [] →
      exec i s = .next { s.record i with
        bundles := s.bundles.set b.toNat { x with phase := .holdCsi2, dm := { x.dm with bud := y.2, sets := some y.1 } } }) ∧
    (∀ l, (l ≠ BitVec.ofNat 16 x.l ∨ x.dm.symCnt ≠ symbolBits x.d x.l) →
      exec (.demuxSymbol b l) s = .next { s.record (.demuxSymbol b l) with fatal := true, errCode := 0x89#8, errDetail := 0#24 })

/-- R241, R242, R244, R247, R249, R257: what a completed DEMUX_SYMBOL and a completed DEMUX_RESUME publish. `Bundle.gives` says
which soft bits a UCI field's port gets for the positions of the field's set, in ascending order and corrected where the field
has 1 or 2 payload bits; `Bundle.givesSch` says which ones SCH gets. Where the symbol stops for CSI Part 2, CSI2 and SCH get
nothing yet, and DEMUX_RESUME gives them what steps 4 and 5 leave. In the model's own form: that a finished symbol's sets,
unspecified by R248, hold no value (R66; log 3), and what a hold leaves (log 9). -/
def Obligations.DemuxPublishesTheSets : Prop :=
  ∀ (s t : State) (b : BitVec 8) (x x' : Bundle) (c c' : TbCtx), s.fatal = false → t.fatal = false → t.held = false →
    s.bundles[b.toNat]? = some x → s.tbs[x.tbx]? = some c → t.bundles[b.toNat]? = some x' → t.tbs[x.tbx]? = some c' →
    let y := (partitionA s.params x.d x.l x.dm.bud).1
    let z := (x.symbolSets s.params).1
    (exec (.demuxSymbol b (BitVec.ofNat 16 x.l)) s = .next t →
      x.gives (ackBits x.d) y.a x.ack x'.ack ∧ x.gives (csi1Bits x.d) y.c1 x.csi1 x'.csi1 ∧
      (x'.phase = .holdCsi2 ∧ x'.dm.csi2State = .await ∧ x'.dm.sets = some y ∧ x'.l = x.l ∧ x'.csi2 = x.csi2 ∧ c' = c ∨
        x'.phase ≠ .holdCsi2 ∧ x'.l = x.l + 1 ∧ x'.dm.sets = none ∧ x.gives x.dm.csi2Bits z.c2 x.csi2 x'.csi2 ∧
          x.givesSch s.params z c c')) ∧
    (∀ st, x.dm.sets = some st → exec (.demuxResume b (BitVec.ofNat 16 x.l)) s = .next t →
      let v := (partitionB x.d (decide (x.dm.csi2State = .configured)) st x.dm.bud).1
      x'.ack = x.ack ∧ x'.csi1 = x.csi1 ∧ x'.l = x.l + 1 ∧ x.gives x.dm.csi2Bits v.c2 x.csi2 x'.csi2 ∧
        x.givesSch s.params v c c')

/-- R257: DEMUX_RESUME of a bundle in phase RESUME finishes the held symbol from its sets; here without CSI Part 2 soft bits,
as after CSI2_NONE. In another phase it has no step. In the model's own form: that the finished symbol's sets, unspecified by
R248, hold no value (R66; log 3), what a hold leaves (log 9) and the trace (log 19). -/
def Obligations.DemuxResumeResult : Prop :=
  ∀ (s : State) (b : BitVec 8) (x : Bundle) (c : TbCtx) (st : Sets) (ls : List Llr), s.fatal = false →
    s.bundles[b.toNat]? = some x → s.tbs[x.tbx]? = some c →
    let i : Instr := .demuxResume b (BitVec.ofNat 16 x.l)
    let z := partitionB x.d (decide (x.dm.csi2State = .configured)) st x.dm.bud
    let after := s.bundles.set b.toNat { x with
      cwPos := x.cwPos + symbolBits x.d x.l
      l := x.l + 1
      phase := if x.l + 1 = startSymb x.d + nofSymb x.d then .endPdu else .demod
      dm := { x.dm with bud := z.2, symCnt := 0, sets := none } }
    (x.phase = .resume → x.dm.sets = some st → z.1.c2 = [] → schLlrs s.params x.d x.dm.symBuf x.l z.1 = some ls →
      c.takes ls.length →
      (ls = [] → exec i s = .next { s.record i with bundles := after }) ∧
      (ls ≠ [] → exec i s = .next { (s.record i).record (.publishCopy 1#4 (BitVec.ofNat 8 x.tbx) ls) with
        bundles := after
        tbs := s.tbs.set x.tbx { c with
          stage := Slots.write c.stage c.sch.count ls
          sch := { c.sch with viewLen := 0, count := c.sch.count + ls.length } } })) ∧
    (x.phase ≠ .resume → ∀ l, exec (.demuxResume b l) s = .next s.hold)

/-- R252: DEMUX_FLUSH where no field port has anything to decode (as R425 derives for every accepted PDU): it closes the field
ports still OPEN, declines CSI Part 2 where it was still open, and closes SCH, which dispatches the transport block in the
state `s1`. A partial symbol stops the block. In the model's own form: what a hold leaves (log 9) and the trace (log 19). -/
def Obligations.DemuxFlushResult : Prop :=
  ∀ (s : State) (b : BitVec 8) (x : Bundle) (c : TbCtx), s.fatal = false → s.bundles[b.toNat]? = some x →
    s.tbs[x.tbx]? = some c → x.tbx < 256 →
    let t := BitVec.ofNat 8 x.tbx
    let s1 : State := { s with
      trace := s.trace ++ encode (.demuxFlush b) ++ x.closeWords b ++ encode (.close 1#4 t)
      bundles := s.bundles.set b.toNat x.flushed
      tbs := s.tbs.set x.tbx { c with sch := { c.sch with isOpen := false, viewLen := 0 } } }
    (x.dm.symCnt = 0 → x.ack.quiet → x.csi1.quiet → x.csi2.quiet → c.sch.isOpen = true → c.sch.bound = .real →
      (∀ u, exec (.closeDispatch t) s1 = .next u → u.held = false → u.fatal = false → exec (.demuxFlush b) s = .next u) ∧
      (s.dispatchable x.tbx → ∃ u, exec (.closeDispatch t) s1 = .next u ∧ exec (.demuxFlush b) s = .next u)) ∧
    (x.dm.symCnt ≠ 0 →
      exec (.demuxFlush b) s = .next { s.record (.demuxFlush b) with fatal := true, errCode := 0x89#8, errDetail := 0#24 })

/-! ### The UCI decoders and the end of a PDU (spec/45_sequencer.md) -/

/-- R436: UCI_DECODE runs the UCI decoder on the soft bits the field's port has counted and writes the status and, where it is
VALID, the payload. The block runs it inside the close of a REAL port only (R206, R209); that it does the same for a port bound
NULL when it is issued on its own is the model's choice (log 33). In the model's own form: the trace (log 19). -/
def Obligations.UciDecodeResult : Prop :=
  ∀ (s : State) (b : BitVec 8) (f : UciField) (x : Bundle) (ls : List Llr), s.fatal = false →
    s.bundles[b.toNat]? = some x → Slots.get? (x.uci f).llr 0 (x.uci f).port.count = some ls →
    let n := match f with
      | .ack => ackBits x.d
      | .csi1 => csi1Bits x.d
      | .csi2 => x.dm.csi2Bits
    exec (.uciDecode b f) s = .next { s.record (.uciDecode b f) with
      bundles := s.bundles.set b.toNat (x.modUci f (fun u =>
        if Config.uciValid f n ls then { u with status := .valid, payload := (List.range n).map (Config.uciBit f n ls) }
        else { u with status := .invalid })) }

/-- R433: SEQ_END of a bundle in phase END emits END_STATS, closes DEMUX_IN, which flushes the demultiplexer in the state `s1`,
emits UCI_RESULT with the fields' results and enters COMMIT. In another phase, or while the event FIFO lacks the room for
either record, it holds. In the model's own form: codes for opaque values (log 4), sums of real numbers (log 5), what a hold
leaves (log 9), the trace (log 19) and EVM words (log 25). -/
def Obligations.SeqEndResult : Prop :=
  ∀ (s : State) (b : BitVec 8) (x : Bundle), s.fatal = false → s.bundles[b.toNat]? = some x →
    let s1 : State := { s with
      trace := s.trace ++ encode (.seqEnd b) ++ encode (.endStats b) ++ encode (.close 0#4 b)
      evq := s.evq ++ [0x02#8 ++ x.tag ++ 3#16, if 0 < x.nvCnt then 0x100#32 else 0#32,
        if 0 < x.nvCnt then sinrMean x.nvSum x.nvCnt else 0#32, realWord (Config.evmEnd x.evmAcc)]
      bundles := s.bundles.set b.toNat { x with demuxIn := { x.demuxIn with isOpen := false, viewLen := 0 } } }
    let ended (u : State) (y : Bundle) : State := { u with
      evq := u.evq ++ y.uciResult
      bundles := u.bundles.set b.toNat { y with phase := .commit } }
    (x.phase ≠ .endPdu → exec (.seqEnd b) s = .next s.hold) ∧
    (x.phase = .endPdu → s.params.evqDepth < s.evq.length + 4 → exec (.seqEnd b) s = .next s.hold) ∧
    (x.phase = .endPdu → s.evq.length + 4 ≤ s.params.evqDepth → x.demuxIn.isOpen = true → x.demuxIn.bound = .real →
      (∀ u y, exec (.demuxFlush b) s1 = .next u → u.held = false → u.fatal = false → u.bundles[b.toNat]? = some y →
        (u.evq.length + y.uciResult.length ≤ s.params.evqDepth → exec (.seqEnd b) s = .next (ended u y)) ∧
        (s.params.evqDepth < u.evq.length + y.uciResult.length → exec (.seqEnd b) s = .next s.hold)) ∧
      (∀ c, s.tbs[x.tbx]? = some c → x.tbx < 256 → x.dm.symCnt = 0 → x.ack.quiet → x.csi1.quiet → x.csi2.quiet →
        c.sch.isOpen = true → c.sch.bound = .real → s.dispatchable x.tbx →
        s.evq.length + 4 + x.uciResult.length ≤ s.params.evqDepth →
        ∃ u, exec (.demuxFlush b) s1 = .next u ∧ exec (.seqEnd b) s = .next (ended u
          { x.flushed with demuxIn := { x.demuxIn with isOpen := false, viewLen := 0 } })))

/-! ### The transport-block decoder (spec/43_tb_decoder.md) -/

/-- R330, R331: TB_CONFIGURE of an IDLE context latches the bundle's descriptor and DEC_CFG, leases the HARQ handle, zeroed
where it was FREE or the data is new, and enters COLLECTING; a context that is not IDLE and a LOCKED handle stop the block. Its
word names no bundle: which one it stands for is the model's choice (log 14). In the model's own form: the trace (log 19). -/
def Obligations.TbConfigureResult : Prop :=
  ∀ (s : State) (t : BitVec 8) (b : Nat) (x : TbCtx) (y : Bundle) (h : Harq), s.fatal = false → s.Exclusive →
    s.bundleConfiguring t.toNat = some b → s.bundles[b]? = some y → s.tbs[t.toNat]? = some x →
    s.harq[harqHandle y.d]? = some h →
    let stopped (c : BitVec 8) : Host.Outcome State Fault Refusal :=
      .next { s.record (.tbConfigure t) with fatal := true, errCode := c, errDetail := 0#24 }
    (x.fsm ≠ .idle → exec (.tbConfigure t) s = stopped 0x89#8) ∧
    (x.fsm = .idle → h.hstate = .locked → exec (.tbConfigure t) s = stopped 0x84#8) ∧
    (x.fsm = .idle → h.hstate ≠ .locked → exec (.tbConfigure t) s = .next { s.record (.tbConfigure t) with
      tbs := s.tbs.set t.toNat { x with
        fsm := .collecting
        tag := y.tag
        handle := harqHandle y.d
        tbDest := tbDest y.d
        tbs := tbSize y.d
        bg := baseGraph y.d
        rv := rv y.d
        qm := qm y.d
        nl := nl y.d
        newData := newData y.d
        lbrmEn := lbrmEn y.d
        nref := nref y.d
        maxIter := maxIter s.decCfg
        earlyStop := earlyStop s.decCfg
        g := gUlsch y.d
        tbCrcOk := false }
      harq :=
        let geo := geometry (tbSize y.d) (baseGraph y.d) (lbrmEn y.d) (nref y.d)
        s.harq.set (harqHandle y.d)
          (if h.hstate = .free ∨ newData y.d = true then
            ⟨.locked, geo, List.replicate geo.c
              ⟨List.replicate geo.ncb 0#8, List.replicate (kPrime (tbSize y.d) (baseGraph y.d)) false, false⟩⟩
          else { h with hstate := .locked }) })

/-- R334: SET_NOF_SOFTBITS gives a COLLECTING context its final budget; a budget below what SCH has counted, and a context that
is not COLLECTING, stop the block. Its word holds no budget: that it is the command unit's latched a2 is the model's choice
(log 14). In the model's own form: the trace (log 19). -/
def Obligations.SetNofSoftbitsResult : Prop :=
  ∀ (s : State) (t : BitVec 8) (x : TbCtx), s.fatal = false → s.tbs[t.toNat]? = some x →
    let g := (s.a2.extractLsb' 0 24).toNat
    (x.fsm = .collecting → x.sch.count ≤ g → exec (.setNofSoftbits t) s =
      .next { s.record (.setNofSoftbits t) with tbs := s.tbs.set t.toNat { x with g := g } }) ∧
    (x.fsm = .collecting → g < x.sch.count →
      exec (.setNofSoftbits t) s = .next { s.record (.setNofSoftbits t) with fatal := true, errCode := 0x88#8, errDetail := 0#24 }) ∧
    (x.fsm ≠ .collecting →
      exec (.setNofSoftbits t) s = .next { s.record (.setNofSoftbits t) with fatal := true, errCode := 0x89#8, errDetail := 0#24 })

/-- R336: CLOSE_DISPATCH. A context that is not COLLECTING, or that did not get exactly its budget, stops the block. Otherwise
it is segmented, its counter set to C and its statistics zeroed; then codeblock by codeblock, in ascending order, the task is
CB_RATE_DEMATCH for one that passed before on old data and CB_DECODE for any other, queued where there are engines, more than
one codeblock and a free slot, and run inline otherwise: `u 0`, ..., `u C` are the states in between. Where the queue takes
them all, the last clause gives the result outright. In the model's own form: what a hold leaves (log 9) and the trace (log
19). -/
def Obligations.CloseDispatchResult : Prop :=
  ∀ (s : State) (t : BitVec 8) (x : TbCtx), s.fatal = false → s.tbs[t.toNat]? = some x →
    let i : Instr := .closeDispatch t
    let seg := segment x.tbs x.bg x.g x.qm x.nl x.rv x.lbrmEn x.nref
    let started : State := { s.record i with
      tbs := s.tbs.set t.toNat { x with
        seg := seg
        counter := seg.c
        iter := x.iter.mapIdx (fun r k => if r < seg.c then 0 else k)
        decoded := x.decoded.mapIdx (fun r d => if r < seg.c then false else d) } }
    let task (cb : CbBuf) (r : Nat) : Instr :=
      if cb.crcOk = true ∧ x.newData = false then .cbRateDematch t (BitVec.ofNat 16 r) else .cbDecode t (BitVec.ofNat 16 r)
    (x.fsm ≠ .collecting → exec i s = .next { s.record i with fatal := true, errCode := 0x89#8, errDetail := 0#24 }) ∧
    (x.fsm = .collecting → x.sch.count ≠ x.g →
      exec i s = .next { s.record i with fatal := true, errCode := 0x87#8, errDetail := 0#24 }) ∧
    (x.fsm = .collecting → x.sch.count = x.g → seg.c ≤ 2 ^ 16 →
      (∀ u : Nat → State, u 0 = started →
        (∀ r, r < seg.c → ∃ h cb, (u r).harq[x.handle]? = some h ∧ h.cbs[r]? = some cb ∧
          if 1 ≤ s.params.nCbe ∧ 1 < seg.c ∧ (u r).taskq.length < s.params.taskqDepth then
            u (r + 1) = { u r with taskq := (u r).taskq ++ encode (task cb r) }
          else exec (task cb r) (u r) = .next (u (r + 1)) ∧ (u (r + 1)).held = false ∧ (u (r + 1)).fatal = false) →
        exec i s = .next (u seg.c)) ∧
      (∀ h, s.harq[x.handle]? = some h → seg.c ≤ h.cbs.length → 1 ≤ s.params.nCbe → 1 < seg.c →
        s.taskq.length + seg.c ≤ s.params.taskqDepth →
        exec i s = .next { started with
          taskq := s.taskq ++ (h.cbs.take seg.c).mapIdx (fun r cb =>
            (if cb.crcOk = true ∧ x.newData = false then 0x21#8 else 0x20#8) ++ t ++ BitVec.ofNat 16 r) }))

/-- R338, R343, R434, and the transitions of R329 they make. CLOSE_COMMIT moves COLLECTING to DECODING and joins from DECODED.
CB_COMPLETE takes one off the counter; at 0 a COLLECTING context becomes DECODED and a DECODING one joins; a counter that is 0
already is a double notification. Other states stop the block. The COMMIT step runs CLOSE_COMMIT and frees the bundle. In the
model's own form: what a hold leaves (log 9) and the trace (log 19). -/
def Obligations.CommitAndComplete : Prop :=
  ∀ (s : State) (t : BitVec 8) (r : BitVec 16) (x : TbCtx), s.fatal = false → s.tbs[t.toNat]? = some x →
    let stopped (i : Instr) (c : BitVec 8) : Host.Outcome State Fault Refusal :=
      .next { s.record i with fatal := true, errCode := c, errDetail := 0#24 }
    let counted : State := { s.record (.cbComplete t r) with
      tbs := s.tbs.set t.toNat { x with counter := x.counter - 1 } }
    (x.fsm = .collecting → exec (.closeCommit t) s =
      .next { s.record (.closeCommit t) with tbs := s.tbs.set t.toNat { x with fsm := .decoding } }) ∧
    (x.fsm = .decoded → ∀ u, exec (.tbJoin t) (s.record (.closeCommit t)) = .next u → u.held = false → u.fatal = false →
      exec (.closeCommit t) s = .next u) ∧
    ((x.fsm = .idle ∨ x.fsm = .decoding) → exec (.closeCommit t) s = stopped (.closeCommit t) 0x89#8) ∧
    (x.counter = 0 → exec (.cbComplete t r) s = stopped (.cbComplete t r) 0x83#8) ∧
    (2 ≤ x.counter → exec (.cbComplete t r) s = .next counted) ∧
    (x.counter = 1 → x.fsm = .collecting → exec (.cbComplete t r) s =
      .next { s.record (.cbComplete t r) with tbs := s.tbs.set t.toNat { x with counter := 0, fsm := .decoded } }) ∧
    (x.counter = 1 → x.fsm = .decoding → ∀ u, exec (.tbJoin t) counted = .next u → u.held = false → u.fatal = false →
      exec (.cbComplete t r) s = .next u) ∧
    (x.counter = 1 → (x.fsm = .idle ∨ x.fsm = .decoded) → exec (.cbComplete t r) s = stopped (.cbComplete t r) 0x89#8) ∧
    (∀ b y u, s.bundles[b]? = some y → y.phase = .commit → y.tbx = t.toNat → exec (.closeCommit t) s = .next u →
      u.held = false → u.fatal = false →
      runAgent (.seq b) s = .next { u with bundles := s.bundles.set b { y with phase := .free } })

/-- R346, R347, R350, R164: TB_JOIN of a context whose codeblocks have all completed. One codeblock decides by its own CRC
flag, several by all their flags and the 24-bit checksum over their data; a failing checksum resets every flag. The handle is
released or kept, SCH_RESULT is emitted, the context becomes IDLE, and on success the transport block is in DMEM, most
significant bit first, wherever no other writer has raced it (R114). A context that has no join due is a double notification,
and a join without room for its record holds. How a race is noted is the model's choice (log 12): the PDU's output range is
marked as joined and keeps the bytes that the join wrote, and `contested` says where another writer has raced. In the model's
own form: what a hold leaves (log 9) and the trace (log 19). -/
def Obligations.TbJoinResult : Prop :=
  ∀ (s : State) (t : BitVec 8) (x : TbCtx) (h : Harq), s.fatal = false → s.tbs[t.toNat]? = some x →
    ((x.fsm ≠ .decoding ∧ x.fsm ≠ .decoded ∨ x.counter ≠ 0) →
      exec (.tbJoin t) s = .next { s.record (.tbJoin t) with fatal := true, errCode := 0x83#8, errDetail := 0#24 }) ∧
    ((x.fsm = .decoding ∨ x.fsm = .decoded) → x.counter = 0 → s.harq[x.handle]? = some h →
      1 ≤ x.seg.c → x.seg.c ≤ h.cbs.length → (∀ cb ∈ h.cbs, x.seg.kPrime ≤ cb.data.length) →
      x.tbs ≤ (if x.seg.c = 1 then x.seg.kPrime else x.seg.c * (x.seg.kPrime - 24)) → x.tbDest + x.tbs / 8 ≤ 2 ^ 32 →
      let cbs := h.cbs.take x.seg.c
      let all := cbs.all (fun cb => cb.crcOk)
      let sum := if x.seg.c = 1 then (cbs.map (fun cb => cb.data)).flatten
        else (cbs.map (fun cb => cb.data.take (x.seg.kPrime - 24))).flatten
      let ok := all && (decide (x.seg.c = 1) || crcPass .crc24a sum)
      let iters := ((List.range x.seg.c).filter (fun r => x.decoded.getD r false)).map (fun r => x.iter.getD r 0)
      (s.params.evqDepth < s.evq.length + 4 → exec (.tbJoin t) s = .next s.hold) ∧
      (s.evq.length + 4 ≤ s.params.evqDepth → ∃ u, exec (.tbJoin t) s = .next u ∧
        u.tbs = s.tbs.set t.toNat { x with tbCrcOk := ok, fsm := .idle } ∧
        u.harq = s.harq.set x.handle { h with
          hstate := if ok = true then .free else .held
          cbs := h.cbs.mapIdx (fun r cb => if r < x.seg.c ∧ all = true ∧ ok = false then { cb with crcOk := false } else cb) } ∧
        u.evq = s.evq ++ [0x04#8 ++ x.tag ++ 3#16, BitVec.ofNat 16 x.seg.c ++ 0#15 ++ BitVec.ofBool ok,
          BitVec.ofNat 16 iters.length ++ BitVec.ofNat 8 (iters.max?.getD 0) ++ BitVec.ofNat 8 (iters.min?.getD 0),
          BitVec.ofNat 32 iters.sum] ∧
        u.trace = s.trace ++ encode (.tbJoin t) ∧
        u.windows.map (fun w => (w.tag, w.base, w.len)) = s.windows.map (fun w => (w.tag, w.base, w.len)) ∧
        (∀ o w, s.joiningWindow x.tag = some o → s.windows[o]? = some w →
          ∃ block : List Byte, u.windows[o]? = some { w with joined := true, block := block } ∧
            block.length = (if ok = true then x.tbs / 8 else 0) ∧
            ∀ k v, block[k]? = some v → ∀ j, j < 8 → v.getLsbD (7 - j) = sum.getD (8 * k + j) false) ∧
        (ok = false → u.dmem = s.dmem ∧ u.freeNo = s.freeNo) ∧
        (ok = true → ∀ k, k < x.tbs / 8 → s.contested (s.joiningWindow x.tag) (x.tbDest + k) = false →
          ∃ v, Memory.read u.dmem (x.tbDest + k) = some v ∧ ∀ j, j < 8 → v.getLsbD (7 - j) = sum.getD (8 * k + j) false) ∧
        { u with
          tbs := s.tbs
          harq := s.harq
          evq := s.evq
          trace := s.trace
          dmem := s.dmem
          windows := s.windows
          freeNo := s.freeNo } = s))
end

