-- ==== Sys2Proof/Laws/Encode.lean ====
section
/-!
SUPPORT. The fields of the words the encoder writes, and the packing of soft bits (spec/30_encoding.md R141 to R152).
-/

namespace Sys2Proof

/-! ### Fields of appended bit vectors -/

/-- A field of the low part of an append. -/
theorem extract_append_low {n m : Nat} (x : BitVec n) (y : BitVec m) (lo len : Nat) (h : lo + len ≤ m) :
    (x ++ y).extractLsb' lo len = y.extractLsb' lo len := by
  apply BitVec.eq_of_getLsbD_eq
  intro k hk
  simp only [BitVec.getLsbD_extractLsb', BitVec.getLsbD_append, hk, show lo + k < m by omega, decide_true, if_true]

/-- A field of the high part of an append. -/
theorem extract_append_high {n m : Nat} (x : BitVec n) (y : BitVec m) (lo len : Nat) (h : m ≤ lo) :
    (x ++ y).extractLsb' lo len = x.extractLsb' (lo - m) len := by
  apply BitVec.eq_of_getLsbD_eq
  intro k hk
  simp only [BitVec.getLsbD_extractLsb', BitVec.getLsbD_append, hk, show ¬ lo + k < m by omega, decide_true, if_false]
  rw [show lo + k - m = lo - m + k by omega]

theorem extract_all {n : Nat} (x : BitVec n) : x.extractLsb' 0 n = x := by
  apply BitVec.eq_of_getLsbD_eq
  intro k hk
  simp [hk]

/-- Two neighbouring fields of a word, appended, are the field of both. -/
theorem append_extract {n : Nat} (x : BitVec n) (lo a b : Nat) :
    x.extractLsb' (lo + a) b ++ x.extractLsb' lo a = x.extractLsb' lo (b + a) := by
  apply BitVec.eq_of_getLsbD_eq
  intro k hk
  simp only [BitVec.getLsbD_extractLsb', BitVec.getLsbD_append, hk, decide_true, Bool.true_and]
  split
  · simp [*]
  · rw [show lo + a + (k - a) = lo + k by omega]; simp; omega

/-! ### Headers of classes H, T and U -/

@[simp] theorem header_opc (o u : BitVec 8) (i : BitVec 16) : Word.opc (header o u i) = o :=
  (extract_append_high (o ++ u) i 24 8 (by omega)).trans ((extract_append_high o u 8 8 (by omega)).trans (extract_all o))

@[simp] theorem header_unit (o u : BitVec 8) (i : BitVec 16) : Word.unit (header o u i) = u :=
  (extract_append_high (o ++ u) i 16 8 (by omega)).trans ((extract_append_low o u 0 8 (by omega)).trans (extract_all u))

@[simp] theorem header_imm16 (o u : BitVec 8) (i : BitVec 16) : Word.imm16 (header o u i) = i :=
  (extract_append_low (o ++ u) i 0 16 (by omega)).trans (extract_all i)

theorem header_fields (w : Word) : header w.opc w.unit w.imm16 = w := by
  have h1 : w.extractLsb' 24 8 ++ w.extractLsb' 16 8 = w.extractLsb' 16 16 := append_extract w 16 8 8
  have h2 : w.extractLsb' 16 16 ++ w.extractLsb' 0 16 = w.extractLsb' 0 32 := append_extract w 0 16 16
  unfold header Word.opc Word.unit Word.imm16
  exact (congrArg (· ++ w.extractLsb' 0 16) h1).trans (h2.trans (extract_all w))

/-! ### Headers of class P -/

@[simp] theorem portHeader_opc (o : BitVec 8) (p : BitVec 4) (i : BitVec 1) (n : BitVec 19) :
    Word.opc (portHeader o p i n) = o :=
  (extract_append_high (o ++ p ++ i) n 24 8 (by omega)).trans
    ((extract_append_high (o ++ p) i 5 8 (by omega)).trans ((extract_append_high o p 4 8 (by omega)).trans (extract_all o)))

@[simp] theorem portHeader_port (o : BitVec 8) (p : BitVec 4) (i : BitVec 1) (n : BitVec 19) :
    Word.port (portHeader o p i n) = p :=
  (extract_append_high (o ++ p ++ i) n 20 4 (by omega)).trans
    ((extract_append_high (o ++ p) i 1 4 (by omega)).trans ((extract_append_low o p 0 4 (by omega)).trans (extract_all p)))

@[simp] theorem portHeader_inPlace (o : BitVec 8) (p : BitVec 4) (i : BitVec 1) (n : BitVec 19) :
    Word.inPlace (portHeader o p i n) = i.getLsbD 0 := by
  have : (o ++ p ++ i ++ n).getLsbD 19 = i.getLsbD 0 := by
    simp only [BitVec.getLsbD_append, show ¬ 19 < 19 by omega, show 19 - 19 < 1 by omega, if_true, if_false]
  exact this

@[simp] theorem portHeader_count19 (o : BitVec 8) (p : BitVec 4) (i : BitVec 1) (n : BitVec 19) :
    Word.count19 (portHeader o p i n) = n :=
  (extract_append_low (o ++ p ++ i) n 0 19 (by omega)).trans (extract_all n)

theorem portHeader_fields (w : Word) : portHeader w.opc w.port (w.extractLsb' 19 1) w.count19 = w := by
  have h1 : w.extractLsb' 24 8 ++ w.extractLsb' 20 4 = w.extractLsb' 20 12 := append_extract w 20 4 8
  have h2 : w.extractLsb' 20 12 ++ w.extractLsb' 19 1 = w.extractLsb' 19 13 := append_extract w 19 1 12
  have h3 : w.extractLsb' 19 13 ++ w.extractLsb' 0 19 = w.extractLsb' 0 32 := append_extract w 0 19 13
  unfold portHeader Word.opc Word.port Word.count19
  refine (congrArg (· ++ w.extractLsb' 0 19) ?_).trans (h3.trans (extract_all w))
  exact (congrArg (· ++ w.extractLsb' 19 1) h1).trans h2

/-- IN_PLACE as the one-bit field of the word. -/
theorem inPlace_field (w : Word) : w.extractLsb' 19 1 = BitVec.ofBool w.inPlace := by
  apply BitVec.eq_of_getLsbD_eq
  intro k hk
  obtain rfl : k = 0 := by omega
  simp [Word.inPlace]

/-! ### Argument words and owner words -/

@[simp] theorem ownerWord_owner (o : BitVec 8) : Word.owner (ownerWord o) = o :=
  (extract_append_low 0#24 o 0 8 (by omega)).trans (extract_all o)

@[simp] theorem ownerWord_high24 (o : BitVec 8) : Word.high24 (ownerWord o) = 0#24 :=
  (extract_append_high 0#24 o 8 24 (by omega)).trans (extract_all _)

theorem ownerWord_fields {w : Word} (h : w.high24 = 0#24) : ownerWord w.owner = w := by
  have h1 : w.extractLsb' 8 24 ++ w.extractLsb' 0 8 = w.extractLsb' 0 32 := append_extract w 0 8 24
  unfold ownerWord Word.owner
  unfold Word.high24 at h
  rw [h] at h1
  exact h1.trans (extract_all w)

@[simp] theorem argWord_low24 (v : BitVec 24) : Word.low24 (argWord v) = v :=
  (extract_append_low 0#8 v 0 24 (by omega)).trans (extract_all v)

@[simp] theorem argWord_high8 (v : BitVec 24) : Word.high8 (argWord v) = 0#8 :=
  (extract_append_high 0#8 v 24 8 (by omega)).trans (extract_all _)

theorem argWord_fields {w : Word} (h : w.high8 = 0#8) : argWord w.low24 = w := by
  have h1 : w.extractLsb' 24 8 ++ w.extractLsb' 0 24 = w.extractLsb' 0 32 := append_extract w 0 24 8
  unfold argWord Word.low24
  unfold Word.high8 at h
  rw [h] at h1
  exact h1.trans (extract_all w)

/-! ### Soft bits in data words (R147) -/

theorem packLlrs_length (ls : List (BitVec 8)) : (packLlrs ls).length = (ls.length + 3) / 4 := by
  fun_induction packLlrs ls <;> simp_all <;> omega

theorem pack1 (a : BitVec 8) : (0#8 ++ 0#8 ++ 0#8 ++ a).extractLsb' 8 24 = 0#24 ∧
    (0#8 ++ 0#8 ++ 0#8 ++ a).extractLsb' 0 8 = a :=
  ⟨(extract_append_high (0#8 ++ 0#8 ++ 0#8) a 8 24 (by omega)).trans (extract_all _),
    (extract_append_low (0#8 ++ 0#8 ++ 0#8) a 0 8 (by omega)).trans (extract_all a)⟩

/-- The four bytes of a data word, read back. -/
theorem pack4 (a b c d : BitVec 8) :
    (d ++ c ++ b ++ a).extractLsb' 0 8 = a ∧ (d ++ c ++ b ++ a).extractLsb' 8 8 = b ∧
      (d ++ c ++ b ++ a).extractLsb' 16 8 = c ∧ (d ++ c ++ b ++ a).extractLsb' 24 8 = d :=
  ⟨(extract_append_low (d ++ c ++ b) a 0 8 (by omega)).trans (extract_all a),
    (extract_append_high (d ++ c ++ b) a 8 8 (by omega)).trans
      ((extract_append_low (d ++ c) b 0 8 (by omega)).trans (extract_all b)),
    (extract_append_high (d ++ c ++ b) a 16 8 (by omega)).trans
      ((extract_append_high (d ++ c) b 8 8 (by omega)).trans
        ((extract_append_low d c 0 8 (by omega)).trans (extract_all c))),
    (extract_append_high (d ++ c ++ b) a 24 8 (by omega)).trans
      ((extract_append_high (d ++ c) b 16 8 (by omega)).trans
        ((extract_append_high d c 8 8 (by omega)).trans (extract_all d)))⟩

theorem pack2_high (x : BitVec 16) (y : BitVec 16) : (x ++ y).extractLsb' 16 16 = x :=
  (extract_append_high x y 16 16 (by omega)).trans (extract_all x)

/-- Packed soft bits are read back, with what stands after them. -/
theorem unpackLlrs_packLlrs (ls : List (BitVec 8)) (rest : List Word) :
    unpackLlrs ls.length (packLlrs ls ++ rest) = some (ls, rest) := by
  fun_induction packLlrs ls with
  | case1 => simp [unpackLlrs]
  | case2 a =>
    have h := pack1 a
    simp only [unpackLlrs, List.length_cons, List.length_nil, List.cons_append, List.nil_append]
    rw [if_pos h.1]; rw [show _ = a from h.2]
  | case3 a b =>
    have h := pack4 a b 0#8 0#8
    have h2 : (0#8 ++ 0#8 ++ b ++ a).extractLsb' 16 16 = 0#16 :=
      (extract_append_high (0#8 ++ 0#8 ++ b) a 16 16 (by omega)).trans
        ((extract_append_high (0#8 ++ 0#8) b 8 16 (by omega)).trans (extract_all _))
    simp only [unpackLlrs, List.length_cons, List.length_nil, List.cons_append, List.nil_append]
    rw [if_pos h2]; rw [show _ = a from h.1, show _ = b from h.2.1]
  | case4 a b c =>
    have h := pack4 a b c 0#8
    simp only [unpackLlrs, List.length_cons, List.length_nil, List.cons_append, List.nil_append]
    rw [if_pos (show _ = 0#8 from h.2.2.2)]
    rw [show _ = a from h.1, show _ = b from h.2.1, show _ = c from h.2.2.1]
  | case5 a b c d rest' ih =>
    have h := pack4 a b c d
    simp only [List.length_cons, List.cons_append, unpackLlrs, ih, bytesOfWord]
    rw [show _ = a from h.1, show _ = b from h.2.1, show _ = c from h.2.2.1, show _ = d from h.2.2.2]
    rfl

/-- Soft bits that are read back are the packed ones. -/
theorem packLlrs_unpackLlrs {n : Nat} {ws rest : List Word} {ls : List (BitVec 8)}
    (h : unpackLlrs n ws = some (ls, rest)) : ls.length = n ∧ ws = packLlrs ls ++ rest := by
  fun_induction unpackLlrs n ws generalizing ls rest with
  | case1 ws => simp at h; simp [h.1, h.2, packLlrs]
  | case2 => simp at h
  | case3 w ws hw =>
    simp at h
    obtain ⟨rfl, rfl⟩ := h
    refine ⟨rfl, ?_⟩
    simp only [packLlrs, List.cons_append, List.nil_append, List.cons.injEq, and_true]
    have h1 : w.extractLsb' 8 24 ++ w.extractLsb' 0 8 = w.extractLsb' 0 32 := append_extract w 0 8 24
    rw [hw] at h1
    exact ((congrArg (· ++ w.extractLsb' 0 8) (by decide)).trans (h1.trans (extract_all w))).symm
  | case4 => simp at h
  | case5 w ws hw =>
    simp at h
    obtain ⟨rfl, rfl⟩ := h
    refine ⟨rfl, ?_⟩
    simp only [packLlrs, List.cons_append, List.nil_append, List.cons.injEq, and_true]
    have h0 : w.extractLsb' 16 16 ++ w.extractLsb' 8 8 = w.extractLsb' 8 24 := append_extract w 8 8 16
    have h1 : w.extractLsb' 8 24 ++ w.extractLsb' 0 8 = w.extractLsb' 0 32 := append_extract w 0 8 24
    rw [hw] at h0
    exact ((congrArg (· ++ w.extractLsb' 0 8) h0).trans (h1.trans (extract_all w))).symm
  | case6 => simp at h
  | case7 w ws hw =>
    simp at h
    obtain ⟨rfl, rfl⟩ := h
    refine ⟨rfl, ?_⟩
    simp only [packLlrs, List.cons_append, List.nil_append, List.cons.injEq, and_true]
    have h0 : w.extractLsb' 24 8 ++ w.extractLsb' 16 8 = w.extractLsb' 16 16 := append_extract w 16 8 8
    have h2 : w.extractLsb' 16 16 ++ w.extractLsb' 8 8 = w.extractLsb' 8 24 := append_extract w 8 8 16
    have h1 : w.extractLsb' 8 24 ++ w.extractLsb' 0 8 = w.extractLsb' 0 32 := append_extract w 0 8 24
    rw [hw] at h0
    exact ((congrArg (· ++ w.extractLsb' 0 8) ((congrArg (· ++ w.extractLsb' 8 8) h0).trans h2)).trans
      (h1.trans (extract_all w))).symm
  | case8 => simp at h
  | case9 n w ws ls' rest' hr ih =>
    simp at h
    obtain ⟨rfl, rfl⟩ := h
    obtain ⟨h3, h4⟩ := ih hr
    refine ⟨by simp [bytesOfWord, h3], ?_⟩
    simp only [bytesOfWord, List.cons_append, List.nil_append, packLlrs, h4, List.cons.injEq, and_true]
    have h0 : w.extractLsb' 24 8 ++ w.extractLsb' 16 8 = w.extractLsb' 16 16 := append_extract w 16 8 8
    have h2 : w.extractLsb' 16 16 ++ w.extractLsb' 8 8 = w.extractLsb' 8 24 := append_extract w 8 8 16
    have h1 : w.extractLsb' 8 24 ++ w.extractLsb' 0 8 = w.extractLsb' 0 32 := append_extract w 0 8 24
    exact ((congrArg (· ++ w.extractLsb' 0 8) ((congrArg (· ++ w.extractLsb' 8 8) h0).trans h2)).trans
      (h1.trans (extract_all w))).symm
  | case10 => simp_all

end Sys2Proof
end

