-- ==== Sys2Proof/Laws/State.lean ====
section
/-!
SUPPORT. One lemma per field per update of the state, so that no later proof unfolds a record update.
-/

namespace Sys2Proof.Machine

variable (s : State)

/-! ### log -/

@[simp] theorem State.log_params (ws : List Word) : (s.log ws).params = s.params := rfl
@[simp] theorem State.log_errCode (ws : List Word) : (s.log ws).errCode = s.errCode := rfl
@[simp] theorem State.log_errDetail (ws : List Word) : (s.log ws).errDetail = s.errDetail := rfl
@[simp] theorem State.log_cmdErr (ws : List Word) : (s.log ws).cmdErr = s.cmdErr := rfl
@[simp] theorem State.log_irqEnable (ws : List Word) : (s.log ws).irqEnable = s.irqEnable := rfl
@[simp] theorem State.log_decCfg (ws : List Word) : (s.log ws).decCfg = s.decCfg := rfl
@[simp] theorem State.log_desc (ws : List Word) : (s.log ws).desc = s.desc := rfl
@[simp] theorem State.log_cmdq (ws : List Word) : (s.log ws).cmdq = s.cmdq := rfl
@[simp] theorem State.log_evq (ws : List Word) : (s.log ws).evq = s.evq := rfl
@[simp] theorem State.log_taskq (ws : List Word) : (s.log ws).taskq = s.taskq := rfl
@[simp] theorem State.log_fatal (ws : List Word) : (s.log ws).fatal = s.fatal := rfl
@[simp] theorem State.log_bundles (ws : List Word) : (s.log ws).bundles = s.bundles := rfl
@[simp] theorem State.log_tbs (ws : List Word) : (s.log ws).tbs = s.tbs := rfl
@[simp] theorem State.log_harq (ws : List Word) : (s.log ws).harq = s.harq := rfl
@[simp] theorem State.log_dmem (ws : List Word) : (s.log ws).dmem = s.dmem := rfl
@[simp] theorem State.log_windows (ws : List Word) : (s.log ws).windows = s.windows := rfl
@[simp] theorem State.log_popLeft (ws : List Word) : (s.log ws).popLeft = s.popLeft := rfl
@[simp] theorem State.log_a2 (ws : List Word) : (s.log ws).a2 = s.a2 := rfl
@[simp] theorem State.log_rdata (ws : List Word) : (s.log ws).rdata = s.rdata := rfl
@[simp] theorem State.log_trace (ws : List Word) : (s.log ws).trace = s.trace ++ ws := rfl
@[simp] theorem State.log_sched (ws : List Word) : (s.log ws).sched = s.sched := rfl
@[simp] theorem State.log_taskHead (ws : List Word) : (s.log ws).taskHead = s.taskHead := rfl
@[simp] theorem State.log_turnNo (ws : List Word) : (s.log ws).turnNo = s.turnNo := rfl
@[simp] theorem State.log_freeNo (ws : List Word) : (s.log ws).freeNo = s.freeNo := rfl
@[simp] theorem State.log_gridNo (ws : List Word) : (s.log ws).gridNo = s.gridNo := rfl
@[simp] theorem State.log_held (ws : List Word) : (s.log ws).held = s.held := rfl

/-! ### record -/

@[simp] theorem State.record_params (i : Instr) : (s.record i).params = s.params := rfl
@[simp] theorem State.record_errCode (i : Instr) : (s.record i).errCode = s.errCode := rfl
@[simp] theorem State.record_errDetail (i : Instr) : (s.record i).errDetail = s.errDetail := rfl
@[simp] theorem State.record_cmdErr (i : Instr) : (s.record i).cmdErr = s.cmdErr := rfl
@[simp] theorem State.record_irqEnable (i : Instr) : (s.record i).irqEnable = s.irqEnable := rfl
@[simp] theorem State.record_decCfg (i : Instr) : (s.record i).decCfg = s.decCfg := rfl
@[simp] theorem State.record_desc (i : Instr) : (s.record i).desc = s.desc := rfl
@[simp] theorem State.record_cmdq (i : Instr) : (s.record i).cmdq = s.cmdq := rfl
@[simp] theorem State.record_evq (i : Instr) : (s.record i).evq = s.evq := rfl
@[simp] theorem State.record_taskq (i : Instr) : (s.record i).taskq = s.taskq := rfl
@[simp] theorem State.record_fatal (i : Instr) : (s.record i).fatal = s.fatal := rfl
@[simp] theorem State.record_bundles (i : Instr) : (s.record i).bundles = s.bundles := rfl
@[simp] theorem State.record_tbs (i : Instr) : (s.record i).tbs = s.tbs := rfl
@[simp] theorem State.record_harq (i : Instr) : (s.record i).harq = s.harq := rfl
@[simp] theorem State.record_dmem (i : Instr) : (s.record i).dmem = s.dmem := rfl
@[simp] theorem State.record_windows (i : Instr) : (s.record i).windows = s.windows := rfl
@[simp] theorem State.record_popLeft (i : Instr) : (s.record i).popLeft = s.popLeft := rfl
@[simp] theorem State.record_a2 (i : Instr) : (s.record i).a2 = s.a2 := rfl
@[simp] theorem State.record_rdata (i : Instr) : (s.record i).rdata = s.rdata := rfl
@[simp] theorem State.record_trace (i : Instr) : (s.record i).trace = s.trace ++ traceWords i := rfl
@[simp] theorem State.record_sched (i : Instr) : (s.record i).sched = s.sched := rfl
@[simp] theorem State.record_taskHead (i : Instr) : (s.record i).taskHead = s.taskHead := rfl
@[simp] theorem State.record_turnNo (i : Instr) : (s.record i).turnNo = s.turnNo := rfl
@[simp] theorem State.record_freeNo (i : Instr) : (s.record i).freeNo = s.freeNo := rfl
@[simp] theorem State.record_gridNo (i : Instr) : (s.record i).gridNo = s.gridNo := rfl
@[simp] theorem State.record_held (i : Instr) : (s.record i).held = s.held := rfl

/-! ### hold -/

@[simp] theorem State.hold_params : (s.hold).params = s.params := rfl
@[simp] theorem State.hold_errCode : (s.hold).errCode = s.errCode := rfl
@[simp] theorem State.hold_errDetail : (s.hold).errDetail = s.errDetail := rfl
@[simp] theorem State.hold_cmdErr : (s.hold).cmdErr = s.cmdErr := rfl
@[simp] theorem State.hold_irqEnable : (s.hold).irqEnable = s.irqEnable := rfl
@[simp] theorem State.hold_decCfg : (s.hold).decCfg = s.decCfg := rfl
@[simp] theorem State.hold_desc : (s.hold).desc = s.desc := rfl
@[simp] theorem State.hold_cmdq : (s.hold).cmdq = s.cmdq := rfl
@[simp] theorem State.hold_evq : (s.hold).evq = s.evq := rfl
@[simp] theorem State.hold_taskq : (s.hold).taskq = s.taskq := rfl
@[simp] theorem State.hold_fatal : (s.hold).fatal = s.fatal := rfl
@[simp] theorem State.hold_bundles : (s.hold).bundles = s.bundles := rfl
@[simp] theorem State.hold_tbs : (s.hold).tbs = s.tbs := rfl
@[simp] theorem State.hold_harq : (s.hold).harq = s.harq := rfl
@[simp] theorem State.hold_dmem : (s.hold).dmem = s.dmem := rfl
@[simp] theorem State.hold_windows : (s.hold).windows = s.windows := rfl
@[simp] theorem State.hold_popLeft : (s.hold).popLeft = s.popLeft := rfl
@[simp] theorem State.hold_a2 : (s.hold).a2 = s.a2 := rfl
@[simp] theorem State.hold_rdata : (s.hold).rdata = s.rdata := rfl
@[simp] theorem State.hold_trace : (s.hold).trace = s.trace := rfl
@[simp] theorem State.hold_sched : (s.hold).sched = s.sched := rfl
@[simp] theorem State.hold_taskHead : (s.hold).taskHead = s.taskHead := rfl
@[simp] theorem State.hold_turnNo : (s.hold).turnNo = s.turnNo := rfl
@[simp] theorem State.hold_freeNo : (s.hold).freeNo = s.freeNo := rfl
@[simp] theorem State.hold_gridNo : (s.hold).gridNo = s.gridNo := rfl
@[simp] theorem State.hold_held : (s.hold).held = true := rfl

/-! ### noteCmdError -/

@[simp] theorem State.noteCmdError_params (c : CmdCode) (x : BitVec 24) : (s.noteCmdError c x).params = s.params := rfl
@[simp] theorem State.noteCmdError_errCode (c : CmdCode) (x : BitVec 24) : (s.noteCmdError c x).errCode = c.code := rfl
@[simp] theorem State.noteCmdError_errDetail (c : CmdCode) (x : BitVec 24) : (s.noteCmdError c x).errDetail = x := rfl
@[simp] theorem State.noteCmdError_cmdErr (c : CmdCode) (x : BitVec 24) : (s.noteCmdError c x).cmdErr = true := rfl
@[simp] theorem State.noteCmdError_irqEnable (c : CmdCode) (x : BitVec 24) : (s.noteCmdError c x).irqEnable = s.irqEnable := rfl
@[simp] theorem State.noteCmdError_decCfg (c : CmdCode) (x : BitVec 24) : (s.noteCmdError c x).decCfg = s.decCfg := rfl
@[simp] theorem State.noteCmdError_desc (c : CmdCode) (x : BitVec 24) : (s.noteCmdError c x).desc = s.desc := rfl
@[simp] theorem State.noteCmdError_cmdq (c : CmdCode) (x : BitVec 24) : (s.noteCmdError c x).cmdq = s.cmdq := rfl
@[simp] theorem State.noteCmdError_evq (c : CmdCode) (x : BitVec 24) : (s.noteCmdError c x).evq = s.evq := rfl
@[simp] theorem State.noteCmdError_taskq (c : CmdCode) (x : BitVec 24) : (s.noteCmdError c x).taskq = s.taskq := rfl
@[simp] theorem State.noteCmdError_fatal (c : CmdCode) (x : BitVec 24) : (s.noteCmdError c x).fatal = s.fatal := rfl
@[simp] theorem State.noteCmdError_bundles (c : CmdCode) (x : BitVec 24) : (s.noteCmdError c x).bundles = s.bundles := rfl
@[simp] theorem State.noteCmdError_tbs (c : CmdCode) (x : BitVec 24) : (s.noteCmdError c x).tbs = s.tbs := rfl
@[simp] theorem State.noteCmdError_harq (c : CmdCode) (x : BitVec 24) : (s.noteCmdError c x).harq = s.harq := rfl
@[simp] theorem State.noteCmdError_dmem (c : CmdCode) (x : BitVec 24) : (s.noteCmdError c x).dmem = s.dmem := rfl
@[simp] theorem State.noteCmdError_windows (c : CmdCode) (x : BitVec 24) : (s.noteCmdError c x).windows = s.windows := rfl
@[simp] theorem State.noteCmdError_popLeft (c : CmdCode) (x : BitVec 24) : (s.noteCmdError c x).popLeft = s.popLeft := rfl
@[simp] theorem State.noteCmdError_a2 (c : CmdCode) (x : BitVec 24) : (s.noteCmdError c x).a2 = s.a2 := rfl
@[simp] theorem State.noteCmdError_rdata (c : CmdCode) (x : BitVec 24) : (s.noteCmdError c x).rdata = s.rdata := rfl
@[simp] theorem State.noteCmdError_trace (c : CmdCode) (x : BitVec 24) : (s.noteCmdError c x).trace = s.trace := rfl
@[simp] theorem State.noteCmdError_sched (c : CmdCode) (x : BitVec 24) : (s.noteCmdError c x).sched = s.sched := rfl
@[simp] theorem State.noteCmdError_taskHead (c : CmdCode) (x : BitVec 24) : (s.noteCmdError c x).taskHead = s.taskHead := rfl
@[simp] theorem State.noteCmdError_turnNo (c : CmdCode) (x : BitVec 24) : (s.noteCmdError c x).turnNo = s.turnNo := rfl
@[simp] theorem State.noteCmdError_freeNo (c : CmdCode) (x : BitVec 24) : (s.noteCmdError c x).freeNo = s.freeNo := rfl
@[simp] theorem State.noteCmdError_gridNo (c : CmdCode) (x : BitVec 24) : (s.noteCmdError c x).gridNo = s.gridNo := rfl
@[simp] theorem State.noteCmdError_held (c : CmdCode) (x : BitVec 24) : (s.noteCmdError c x).held = s.held := rfl

/-! ### enterFatal -/

@[simp] theorem State.enterFatal_params (c : FatalCode) : (s.enterFatal c).params = s.params := rfl
@[simp] theorem State.enterFatal_errCode (c : FatalCode) : (s.enterFatal c).errCode = c.code := rfl
@[simp] theorem State.enterFatal_errDetail (c : FatalCode) : (s.enterFatal c).errDetail = 0#24 := rfl
@[simp] theorem State.enterFatal_cmdErr (c : FatalCode) : (s.enterFatal c).cmdErr = s.cmdErr := rfl
@[simp] theorem State.enterFatal_irqEnable (c : FatalCode) : (s.enterFatal c).irqEnable = s.irqEnable := rfl
@[simp] theorem State.enterFatal_decCfg (c : FatalCode) : (s.enterFatal c).decCfg = s.decCfg := rfl
@[simp] theorem State.enterFatal_desc (c : FatalCode) : (s.enterFatal c).desc = s.desc := rfl
@[simp] theorem State.enterFatal_cmdq (c : FatalCode) : (s.enterFatal c).cmdq = s.cmdq := rfl
@[simp] theorem State.enterFatal_evq (c : FatalCode) : (s.enterFatal c).evq = s.evq := rfl
@[simp] theorem State.enterFatal_taskq (c : FatalCode) : (s.enterFatal c).taskq = s.taskq := rfl
@[simp] theorem State.enterFatal_fatal (c : FatalCode) : (s.enterFatal c).fatal = true := rfl
@[simp] theorem State.enterFatal_bundles (c : FatalCode) : (s.enterFatal c).bundles = s.bundles := rfl
@[simp] theorem State.enterFatal_tbs (c : FatalCode) : (s.enterFatal c).tbs = s.tbs := rfl
@[simp] theorem State.enterFatal_harq (c : FatalCode) : (s.enterFatal c).harq = s.harq := rfl
@[simp] theorem State.enterFatal_dmem (c : FatalCode) : (s.enterFatal c).dmem = s.dmem := rfl
@[simp] theorem State.enterFatal_windows (c : FatalCode) : (s.enterFatal c).windows = s.windows := rfl
@[simp] theorem State.enterFatal_popLeft (c : FatalCode) : (s.enterFatal c).popLeft = s.popLeft := rfl
@[simp] theorem State.enterFatal_a2 (c : FatalCode) : (s.enterFatal c).a2 = s.a2 := rfl
@[simp] theorem State.enterFatal_rdata (c : FatalCode) : (s.enterFatal c).rdata = s.rdata := rfl
@[simp] theorem State.enterFatal_trace (c : FatalCode) : (s.enterFatal c).trace = s.trace := rfl
@[simp] theorem State.enterFatal_sched (c : FatalCode) : (s.enterFatal c).sched = s.sched := rfl
@[simp] theorem State.enterFatal_taskHead (c : FatalCode) : (s.enterFatal c).taskHead = s.taskHead := rfl
@[simp] theorem State.enterFatal_turnNo (c : FatalCode) : (s.enterFatal c).turnNo = s.turnNo := rfl
@[simp] theorem State.enterFatal_freeNo (c : FatalCode) : (s.enterFatal c).freeNo = s.freeNo := rfl
@[simp] theorem State.enterFatal_gridNo (c : FatalCode) : (s.enterFatal c).gridNo = s.gridNo := rfl
@[simp] theorem State.enterFatal_held (c : FatalCode) : (s.enterFatal c).held = s.held := rfl

/-! ### modBundle -/

@[simp] theorem State.modBundle_params (b : Nat) (g : Bundle → Bundle) : (s.modBundle b g).params = s.params := rfl
@[simp] theorem State.modBundle_errCode (b : Nat) (g : Bundle → Bundle) : (s.modBundle b g).errCode = s.errCode := rfl
@[simp] theorem State.modBundle_errDetail (b : Nat) (g : Bundle → Bundle) : (s.modBundle b g).errDetail = s.errDetail := rfl
@[simp] theorem State.modBundle_cmdErr (b : Nat) (g : Bundle → Bundle) : (s.modBundle b g).cmdErr = s.cmdErr := rfl
@[simp] theorem State.modBundle_irqEnable (b : Nat) (g : Bundle → Bundle) : (s.modBundle b g).irqEnable = s.irqEnable := rfl
@[simp] theorem State.modBundle_decCfg (b : Nat) (g : Bundle → Bundle) : (s.modBundle b g).decCfg = s.decCfg := rfl
@[simp] theorem State.modBundle_desc (b : Nat) (g : Bundle → Bundle) : (s.modBundle b g).desc = s.desc := rfl
@[simp] theorem State.modBundle_cmdq (b : Nat) (g : Bundle → Bundle) : (s.modBundle b g).cmdq = s.cmdq := rfl
@[simp] theorem State.modBundle_evq (b : Nat) (g : Bundle → Bundle) : (s.modBundle b g).evq = s.evq := rfl
@[simp] theorem State.modBundle_taskq (b : Nat) (g : Bundle → Bundle) : (s.modBundle b g).taskq = s.taskq := rfl
@[simp] theorem State.modBundle_fatal (b : Nat) (g : Bundle → Bundle) : (s.modBundle b g).fatal = s.fatal := rfl
@[simp] theorem State.modBundle_bundles (b : Nat) (g : Bundle → Bundle) : (s.modBundle b g).bundles = s.bundles.modify b g := rfl
@[simp] theorem State.modBundle_tbs (b : Nat) (g : Bundle → Bundle) : (s.modBundle b g).tbs = s.tbs := rfl
@[simp] theorem State.modBundle_harq (b : Nat) (g : Bundle → Bundle) : (s.modBundle b g).harq = s.harq := rfl
@[simp] theorem State.modBundle_dmem (b : Nat) (g : Bundle → Bundle) : (s.modBundle b g).dmem = s.dmem := rfl
@[simp] theorem State.modBundle_windows (b : Nat) (g : Bundle → Bundle) : (s.modBundle b g).windows = s.windows := rfl
@[simp] theorem State.modBundle_popLeft (b : Nat) (g : Bundle → Bundle) : (s.modBundle b g).popLeft = s.popLeft := rfl
@[simp] theorem State.modBundle_a2 (b : Nat) (g : Bundle → Bundle) : (s.modBundle b g).a2 = s.a2 := rfl
@[simp] theorem State.modBundle_rdata (b : Nat) (g : Bundle → Bundle) : (s.modBundle b g).rdata = s.rdata := rfl
@[simp] theorem State.modBundle_trace (b : Nat) (g : Bundle → Bundle) : (s.modBundle b g).trace = s.trace := rfl
@[simp] theorem State.modBundle_sched (b : Nat) (g : Bundle → Bundle) : (s.modBundle b g).sched = s.sched := rfl
@[simp] theorem State.modBundle_taskHead (b : Nat) (g : Bundle → Bundle) : (s.modBundle b g).taskHead = s.taskHead := rfl
@[simp] theorem State.modBundle_turnNo (b : Nat) (g : Bundle → Bundle) : (s.modBundle b g).turnNo = s.turnNo := rfl
@[simp] theorem State.modBundle_freeNo (b : Nat) (g : Bundle → Bundle) : (s.modBundle b g).freeNo = s.freeNo := rfl
@[simp] theorem State.modBundle_gridNo (b : Nat) (g : Bundle → Bundle) : (s.modBundle b g).gridNo = s.gridNo := rfl
@[simp] theorem State.modBundle_held (b : Nat) (g : Bundle → Bundle) : (s.modBundle b g).held = s.held := rfl

/-! ### modTb -/

@[simp] theorem State.modTb_params (t : Nat) (g : TbCtx → TbCtx) : (s.modTb t g).params = s.params := rfl
@[simp] theorem State.modTb_errCode (t : Nat) (g : TbCtx → TbCtx) : (s.modTb t g).errCode = s.errCode := rfl
@[simp] theorem State.modTb_errDetail (t : Nat) (g : TbCtx → TbCtx) : (s.modTb t g).errDetail = s.errDetail := rfl
@[simp] theorem State.modTb_cmdErr (t : Nat) (g : TbCtx → TbCtx) : (s.modTb t g).cmdErr = s.cmdErr := rfl
@[simp] theorem State.modTb_irqEnable (t : Nat) (g : TbCtx → TbCtx) : (s.modTb t g).irqEnable = s.irqEnable := rfl
@[simp] theorem State.modTb_decCfg (t : Nat) (g : TbCtx → TbCtx) : (s.modTb t g).decCfg = s.decCfg := rfl
@[simp] theorem State.modTb_desc (t : Nat) (g : TbCtx → TbCtx) : (s.modTb t g).desc = s.desc := rfl
@[simp] theorem State.modTb_cmdq (t : Nat) (g : TbCtx → TbCtx) : (s.modTb t g).cmdq = s.cmdq := rfl
@[simp] theorem State.modTb_evq (t : Nat) (g : TbCtx → TbCtx) : (s.modTb t g).evq = s.evq := rfl
@[simp] theorem State.modTb_taskq (t : Nat) (g : TbCtx → TbCtx) : (s.modTb t g).taskq = s.taskq := rfl
@[simp] theorem State.modTb_fatal (t : Nat) (g : TbCtx → TbCtx) : (s.modTb t g).fatal = s.fatal := rfl
@[simp] theorem State.modTb_bundles (t : Nat) (g : TbCtx → TbCtx) : (s.modTb t g).bundles = s.bundles := rfl
@[simp] theorem State.modTb_tbs (t : Nat) (g : TbCtx → TbCtx) : (s.modTb t g).tbs = s.tbs.modify t g := rfl
@[simp] theorem State.modTb_harq (t : Nat) (g : TbCtx → TbCtx) : (s.modTb t g).harq = s.harq := rfl
@[simp] theorem State.modTb_dmem (t : Nat) (g : TbCtx → TbCtx) : (s.modTb t g).dmem = s.dmem := rfl
@[simp] theorem State.modTb_windows (t : Nat) (g : TbCtx → TbCtx) : (s.modTb t g).windows = s.windows := rfl
@[simp] theorem State.modTb_popLeft (t : Nat) (g : TbCtx → TbCtx) : (s.modTb t g).popLeft = s.popLeft := rfl
@[simp] theorem State.modTb_a2 (t : Nat) (g : TbCtx → TbCtx) : (s.modTb t g).a2 = s.a2 := rfl
@[simp] theorem State.modTb_rdata (t : Nat) (g : TbCtx → TbCtx) : (s.modTb t g).rdata = s.rdata := rfl
@[simp] theorem State.modTb_trace (t : Nat) (g : TbCtx → TbCtx) : (s.modTb t g).trace = s.trace := rfl
@[simp] theorem State.modTb_sched (t : Nat) (g : TbCtx → TbCtx) : (s.modTb t g).sched = s.sched := rfl
@[simp] theorem State.modTb_taskHead (t : Nat) (g : TbCtx → TbCtx) : (s.modTb t g).taskHead = s.taskHead := rfl
@[simp] theorem State.modTb_turnNo (t : Nat) (g : TbCtx → TbCtx) : (s.modTb t g).turnNo = s.turnNo := rfl
@[simp] theorem State.modTb_freeNo (t : Nat) (g : TbCtx → TbCtx) : (s.modTb t g).freeNo = s.freeNo := rfl
@[simp] theorem State.modTb_gridNo (t : Nat) (g : TbCtx → TbCtx) : (s.modTb t g).gridNo = s.gridNo := rfl
@[simp] theorem State.modTb_held (t : Nat) (g : TbCtx → TbCtx) : (s.modTb t g).held = s.held := rfl

/-! ### modHarq -/

@[simp] theorem State.modHarq_params (h : Nat) (g : Harq → Harq) : (s.modHarq h g).params = s.params := rfl
@[simp] theorem State.modHarq_errCode (h : Nat) (g : Harq → Harq) : (s.modHarq h g).errCode = s.errCode := rfl
@[simp] theorem State.modHarq_errDetail (h : Nat) (g : Harq → Harq) : (s.modHarq h g).errDetail = s.errDetail := rfl
@[simp] theorem State.modHarq_cmdErr (h : Nat) (g : Harq → Harq) : (s.modHarq h g).cmdErr = s.cmdErr := rfl
@[simp] theorem State.modHarq_irqEnable (h : Nat) (g : Harq → Harq) : (s.modHarq h g).irqEnable = s.irqEnable := rfl
@[simp] theorem State.modHarq_decCfg (h : Nat) (g : Harq → Harq) : (s.modHarq h g).decCfg = s.decCfg := rfl
@[simp] theorem State.modHarq_desc (h : Nat) (g : Harq → Harq) : (s.modHarq h g).desc = s.desc := rfl
@[simp] theorem State.modHarq_cmdq (h : Nat) (g : Harq → Harq) : (s.modHarq h g).cmdq = s.cmdq := rfl
@[simp] theorem State.modHarq_evq (h : Nat) (g : Harq → Harq) : (s.modHarq h g).evq = s.evq := rfl
@[simp] theorem State.modHarq_taskq (h : Nat) (g : Harq → Harq) : (s.modHarq h g).taskq = s.taskq := rfl
@[simp] theorem State.modHarq_fatal (h : Nat) (g : Harq → Harq) : (s.modHarq h g).fatal = s.fatal := rfl
@[simp] theorem State.modHarq_bundles (h : Nat) (g : Harq → Harq) : (s.modHarq h g).bundles = s.bundles := rfl
@[simp] theorem State.modHarq_tbs (h : Nat) (g : Harq → Harq) : (s.modHarq h g).tbs = s.tbs := rfl
@[simp] theorem State.modHarq_harq (h : Nat) (g : Harq → Harq) : (s.modHarq h g).harq = s.harq.modify h g := rfl
@[simp] theorem State.modHarq_dmem (h : Nat) (g : Harq → Harq) : (s.modHarq h g).dmem = s.dmem := rfl
@[simp] theorem State.modHarq_windows (h : Nat) (g : Harq → Harq) : (s.modHarq h g).windows = s.windows := rfl
@[simp] theorem State.modHarq_popLeft (h : Nat) (g : Harq → Harq) : (s.modHarq h g).popLeft = s.popLeft := rfl
@[simp] theorem State.modHarq_a2 (h : Nat) (g : Harq → Harq) : (s.modHarq h g).a2 = s.a2 := rfl
@[simp] theorem State.modHarq_rdata (h : Nat) (g : Harq → Harq) : (s.modHarq h g).rdata = s.rdata := rfl
@[simp] theorem State.modHarq_trace (h : Nat) (g : Harq → Harq) : (s.modHarq h g).trace = s.trace := rfl
@[simp] theorem State.modHarq_sched (h : Nat) (g : Harq → Harq) : (s.modHarq h g).sched = s.sched := rfl
@[simp] theorem State.modHarq_taskHead (h : Nat) (g : Harq → Harq) : (s.modHarq h g).taskHead = s.taskHead := rfl
@[simp] theorem State.modHarq_turnNo (h : Nat) (g : Harq → Harq) : (s.modHarq h g).turnNo = s.turnNo := rfl
@[simp] theorem State.modHarq_freeNo (h : Nat) (g : Harq → Harq) : (s.modHarq h g).freeNo = s.freeNo := rfl
@[simp] theorem State.modHarq_gridNo (h : Nat) (g : Harq → Harq) : (s.modHarq h g).gridNo = s.gridNo := rfl
@[simp] theorem State.modHarq_held (h : Nat) (g : Harq → Harq) : (s.modHarq h g).held = s.held := rfl

/-! ### acceptPdu -/

@[simp] theorem State.acceptPdu_params (tag : BitVec 8) (d : Descriptor) : (s.acceptPdu tag d).params = s.params := rfl
@[simp] theorem State.acceptPdu_errCode (tag : BitVec 8) (d : Descriptor) : (s.acceptPdu tag d).errCode = s.errCode := rfl
@[simp] theorem State.acceptPdu_errDetail (tag : BitVec 8) (d : Descriptor) : (s.acceptPdu tag d).errDetail = s.errDetail := rfl
@[simp] theorem State.acceptPdu_cmdErr (tag : BitVec 8) (d : Descriptor) : (s.acceptPdu tag d).cmdErr = s.cmdErr := rfl
@[simp] theorem State.acceptPdu_irqEnable (tag : BitVec 8) (d : Descriptor) : (s.acceptPdu tag d).irqEnable = s.irqEnable := rfl
@[simp] theorem State.acceptPdu_decCfg (tag : BitVec 8) (d : Descriptor) : (s.acceptPdu tag d).decCfg = s.decCfg := rfl
@[simp] theorem State.acceptPdu_desc (tag : BitVec 8) (d : Descriptor) : (s.acceptPdu tag d).desc = s.desc := rfl
@[simp] theorem State.acceptPdu_cmdq (tag : BitVec 8) (d : Descriptor) : (s.acceptPdu tag d).cmdq = s.cmdq := rfl
@[simp] theorem State.acceptPdu_evq (tag : BitVec 8) (d : Descriptor) : (s.acceptPdu tag d).evq = s.evq := rfl
@[simp] theorem State.acceptPdu_taskq (tag : BitVec 8) (d : Descriptor) : (s.acceptPdu tag d).taskq = s.taskq := rfl
@[simp] theorem State.acceptPdu_fatal (tag : BitVec 8) (d : Descriptor) : (s.acceptPdu tag d).fatal = s.fatal := rfl
@[simp] theorem State.acceptPdu_bundles (tag : BitVec 8) (d : Descriptor) : (s.acceptPdu tag d).bundles = s.bundles := rfl
@[simp] theorem State.acceptPdu_tbs (tag : BitVec 8) (d : Descriptor) : (s.acceptPdu tag d).tbs = s.tbs := rfl
@[simp] theorem State.acceptPdu_harq (tag : BitVec 8) (d : Descriptor) : (s.acceptPdu tag d).harq = s.harq := rfl
@[simp] theorem State.acceptPdu_dmem (tag : BitVec 8) (d : Descriptor) : (s.acceptPdu tag d).dmem = s.dmem := rfl
@[simp] theorem State.acceptPdu_windows (tag : BitVec 8) (d : Descriptor) : (s.acceptPdu tag d).windows = s.windows ++ [⟨tag, tbDest d, tbSize d / 8, false, [], []⟩] := rfl
@[simp] theorem State.acceptPdu_popLeft (tag : BitVec 8) (d : Descriptor) : (s.acceptPdu tag d).popLeft = s.popLeft := rfl
@[simp] theorem State.acceptPdu_a2 (tag : BitVec 8) (d : Descriptor) : (s.acceptPdu tag d).a2 = s.a2 := rfl
@[simp] theorem State.acceptPdu_rdata (tag : BitVec 8) (d : Descriptor) : (s.acceptPdu tag d).rdata = s.rdata := rfl
@[simp] theorem State.acceptPdu_trace (tag : BitVec 8) (d : Descriptor) : (s.acceptPdu tag d).trace = s.trace := rfl
@[simp] theorem State.acceptPdu_sched (tag : BitVec 8) (d : Descriptor) : (s.acceptPdu tag d).sched = s.sched := rfl
@[simp] theorem State.acceptPdu_taskHead (tag : BitVec 8) (d : Descriptor) : (s.acceptPdu tag d).taskHead = s.taskHead := rfl
@[simp] theorem State.acceptPdu_turnNo (tag : BitVec 8) (d : Descriptor) : (s.acceptPdu tag d).turnNo = s.turnNo := rfl
@[simp] theorem State.acceptPdu_freeNo (tag : BitVec 8) (d : Descriptor) : (s.acceptPdu tag d).freeNo = s.freeNo := rfl
@[simp] theorem State.acceptPdu_gridNo (tag : BitVec 8) (d : Descriptor) : (s.acceptPdu tag d).gridNo = s.gridNo + 1 := rfl
@[simp] theorem State.acceptPdu_held (tag : BitVec 8) (d : Descriptor) : (s.acceptPdu tag d).held = s.held := rfl

/-! ### modPort -/

@[simp] theorem State.modPort_params (r : PortRef) (g : Port → Port) : (s.modPort r g).params = s.params := by cases r <;> rfl
@[simp] theorem State.modPort_errCode (r : PortRef) (g : Port → Port) : (s.modPort r g).errCode = s.errCode := by cases r <;> rfl
@[simp] theorem State.modPort_errDetail (r : PortRef) (g : Port → Port) : (s.modPort r g).errDetail = s.errDetail := by cases r <;> rfl
@[simp] theorem State.modPort_cmdErr (r : PortRef) (g : Port → Port) : (s.modPort r g).cmdErr = s.cmdErr := by cases r <;> rfl
@[simp] theorem State.modPort_irqEnable (r : PortRef) (g : Port → Port) : (s.modPort r g).irqEnable = s.irqEnable := by cases r <;> rfl
@[simp] theorem State.modPort_decCfg (r : PortRef) (g : Port → Port) : (s.modPort r g).decCfg = s.decCfg := by cases r <;> rfl
@[simp] theorem State.modPort_desc (r : PortRef) (g : Port → Port) : (s.modPort r g).desc = s.desc := by cases r <;> rfl
@[simp] theorem State.modPort_cmdq (r : PortRef) (g : Port → Port) : (s.modPort r g).cmdq = s.cmdq := by cases r <;> rfl
@[simp] theorem State.modPort_evq (r : PortRef) (g : Port → Port) : (s.modPort r g).evq = s.evq := by cases r <;> rfl
@[simp] theorem State.modPort_taskq (r : PortRef) (g : Port → Port) : (s.modPort r g).taskq = s.taskq := by cases r <;> rfl
@[simp] theorem State.modPort_fatal (r : PortRef) (g : Port → Port) : (s.modPort r g).fatal = s.fatal := by cases r <;> rfl
@[simp] theorem State.modPort_harq (r : PortRef) (g : Port → Port) : (s.modPort r g).harq = s.harq := by cases r <;> rfl
@[simp] theorem State.modPort_dmem (r : PortRef) (g : Port → Port) : (s.modPort r g).dmem = s.dmem := by cases r <;> rfl
@[simp] theorem State.modPort_windows (r : PortRef) (g : Port → Port) : (s.modPort r g).windows = s.windows := by cases r <;> rfl
@[simp] theorem State.modPort_popLeft (r : PortRef) (g : Port → Port) : (s.modPort r g).popLeft = s.popLeft := by cases r <;> rfl
@[simp] theorem State.modPort_a2 (r : PortRef) (g : Port → Port) : (s.modPort r g).a2 = s.a2 := by cases r <;> rfl
@[simp] theorem State.modPort_rdata (r : PortRef) (g : Port → Port) : (s.modPort r g).rdata = s.rdata := by cases r <;> rfl
@[simp] theorem State.modPort_trace (r : PortRef) (g : Port → Port) : (s.modPort r g).trace = s.trace := by cases r <;> rfl
@[simp] theorem State.modPort_sched (r : PortRef) (g : Port → Port) : (s.modPort r g).sched = s.sched := by cases r <;> rfl
@[simp] theorem State.modPort_taskHead (r : PortRef) (g : Port → Port) : (s.modPort r g).taskHead = s.taskHead := by cases r <;> rfl
@[simp] theorem State.modPort_turnNo (r : PortRef) (g : Port → Port) : (s.modPort r g).turnNo = s.turnNo := by cases r <;> rfl
@[simp] theorem State.modPort_freeNo (r : PortRef) (g : Port → Port) : (s.modPort r g).freeNo = s.freeNo := by cases r <;> rfl
@[simp] theorem State.modPort_gridNo (r : PortRef) (g : Port → Port) : (s.modPort r g).gridNo = s.gridNo := by cases r <;> rfl
@[simp] theorem State.modPort_held (r : PortRef) (g : Port → Port) : (s.modPort r g).held = s.held := by cases r <;> rfl

/-! ### modStorage -/

@[simp] theorem State.modStorage_params (r : PortRef) (g : Slots → Slots) : (s.modStorage r g).params = s.params := by cases r <;> rfl
@[simp] theorem State.modStorage_errCode (r : PortRef) (g : Slots → Slots) : (s.modStorage r g).errCode = s.errCode := by cases r <;> rfl
@[simp] theorem State.modStorage_errDetail (r : PortRef) (g : Slots → Slots) : (s.modStorage r g).errDetail = s.errDetail := by cases r <;> rfl
@[simp] theorem State.modStorage_cmdErr (r : PortRef) (g : Slots → Slots) : (s.modStorage r g).cmdErr = s.cmdErr := by cases r <;> rfl
@[simp] theorem State.modStorage_irqEnable (r : PortRef) (g : Slots → Slots) : (s.modStorage r g).irqEnable = s.irqEnable := by cases r <;> rfl
@[simp] theorem State.modStorage_decCfg (r : PortRef) (g : Slots → Slots) : (s.modStorage r g).decCfg = s.decCfg := by cases r <;> rfl
@[simp] theorem State.modStorage_desc (r : PortRef) (g : Slots → Slots) : (s.modStorage r g).desc = s.desc := by cases r <;> rfl
@[simp] theorem State.modStorage_cmdq (r : PortRef) (g : Slots → Slots) : (s.modStorage r g).cmdq = s.cmdq := by cases r <;> rfl
@[simp] theorem State.modStorage_evq (r : PortRef) (g : Slots → Slots) : (s.modStorage r g).evq = s.evq := by cases r <;> rfl
@[simp] theorem State.modStorage_taskq (r : PortRef) (g : Slots → Slots) : (s.modStorage r g).taskq = s.taskq := by cases r <;> rfl
@[simp] theorem State.modStorage_fatal (r : PortRef) (g : Slots → Slots) : (s.modStorage r g).fatal = s.fatal := by cases r <;> rfl
@[simp] theorem State.modStorage_harq (r : PortRef) (g : Slots → Slots) : (s.modStorage r g).harq = s.harq := by cases r <;> rfl
@[simp] theorem State.modStorage_dmem (r : PortRef) (g : Slots → Slots) : (s.modStorage r g).dmem = s.dmem := by cases r <;> rfl
@[simp] theorem State.modStorage_windows (r : PortRef) (g : Slots → Slots) : (s.modStorage r g).windows = s.windows := by cases r <;> rfl
@[simp] theorem State.modStorage_popLeft (r : PortRef) (g : Slots → Slots) : (s.modStorage r g).popLeft = s.popLeft := by cases r <;> rfl
@[simp] theorem State.modStorage_a2 (r : PortRef) (g : Slots → Slots) : (s.modStorage r g).a2 = s.a2 := by cases r <;> rfl
@[simp] theorem State.modStorage_rdata (r : PortRef) (g : Slots → Slots) : (s.modStorage r g).rdata = s.rdata := by cases r <;> rfl
@[simp] theorem State.modStorage_trace (r : PortRef) (g : Slots → Slots) : (s.modStorage r g).trace = s.trace := by cases r <;> rfl
@[simp] theorem State.modStorage_sched (r : PortRef) (g : Slots → Slots) : (s.modStorage r g).sched = s.sched := by cases r <;> rfl
@[simp] theorem State.modStorage_taskHead (r : PortRef) (g : Slots → Slots) : (s.modStorage r g).taskHead = s.taskHead := by cases r <;> rfl
@[simp] theorem State.modStorage_turnNo (r : PortRef) (g : Slots → Slots) : (s.modStorage r g).turnNo = s.turnNo := by cases r <;> rfl
@[simp] theorem State.modStorage_freeNo (r : PortRef) (g : Slots → Slots) : (s.modStorage r g).freeNo = s.freeNo := by cases r <;> rfl
@[simp] theorem State.modStorage_gridNo (r : PortRef) (g : Slots → Slots) : (s.modStorage r g).gridNo = s.gridNo := by cases r <;> rfl
@[simp] theorem State.modStorage_held (r : PortRef) (g : Slots → Slots) : (s.modStorage r g).held = s.held := by cases r <;> rfl

end Sys2Proof.Machine
end

