-- ==== Sys2Proof/Laws/Memory.lean ====
section
/-!
SUPPORT. DMEM: a read after a write, and the canonical form that every memory operation keeps.
-/

namespace Sys2Proof.Machine

theorem Memory.read_write_same (m : List Host.Cell) (a : Nat) (v : Byte) :
    Memory.read (Memory.write m a v) a = some v := by
  induction m with
  | nil => simp [Memory.write, Memory.read]
  | cons c m ih =>
    obtain ⟨b, w⟩ := c
    simp only [Memory.write]
    split
    · simp [Memory.read]
    · split
      · simp [Memory.read]
      · rename_i h; simp [Memory.read, h, ih]

theorem Memory.read_write_other (m : List Host.Cell) (a c : Nat) (v : Byte) (h : c ≠ a) :
    Memory.read (Memory.write m a v) c = Memory.read m c := by
  induction m with
  | nil => simp [Memory.write, Memory.read, h]
  | cons d m ih =>
    obtain ⟨b, w⟩ := d
    simp only [Memory.write]
    split
    · simp [Memory.read, h]
    · split
      · rename_i hab; subst hab; simp [Memory.read, h]
      · simp [Memory.read, ih]

/-- The canonical form, with a lower bound on every address. -/
theorem Memory.wf_cons (a : Nat) (v : Byte) (m : List Host.Cell) :
    Memory.wf ((a, v) :: m) = true ↔ a < 2 ^ 32 ∧ Memory.wf m = true ∧ ∀ c ∈ m.head?, a < c.1 := by
  cases m with
  | nil => simp [Memory.wf]
  | cons d m =>
    obtain ⟨b, w⟩ := d
    simp only [Memory.wf, Bool.and_eq_true, decide_eq_true_eq, List.head?_cons, Option.mem_some_iff]
    constructor
    · rintro ⟨h1, h2⟩
      have hb : b < 2 ^ 32 := by
        clear h1
        cases m with
        | nil => simpa [Memory.wf] using h2
        | cons e m =>
          have : ∀ (m : List Host.Cell) (b : Nat) (w : Byte), Memory.wf ((b, w) :: m) = true → b < 2 ^ 32 := by
            intro m
            induction m with
            | nil => intro b w h; simpa [Memory.wf] using h
            | cons e m ih =>
              intro b w h
              simp only [Memory.wf, Bool.and_eq_true, decide_eq_true_eq] at h
              exact lt_trans h.1 (ih e.1 e.2 h.2)
          exact this _ _ _ h2
      refine ⟨lt_trans h1 hb, h2, ?_⟩
      rintro c rfl; exact h1
    · rintro ⟨_, h2, h3⟩
      exact ⟨h3 _ rfl, h2⟩

theorem Memory.head_write (m : List Host.Cell) (a : Nat) (v : Byte) (c : Host.Cell)
    (h : c ∈ (Memory.write m a v).head?) : c.1 = a ∨ c ∈ m.head? := by
  cases m with
  | nil => simp [Memory.write] at h; left; rw [← h]
  | cons d m =>
    obtain ⟨b, w⟩ := d
    simp only [Memory.write] at h
    split at h
    · simp at h; left; rw [← h]
    · split at h
      · simp at h; left; rw [← h]
      · simp at h; right; simp [h]

/-- A write keeps the canonical form. -/
theorem Memory.wf_write (m : List Host.Cell) (a : Nat) (v : Byte) (hm : Memory.wf m = true) (ha : a < 2 ^ 32) :
    Memory.wf (Memory.write m a v) = true := by
  induction m with
  | nil => simpa [Memory.write, Memory.wf] using ha
  | cons d m ih =>
    obtain ⟨b, w⟩ := d
    have hd := (Memory.wf_cons b w m).1 hm
    simp only [Memory.write]
    split
    · rename_i hab
      exact (Memory.wf_cons _ _ _).2 ⟨ha, hm, by rintro c h; simp at h; rw [← h]; exact hab⟩
    · split
      · rename_i hab; subst hab
        exact (Memory.wf_cons _ _ _).2 ⟨ha, hd.2.1, hd.2.2⟩
      · rename_i h1 h2
        refine (Memory.wf_cons _ _ _).2 ⟨hd.1, ih hd.2.1, ?_⟩
        intro c hc
        rcases Memory.head_write m a v c hc with h | h
        · rw [h]; omega
        · exact hd.2.2 c h

/-! ### The memory operations of the block and of HOST -/

@[simp] theorem State.memWrite_evq (s : State) (o : Option Nat) (a : Nat) (v : Byte) : (s.memWrite o a v).evq = s.evq := by
  unfold State.memWrite; split <;> rfl

@[simp] theorem State.memWrite_tbs (s : State) (o : Option Nat) (a : Nat) (v : Byte) : (s.memWrite o a v).tbs = s.tbs := by
  unfold State.memWrite; split <;> rfl

@[simp] theorem State.memWrite_harq (s : State) (o : Option Nat) (a : Nat) (v : Byte) :
    (s.memWrite o a v).harq = s.harq := by
  unfold State.memWrite; split <;> rfl

/-- What a block write does to DMEM: the byte is stored, or, where another writer raced, perhaps not (R114, R512). -/
theorem State.memWrite_dmem (s : State) (o : Option Nat) (a : Nat) (v : Byte) :
    (s.memWrite o a v).dmem = Memory.write s.dmem a v ∨ (s.contested o a = true ∧ (s.memWrite o a v).dmem = s.dmem) := by
  unfold State.memWrite
  split
  · rename_i h
    by_cases hf : Config.raceTakesNew s.freeNo = true
    · left; simp [hf]
    · right; simp [hf, h]
  · left; rfl

/-- A block write keeps the canonical form. -/
theorem State.memWrite_wf (s : State) (o : Option Nat) (a : Nat) (v : Byte) (hm : Memory.wf s.dmem = true) (ha : a < 2 ^ 32) :
    Memory.wf (s.memWrite o a v).dmem = true := by
  rcases State.memWrite_dmem s o a v with h | ⟨_, h⟩
  · rw [h]; exact Memory.wf_write _ _ _ hm ha
  · rw [h]; exact hm

/-- A race leaves one of its writers' bytes. -/
theorem raceByteOf_mem (n : Nat) (v : Byte) (bs : List Byte) : raceByteOf n v bs ∈ v :: bs := by
  have h : Config.racePick n % (bs.length + 1) < (v :: bs).length := Nat.mod_lt _ (Nat.succ_pos _)
  rw [raceByteOf, List.getD_eq_getElem _ _ h]
  exact List.getElem_mem h

/-- What a host write does to DMEM (R114): the byte is stored, or, where transport blocks stand, perhaps one of theirs. -/
theorem State.dmemWrite_dmem (s : State) (a : Nat) (v : Byte) :
    ∃ w ∈ v :: s.blockBytes a, (s.dmemWrite a v).dmem = Memory.write s.dmem a w ∧ (s.blockBytes a = [] → w = v) := by
  unfold State.dmemWrite
  split
  · exact ⟨v, by simp, rfl, fun _ => rfl⟩
  · rename_i h
    exact ⟨_, raceByteOf_mem _ _ _, rfl, fun h' => absurd h' h⟩

/-- A host write keeps the canonical form. -/
theorem State.dmemWrite_wf (s : State) (a : Nat) (v : Byte) (hm : Memory.wf s.dmem = true) (ha : a < 2 ^ 32) :
    Memory.wf (s.dmemWrite a v).dmem = true := by
  obtain ⟨w, -, h, -⟩ := State.dmemWrite_dmem s a v
  rw [h]
  exact Memory.wf_write _ _ _ hm ha

/-- A host read changes nothing of DMEM. -/
theorem State.dmemRead_dmem (s : State) (a : Nat) : (s.dmemRead a).dmem = s.dmem := by
  unfold State.dmemRead; split <;> rfl

end Sys2Proof.Machine
end

