-- ==== Sys2Proof/Laws/Ops.lean ====
section
/-!
SUPPORT. What the shared operations can do, said once: each lemma gives what holds when the operation answers a state.
-/

namespace Sys2Proof.Machine

/-! ### Sequencing -/

theorem bind_eq_ok {ε α β : Type} {x : Except ε α} {f : α → Except ε β} {b : β} :
    (x >>= f) = .ok b ↔ ∃ a, x = .ok a ∧ f a = .ok b := by
  cases x <;> simp [bind, Except.bind]

theorem ok_bind {ε α β : Type} (a : α) (f : α → Except ε β) : (Except.ok a >>= f) = f a := rfl

theorem error_bind {ε α β : Type} (e : ε) (f : α → Except ε β) : ((Except.error e : Except ε α) >>= f) = .error e := rfl

theorem check_eq_ok {c : Prop} [Decidable c] {e : Stop} {u : Unit} : check c e = .ok u ↔ c := by
  unfold check; split <;> simp_all

theorem check_pos {c : Prop} [Decidable c] {e : Stop} (h : c) : check c e = .ok () := if_pos h

theorem check_neg {c : Prop} [Decidable c] {e : Stop} (h : ¬ c) : check c e = .error e := if_neg h

theorem need_eq_ok {α : Type} {o : Option α} {e : Stop} {a : α} : need o e = .ok a ↔ o = some a := by
  cases o <;> simp [need]

theorem need_some {α : Type} {e : Stop} (a : α) : need (some a) e = .ok a := rfl

theorem need_none {α : Type} {e : Stop} : need (none : Option α) e = .error e := rfl

theorem ok_eq_ok {ε α : Type} {a b : α} : (Except.ok a : Except ε α) = .ok b ↔ b = a := by
  constructor
  · intro h; cases h; rfl
  · rintro rfl; rfl

/-! ### Units and ports -/

theorem getElem?_modify_self {α : Type} {l : List α} {i : Nat} {x : α} (g : α → α) (h : l[i]? = some x) :
    (l.modify i g)[i]? = some (g x) := by simp [List.getElem?_modify, h]

theorem getElem?_modify_other {α : Type} {l : List α} {i j : Nat} (g : α → α) (h : i ≠ j) :
    (l.modify i g)[j]? = l[j]? := by simp [List.getElem?_modify, h]

/-- A change of one list entry as a replacement by its new value. -/
theorem modify_set {α : Type} {l : List α} {i : Nat} {x : α} (g : α → α) (h : l[i]? = some x) :
    l.modify i g = l.set i (g x) := by
  apply List.ext_getElem?
  intro j
  by_cases hij : i = j
  · subst hij
    rw [getElem?_modify_self g h]
    have : i < l.length := by
      by_contra hc; rw [List.getElem?_eq_none (by omega)] at h; cases h
    simp [this]
  · simp [List.getElem?_modify, hij, List.getElem?_set]

@[simp] theorem set_modify {α : Type} (l : List α) (i : Nat) (x : α) (g : α → α) :
    (l.set i x).modify i g = l.set i (g x) := by
  apply List.ext_getElem?
  intro j
  simp only [List.getElem?_modify, List.getElem?_set]
  by_cases hij : i = j
  · subst hij; simp
  · simp [hij]

theorem set_self {α : Type} {l : List α} {i : Nat} {x : α} (h : l[i]? = some x) : l.set i x = l := by
  apply List.ext_getElem?; intro j
  rw [List.getElem?_set]
  split
  · subst_vars; split <;> simp_all
  · rfl

theorem getBundle_eq_ok {s : State} {b : Nat} {x : Bundle} : s.getBundle b = .ok x ↔ s.bundles[b]? = some x := need_eq_ok

theorem getTb_eq_ok {s : State} {t : Nat} {x : TbCtx} : s.getTb t = .ok x ↔ s.tbs[t]? = some x := need_eq_ok

theorem getHarq_eq_ok {s : State} {h : Nat} {x : Harq} : s.getHarq h = .ok x ↔ s.harq[h]? = some x := need_eq_ok

theorem getPort_eq_ok {s : State} {r : PortRef} {p : Port} : s.getPort r = .ok p ↔ s.port? r = some p := need_eq_ok

theorem checkAll_eq_ok {cs : List (Bool × CmdCode × Nat)} {u : Unit} : checkAll cs = .ok u ↔ firstFailing cs = none := by
  unfold checkAll; split <;> simp_all

theorem firstFailing_eq_none {cs : List (Bool × CmdCode × Nat)} : firstFailing cs = none ↔ ∀ c ∈ cs, c.1 = false := by
  induction cs with
  | nil => simp [firstFailing]
  | cons c cs ih =>
    obtain ⟨bad, e, d⟩ := c
    cases bad <;> simp [firstFailing, ih]

/-! ### Events -/

theorem emit_eq_ok {ws : List Word} {s t : State} :
    emit ws s = .ok t ↔ s.evq.length + ws.length ≤ s.params.evqDepth ∧ t = { s with evq := s.evq ++ ws } := by
  unfold emit State.evtRoom
  by_cases h : s.evq.length + ws.length ≤ s.params.evqDepth <;> simp [h, eq_comm]

/-- Without room the record is held back (R111). -/
theorem emit_hold {ws : List Word} {s : State} (h : s.params.evqDepth < s.evq.length + ws.length) :
    emit ws s = .error .hold := by
  unfold emit State.evtRoom
  simp [show ¬ s.evq.length + ws.length ≤ s.params.evqDepth by omega]

theorem eventRecord_length (ty tag : BitVec 8) (payload : List Word) :
    (eventRecord ty tag payload).length = payload.length + 1 := rfl

/-! ### How an operation ends -/

/-- Everything a step of an operation can answer (R15, R462, R465). -/
theorem runOp_next {i : Instr} {tag : BitVec 8} {op : Op} {s t : State} (h : runOp i tag op s = .next t) :
    (s.fatal = true ∧ t = s.hold) ∨ (s.fatal = false ∧ op s = .ok t) ∨
      (s.fatal = false ∧ ∃ e, op s = .error e ∧ s.takeStop (traceWords i) tag e = .next t) := by
  unfold runOp at h
  split at h
  · left; cases h; simp_all
  · right
    split at h
    · left; cases h; simp_all
    · right; simp_all

/-- Everything a stop can turn into. -/
theorem takeStop_next {ws : List Word} {tag : BitVec 8} {e : Stop} {s t : State} (h : s.takeStop ws tag e = .next t) :
    t = s.hold ∨ (∃ c, t = (s.log ws).enterFatal c) ∨
      (∃ c d, s.evq.length + 2 ≤ s.params.evqDepth ∧
        t = { (s.log ws).noteCmdError c d with evq := s.evq ++ errorRecord tag c d }) := by
  unfold State.takeStop State.raiseCmdError State.evtRoom at h
  cases e with
  | hold => left; simpa using h.symm
  | fatal c => right; left; exact ⟨c, by simpa using h.symm⟩
  | unspecified => simp at h
  | noAddress => simp at h
  | cmdError c d =>
    by_cases hr : s.evq.length + 2 ≤ s.params.evqDepth
    · right; right
      simp only [State.log_evq, State.log_params, hr, decide_true, if_true] at h
      exact ⟨c, d, hr, by simpa using h.symm⟩
    · left; simpa [hr] using h.symm

theorem runOp_ok {i : Instr} {tag : BitVec 8} {op : Op} {s t : State} (hf : s.fatal = false) (h : op s = .ok t) :
    runOp i tag op s = .next t := by simp [runOp, hf, h]

theorem runOp_fatalError {i : Instr} {tag : BitVec 8} {op : Op} {s : State} {c : FatalCode} (hf : s.fatal = false)
    (h : op s = .error (.fatal c)) : runOp i tag op s = .next ((s.record i).enterFatal c) := by
  simp [runOp, hf, h, State.takeStop, State.record]

theorem runOp_hold {i : Instr} {tag : BitVec 8} {op : Op} {s : State} (hf : s.fatal = false) (h : op s = .error .hold) :
    runOp i tag op s = .next s.hold := by simp [runOp, hf, h, State.takeStop]

theorem runOp_cmdError {i : Instr} {tag : BitVec 8} {op : Op} {s : State} {c : CmdCode} {d : BitVec 24}
    (hf : s.fatal = false) (h : op s = .error (.cmdError c d)) (hr : s.evq.length + 2 ≤ s.params.evqDepth) :
    runOp i tag op s = .next { (s.record i).noteCmdError c d with evq := s.evq ++ errorRecord tag c d } := by
  simp [runOp, hf, h, State.takeStop, State.raiseCmdError, State.evtRoom, hr, State.record]

/-! ### Port operations (R201 to R209) -/

theorem openPort_eq_ok {r : PortRef} {bound : Binding} {s t : State} :
    openPort r bound s = .ok t ↔
      ∃ p, s.port? r = some p ∧ p.isOpen = false ∧ t = s.modPort r (fun _ => ⟨bound, true, 0, 0, 0⟩) := by
  simp only [openPort, bind_eq_ok, getPort_eq_ok, check_eq_ok, ok_eq_ok, exists_and_left, exists_const]

theorem rebindPort_eq_ok {r : PortRef} {s t : State} :
    rebindPort r s = .ok t ↔
      ∃ p, s.port? r = some p ∧ (p.isOpen = true ∧ p.count = 0 ∧ p.bound = .null) ∧
        t = s.modPort r (fun q => { q with bound := .real }) := by
  simp only [rebindPort, bind_eq_ok, getPort_eq_ok, check_eq_ok, ok_eq_ok, exists_and_left, exists_const]

theorem reserveView_eq_ok {r : PortRef} {n : Nat} {s : State} {v : Nat × State} :
    reserveView r n s = .ok v ↔
      ∃ p, s.port? r = some p ∧ p.isOpen = true ∧ (n = 0 ∨ s.offer r p ≠ some 0) ∧
        v = (viewSize (s.offer r p) n, s.openView r p (viewSize (s.offer r p) n)) := by
  simp only [reserveView, bind_eq_ok, getPort_eq_ok, check_eq_ok, ok_eq_ok, exists_and_left, exists_const]

theorem storeAtCount_eq_ok {r : PortRef} {ls : List Llr} {s t : State} :
    storeAtCount r ls s = .ok t ↔
      ∃ p, s.port? r = some p ∧ t = s.modStorage r (fun m => Slots.write m p.count ls) := by
  simp only [storeAtCount, bind_eq_ok, getPort_eq_ok, ok_eq_ok]

/-- A consumer's action is done, or the port is bound NULL and nothing is done (R206). -/
theorem whenReal_eq_ok {p : Port} {op : Op} {s t : State} :
    whenReal p op s = .ok t ↔ (p.bound = .null ∧ t = s) ∨ (p.bound = .real ∧ op s = .ok t) := by
  unfold whenReal; cases p.bound <;> simp [eq_comm]

/-- A published block reaches the consumer's action, or it is empty and nothing is done (R202, R203). -/
theorem deliver_eq_ok {p : Port} {ls : List Llr} {op : Op} {s t : State} :
    deliver p ls op s = .ok t ↔ (ls = [] ∧ t = s) ∨ (ls ≠ [] ∧ whenReal p op s = .ok t) := by
  unfold deliver; by_cases h : ls = [] <;> simp [h, eq_comm]

theorem publishCopyWith_eq_ok {consume : PortRef → List Llr → Op} {r : PortRef} {ls : List Llr} {s t : State} :
    publishCopyWith consume r ls s = .ok t ↔
      ∃ p u, s.port? r = some p ∧ p.isOpen = true ∧ offers (s.offer r p) ls.length = true ∧
        deliver p ls (consume r ls) (s.modPort r (fun q => { q with viewLen := 0 })) = .ok u ∧
        t = u.modPort r (fun q => { q with count := q.count + ls.length }) := by
  simp only [publishCopyWith, bind_eq_ok, getPort_eq_ok, check_eq_ok, ok_eq_ok, exists_and_left, exists_const]

theorem publishInPlaceWith_eq_ok {consume : PortRef → List Llr → Op} {r : PortRef} {n : Nat} {s t : State} :
    publishInPlaceWith consume r n s = .ok t ↔
      ∃ p ls u, s.port? r = some p ∧ p.isOpen = true ∧ n ≤ p.viewLen ∧ s.viewLlrs r p n = some ls ∧
        deliver p ls (consume r ls) (s.modPort r (fun q => { q with viewLen := 0 })) = .ok u ∧
        t = u.modPort r (fun q => { q with count := q.count + n }) := by
  simp only [publishInPlaceWith, bind_eq_ok, getPort_eq_ok, check_eq_ok, need_eq_ok, ok_eq_ok, exists_and_left, exists_const]

theorem closeWith_eq_ok {consume : PortRef → Op} {r : PortRef} {s t : State} :
    closeWith consume r s = .ok t ↔
      ∃ p, s.port? r = some p ∧ p.isOpen = true ∧
        whenReal p (consume r) (s.modPort r (fun q => { q with isOpen := false, viewLen := 0 })) = .ok t := by
  simp only [closeWith, bind_eq_ok, getPort_eq_ok, check_eq_ok, exists_and_left, exists_const]

/-! ### The HARQ lease (R331) and its end (R348) -/

theorem harqLease_eq_ok {t : Nat} {s u : State} :
    harqLease t s = .ok u ↔
      ∃ x h, s.tbs[t]? = some x ∧ s.harq[x.handle]? = some h ∧ h.hstate ≠ .locked ∧
        u = s.modHarq x.handle (fun h => h.lease x.geometry x.newData) := by
  simp only [harqLease, bind_eq_ok, getTb_eq_ok, getHarq_eq_ok, check_eq_ok, ok_eq_ok, exists_and_left, exists_const]

theorem assertDisposed_eq_ok {t : Nat} {s u : State} :
    assertDisposed t s = .ok u ↔ s.undisposed t = false ∧ u = s := by
  simp only [assertDisposed, bind_eq_ok, check_eq_ok, ok_eq_ok, exists_const]

end Sys2Proof.Machine
end

