-- ==== Sys2Proof/Laws/Keeps.lean ====
section
/-!
SUPPORT. What an operation that completes leaves as it was, for every operation of the block: host registers, the command
FIFO, the number of units, the bounds of the FIFOs, the form of DMEM, masked descriptors and closed ports.
-/

namespace Sys2Proof.Machine

/-- What no operation's own effect breaks. -/
structure State.Keeps (s t : State) : Prop where
  params : t.params = s.params
  errCode : t.errCode = s.errCode
  errDetail : t.errDetail = s.errDetail
  cmdErr : t.cmdErr = s.cmdErr
  irqEnable : t.irqEnable = s.irqEnable
  decCfg : t.decCfg = s.decCfg
  desc : t.desc = s.desc
  cmdq : t.cmdq = s.cmdq
  fatal : t.fatal = s.fatal
  popLeft : t.popLeft = s.popLeft
  rdata : t.rdata = s.rdata
  sched : t.sched = s.sched
  taskHead : t.taskHead = s.taskHead
  turnNo : t.turnNo = s.turnNo
  held : t.held = s.held
  bundleCount : t.bundles.length = s.bundles.length
  tbCount : t.tbs.length = s.tbs.length
  harqCount : t.harq.length = s.harq.length
  evqGrows : ∃ ws, t.evq = s.evq ++ ws
  taskqGrows : ∃ ws, t.taskq = s.taskq ++ ws
  evqBound : s.evq.length ≤ s.params.evqDepth → t.evq.length ≤ s.params.evqDepth
  taskqBound : s.taskq.length ≤ s.params.taskqDepth → t.taskq.length ≤ s.params.taskqDepth
  dmemForm : Memory.wf s.dmem = true → Memory.wf t.dmem = true
  latchedMasked : s.desc.masked → (∀ x ∈ s.bundles, x.d.masked) → ∀ x ∈ t.bundles, x.d.masked
  bundleViews : (∀ x ∈ s.bundles, x.viewsOk) → ∀ x ∈ t.bundles, x.viewsOk
  schViews : (∀ x ∈ s.tbs, x.sch.viewOk) → ∀ x ∈ t.tbs, x.sch.viewOk

theorem State.Keeps.refl (s : State) : s.Keeps s := by constructor <;> simp

theorem State.Keeps.trans {s t u : State} (h : s.Keeps t) (k : t.Keeps u) : s.Keeps u where
  params := k.params.trans h.params
  errCode := k.errCode.trans h.errCode
  errDetail := k.errDetail.trans h.errDetail
  cmdErr := k.cmdErr.trans h.cmdErr
  irqEnable := k.irqEnable.trans h.irqEnable
  decCfg := k.decCfg.trans h.decCfg
  desc := k.desc.trans h.desc
  cmdq := k.cmdq.trans h.cmdq
  fatal := k.fatal.trans h.fatal
  popLeft := k.popLeft.trans h.popLeft
  rdata := k.rdata.trans h.rdata
  sched := k.sched.trans h.sched
  taskHead := k.taskHead.trans h.taskHead
  turnNo := k.turnNo.trans h.turnNo
  held := k.held.trans h.held
  bundleCount := k.bundleCount.trans h.bundleCount
  tbCount := k.tbCount.trans h.tbCount
  harqCount := k.harqCount.trans h.harqCount
  evqGrows := by
    obtain ⟨a, ha⟩ := h.evqGrows
    obtain ⟨b, hb⟩ := k.evqGrows
    exact ⟨a ++ b, by rw [hb, ha, List.append_assoc]⟩
  taskqGrows := by
    obtain ⟨a, ha⟩ := h.taskqGrows
    obtain ⟨b, hb⟩ := k.taskqGrows
    exact ⟨a ++ b, by rw [hb, ha, List.append_assoc]⟩
  evqBound := fun a => by have := k.evqBound; rw [h.params] at this; exact this (h.evqBound a)
  taskqBound := fun a => by have := k.taskqBound; rw [h.params] at this; exact this (h.taskqBound a)
  dmemForm := fun a => k.dmemForm (h.dmemForm a)
  latchedMasked := fun a b => k.latchedMasked (by rw [h.desc]; exact a) (h.latchedMasked a b)
  bundleViews := fun a => k.bundleViews (h.bundleViews a)
  schViews := fun a => k.schViews (h.schViews a)

/-- A property of every unit is kept where it is kept by the unit that changes. -/
theorem forall_mem_modify {α : Type} {P : α → Prop} {l : List α} {i : Nat} {g : α → α} (hl : ∀ x ∈ l, P x)
    (hg : ∀ x, l[i]? = some x → P x → P (g x)) : ∀ x ∈ l.modify i g, P x := by
  intro x hx
  obtain ⟨j, hj⟩ := List.mem_iff_getElem?.1 hx
  rw [List.getElem?_modify] at hj
  by_cases hij : i = j
  · subst hij
    simp only [if_true] at hj
    cases hx' : l[i]? with
    | none => simp [hx'] at hj
    | some y =>
      simp [hx'] at hj
      rw [← hj]
      exact hg y hx' (hl y (List.mem_of_getElem? hx'))
  · simp only [hij, if_false] at hj
    cases hx' : l[j]? with
    | none => simp [hx'] at hj
    | some y =>
      simp [hx'] at hj
      rw [← hj]
      exact hl y (List.mem_of_getElem? hx')

/-! ### The updates -/

theorem record_keeps (s : State) (i : Instr) : s.Keeps (s.record i) := by constructor <;> simp

theorem emit_keeps {ws : List Word} {s t : State} (h : emit ws s = .ok t) : s.Keeps t := by
  obtain ⟨h1, rfl⟩ := emit_eq_ok.1 h
  constructor <;> simp_all

theorem modBundle_keeps (s : State) (b : Nat) (g : Bundle → Bundle)
    (hd : ∀ x, s.bundles[b]? = some x → s.desc.masked → x.d.masked → (g x).d.masked)
    (hv : ∀ x, s.bundles[b]? = some x → x.viewsOk → (g x).viewsOk) : s.Keeps (s.modBundle b g) := by
  constructor
  case latchedMasked => intro h1 h2; exact forall_mem_modify h2 (fun x hx hm => hd x hx h1 hm)
  case bundleViews => intro h; exact forall_mem_modify h hv
  all_goals simp

/-- A change of a bundle that leaves its descriptor and its ports alone. -/
theorem modBundle_keeps_quiet (s : State) (b : Nat) (g : Bundle → Bundle)
    (h : ∀ x, (g x).d = x.d ∧ (g x).demuxIn = x.demuxIn ∧ (g x).ack.port = x.ack.port ∧ (g x).csi1.port = x.csi1.port ∧
      (g x).csi2.port = x.csi2.port) : s.Keeps (s.modBundle b g) := by
  apply modBundle_keeps
  · intro x _ _ hm; rw [(h x).1]; exact hm
  · intro x _ hv; obtain ⟨-, h1, h2, h3, h4⟩ := h x; simpa [Bundle.viewsOk, h1, h2, h3, h4] using hv

theorem modTb_keeps (s : State) (t : Nat) (g : TbCtx → TbCtx)
    (hv : ∀ x, s.tbs[t]? = some x → x.sch.viewOk → (g x).sch.viewOk) : s.Keeps (s.modTb t g) := by
  constructor
  case schViews => intro h; exact forall_mem_modify h hv
  all_goals simp

/-- A change of a TB context that leaves its port alone. -/
theorem modTb_keeps_quiet (s : State) (t : Nat) (g : TbCtx → TbCtx) (h : ∀ x, (g x).sch = x.sch) : s.Keeps (s.modTb t g) :=
  modTb_keeps s t g (fun x _ hv => by rw [h x]; exact hv)

theorem modHarq_keeps (s : State) (i : Nat) (g : Harq → Harq) : s.Keeps (s.modHarq i g) := by constructor <;> simp

/-- A change of a port that leaves it without a view where it is CLOSED. -/
theorem modPort_keeps (s : State) (r : PortRef) (g : Port → Port)
    (hg : ∀ p, s.port? r = some p → p.viewOk → (g p).viewOk) : s.Keeps (s.modPort r g) := by
  cases r with
  | demuxIn b =>
    apply modBundle_keeps
    · intro x _ _ hm; exact hm
    · intro x hx hv; exact ⟨hg _ (by simp [State.port?, hx]) hv.1, hv.2⟩
  | sch t =>
    apply modTb_keeps
    intro x hx hv; exact hg _ (by simp [State.port?, hx]) hv
  | uci f b =>
    apply modBundle_keeps
    · intro x _ _ hm; cases f <;> exact hm
    · intro x hx hv
      have hp := hg (x.uci f).port (by simp [State.port?, hx])
      obtain ⟨h1, h2, h3, h4⟩ := hv
      cases f
      · exact ⟨h1, hp h2, h3, h4⟩
      · exact ⟨h1, h2, hp h3, h4⟩
      · exact ⟨h1, h2, h3, hp h4⟩

theorem modStorage_keeps (s : State) (r : PortRef) (g : Slots → Slots) : s.Keeps (s.modStorage r g) := by
  cases r with
  | demuxIn b => exact modBundle_keeps_quiet _ _ _ (fun x => by simp)
  | sch t => exact modTb_keeps_quiet _ _ _ (fun x => rfl)
  | uci f b => exact modBundle_keeps_quiet _ _ _ (fun x => by cases f <;> simp [Bundle.modUci])

/-! ### Port operations -/

theorem openPort_keeps {r : PortRef} {bound : Binding} {s t : State} (h : openPort r bound s = .ok t) : s.Keeps t := by
  obtain ⟨p, _, _, rfl⟩ := openPort_eq_ok.1 h
  exact modPort_keeps _ _ _ (fun _ _ _ => fun _ => rfl)

theorem rebindPort_keeps {r : PortRef} {s t : State} (h : rebindPort r s = .ok t) : s.Keeps t := by
  obtain ⟨p, _, _, rfl⟩ := rebindPort_eq_ok.1 h
  exact modPort_keeps _ _ _ (fun q _ hq => hq)

theorem openView_keeps (s : State) (r : PortRef) (p : Port) (n : Nat) (hp : s.port? r = some p) (ho : p.isOpen = true) :
    s.Keeps (s.openView r p n) := by
  have h1 : s.Keeps (s.modPort r (fun q => { q with viewBase := q.count, viewLen := n })) :=
    modPort_keeps _ _ _ (fun q hq _ => by rw [hp] at hq; cases hq; intro hc; simp [ho] at hc)
  unfold State.openView
  dsimp only
  split
  · exact h1
  · split
    · exact h1.trans (modStorage_keeps _ _ _)
    · exact h1

theorem reserveView_keeps {r : PortRef} {n : Nat} {s : State} {v : Nat × State} (h : reserveView r n s = .ok v) :
    s.Keeps v.2 := by
  obtain ⟨p, hp, ho, _, rfl⟩ := reserveView_eq_ok.1 h
  exact openView_keeps _ _ _ _ hp ho

theorem writeView_keeps (s : State) (r : PortRef) (ls : List Llr) : s.Keeps (s.writeView r ls) := by
  unfold State.writeView
  split
  · exact modStorage_keeps _ _ _
  · exact State.Keeps.refl _

theorem storeAtCount_keeps {r : PortRef} {ls : List Llr} {s t : State} (h : storeAtCount r ls s = .ok t) : s.Keeps t := by
  obtain ⟨p, _, rfl⟩ := storeAtCount_eq_ok.1 h
  exact modStorage_keeps _ _ _

theorem whenReal_keeps {p : Port} {op : Op} {s t : State} (hop : ∀ t, op s = .ok t → s.Keeps t)
    (h : whenReal p op s = .ok t) : s.Keeps t := by
  rcases whenReal_eq_ok.1 h with ⟨_, rfl⟩ | ⟨_, h⟩
  · exact State.Keeps.refl _
  · exact hop _ h

theorem deliver_keeps {p : Port} {ls : List Llr} {op : Op} {s t : State} (hop : ∀ t, op s = .ok t → s.Keeps t)
    (h : deliver p ls op s = .ok t) : s.Keeps t := by
  rcases deliver_eq_ok.1 h with ⟨_, rfl⟩ | ⟨_, h⟩
  · exact State.Keeps.refl _
  · exact whenReal_keeps hop h

theorem publishCopyWith_keeps {consume : PortRef → List Llr → Op} {r : PortRef} {ls : List Llr} {s t : State}
    (hc : ∀ s t, consume r ls s = .ok t → s.Keeps t) (h : publishCopyWith consume r ls s = .ok t) : s.Keeps t := by
  obtain ⟨p, u, _, _, _, hu, rfl⟩ := publishCopyWith_eq_ok.1 h
  have h1 : s.Keeps (s.modPort r (fun q => { q with viewLen := 0 })) := modPort_keeps _ _ _ (fun _ _ _ => fun _ => rfl)
  exact (h1.trans (deliver_keeps (fun _ => hc _ _) hu)).trans (modPort_keeps _ _ _ (fun _ _ hq => hq))

theorem publishInPlaceWith_keeps {consume : PortRef → List Llr → Op} {r : PortRef} {n : Nat} {s t : State}
    (hc : ∀ ls s t, consume r ls s = .ok t → s.Keeps t) (h : publishInPlaceWith consume r n s = .ok t) : s.Keeps t := by
  obtain ⟨p, ls, u, _, _, _, _, hu, rfl⟩ := publishInPlaceWith_eq_ok.1 h
  have h1 : s.Keeps (s.modPort r (fun q => { q with viewLen := 0 })) := modPort_keeps _ _ _ (fun _ _ _ => fun _ => rfl)
  exact (h1.trans (deliver_keeps (fun _ => hc _ _ _) hu)).trans (modPort_keeps _ _ _ (fun _ _ hq => hq))

theorem closeWith_keeps {consume : PortRef → Op} {r : PortRef} {s t : State}
    (hc : ∀ s t, consume r s = .ok t → s.Keeps t) (h : closeWith consume r s = .ok t) : s.Keeps t := by
  obtain ⟨p, _, _, hu⟩ := closeWith_eq_ok.1 h
  have h1 : s.Keeps (s.modPort r (fun q => { q with isOpen := false, viewLen := 0 })) :=
    modPort_keeps _ _ _ (fun _ _ _ => fun _ => rfl)
  exact h1.trans (whenReal_keeps (fun _ => hc _ _) hu)

end Sys2Proof.Machine
end

