-- ==== Sys2Proof/Laws/KeepsUnits.lean ====
section
/-!
SUPPORT. Every operation of the units keeps what Laws/Keeps.lean lists.
-/

namespace Sys2Proof.Machine

/-! ### The transport-block decoder -/

theorem harqLease_keeps {t : Nat} {s u : State} (h : harqLease t s = .ok u) : s.Keeps u := by
  obtain ⟨x, y, _, _, _, rfl⟩ := harqLease_eq_ok.1 h
  exact modHarq_keeps _ _ _

theorem tbConfigure_keeps {t b : Nat} {s u : State} (h : tbConfigure t b s = .ok u) : s.Keeps u := by
  simp only [tbConfigure, bind_eq_ok, getTb_eq_ok, getBundle_eq_ok, check_eq_ok, assertDisposed_eq_ok, ok_eq_ok,
    exists_and_left, exists_const] at h
  obtain ⟨x, _, _, v, ⟨_, rfl⟩, y, _, w, hw, rfl⟩ := h
  refine State.Keeps.trans (State.Keeps.trans ?_ (harqLease_keeps hw)) (modTb_keeps_quiet _ _ _ (fun x => rfl))
  exact (record_keeps _ _).trans (modTb_keeps_quiet _ _ _ (fun x => rfl))

theorem setNofSoftbits_keeps {t g : Nat} {s u : State} (h : setNofSoftbits t g s = .ok u) : s.Keeps u := by
  simp only [setNofSoftbits, bind_eq_ok, getTb_eq_ok, check_eq_ok, ok_eq_ok, exists_and_left, exists_const] at h
  obtain ⟨x, _, _, _, rfl⟩ := h
  exact (record_keeps _ _).trans (modTb_keeps_quiet _ _ _ (fun x => rfl))

theorem memWrite_keeps (s : State) (o : Option Nat) (a : Nat) (v : Byte) (ha : a < 2 ^ 32) : s.Keeps (s.memWrite o a v) := by
  have hm := State.memWrite_wf s o a v
  unfold State.memWrite at hm ⊢
  split <;> rename_i hc <;> simp only [hc] at hm <;> constructor
  case isTrue.dmemForm => intro h; exact hm h ha
  case isFalse.dmemForm => intro h; exact hm h ha
  all_goals simp

theorem writeTb_keeps (o : Option Nat) (dest n : Nat) (bits : List Bool) (s : State) (h : dest + n ≤ 2 ^ 32) :
    s.Keeps (writeTb o dest n bits s) := by
  unfold writeTb
  have : ∀ (l : List Nat) (s : State), (∀ i ∈ l, i < n) →
      s.Keeps (l.foldl (fun s i => s.memWrite o (dest + i) (payloadByte bits i)) s) := by
    intro l
    induction l with
    | nil => intro s _; exact State.Keeps.refl _
    | cons i l ih =>
      intro s hl
      refine (memWrite_keeps s o (dest + i) _ ?_).trans (ih _ (fun j hj => hl j (List.mem_cons_of_mem _ hj)))
      have := hl i List.mem_cons_self
      omega
  exact this _ _ (fun i hi => List.mem_range.1 hi)

theorem windows_keeps (s : State) (w : List Window) : s.Keeps { s with windows := w } := by constructor <;> simp

theorem tbJoin_keeps {t : Nat} {s u : State} (h : tbJoin t s = .ok u) : s.Keeps u := by
  simp only [tbJoin, bind_eq_ok, getTb_eq_ok, getHarq_eq_ok, check_eq_ok, need_eq_ok, assertDisposed_eq_ok,
    exists_and_left, exists_const] at h
  obtain ⟨x, _, _, y, _, cbs, _, j, _, hd, v, hv, _, rfl⟩ := h
  refine State.Keeps.trans (State.Keeps.trans ?_ (emit_keeps hv)) ?_
  · refine State.Keeps.trans (record_keeps _ (.tbJoin (BitVec.ofNat 8 t))) (State.Keeps.trans ?_ (modHarq_keeps _ _ _))
    split
    · exact writeTb_keeps _ _ _ _ _ (hd.resolve_left (by simp_all))
    · exact State.Keeps.refl _
  · exact State.Keeps.trans (windows_keeps _ _) (modTb_keeps_quiet _ _ _ (fun x => rfl))

theorem cbComplete_keeps {t r : Nat} {s u : State} (h : cbComplete t r s = .ok u) : s.Keeps u := by
  simp only [cbComplete, bind_eq_ok, getTb_eq_ok, check_eq_ok, exists_and_left, exists_const] at h
  obtain ⟨x, _, _, h⟩ := h
  have h1 := (record_keeps s (.cbComplete (BitVec.ofNat 8 t) (BitVec.ofNat 16 r))).trans
    (modTb_keeps_quiet _ t (fun x => { x with counter := x.counter - 1 }) (fun x => rfl))
  split at h
  · rw [ok_eq_ok] at h; subst h; exact h1
  · split at h
    · exact h1.trans (tbJoin_keeps h)
    · rw [ok_eq_ok] at h; subst h; exact h1.trans (modTb_keeps_quiet _ _ _ (fun x => rfl))
    · simp at h
    · simp at h

theorem closeCommit_keeps {t : Nat} {s u : State} (h : closeCommit t s = .ok u) : s.Keeps u := by
  simp only [closeCommit, bind_eq_ok, getTb_eq_ok] at h
  obtain ⟨x, _, h⟩ := h
  split at h
  · rw [ok_eq_ok] at h; subst h; exact (record_keeps _ _).trans (modTb_keeps_quiet _ _ _ (fun x => rfl))
  · exact (record_keeps _ _).trans (tbJoin_keeps h)
  · simp at h
  · simp at h

theorem harqFree_keeps {v : BitVec 8} {s u : State} (h : harqFree v s = .ok u) : s.Keeps u := by
  simp only [harqFree, bind_eq_ok, getHarq_eq_ok, check_eq_ok, ok_eq_ok, exists_and_left, exists_const] at h
  obtain ⟨_, y, _, _, rfl⟩ := h
  exact (record_keeps _ _).trans (modHarq_keeps _ _ _)

/-! ### Codeblock tasks and their dispatch -/

theorem cbDecode_keeps {t r : Nat} {s u : State} (h : cbDecode t r s = .ok u) : s.Keeps u := by
  simp only [cbDecode, bind_eq_ok, need_eq_ok] at h
  obtain ⟨v, _, f, _, h⟩ := h
  refine State.Keeps.trans ?_ (cbComplete_keeps h)
  exact ((record_keeps _ _).trans (modHarq_keeps _ _ _)).trans (modTb_keeps_quiet _ _ _ (fun x => rfl))

theorem cbRateDematch_keeps {t r : Nat} {s u : State} (h : cbRateDematch t r s = .ok u) : s.Keeps u := by
  simp only [cbRateDematch, bind_eq_ok, need_eq_ok] at h
  obtain ⟨v, _, f, _, h⟩ := h
  refine State.Keeps.trans ?_ (cbComplete_keeps h)
  exact ((record_keeps _ _).trans (modHarq_keeps _ _ _)).trans (modTb_keeps_quiet _ _ _ (fun x => rfl))

theorem dispatchCb_keeps {t c r : Nat} {s u : State} (h : dispatchCb t c r s = .ok u) : s.Keeps u := by
  simp only [dispatchCb, bind_eq_ok, getTb_eq_ok, getHarq_eq_ok, need_eq_ok] at h
  obtain ⟨x, _, y, _, cb, _, h⟩ := h
  split at h
  · rename_i hq
    rw [ok_eq_ok] at h; subst h
    simp only [State.queues, Bool.and_eq_true, decide_eq_true_eq] at hq
    constructor
    case taskqBound => intro _; simp only [List.length_append, List.length_singleton]; omega
    all_goals simp
  · split at h
    · exact cbRateDematch_keeps h
    · exact cbDecode_keeps h

theorem dispatchAll_keeps {t c : Nat} {rs : List Nat} {s u : State} (h : dispatchAll t c rs s = .ok u) : s.Keeps u := by
  induction rs generalizing s with
  | nil => simp only [dispatchAll, ok_eq_ok] at h; subst h; exact State.Keeps.refl _
  | cons r rs ih =>
    simp only [dispatchAll, bind_eq_ok] at h
    obtain ⟨v, hv, h⟩ := h
    exact (dispatchCb_keeps hv).trans (ih h)

theorem closeDispatch_keeps {t : Nat} {s u : State} (h : closeDispatch t s = .ok u) : s.Keeps u := by
  simp only [closeDispatch, bind_eq_ok, getTb_eq_ok, check_eq_ok, exists_and_left, exists_const] at h
  obtain ⟨x, _, _, _, h⟩ := h
  refine State.Keeps.trans ?_ (dispatchAll_keeps h)
  exact (record_keeps _ _).trans (modTb_keeps_quiet _ _ _ (fun x => rfl))

/-! ### The demultiplexer -/

theorem modUci_keeps_quiet (s : State) (b : Nat) (f : UciField) (g : Bundle → FieldUnit → FieldUnit)
    (h : ∀ x u, (g x u).port = u.port) : s.Keeps (s.modBundle b (fun x => x.modUci f (g x))) :=
  modBundle_keeps_quiet _ _ _ (fun x => by cases f <;> simp [Bundle.modUci, h])

theorem uciDecode_keeps {b : Nat} {f : UciField} {s u : State} (h : uciDecode b f s = .ok u) : s.Keeps u := by
  simp only [uciDecode, bind_eq_ok, getBundle_eq_ok, need_eq_ok, ok_eq_ok] at h
  obtain ⟨x, _, ls, _, rfl⟩ := h
  refine (record_keeps _ _).trans (modUci_keeps_quiet _ _ _ (fun x u => u.decode f (x.payloadBits f) ls) ?_)
  intro x u
  unfold FieldUnit.decode
  split <;> rfl

theorem setCsi2State_keeps (b : Nat) (c : Csi2State) (s : State) : s.Keeps (setCsi2State b c s) :=
  modBundle_keeps_quiet _ _ _ (fun x => by simp)

theorem afterCsi1Close_keeps {b : Nat} {s u : State} (h : afterCsi1Close b s = .ok u) : s.Keeps u := by
  simp only [afterCsi1Close, bind_eq_ok, getBundle_eq_ok] at h
  obtain ⟨x, _, h⟩ := h
  split at h
  · split at h
    · exact (setCsi2State_keeps _ _ _).trans (emit_keeps h)
    · rw [ok_eq_ok] at h; subst h; exact setCsi2State_keeps _ _ _
  · rw [ok_eq_ok] at h; subst h; exact State.Keeps.refl _

theorem consumeClose_keeps {r : PortRef} {s u : State} (h : consumeClose r s = .ok u) : s.Keeps u := by
  cases r with
  | demuxIn b => simp [consumeClose] at h
  | sch t => exact closeDispatch_keeps h
  | uci f b =>
    cases f with
    | ack => exact uciDecode_keeps h
    | csi2 => exact uciDecode_keeps h
    | csi1 =>
      simp only [consumeClose, bind_eq_ok] at h
      obtain ⟨v, hv, h⟩ := h
      exact (uciDecode_keeps hv).trans (afterCsi1Close_keeps h)

theorem consumeFlush_keeps {r : PortRef} {s u : State} (h : consumeFlush r s = .ok u) : s.Keeps u := by
  cases r with
  | demuxIn b => simp [consumeFlush] at h
  | sch t => exact closeDispatch_keeps h
  | uci f b => exact uciDecode_keeps h

theorem issuePublish_keeps {r : PortRef} {ls : List Llr} {s u : State} (h : issuePublish r ls s = .ok u) : s.Keeps u :=
  (record_keeps _ _).trans (publishCopyWith_keeps (fun _ _ => storeAtCount_keeps) h)

theorem issueClose_keeps {consume : PortRef → Op} {r : PortRef} {s u : State}
    (hc : ∀ s t, consume r s = .ok t → s.Keeps t) (h : issueClose consume r s = .ok u) : s.Keeps u :=
  (record_keeps _ _).trans (closeWith_keeps hc h)

theorem emitField_keeps {b : Nat} {f : UciField} {xs : List Nat} {s u : State} (h : emitField b f xs s = .ok u) :
    s.Keeps u := by
  unfold emitField at h
  split at h
  · rw [ok_eq_ok] at h; subst h; exact State.Keeps.refl _
  · simp only [bind_eq_ok, getBundle_eq_ok, need_eq_ok] at h
    obtain ⟨x, _, bits, _, v, hv, h⟩ := h
    split at h
    · exact (issuePublish_keeps hv).trans (issueClose_keeps (fun _ _ => consumeClose_keeps) h)
    · rw [ok_eq_ok] at h; subst h; exact issuePublish_keeps hv

theorem emitSch_keeps {b : Nat} {s u : State} (h : emitSch b s = .ok u) : s.Keeps u := by
  simp only [emitSch, bind_eq_ok, getBundle_eq_ok, need_eq_ok] at h
  obtain ⟨x, _, sets, _, ls, _, h⟩ := h
  split at h
  · rw [ok_eq_ok] at h; subst h; exact State.Keeps.refl _
  · exact issuePublish_keeps h

theorem finishSymbol_keeps {b : Nat} {s u : State} (h : finishSymbol b s = .ok u) : s.Keeps u := by
  simp only [finishSymbol, bind_eq_ok, getBundle_eq_ok, need_eq_ok, ok_eq_ok] at h
  obtain ⟨x, _, sets, _, v, hv, w, hw, rfl⟩ := h
  refine State.Keeps.trans (State.Keeps.trans (State.Keeps.trans ?_ (emitField_keeps hv)) (emitSch_keeps hw)) ?_
  · exact modBundle_keeps_quiet _ _ _ (fun x => by simp [Bundle.withSets])
  · exact modBundle_keeps_quiet _ _ _ (fun x => by simp [Bundle.advance])

theorem demuxSymbol_keeps {b : Nat} {s u : State} (h : demuxSymbol b s = .ok u) : s.Keeps u := by
  simp only [demuxSymbol, bind_eq_ok, getBundle_eq_ok] at h
  obtain ⟨x0, _, x, _, v, hv, w, hw, y, _, h⟩ := h
  have h1 : s.Keeps w := by
    refine State.Keeps.trans (State.Keeps.trans ?_ (emitField_keeps hv)) (emitField_keeps hw)
    exact (record_keeps _ _).trans (modBundle_keeps_quiet _ _ _ (fun x => by simp [Bundle.withSets]))
  split at h
  · rw [ok_eq_ok] at h; subst h; exact h1.trans (modBundle_keeps_quiet _ _ _ (fun x => by simp))
  · exact h1.trans (finishSymbol_keeps h)

theorem demuxResume_keeps {b : Nat} {s u : State} (h : demuxResume b s = .ok u) : s.Keeps u := by
  simp only [demuxResume, bind_eq_ok, getBundle_eq_ok, check_eq_ok, exists_and_left, exists_const] at h
  obtain ⟨x, _, _, h⟩ := h
  exact (record_keeps _ _).trans (finishSymbol_keeps h)

theorem flushField_keeps {b : Nat} {f : UciField} {s u : State} (h : flushField b f s = .ok u) : s.Keeps u := by
  simp only [flushField, bind_eq_ok, getPort_eq_ok] at h
  obtain ⟨p, _, h⟩ := h
  split at h
  · exact issueClose_keeps (fun _ _ => consumeFlush_keeps) h
  · rw [ok_eq_ok] at h; subst h; exact State.Keeps.refl _

theorem demuxFlush_keeps {b : Nat} {s u : State} (h : demuxFlush b s = .ok u) : s.Keeps u := by
  simp only [demuxFlush, bind_eq_ok, getBundle_eq_ok, check_eq_ok, exists_and_left, exists_const] at h
  obtain ⟨x, _, _, v, hv, w, hw, y, hy, h⟩ := h
  refine State.Keeps.trans ?_ (issueClose_keeps (fun _ _ => consumeFlush_keeps) h)
  refine ((((record_keeps _ _).trans (flushField_keeps hv)).trans (flushField_keeps hw)).trans (flushField_keeps hy)).trans ?_
  exact modBundle_keeps_quiet _ _ _ (fun x => by unfold Bundle.decline; split <;> simp)

theorem configureCsiPart2_keeps {tag : BitVec 8} {bits : BitVec 11} {g2 gu : BitVec 24} {s u : State}
    (h : configureCsiPart2 tag bits g2 gu s = .ok u) : s.Keeps u := by
  simp only [configureCsiPart2, bind_eq_ok, getBundle_eq_ok, getTb_eq_ok, need_eq_ok, check_eq_ok, checkAll_eq_ok, ok_eq_ok,
    exists_and_left, exists_const] at h
  obtain ⟨b, _, x, _, _, _, t, _, _, v, hv, w, hw, rfl⟩ := h
  have h0 : ∀ (s : State) (w : Word), s.Keeps { s with a2 := w } := fun s w => by constructor <;> simp
  refine State.Keeps.trans (State.Keeps.trans ?_ (setNofSoftbits_keeps hw)) (modBundle_keeps_quiet _ _ _ (fun x => by simp))
  refine (((record_keeps _ _).trans (h0 _ _)).trans (rebindPort_keeps hv)).trans ?_
  exact modBundle_keeps_quiet _ _ _ (fun x => by simp [Bundle.configure])

theorem csi2None_keeps {tag : BitVec 8} {s u : State} (h : csi2None tag s = .ok u) : s.Keeps u := by
  simp only [csi2None, bind_eq_ok, getBundle_eq_ok, need_eq_ok, check_eq_ok, ok_eq_ok, exists_and_left, exists_const] at h
  obtain ⟨b, _, x, _, _, rfl⟩ := h
  exact ((record_keeps _ _).trans (setCsi2State_keeps _ _ _)).trans (modBundle_keeps_quiet _ _ _ (fun x => by simp))

/-! ### The stream ports -/

theorem consumePublish_keeps {r : PortRef} {ls : List Llr} {s u : State} (h : consumePublish r ls s = .ok u) : s.Keeps u := by
  cases r with
  | sch t => exact storeAtCount_keeps h
  | uci f b => exact storeAtCount_keeps h
  | demuxIn b =>
    simp only [consumePublish, bind_eq_ok, getBundle_eq_ok] at h
    obtain ⟨x, _, h⟩ := h
    have h1 : s.Keeps (s.modBundle b (fun x => x.receive ls)) :=
      modBundle_keeps_quiet _ _ _ (fun x => by simp [Bundle.receive])
    split at h
    · exact h1.trans (demuxSymbol_keeps h)
    · rw [ok_eq_ok] at h; subst h; exact h1

theorem consumeCloseAll_keeps {r : PortRef} {s u : State} (h : consumeCloseAll r s = .ok u) : s.Keeps u := by
  cases r with
  | demuxIn b => exact demuxFlush_keeps h
  | sch t => exact consumeClose_keeps (r := .sch t) h
  | uci f b => exact consumeClose_keeps (r := .uci f b) h

theorem issueReserve_keeps {r : PortRef} {n : Nat} {s : State} {v : Nat × State} (h : issueReserve r n s = .ok v) :
    s.Keeps v.2 := (record_keeps _ _).trans (reserveView_keeps h)

theorem issuePublishInPlace_keeps {r : PortRef} {n : Nat} {s u : State} (h : issuePublishInPlace r n s = .ok u) :
    s.Keeps u := (record_keeps _ _).trans (publishInPlaceWith_keeps (fun _ _ _ => consumePublish_keeps) h)

/-! ### The demodulator -/

theorem chestOp_keeps {b : Nat} {s u : State} (h : chestOp b s = .ok u) : s.Keeps u := by
  simp only [chestOp, bind_eq_ok, getBundle_eq_ok, check_eq_ok, ok_eq_ok, exists_and_left, exists_const] at h
  obtain ⟨x, _, _, rfl⟩ := h
  exact (record_keeps _ _).trans (modBundle_keeps_quiet _ _ _ (fun x => by simp [Bundle.estimate]))

theorem endStats_keeps {b : Nat} {s u : State} (h : endStats b s = .ok u) : s.Keeps u := by
  simp only [endStats, bind_eq_ok, getBundle_eq_ok] at h
  obtain ⟨x, _, h⟩ := h
  exact (record_keeps _ _).trans (emit_keeps h)

theorem descrambleOp_keeps {b : Nat} {s u : State} (h : descrambleOp b s = .ok u) : s.Keeps u := by
  simp only [descrambleOp, bind_eq_ok, getBundle_eq_ok, check_eq_ok, ok_eq_ok, exists_and_left, exists_const] at h
  obtain ⟨x, _, _, rfl⟩ := h
  exact (record_keeps _ _).trans (modBundle_keeps_quiet _ _ _ (fun x => by simp))

theorem streamLoop_keeps {b : Nat} {ls : List Llr} {fuel j : Nat} {s u : State} (h : streamLoop b ls fuel j s = .ok u) :
    s.Keeps u := by
  induction fuel generalizing j s with
  | zero => simp only [streamLoop, ok_eq_ok] at h; subst h; exact State.Keeps.refl _
  | succ fuel ih =>
    unfold streamLoop at h
    split at h
    · rw [ok_eq_ok] at h; subst h; exact State.Keeps.refl _
    · simp only [bind_eq_ok] at h
      obtain ⟨v, hv, w, hw, h⟩ := h
      exact (((issueReserve_keeps hv).trans (writeView_keeps _ _ _)).trans (issuePublishInPlace_keeps hw)).trans (ih h)

theorem demodSymbol_keeps {b : Nat} {s u : State} (h : demodSymbol b s = .ok u) : s.Keeps u := by
  simp only [demodSymbol, bind_eq_ok, getBundle_eq_ok, check_eq_ok, exists_and_left, exists_const] at h
  obtain ⟨x, _, _, h⟩ := h
  have h1 : ∀ y : SymbolData, s.Keeps ((s.record (.demodSymbol (BitVec.ofNat 8 b) (BitVec.ofNat 16 x.l))).modBundle b
      (fun x => { x.accumulate y with work := y.llrs })) := fun y =>
    (record_keeps _ _).trans (modBundle_keeps_quiet _ _ _ (fun x => by simp [Bundle.accumulate]))
  split at h
  · obtain ⟨w, hw, h⟩ := bind_eq_ok.1 h
    exact ((h1 _).trans (descrambleOp_keeps hw)).trans (demuxSymbol_keeps h)
  · simp only [bind_eq_ok, getBundle_eq_ok] at h
    obtain ⟨v, hv, w, hw, z, _, h⟩ := h
    exact (((h1 _).trans (emit_keeps hv)).trans (descrambleOp_keeps hw)).trans (streamLoop_keeps h)

/-! ### The sequencer -/

theorem poolEmptyResult_keeps {tag : BitVec 8} {d : Descriptor} {s u : State} (h : poolEmptyResult tag d s = .ok u) :
    s.Keeps u := by
  simp only [poolEmptyResult, bind_eq_ok, ok_eq_ok] at h
  obtain ⟨v, hv, w, hw, rfl⟩ := h
  exact ((emit_keeps hv).trans (emit_keeps hw)).trans (windows_keeps _ _)

theorem openPorts_keeps {b t : Nat} {d : Descriptor} {s u : State} (h : openPorts b t d s = .ok u) : s.Keeps u := by
  simp only [openPorts, bind_eq_ok] at h
  obtain ⟨v1, h1, v2, h2, v3, h3, v4, h4, h5⟩ := h
  exact ((((openPort_keeps h1).trans (openPort_keeps h2)).trans (openPort_keeps h3)).trans (openPort_keeps h4)).trans
    (openPort_keeps h5)

theorem processPdu_keeps {tag : BitVec 8} {s u : State} (h : processPdu tag s = .ok u) : s.Keeps u := by
  simp only [processPdu, bind_eq_ok, checkAll_eq_ok, exists_and_left, exists_const] at h
  obtain ⟨_, h⟩ := h
  split at h
  · simp only [bind_eq_ok, getHarq_eq_ok, check_eq_ok, ok_eq_ok, exists_and_left, exists_const] at h
    obtain ⟨y, _, _, v, hv, w, hw, rfl⟩ := h
    refine State.Keeps.trans (State.Keeps.trans (State.Keeps.trans ?_ (openPorts_keeps hv)) (tbConfigure_keeps hw))
      (modBundle_keeps_quiet _ _ _ (fun x => by simp))
    have hacc : ∀ (s : State) (tag : BitVec 8) (d : Descriptor), s.Keeps (s.acceptPdu tag d) := by
      intro s tag d; constructor <;> simp
    refine (record_keeps _ (.processPdu tag)).trans (State.Keeps.trans ?_ (hacc _ _ _))
    refine modBundle_keeps _ _ _ ?_ ?_
    · intro x _ hm _; exact hm
    · intro x _ hx; exact hx
  · exact (record_keeps _ _).trans (poolEmptyResult_keeps h)

theorem seqEndOp_keeps {b : Nat} {s u : State} (h : seqEndOp b s = .ok u) : s.Keeps u := by
  simp only [seqEndOp, bind_eq_ok, getBundle_eq_ok, check_eq_ok, ok_eq_ok, exists_and_left, exists_const] at h
  obtain ⟨x, _, _, v, hv, w, hw, y, _, z, hz, rfl⟩ := h
  exact ((((record_keeps _ _).trans (endStats_keeps hv)).trans
    (issueClose_keeps (fun _ _ => consumeCloseAll_keeps) hw)).trans (emit_keeps hz)).trans
    (modBundle_keeps_quiet _ _ _ (fun x => by simp))

end Sys2Proof.Machine
end

