-- ==== Sys2Proof/Laws/Locks.lean ====
section
/-!
SUPPORT. Every operation of the block keeps the HARQ handles exclusive (spec/20_memory.md R117, spec/43_tb_decoder.md R348).
-/

namespace Sys2Proof.Machine

/-- What an operation that completes does to the exclusiveness of the handles. -/
def State.Locks (s t : State) : Prop := s.Exclusive → t.Exclusive

theorem State.Locks.refl (s : State) : s.Locks s := id

theorem State.Locks.trans {s t u : State} (h : s.Locks t) (k : t.Locks u) : s.Locks u := fun a => k (h a)

/-- Nothing changes where every context holds what it held and every handle is LOCKED as it was. -/
theorem locks_of_same {s t : State} (h1 : ∀ i, t.holds i = s.holds i) (h2 : ∀ h, t.lockedAt h ↔ s.lockedAt h) :
    s.Locks t := by
  intro e
  constructor
  · intro h; rw [h2, e.lockedIff]; simp only [h1]
  · intro i j h; rw [h1, h1]; exact e.unique i j h

theorem locks_of_eq {s t : State} (h1 : t.tbs = s.tbs) (h2 : t.harq = s.harq) : s.Locks t :=
  locks_of_same (fun i => by simp [State.holds, h1]) (fun h => by simp [State.lockedAt, h2])

theorem holds_modTb (s : State) (t i : Nat) (g : TbCtx → TbCtx) :
    (s.modTb t g).holds i =
      match s.tbs[i]? with
      | some x => if (if t = i then g x else x).fsm = .idle then none else some (if t = i then g x else x).handle
      | none => none := by
  simp only [State.holds, State.modTb_tbs, List.getElem?_modify]
  cases hx : s.tbs[i]? with
  | none => rfl
  | some x => by_cases h : t = i <;> simp [h]

theorem lockedAt_modHarq (s : State) (i h : Nat) (g : Harq → Harq) :
    (s.modHarq i g).lockedAt h ↔ ∃ y, s.harq[h]? = some y ∧ (if i = h then g y else y).hstate = .locked := by
  simp only [State.lockedAt, State.modHarq_harq, List.getElem?_modify]
  cases hx : s.harq[h]? with
  | none => simp
  | some x => by_cases hi : i = h <;> simp [hi]

theorem lockedAt_iff (s : State) (h : Nat) : s.lockedAt h ↔ ∃ y, s.harq[h]? = some y ∧ y.hstate = .locked := by
  simp [State.lockedAt, Option.map_eq_some_iff]

/-! ### The updates -/

theorem record_locks (s : State) (i : Instr) : s.Locks (s.record i) := locks_of_eq (by simp) (by simp)

theorem emit_locks {ws : List Word} {s t : State} (h : emit ws s = .ok t) : s.Locks t := by
  obtain ⟨h1, rfl⟩ := emit_eq_ok.1 h
  exact locks_of_eq rfl rfl

theorem modBundle_locks (s : State) (b : Nat) (g : Bundle → Bundle) : s.Locks (s.modBundle b g) :=
  locks_of_eq (by simp) (by simp)

/-- A change of a TB context that leaves its state of work and its handle alone. -/
theorem modTb_locks_quiet (s : State) (t : Nat) (g : TbCtx → TbCtx)
    (h : ∀ x, s.tbs[t]? = some x → ((g x).fsm = .idle ↔ x.fsm = .idle) ∧ (g x).handle = x.handle) :
    s.Locks (s.modTb t g) := by
  apply locks_of_same
  · intro i
    rw [holds_modTb]
    unfold State.holds
    cases hx : s.tbs[i]? with
    | none => rfl
    | some x =>
      by_cases hi : t = i
      · subst hi
        obtain ⟨h1, h2⟩ := h x hx
        simp [h1, h2]
      · simp [hi]
  · intro i; simp [State.lockedAt]

/-- A change of a handle that leaves it LOCKED or not as it was. -/
theorem modHarq_locks_quiet (s : State) (i : Nat) (g : Harq → Harq)
    (h : ∀ y, s.harq[i]? = some y → ((g y).hstate = .locked ↔ y.hstate = .locked)) : s.Locks (s.modHarq i g) := by
  apply locks_of_same
  · intro j; simp [State.holds]
  · intro j
    rw [lockedAt_modHarq, lockedAt_iff]
    constructor
    · rintro ⟨y, hy, hl⟩
      by_cases hi : i = j
      · subst hi; exact ⟨y, hy, (h y hy).1 (by simpa using hl)⟩
      · exact ⟨y, hy, by simpa [hi] using hl⟩
    · rintro ⟨y, hy, hl⟩
      by_cases hi : i = j
      · subst hi; exact ⟨y, hy, by simpa using (h y hy).2 hl⟩
      · exact ⟨y, hy, by simpa [hi] using hl⟩

theorem modPort_locks (s : State) (r : PortRef) (g : Port → Port) : s.Locks (s.modPort r g) := by
  cases r with
  | demuxIn b => exact modBundle_locks _ _ _
  | sch t => exact modTb_locks_quiet _ _ _ (fun x _ => by simp)
  | uci f b => exact modBundle_locks _ _ _

theorem modStorage_locks (s : State) (r : PortRef) (g : Slots → Slots) : s.Locks (s.modStorage r g) := by
  cases r with
  | demuxIn b => exact modBundle_locks _ _ _
  | sch t => exact modTb_locks_quiet _ _ _ (fun x _ => by simp)
  | uci f b => exact modBundle_locks _ _ _

/-! ### Port operations -/

theorem openPort_locks {r : PortRef} {bound : Binding} {s t : State} (h : openPort r bound s = .ok t) : s.Locks t := by
  obtain ⟨p, _, _, rfl⟩ := openPort_eq_ok.1 h
  exact modPort_locks _ _ _

theorem rebindPort_locks {r : PortRef} {s t : State} (h : rebindPort r s = .ok t) : s.Locks t := by
  obtain ⟨p, _, _, rfl⟩ := rebindPort_eq_ok.1 h
  exact modPort_locks _ _ _

theorem openView_locks (s : State) (r : PortRef) (p : Port) (n : Nat) : s.Locks (s.openView r p n) := by
  unfold State.openView
  dsimp only
  split
  · exact modPort_locks _ _ _
  · split
    · exact (modPort_locks _ _ _).trans (modStorage_locks _ _ _)
    · exact modPort_locks _ _ _

theorem reserveView_locks {r : PortRef} {n : Nat} {s : State} {v : Nat × State} (h : reserveView r n s = .ok v) :
    s.Locks v.2 := by
  obtain ⟨p, hp, ho, _, rfl⟩ := reserveView_eq_ok.1 h
  exact openView_locks _ _ _ _

theorem writeView_locks (s : State) (r : PortRef) (ls : List Llr) : s.Locks (s.writeView r ls) := by
  unfold State.writeView
  split
  · exact modStorage_locks _ _ _
  · exact State.Locks.refl _

theorem storeAtCount_locks {r : PortRef} {ls : List Llr} {s t : State} (h : storeAtCount r ls s = .ok t) : s.Locks t := by
  obtain ⟨p, _, rfl⟩ := storeAtCount_eq_ok.1 h
  exact modStorage_locks _ _ _

theorem whenReal_locks {p : Port} {op : Op} {s t : State} (hop : ∀ t, op s = .ok t → s.Locks t)
    (h : whenReal p op s = .ok t) : s.Locks t := by
  rcases whenReal_eq_ok.1 h with ⟨_, rfl⟩ | ⟨_, h⟩
  · exact State.Locks.refl _
  · exact hop _ h

theorem deliver_locks {p : Port} {ls : List Llr} {op : Op} {s t : State} (hop : ∀ t, op s = .ok t → s.Locks t)
    (h : deliver p ls op s = .ok t) : s.Locks t := by
  rcases deliver_eq_ok.1 h with ⟨_, rfl⟩ | ⟨_, h⟩
  · exact State.Locks.refl _
  · exact whenReal_locks hop h

theorem publishCopyWith_locks {consume : PortRef → List Llr → Op} {r : PortRef} {ls : List Llr} {s t : State}
    (hc : ∀ s t, consume r ls s = .ok t → s.Locks t) (h : publishCopyWith consume r ls s = .ok t) : s.Locks t := by
  obtain ⟨p, u, _, _, _, hu, rfl⟩ := publishCopyWith_eq_ok.1 h
  exact ((modPort_locks _ _ _).trans (deliver_locks (fun _ => hc _ _) hu)).trans (modPort_locks _ _ _)

theorem publishInPlaceWith_locks {consume : PortRef → List Llr → Op} {r : PortRef} {n : Nat} {s t : State}
    (hc : ∀ ls s t, consume r ls s = .ok t → s.Locks t) (h : publishInPlaceWith consume r n s = .ok t) : s.Locks t := by
  obtain ⟨p, ls, u, _, _, _, _, hu, rfl⟩ := publishInPlaceWith_eq_ok.1 h
  exact ((modPort_locks _ _ _).trans (deliver_locks (fun _ => hc _ _ _) hu)).trans (modPort_locks _ _ _)

theorem closeWith_locks {consume : PortRef → Op} {r : PortRef} {s t : State}
    (hc : ∀ s t, consume r s = .ok t → s.Locks t) (h : closeWith consume r s = .ok t) : s.Locks t := by
  obtain ⟨p, _, _, hu⟩ := closeWith_eq_ok.1 h
  exact (modPort_locks _ _ _).trans (whenReal_locks (fun _ => hc _ _) hu)

/-! ### The lease and the join -/

theorem Harq.lease_hstate (h : Harq) (geo : Geometry) (n : Bool) : (h.lease geo n).hstate = .locked := by
  unfold Harq.lease; split <;> rfl

/-- Taking a lease (R330, R331): an IDLE context and a handle that is not LOCKED become holder and held. -/
theorem tbConfigure_locks {t b : Nat} {s u : State} (h : tbConfigure t b s = .ok u) : s.Locks u := by
  simp only [tbConfigure, bind_eq_ok, getTb_eq_ok, getBundle_eq_ok, check_eq_ok, assertDisposed_eq_ok, harqLease_eq_ok,
    ok_eq_ok, exists_and_left, exists_const] at h
  obtain ⟨x, hx, hidle, v, ⟨_, rfl⟩, y, _, w, ⟨x', hx', z, hz, hfree, rfl⟩, rfl⟩ := h
  simp only [State.record_tbs] at hx
  rw [State.modTb_tbs, getElem?_modify_self _ (by simpa using hx)] at hx'
  simp only [State.modTb_harq, State.record_harq] at hz
  intro e
  generalize hk : x'.handle = k at *
  have hnl : ¬ s.lockedAt k := by
    rw [lockedAt_iff]; rintro ⟨y', hy', hl⟩; rw [hz] at hy'; cases hy'; exact hfree hl
  have hno : ∀ i, s.holds i ≠ some k := fun i hi => hnl ((e.lockedIff k).2 ⟨i, hi⟩)
  have hst : s.holds t = none := by simp [State.holds, hx, hidle]
  -- what every context holds afterwards
  have hholds : ∀ i, (((((s.record (.tbConfigure (BitVec.ofNat 8 t))).modTb t fun x =>
      x.latch y.tag y.d (s.record (.tbConfigure (BitVec.ofNat 8 t))).decCfg).modHarq k fun h =>
      h.lease x'.geometry x'.newData).modTb t fun x => { x with tbCrcOk := false, fsm := .collecting }).holds i) =
      if t = i then some k else s.holds i := by
    intro i
    rw [holds_modTb]
    by_cases hi : t = i
    · subst hi
      rw [← hk, ← Option.some.inj hx']
      simp [hx]
    · simp only [State.modHarq_tbs, State.modTb_tbs, State.record_tbs, List.getElem?_modify, hi, if_false, State.holds]
      cases s.tbs[i]? <;> simp
  have hlock : ∀ h, ((((s.record (.tbConfigure (BitVec.ofNat 8 t))).modTb t fun x =>
      x.latch y.tag y.d (s.record (.tbConfigure (BitVec.ofNat 8 t))).decCfg).modHarq k fun h =>
      h.lease x'.geometry x'.newData).modTb t fun x => { x with tbCrcOk := false, fsm := .collecting }).lockedAt h ↔
      (h = k ∨ s.lockedAt h) := by
    intro h
    have := lockedAt_modHarq ((s.record (.tbConfigure (BitVec.ofNat 8 t))).modTb t fun x =>
      x.latch y.tag y.d (s.record (.tbConfigure (BitVec.ofNat 8 t))).decCfg) k h (fun h => h.lease x'.geometry x'.newData)
    simp only [State.lockedAt, State.modTb_harq] at this ⊢
    rw [this, ← State.lockedAt, lockedAt_iff]
    constructor
    · rintro ⟨y', hy', hl⟩
      by_cases hh : k = h
      · left; exact hh.symm
      · right; exact ⟨y', by simpa using hy', by simpa [hh] using hl⟩
    · rintro (rfl | ⟨y', hy', hl⟩)
      · exact ⟨z, by simpa using hz, by simp [Harq.lease_hstate]⟩
      · refine ⟨y', by simpa using hy', ?_⟩
        by_cases hh : k = h <;> simp [hh, hl, Harq.lease_hstate]
  constructor
  · intro h
    rw [hlock, e.lockedIff]
    simp only [hholds]
    constructor
    · rintro (rfl | ⟨i, hi⟩)
      · exact ⟨t, by simp⟩
      · refine ⟨i, ?_⟩
        by_cases hti : t = i
        · subst hti; rw [hst] at hi; cases hi
        · simp [hti, hi]
    · rintro ⟨i, hi⟩
      by_cases hti : t = i
      · subst hti; left; simpa using hi.symm
      · right; exact ⟨i, by simpa [hti] using hi⟩
  · intro i j h hi hj
    simp only [hholds] at hi hj
    by_cases hti : t = i <;> by_cases htj : t = j
    · rw [← hti, ← htj]
    · simp [hti] at hi; simp [htj] at hj; rw [← hi] at hj; exact absurd hj (hno j)
    · simp [hti] at hi; simp [htj] at hj; rw [← hj] at hi; exact absurd hi (hno i)
    · simp [hti] at hi; simp [htj] at hj; exact e.unique i j h hi hj

theorem setNofSoftbits_locks {t g : Nat} {s u : State} (h : setNofSoftbits t g s = .ok u) : s.Locks u := by
  simp only [setNofSoftbits, bind_eq_ok, getTb_eq_ok, check_eq_ok, ok_eq_ok, exists_and_left, exists_const] at h
  obtain ⟨x, _, _, _, rfl⟩ := h
  exact (record_locks _ _).trans (modTb_locks_quiet _ _ _ (fun x _ => by simp))

theorem writeTb_same (o : Option Nat) (dest n : Nat) (bits : List Bool) (s : State) :
    (writeTb o dest n bits s).tbs = s.tbs ∧ (writeTb o dest n bits s).harq = s.harq := by
  unfold writeTb
  have : ∀ (l : List Nat) (s : State),
      (l.foldl (fun s i => s.memWrite o (dest + i) (payloadByte bits i)) s).tbs = s.tbs ∧
      (l.foldl (fun s i => s.memWrite o (dest + i) (payloadByte bits i)) s).harq = s.harq := by
    intro l
    induction l with
    | nil => intro s; simp
    | cons i l ih => intro s; simp [ih]
  exact this _ _

theorem Harq.dispose_hstate (h : Harq) (j : JoinResult) (c : Nat) : (h.dispose j c).hstate ≠ .locked := by
  unfold Harq.dispose; cases j.ok <;> simp

/-- Ending a lease (R346): the context at work becomes IDLE and its handle FREE or HELD. -/
theorem unlock_locks {s u : State} {t : Nat} {x : TbCtx} (hx : s.tbs[t]? = some x) (hw : x.fsm ≠ .idle)
    (h1 : ∀ i, u.holds i = if t = i then none else s.holds i)
    (h2 : ∀ h, u.lockedAt h ↔ (s.lockedAt h ∧ h ≠ x.handle)) : s.Locks u := by
  intro e
  have hst : s.holds t = some x.handle := by simp [State.holds, hx, hw]
  constructor
  · intro h
    rw [h2, e.lockedIff]
    simp only [h1]
    constructor
    · rintro ⟨⟨i, hi⟩, hne⟩
      refine ⟨i, ?_⟩
      by_cases hti : t = i
      · subst hti; rw [hst] at hi; cases hi; exact absurd rfl hne
      · simpa [hti] using hi
    · rintro ⟨i, hi⟩
      by_cases hti : t = i
      · simp [hti] at hi
      · simp [hti] at hi
        refine ⟨⟨i, hi⟩, ?_⟩
        rintro rfl
        exact hti (e.unique t i _ hst hi)
  · intro i j h hi hj
    simp only [h1] at hi hj
    by_cases hti : t = i <;> by_cases htj : t = j <;> simp [hti, htj] at hi hj
    exact e.unique i j h hi hj

theorem tbJoin_locks {t : Nat} {s u : State} (h : tbJoin t s = .ok u) : s.Locks u := by
  simp only [tbJoin, bind_eq_ok, getTb_eq_ok, getHarq_eq_ok, check_eq_ok, need_eq_ok, assertDisposed_eq_ok, emit_eq_ok,
    exists_and_left, exists_const] at h
  obtain ⟨x, hx, hw, y, _, cbs, _, j, _, _, v, ⟨_, rfl⟩, _, rfl⟩ := h
  simp only [State.record_tbs] at hx
  have hidle : x.fsm ≠ .idle := by rcases hw.1 with h | h <;> simp [h]
  generalize hs1 : (if j.ok = true then
      writeTb ((s.record (Instr.tbJoin (BitVec.ofNat 8 t))).joiningWindow x.tag) x.tbDest (x.tbs / 8) j.bits
        (s.record (Instr.tbJoin (BitVec.ofNat 8 t))) else s.record (Instr.tbJoin (BitVec.ofNat 8 t))) = s1
  have ht : s1.tbs = s.tbs := by rw [← hs1]; split <;> simp [writeTb_same]
  have hh : s1.harq = s.harq := by rw [← hs1]; split <;> simp [writeTb_same]
  apply unlock_locks hx hidle
  · intro i
    rw [holds_modTb]
    simp only [State.markJoined, State.modHarq_tbs, ht, State.holds]
    cases hz : s.tbs[i]? with
    | none => simp
    | some z => by_cases hti : t = i <;> simp [hti]
  · intro h
    have := lockedAt_modHarq s1 x.handle h (fun h => h.dispose j x.seg.c)
    simp only [State.lockedAt, State.modTb_harq, State.markJoined] at this ⊢
    rw [this, ← State.lockedAt, lockedAt_iff, hh]
    constructor
    · rintro ⟨y', hy', hl⟩
      by_cases hc : x.handle = h
      · simp [hc, Harq.dispose_hstate] at hl
      · exact ⟨⟨y', hy', by simpa [hc] using hl⟩, fun h => hc h.symm⟩
    · rintro ⟨⟨y', hy', hl⟩, hne⟩
      have hc : x.handle ≠ h := fun h => hne h.symm
      exact ⟨y', hy', by simpa [hc] using hl⟩

theorem cbComplete_locks {t r : Nat} {s u : State} (h : cbComplete t r s = .ok u) : s.Locks u := by
  simp only [cbComplete, bind_eq_ok, getTb_eq_ok, check_eq_ok, exists_and_left, exists_const] at h
  obtain ⟨x, hx, _, h⟩ := h
  have h1 := (record_locks s (.cbComplete (BitVec.ofNat 8 t) (BitVec.ofNat 16 r))).trans
    (modTb_locks_quiet _ t (fun x => { x with counter := x.counter - 1 }) (fun x _ => by simp))
  split at h
  · rw [ok_eq_ok] at h; subst h; exact h1
  · split at h
    · exact h1.trans (tbJoin_locks h)
    · rename_i hf
      rw [ok_eq_ok] at h; subst h
      refine h1.trans (modTb_locks_quiet _ _ _ ?_)
      intro z hz
      rw [State.modTb_tbs, getElem?_modify_self _ hx] at hz
      cases hz
      simp [hf]
    · simp at h
    · simp at h

theorem closeCommit_locks {t : Nat} {s u : State} (h : closeCommit t s = .ok u) : s.Locks u := by
  simp only [closeCommit, bind_eq_ok, getTb_eq_ok] at h
  obtain ⟨x, hx, h⟩ := h
  split at h
  · rename_i hf
    rw [ok_eq_ok] at h; subst h
    refine (record_locks _ _).trans (modTb_locks_quiet _ _ _ ?_)
    intro z hz
    rw [hx] at hz; cases hz
    simp [hf]
  · exact (record_locks _ _).trans (tbJoin_locks h)
  · simp at h
  · simp at h

theorem Harq.release_hstate (h : Harq) : h.release.hstate = .free := by
  unfold Harq.release; split <;> simp_all

theorem harqFree_locks {v : BitVec 8} {s u : State} (h : harqFree v s = .ok u) : s.Locks u := by
  simp only [harqFree, bind_eq_ok, getHarq_eq_ok, check_eq_ok, ok_eq_ok, exists_and_left, exists_const] at h
  obtain ⟨_, y, hy, hn, rfl⟩ := h
  refine (record_locks _ _).trans (modHarq_locks_quiet _ _ _ ?_)
  intro z hz
  rw [hy] at hz; cases hz
  simp [Harq.release_hstate, hn]

/-! ### Codeblock tasks and their dispatch -/

theorem cbDecode_locks {t r : Nat} {s u : State} (h : cbDecode t r s = .ok u) : s.Locks u := by
  simp only [cbDecode, bind_eq_ok, need_eq_ok] at h
  obtain ⟨v, _, f, _, h⟩ := h
  refine State.Locks.trans ?_ (cbComplete_locks h)
  exact ((record_locks _ _).trans (modHarq_locks_quiet _ _ _ (fun _ _ => by simp [Harq.modCb]))).trans
    (modTb_locks_quiet _ _ _ (fun x _ => by simp))

theorem cbRateDematch_locks {t r : Nat} {s u : State} (h : cbRateDematch t r s = .ok u) : s.Locks u := by
  simp only [cbRateDematch, bind_eq_ok, need_eq_ok] at h
  obtain ⟨v, _, f, _, h⟩ := h
  refine State.Locks.trans ?_ (cbComplete_locks h)
  exact ((record_locks _ _).trans (modHarq_locks_quiet _ _ _ (fun _ _ => by simp [Harq.modCb]))).trans
    (modTb_locks_quiet _ _ _ (fun x _ => by simp))

theorem dispatchCb_locks {t c r : Nat} {s u : State} (h : dispatchCb t c r s = .ok u) : s.Locks u := by
  simp only [dispatchCb, bind_eq_ok, getTb_eq_ok, getHarq_eq_ok, need_eq_ok] at h
  obtain ⟨x, _, y, _, cb, _, h⟩ := h
  split at h
  · rw [ok_eq_ok] at h; subst h
    exact locks_of_eq rfl rfl
  · split at h
    · exact cbRateDematch_locks h
    · exact cbDecode_locks h

theorem dispatchAll_locks {t c : Nat} {rs : List Nat} {s u : State} (h : dispatchAll t c rs s = .ok u) : s.Locks u := by
  induction rs generalizing s with
  | nil => simp only [dispatchAll, ok_eq_ok] at h; subst h; exact State.Locks.refl _
  | cons r rs ih =>
    simp only [dispatchAll, bind_eq_ok] at h
    obtain ⟨v, hv, h⟩ := h
    exact (dispatchCb_locks hv).trans (ih h)

theorem closeDispatch_locks {t : Nat} {s u : State} (h : closeDispatch t s = .ok u) : s.Locks u := by
  simp only [closeDispatch, bind_eq_ok, getTb_eq_ok, check_eq_ok, exists_and_left, exists_const] at h
  obtain ⟨x, _, _, _, h⟩ := h
  refine State.Locks.trans ?_ (dispatchAll_locks h)
  exact (record_locks _ _).trans (modTb_locks_quiet _ _ _ (fun x _ => ⟨Iff.rfl, rfl⟩))

/-! ### The demultiplexer -/

theorem modUci_locks_quiet (s : State) (b : Nat) (f : UciField) (g : Bundle → FieldUnit → FieldUnit)
    (h : ∀ x u, (g x u).port = u.port) : s.Locks (s.modBundle b (fun x => x.modUci f (g x))) :=
  modBundle_locks _ _ _

theorem uciDecode_locks {b : Nat} {f : UciField} {s u : State} (h : uciDecode b f s = .ok u) : s.Locks u := by
  simp only [uciDecode, bind_eq_ok, getBundle_eq_ok, need_eq_ok, ok_eq_ok] at h
  obtain ⟨x, _, ls, _, rfl⟩ := h
  refine (record_locks _ _).trans (modUci_locks_quiet _ _ _ (fun x u => u.decode f (x.payloadBits f) ls) ?_)
  intro x u
  unfold FieldUnit.decode
  split <;> rfl

theorem setCsi2State_locks (b : Nat) (c : Csi2State) (s : State) : s.Locks (setCsi2State b c s) :=
  modBundle_locks _ _ _

theorem afterCsi1Close_locks {b : Nat} {s u : State} (h : afterCsi1Close b s = .ok u) : s.Locks u := by
  simp only [afterCsi1Close, bind_eq_ok, getBundle_eq_ok] at h
  obtain ⟨x, _, h⟩ := h
  split at h
  · split at h
    · exact (setCsi2State_locks _ _ _).trans (emit_locks h)
    · rw [ok_eq_ok] at h; subst h; exact setCsi2State_locks _ _ _
  · rw [ok_eq_ok] at h; subst h; exact State.Locks.refl _

theorem consumeClose_locks {r : PortRef} {s u : State} (h : consumeClose r s = .ok u) : s.Locks u := by
  cases r with
  | demuxIn b => simp [consumeClose] at h
  | sch t => exact closeDispatch_locks h
  | uci f b =>
    cases f with
    | ack => exact uciDecode_locks h
    | csi2 => exact uciDecode_locks h
    | csi1 =>
      simp only [consumeClose, bind_eq_ok] at h
      obtain ⟨v, hv, h⟩ := h
      exact (uciDecode_locks hv).trans (afterCsi1Close_locks h)

theorem consumeFlush_locks {r : PortRef} {s u : State} (h : consumeFlush r s = .ok u) : s.Locks u := by
  cases r with
  | demuxIn b => simp [consumeFlush] at h
  | sch t => exact closeDispatch_locks h
  | uci f b => exact uciDecode_locks h

theorem issuePublish_locks {r : PortRef} {ls : List Llr} {s u : State} (h : issuePublish r ls s = .ok u) : s.Locks u :=
  (record_locks _ _).trans (publishCopyWith_locks (fun _ _ => storeAtCount_locks) h)

theorem issueClose_locks {consume : PortRef → Op} {r : PortRef} {s u : State}
    (hc : ∀ s t, consume r s = .ok t → s.Locks t) (h : issueClose consume r s = .ok u) : s.Locks u :=
  (record_locks _ _).trans (closeWith_locks hc h)

theorem emitField_locks {b : Nat} {f : UciField} {xs : List Nat} {s u : State} (h : emitField b f xs s = .ok u) :
    s.Locks u := by
  unfold emitField at h
  split at h
  · rw [ok_eq_ok] at h; subst h; exact State.Locks.refl _
  · simp only [bind_eq_ok, getBundle_eq_ok, need_eq_ok] at h
    obtain ⟨x, _, bits, _, v, hv, h⟩ := h
    split at h
    · exact (issuePublish_locks hv).trans (issueClose_locks (fun _ _ => consumeClose_locks) h)
    · rw [ok_eq_ok] at h; subst h; exact issuePublish_locks hv

theorem emitSch_locks {b : Nat} {s u : State} (h : emitSch b s = .ok u) : s.Locks u := by
  simp only [emitSch, bind_eq_ok, getBundle_eq_ok, need_eq_ok] at h
  obtain ⟨x, _, sets, _, ls, _, h⟩ := h
  split at h
  · rw [ok_eq_ok] at h; subst h; exact State.Locks.refl _
  · exact issuePublish_locks h

theorem finishSymbol_locks {b : Nat} {s u : State} (h : finishSymbol b s = .ok u) : s.Locks u := by
  simp only [finishSymbol, bind_eq_ok, getBundle_eq_ok, need_eq_ok, ok_eq_ok] at h
  obtain ⟨x, _, sets, _, v, hv, w, hw, rfl⟩ := h
  refine State.Locks.trans (State.Locks.trans (State.Locks.trans ?_ (emitField_locks hv)) (emitSch_locks hw)) ?_
  · exact modBundle_locks _ _ _
  · exact modBundle_locks _ _ _

theorem demuxSymbol_locks {b : Nat} {s u : State} (h : demuxSymbol b s = .ok u) : s.Locks u := by
  simp only [demuxSymbol, bind_eq_ok, getBundle_eq_ok] at h
  obtain ⟨x0, _, x, _, v, hv, w, hw, y, _, h⟩ := h
  have h1 : s.Locks w := by
    refine State.Locks.trans (State.Locks.trans ?_ (emitField_locks hv)) (emitField_locks hw)
    exact (record_locks _ _).trans (modBundle_locks _ _ _)
  split at h
  · rw [ok_eq_ok] at h; subst h; exact h1.trans (modBundle_locks _ _ _)
  · exact h1.trans (finishSymbol_locks h)

theorem demuxResume_locks {b : Nat} {s u : State} (h : demuxResume b s = .ok u) : s.Locks u := by
  simp only [demuxResume, bind_eq_ok, getBundle_eq_ok, check_eq_ok, exists_and_left, exists_const] at h
  obtain ⟨x, _, _, h⟩ := h
  exact (record_locks _ _).trans (finishSymbol_locks h)

theorem flushField_locks {b : Nat} {f : UciField} {s u : State} (h : flushField b f s = .ok u) : s.Locks u := by
  simp only [flushField, bind_eq_ok, getPort_eq_ok] at h
  obtain ⟨p, _, h⟩ := h
  split at h
  · exact issueClose_locks (fun _ _ => consumeFlush_locks) h
  · rw [ok_eq_ok] at h; subst h; exact State.Locks.refl _

theorem demuxFlush_locks {b : Nat} {s u : State} (h : demuxFlush b s = .ok u) : s.Locks u := by
  simp only [demuxFlush, bind_eq_ok, getBundle_eq_ok, check_eq_ok, exists_and_left, exists_const] at h
  obtain ⟨x, _, _, v, hv, w, hw, y, hy, h⟩ := h
  refine State.Locks.trans ?_ (issueClose_locks (fun _ _ => consumeFlush_locks) h)
  refine ((((record_locks _ _).trans (flushField_locks hv)).trans (flushField_locks hw)).trans (flushField_locks hy)).trans ?_
  exact modBundle_locks _ _ _

theorem configureCsiPart2_locks {tag : BitVec 8} {bits : BitVec 11} {g2 gu : BitVec 24} {s u : State}
    (h : configureCsiPart2 tag bits g2 gu s = .ok u) : s.Locks u := by
  simp only [configureCsiPart2, bind_eq_ok, getBundle_eq_ok, getTb_eq_ok, need_eq_ok, check_eq_ok, checkAll_eq_ok, ok_eq_ok,
    exists_and_left, exists_const] at h
  obtain ⟨b, _, x, _, _, _, t, _, _, v, hv, w, hw, rfl⟩ := h
  have h0 : ∀ (s : State) (w : Word), s.Locks { s with a2 := w } := fun s w => locks_of_eq rfl rfl
  refine State.Locks.trans (State.Locks.trans ?_ (setNofSoftbits_locks hw)) (modBundle_locks _ _ _)
  refine (((record_locks _ _).trans (h0 _ _)).trans (rebindPort_locks hv)).trans ?_
  exact modBundle_locks _ _ _

theorem csi2None_locks {tag : BitVec 8} {s u : State} (h : csi2None tag s = .ok u) : s.Locks u := by
  simp only [csi2None, bind_eq_ok, getBundle_eq_ok, need_eq_ok, check_eq_ok, ok_eq_ok, exists_and_left, exists_const] at h
  obtain ⟨b, _, x, _, _, rfl⟩ := h
  exact ((record_locks _ _).trans (setCsi2State_locks _ _ _)).trans (modBundle_locks _ _ _)

/-! ### The stream ports -/

theorem consumePublish_locks {r : PortRef} {ls : List Llr} {s u : State} (h : consumePublish r ls s = .ok u) : s.Locks u := by
  cases r with
  | sch t => exact storeAtCount_locks h
  | uci f b => exact storeAtCount_locks h
  | demuxIn b =>
    simp only [consumePublish, bind_eq_ok, getBundle_eq_ok] at h
    obtain ⟨x, _, h⟩ := h
    have h1 : s.Locks (s.modBundle b (fun x => x.receive ls)) :=
      modBundle_locks _ _ _
    split at h
    · exact h1.trans (demuxSymbol_locks h)
    · rw [ok_eq_ok] at h; subst h; exact h1

theorem consumeCloseAll_locks {r : PortRef} {s u : State} (h : consumeCloseAll r s = .ok u) : s.Locks u := by
  cases r with
  | demuxIn b => exact demuxFlush_locks h
  | sch t => exact consumeClose_locks (r := .sch t) h
  | uci f b => exact consumeClose_locks (r := .uci f b) h

theorem issueReserve_locks {r : PortRef} {n : Nat} {s : State} {v : Nat × State} (h : issueReserve r n s = .ok v) :
    s.Locks v.2 := (record_locks _ _).trans (reserveView_locks h)

theorem issuePublishInPlace_locks {r : PortRef} {n : Nat} {s u : State} (h : issuePublishInPlace r n s = .ok u) :
    s.Locks u := (record_locks _ _).trans (publishInPlaceWith_locks (fun _ _ _ => consumePublish_locks) h)

/-! ### The demodulator -/

theorem chestOp_locks {b : Nat} {s u : State} (h : chestOp b s = .ok u) : s.Locks u := by
  simp only [chestOp, bind_eq_ok, getBundle_eq_ok, check_eq_ok, ok_eq_ok, exists_and_left, exists_const] at h
  obtain ⟨x, _, _, rfl⟩ := h
  exact (record_locks _ _).trans (modBundle_locks _ _ _)

theorem endStats_locks {b : Nat} {s u : State} (h : endStats b s = .ok u) : s.Locks u := by
  simp only [endStats, bind_eq_ok, getBundle_eq_ok] at h
  obtain ⟨x, _, h⟩ := h
  exact (record_locks _ _).trans (emit_locks h)

theorem descrambleOp_locks {b : Nat} {s u : State} (h : descrambleOp b s = .ok u) : s.Locks u := by
  simp only [descrambleOp, bind_eq_ok, getBundle_eq_ok, check_eq_ok, ok_eq_ok, exists_and_left, exists_const] at h
  obtain ⟨x, _, _, rfl⟩ := h
  exact (record_locks _ _).trans (modBundle_locks _ _ _)

theorem streamLoop_locks {b : Nat} {ls : List Llr} {fuel j : Nat} {s u : State} (h : streamLoop b ls fuel j s = .ok u) :
    s.Locks u := by
  induction fuel generalizing j s with
  | zero => simp only [streamLoop, ok_eq_ok] at h; subst h; exact State.Locks.refl _
  | succ fuel ih =>
    unfold streamLoop at h
    split at h
    · rw [ok_eq_ok] at h; subst h; exact State.Locks.refl _
    · simp only [bind_eq_ok] at h
      obtain ⟨v, hv, w, hw, h⟩ := h
      exact (((issueReserve_locks hv).trans (writeView_locks _ _ _)).trans (issuePublishInPlace_locks hw)).trans (ih h)

theorem demodSymbol_locks {b : Nat} {s u : State} (h : demodSymbol b s = .ok u) : s.Locks u := by
  simp only [demodSymbol, bind_eq_ok, getBundle_eq_ok, check_eq_ok, exists_and_left, exists_const] at h
  obtain ⟨x, _, _, h⟩ := h
  have h1 : ∀ y : SymbolData, s.Locks ((s.record (.demodSymbol (BitVec.ofNat 8 b) (BitVec.ofNat 16 x.l))).modBundle b
      (fun x => { x.accumulate y with work := y.llrs })) := fun y =>
    (record_locks _ _).trans (modBundle_locks _ _ _)
  split at h
  · obtain ⟨w, hw, h⟩ := bind_eq_ok.1 h
    exact ((h1 _).trans (descrambleOp_locks hw)).trans (demuxSymbol_locks h)
  · simp only [bind_eq_ok, getBundle_eq_ok] at h
    obtain ⟨v, hv, w, hw, z, _, h⟩ := h
    exact (((h1 _).trans (emit_locks hv)).trans (descrambleOp_locks hw)).trans (streamLoop_locks h)

/-! ### The sequencer -/

theorem poolEmptyResult_locks {tag : BitVec 8} {d : Descriptor} {s u : State} (h : poolEmptyResult tag d s = .ok u) :
    s.Locks u := by
  simp only [poolEmptyResult, bind_eq_ok, ok_eq_ok] at h
  obtain ⟨v, hv, w, hw, rfl⟩ := h
  exact ((emit_locks hv).trans (emit_locks hw)).trans (locks_of_eq rfl rfl)

theorem openPorts_locks {b t : Nat} {d : Descriptor} {s u : State} (h : openPorts b t d s = .ok u) : s.Locks u := by
  simp only [openPorts, bind_eq_ok] at h
  obtain ⟨v1, h1, v2, h2, v3, h3, v4, h4, h5⟩ := h
  exact ((((openPort_locks h1).trans (openPort_locks h2)).trans (openPort_locks h3)).trans (openPort_locks h4)).trans
    (openPort_locks h5)

theorem processPdu_locks {tag : BitVec 8} {s u : State} (h : processPdu tag s = .ok u) : s.Locks u := by
  simp only [processPdu, bind_eq_ok, checkAll_eq_ok, exists_and_left, exists_const] at h
  obtain ⟨_, h⟩ := h
  split at h
  · simp only [bind_eq_ok, getHarq_eq_ok, check_eq_ok, ok_eq_ok, exists_and_left, exists_const] at h
    obtain ⟨y, _, _, v, hv, w, hw, rfl⟩ := h
    refine State.Locks.trans (State.Locks.trans (State.Locks.trans ?_ (openPorts_locks hv)) (tbConfigure_locks hw))
      (modBundle_locks _ _ _)
    exact locks_of_eq (by simp) (by simp)
  · exact (record_locks _ _).trans (poolEmptyResult_locks h)

theorem seqEndOp_locks {b : Nat} {s u : State} (h : seqEndOp b s = .ok u) : s.Locks u := by
  simp only [seqEndOp, bind_eq_ok, getBundle_eq_ok, check_eq_ok, ok_eq_ok, exists_and_left, exists_const] at h
  obtain ⟨x, _, _, v, hv, w, hw, y, _, z, hz, rfl⟩ := h
  exact ((((record_locks _ _).trans (endStats_locks hv)).trans
    (issueClose_locks (fun _ _ => consumeCloseAll_locks) hw)).trans (emit_locks hz)).trans (modBundle_locks _ _ _)

/-- In an exclusive state no IDLE context owes its handle a disposition (R348). -/
theorem undisposed_false {s : State} (he : s.Exclusive) {t : Nat} : s.undisposed t = false := by
  unfold State.undisposed
  split
  · rfl
  · rename_i x hx
    by_cases hl : (s.harq[x.handle]?.map (fun h => h.hstate)) = some HState.locked
    · obtain ⟨v, hv⟩ := (he.lockedIff x.handle).1 hl
      unfold State.holds at hv
      split at hv
      · rename_i y hy
        split at hv
        · simp at hv
        · rename_i hi
          simp at hv
          have : s.tbs.any (fun y => decide (y.fsm ≠ .idle) && decide (y.handle = x.handle)) = true := by
            simp only [List.any_eq_true]
            exact ⟨y, List.mem_of_getElem? hy, by simp [hi, hv]⟩
          rw [this, Bool.not_true, Bool.and_false]
      · simp at hv
    · simp only [hl]; simp

end Sys2Proof.Machine
end

