-- ==== Sys2Proof/Laws/Numeric.lean ====
section
/-!
SUPPORT. The loops of Machine/Numeric.lean as the rules state them (spec/44_demod.md R383, spec/42_cb_decoder.md R285): without
the order of evaluation. And `sinrMean` is a function of the real mean alone (R393; log 5).
-/

namespace Sys2Proof.Machine

@[simp] theorem evalNat_eq {α : Type} (n : Nat) (k : Nat → α) : evalNat n k = k n := by cases n <;> rfl

@[simp] theorem evalBits_eq {α : Type} {w : Nat} (x : BitVec w) (k : BitVec w → α) : evalBits x k = k x := by
  simp [evalBits]

theorem goldAdvance_succ (n : Nat) (st : BitVec 31 × BitVec 31) :
    goldAdvance (n + 1) st = goldAdvance n (goldStep1 st.1, goldStep2 st.2) := by simp [goldAdvance]

theorem goldBits_succ (n : Nat) (st : BitVec 31 × BitVec 31) :
    goldBits (n + 1) st = (st.1.getLsbD 0 ^^ st.2.getLsbD 0) :: goldBits n (goldStep1 st.1, goldStep2 st.2) := by
  simp [goldBits]

theorem crcRem_eq (k : CrcKind) (s : List Bool) : crcRem k s = s.foldl (crcStep k) 0 := by
  have h : ∀ (s : List Bool) (reg : Nat), crcFrom k s reg = s.foldl (crcStep k) reg := by
    intro s
    induction s with
    | nil => intro reg; rfl
    | cons b s ih => intro reg; simp [crcFrom, ih]
  exact h s 0

/-! ### The SINR of a mean of real numbers (R393; log 5) -/

/-- A comparison of natural numbers is one of the real numbers they are. -/
theorem compares_natCast (m n : Nat) : (compare m n).Compares (m : ℝ) (n : ℝ) := by
  rcases lt_trichotomy m n with h | h | h
  · rw [compare_lt_iff_lt.2 h]; exact Nat.cast_lt.2 h
  · rw [compare_eq_iff_eq.2 h]; exact congrArg _ h
  · rw [compare_gt_iff_gt.2 h]; exact Nat.cast_lt.2 h

/-- Two comparisons of the same numbers agree. -/
theorem compares_unique {o p : Ordering} {a b : ℝ} (h : o.Compares a b) (g : p.Compares a b) : o = p := by
  cases o <;> cases p <;> simp only [Ordering.Compares] at h g <;> first | rfl | (exfalso; linarith)

/-- A comparison carried back over a strictly monotone function. -/
theorem compares_of_strictMonoOn {f : ℝ → ℝ} {t : Set ℝ} (hf : StrictMonoOn f t) {a b : ℝ} (ha : a ∈ t) (hb : b ∈ t)
    {o : Ordering} (h : o.Compares (f a) (f b)) : o.Compares a b := by
  cases o
  · exact (hf.lt_iff_lt ha hb).1 h
  · exact hf.injOn ha hb h
  · exact (hf.lt_iff_lt hb ha).1 h

/-- `comparePower` compares the rational with the power `10^(k / e)`. -/
theorem comparePower_compares {e : Nat} (he : e ≠ 0) {v : Rat} (hv : 0 < v) (k : Int) :
    (comparePower e v k).Compares (v : ℝ) ((10 : ℝ) ^ ((k : ℝ) / (e : ℝ))) := by
  have hn : (v.num.toNat : ℝ) = (v : ℝ) * v.den := by
    have h0 : 0 ≤ v.num := (Rat.num_pos.2 hv).le
    have h1 : ((v.num.toNat : ℤ) : ℝ) = (v.num : ℝ) := by rw [Int.toNat_of_nonneg h0]
    have h2 : (v : ℝ) * v.den = v.num := by exact_mod_cast Rat.mul_den_eq_num v
    rw [h2, ← h1, Int.cast_natCast]
  have hd : (0 : ℝ) < (v.den : ℝ) ^ e := pow_pos (Nat.cast_pos.2 v.den_pos) e
  have hp : (0 : ℝ) < (10 : ℝ) ^ ((k : ℝ) / (e : ℝ)) := Real.rpow_pos_of_pos (by norm_num) _
  have hpe : ((10 : ℝ) ^ ((k : ℝ) / (e : ℝ))) ^ e = (10 : ℝ) ^ k := by
    rw [← Real.rpow_natCast, ← Real.rpow_mul (by norm_num), div_mul_cancel₀ _ (Nat.cast_ne_zero.2 he), Real.rpow_intCast]
  have hm : StrictMonoOn (fun x : ℝ => x ^ e * (v.den : ℝ) ^ e) (Set.Ici 0) := fun a ha b _ h =>
    mul_lt_mul_of_pos_right (pow_lt_pow_left₀ h ha he) hd
  refine compares_of_strictMonoOn hm (Set.mem_Ici.2 (by exact_mod_cast hv.le)) hp.le ?_
  simp only [hpe]
  rw [← mul_pow, ← hn]
  cases k with
  | ofNat k => simpa [comparePower] using compares_natCast (v.num.toNat ^ e) (10 ^ k * v.den ^ e)
  | negSucc k =>
    have h := compares_natCast (10 ^ (k + 1) * v.num.toNat ^ e) (v.den ^ e)
    have ht : (0 : ℝ) < 10 ^ (k + 1) := by positivity
    have hm : StrictMonoOn (fun x : ℝ => (10 : ℝ) ^ (k + 1) * x) Set.univ := fun a _ b _ h => mul_lt_mul_of_pos_left h ht
    refine compares_of_strictMonoOn hm trivial trivial ?_
    rw [zpow_negSucc, ← mul_assoc, mul_inv_cancel₀ ht.ne', one_mul]
    simpa [comparePower] using h

/-- The comparisons of a number at or below 0 give +∞. -/
theorem sinrWord_lt {c : Int → Ordering} (h : ∀ k, c k = .lt) : sinrWord c = 0x7F800000#32 := by
  have : c = fun _ => .lt := funext h
  subst this
  have h1 : ∀ n, roundsAbove (fun k => ((fun _ : Int => Ordering.lt) (-(k : Int))).swap) n = true := fun n => by simp [roundsAbove]
  have h2 : ∀ i acc, roundSearch (fun k => ((fun _ : Int => Ordering.lt) (-(k : Int))).swap) i acc =
      Nat.rec (motive := fun _ => Nat → Nat) (fun a => a) (fun i r a => if a + 2 ^ i ≤ 0x7F800000 then r (a + 2 ^ i) else r a) i acc := by
    intro i
    induction i with
    | zero => intro acc; rfl
    | succ i ih => intro acc; simp only [roundSearch, h1, and_true, ih]
  simp only [sinrWord]
  rw [if_neg (by decide), h2]
  decide

/-- `sinrDb` of a rational is what its comparisons give. -/
theorem sinrDb_exact {v : Rat} {c : Int → Ordering}
    (h : ∀ k, (c k).Compares (v : ℝ) ((10 : ℝ) ^ ((k : ℝ) / ((10 * 2 ^ 150 : Nat) : ℝ)))) : sinrDb v = sinrWord c := by
  unfold sinrDb
  split
  · rename_i hv
    rw [sinrWord_lt fun k => compares_unique (h k) ?_]
    have : (v : ℝ) ≤ 0 := by exact_mod_cast hv
    exact lt_of_le_of_lt this (Real.rpow_pos_of_pos (by norm_num) _)
  · rename_i hv
    congr 1
    funext k
    exact compares_unique (comparePower_compares (by positivity) (not_le.1 hv) k) (h k)

/-- R393: there are positive numbers for the codes to stand for, such that `sinrMean` is, of every sum and count, what the
comparisons of the real mean give, and so a function of that mean alone. -/
theorem sinrMean_exact : ∃ value : Nat → ℝ, (∀ c, 0 < value c) ∧ ∀ (sum : ExactReal) (n : Nat) (c : Int → Ordering),
    (∀ k, (c k).Compares (((sum.rational : ℝ) + (sum.coded.map value).sum) / n)
      ((10 : ℝ) ^ ((k : ℝ) / ((10 * 2 ^ 150 : Nat) : ℝ)))) → sinrMean sum n = sinrWord c := by
  cases hr : Config.codedReals with
  | none =>
    refine ⟨fun _ => 1, fun _ => one_pos, fun sum n c h => ?_⟩
    have e : sinrMean sum n = sinrDb ((sum.rational + sum.coded.length) / n) := by
      unfold sinrMean
      split
      · rename_i h0; rw [h0]; simp
      · rw [hr]
    rw [e]
    refine sinrDb_exact fun k => ?_
    simpa using h k
  | some r =>
    refine ⟨r.value, r.positive, fun sum n c h => ?_⟩
    unfold sinrMean
    split
    · rename_i h0
      refine sinrDb_exact fun k => ?_
      simpa [h0] using h k
    · rw [hr]
      simp only []
      congr 1
      funext k
      exact compares_unique (r.exact sum n k) (h k)
end Sys2Proof.Machine
end

