-- ==== Sys2Proof/Laws/PerInstr.lean ====
section
/-!
SUPPORT. One fact for every operation: its encoding is as long as its header says (spec/30_encoding.md R155), so an agent
that reads words one after the other finds where the next operation begins.
-/

namespace Sys2Proof.Laws.EncodedLength

/-- The header of a well-formed operation tells how many words follow it (R155). -/
def Statement (i : Instr) : Prop :=
  i.wellFormed = true → (encode i).length = 1 + wordsAfterHeader ((encode i).headD 0#32)

theorem processPdu (tag : BitVec 8) :
    Statement (.processPdu tag) := by intro; simp [encode, wordsAfterHeader]

theorem configureCsiPart2 (tag : BitVec 8) (bits : BitVec 11) (g2 gu : BitVec 24) :
    Statement (.configureCsiPart2 tag bits g2 gu) := by intro; simp [encode, wordsAfterHeader]

theorem csi2None (tag : BitVec 8) :
    Statement (.csi2None tag) := by intro; simp [encode, wordsAfterHeader]

theorem harqFree (h : BitVec 8) :
    Statement (.harqFree h) := by intro; simp [encode, wordsAfterHeader]

theorem nop (hint : BitVec 24) :
    Statement (.nop hint) := by
  intro
  have h1 : Word.opc (0x0F#8 ++ hint) = 0x0F#8 := (extract_append_high 0x0F#8 hint 24 8 (by omega)).trans (extract_all _)
  simp [encode, wordsAfterHeader, h1]

theorem reserveView (port : BitVec 4) (n : BitVec 19) (owner : BitVec 8) :
    Statement (.reserveView port n owner) := by intro; simp [encode, wordsAfterHeader]

theorem publishInPlace (port : BitVec 4) (n : BitVec 19) (owner : BitVec 8) :
    Statement (.publishInPlace port n owner) := by intro; simp [encode, wordsAfterHeader]

theorem publishCopy (port : BitVec 4) (owner : BitVec 8) (data : List (BitVec 8)) :
    Statement (.publishCopy port owner data) := by
  intro hw
  have hd : data.length < 2 ^ 19 := by simpa [Instr.wellFormed] using hw
  have e : data.length % 524288 = data.length := Nat.mod_eq_of_lt hd
  simp [encode, wordsAfterHeader, packLlrs_length, e]
  omega

theorem close (port : BitVec 4) (owner : BitVec 8) :
    Statement (.close port owner) := by intro; simp [encode, wordsAfterHeader]

theorem cbDecode (u : BitVec 8) (k : BitVec 16) :
    Statement (.cbDecode u k) := by intro; simp [encode, wordsAfterHeader]

theorem cbRateDematch (u : BitVec 8) (k : BitVec 16) :
    Statement (.cbRateDematch u k) := by intro; simp [encode, wordsAfterHeader]

theorem chest (u : BitVec 8) :
    Statement (.chest u) := by intro; simp [encode, wordsAfterHeader]

theorem demodSymbol (u : BitVec 8) (k : BitVec 16) :
    Statement (.demodSymbol u k) := by intro; simp [encode, wordsAfterHeader]

theorem descramble (u : BitVec 8) (k : BitVec 16) :
    Statement (.descramble u k) := by intro; simp [encode, wordsAfterHeader]

theorem endStats (u : BitVec 8) :
    Statement (.endStats u) := by intro; simp [encode, wordsAfterHeader]

theorem demuxSymbol (u : BitVec 8) (k : BitVec 16) :
    Statement (.demuxSymbol u k) := by intro; simp [encode, wordsAfterHeader]

theorem demuxFlush (u : BitVec 8) :
    Statement (.demuxFlush u) := by intro; simp [encode, wordsAfterHeader]

theorem uciDecode (b : BitVec 8) (f : UciField) :
    Statement (.uciDecode b f) := by intro; simp [encode, wordsAfterHeader]

theorem tbConfigure (u : BitVec 8) :
    Statement (.tbConfigure u) := by intro; simp [encode, wordsAfterHeader]

theorem setNofSoftbits (u : BitVec 8) :
    Statement (.setNofSoftbits u) := by intro; simp [encode, wordsAfterHeader]

theorem closeDispatch (u : BitVec 8) :
    Statement (.closeDispatch u) := by intro; simp [encode, wordsAfterHeader]

theorem closeCommit (u : BitVec 8) :
    Statement (.closeCommit u) := by intro; simp [encode, wordsAfterHeader]

theorem cbComplete (u : BitVec 8) (k : BitVec 16) :
    Statement (.cbComplete u k) := by intro; simp [encode, wordsAfterHeader]

theorem tbJoin (u : BitVec 8) :
    Statement (.tbJoin u) := by intro; simp [encode, wordsAfterHeader]

theorem seqEnd (u : BitVec 8) :
    Statement (.seqEnd u) := by intro; simp [encode, wordsAfterHeader]

theorem demuxResume (u : BitVec 8) (k : BitVec 16) :
    Statement (.demuxResume u k) := by intro; simp [encode, wordsAfterHeader]

end Sys2Proof.Laws.EncodedLength
end

