-- ==== Sys2Proof/Laws/Progress.lean ====
section
/-!
SUPPORT. Every queued task runs (spec/70_reset_and_hazards.md R526): what a step does to the task queue, and that under a fair
scheduler an engine that stays enabled for as long as a task waits leaves no task waiting for ever.
-/

namespace Sys2Proof.Machine

/-! ### Operations leave the queue's head alone -/

/-- The task queue has the same head, no task has passed it, and tasks have only been appended. -/
def State.QueueGrows (s t : State) : Prop := t.taskHead = s.taskHead ∧ ∃ ws, t.taskq = s.taskq ++ ws

theorem State.QueueGrows.of_eq {s t : State} (h : t.taskHead = s.taskHead) (k : t.taskq = s.taskq) : s.QueueGrows t :=
  ⟨h, [], by simp [k]⟩

theorem State.Keeps.queueGrows {s t : State} (k : s.Keeps t) : s.QueueGrows t := ⟨k.taskHead, k.taskqGrows⟩

/-- Every operation has one effect, which keeps what Laws/Keeps.lean lists. -/
theorem exec_eq_runOp (i : Instr) :
    ∃ (tag : BitVec 8) (op : Op), (∀ s, exec i s = runOp i tag op s) ∧ ∀ s t, op s = .ok t → s.Keeps t := by
  cases i with
  | processPdu tag => exact ⟨_, _, fun s => rfl, fun s t h => processPdu_keeps h⟩
  | configureCsiPart2 tag bits g2 gu => exact ⟨_, _, fun s => rfl, fun s t h => configureCsiPart2_keeps h⟩
  | csi2None tag => exact ⟨_, _, fun s => rfl, fun s t h => csi2None_keeps h⟩
  | harqFree h => exact ⟨_, _, fun s => rfl, fun s t h => harqFree_keeps h⟩
  | nop hint =>
    exact ⟨0#8, fun s => .ok (s.record (.nop hint)), fun s => rfl, fun s t h => by cases h; exact record_keeps _ _⟩
  | reserveView p n o =>
    refine ⟨_, _, fun s => rfl, fun s t h => ?_⟩
    simp only [bind_eq_ok, ok_eq_ok] at h
    obtain ⟨r, _, v, h, rfl⟩ := h
    exact issueReserve_keeps h
  | publishInPlace p n o =>
    refine ⟨_, _, fun s => rfl, fun s t h => ?_⟩
    simp only [bind_eq_ok] at h
    obtain ⟨r, _, h⟩ := h
    exact issuePublishInPlace_keeps h
  | publishCopy p o d =>
    refine ⟨_, _, fun s => rfl, fun s t h => ?_⟩
    simp only [bind_eq_ok] at h
    obtain ⟨r, _, h⟩ := h
    exact (record_keeps _ _).trans (publishCopyWith_keeps (fun s t h => consumePublish_keeps h) h)
  | close p o =>
    refine ⟨_, _, fun s => rfl, fun s t h => ?_⟩
    simp only [bind_eq_ok] at h
    obtain ⟨r, _, h⟩ := h
    exact issueClose_keeps (fun s t h => consumeCloseAll_keeps h) h
  | cbDecode t r => exact ⟨_, _, fun s => rfl, fun s t h => cbDecode_keeps h⟩
  | cbRateDematch t r => exact ⟨_, _, fun s => rfl, fun s t h => cbRateDematch_keeps h⟩
  | chest b => exact ⟨_, _, fun s => rfl, fun s t h => chestOp_keeps h⟩
  | demodSymbol b l =>
    refine ⟨_, _, fun s => rfl, fun s t h => ?_⟩
    simp only [bind_eq_ok] at h
    obtain ⟨x, _, _, _, _, _, h⟩ := h
    exact demodSymbol_keeps h
  | descramble b n =>
    refine ⟨_, _, fun s => rfl, fun s t h => ?_⟩
    simp only [bind_eq_ok] at h
    obtain ⟨x, _, _, _, h⟩ := h
    exact descrambleOp_keeps h
  | endStats b => exact ⟨_, _, fun s => rfl, fun s t h => endStats_keeps h⟩
  | demuxSymbol b l =>
    refine ⟨_, _, fun s => rfl, fun s t h => ?_⟩
    simp only [bind_eq_ok] at h
    obtain ⟨x, _, _, _, h⟩ := h
    exact demuxSymbol_keeps h
  | demuxFlush b => exact ⟨_, _, fun s => rfl, fun s t h => demuxFlush_keeps h⟩
  | uciDecode b f => exact ⟨_, _, fun s => rfl, fun s t h => uciDecode_keeps h⟩
  | tbConfigure t =>
    refine ⟨_, _, fun s => rfl, fun s t h => ?_⟩
    simp only [bind_eq_ok] at h
    obtain ⟨x, _, h⟩ := h
    exact tbConfigure_keeps h
  | setNofSoftbits t => exact ⟨_, _, fun s => rfl, fun s t h => setNofSoftbits_keeps h⟩
  | closeDispatch t => exact ⟨_, _, fun s => rfl, fun s t h => closeDispatch_keeps h⟩
  | closeCommit t => exact ⟨_, _, fun s => rfl, fun s t h => closeCommit_keeps h⟩
  | cbComplete t r => exact ⟨_, _, fun s => rfl, fun s t h => cbComplete_keeps h⟩
  | tbJoin t => exact ⟨_, _, fun s => rfl, fun s t h => tbJoin_keeps h⟩
  | seqEnd b => exact ⟨_, _, fun s => rfl, fun s t h => seqEndOp_keeps h⟩
  | demuxResume b l =>
    refine ⟨_, _, fun s => rfl, fun s t h => ?_⟩
    simp only [bind_eq_ok] at h
    obtain ⟨x, _, _, _, _, _, h⟩ := h
    exact demuxResume_keeps h

theorem takeStop_queue {ws : List Word} {tag : BitVec 8} {e : Stop} {s t : State} (h : s.takeStop ws tag e = .next t) :
    s.QueueGrows t := by
  rcases takeStop_next h with rfl | ⟨c, rfl⟩ | ⟨c, d, _, rfl⟩ <;> exact .of_eq rfl rfl

theorem exec_queue {i : Instr} {s t : State} (h : exec i s = .next t) : s.QueueGrows t := by
  obtain ⟨tag, op, he, hk⟩ := exec_eq_runOp i
  rw [he] at h
  rcases runOp_next h with ⟨_, rfl⟩ | ⟨_, ho⟩ | ⟨_, e, _, ht⟩
  · exact .of_eq rfl rfl
  · exact (hk s t ho).queueGrows
  · exact takeStop_queue ht

/-- A removal is undone where the step holds, and stands where it does not. -/
theorem settle_next {s t : State} {o : Host.Outcome State Fault Refusal} (h : settle s o = .next t) :
    t = s.hold ∨ (t.held = false ∧ o = .next t) := by
  unfold settle at h
  split at h
  · split at h
    · left; cases h; rfl
    · right; cases h; simp_all
  · simp at h
  · simp at h

/-! ### What each turn does to the queue -/

/-- A task that an engine runs leaves the queue, with the head as given. -/
theorem runTask_next {e i : Nat} {head : QueueHead} {s t : State} (hs : s.held = false) (h : runTask e i head s = .next t) :
    t = s.hold ∨
      (t.held = false ∧ t.taskHead = head ∧ i < s.taskq.length ∧ ∃ ws, t.taskq = s.taskq.eraseIdx i ++ ws) := by
  unfold runTask at h
  split at h
  · left; cases h; rfl
  · split at h
    · left; cases h; rfl
    · rename_i w hw
      have hi : i < s.taskq.length := (List.getElem?_eq_some_iff.1 hw).1
      split at h
      · rcases settle_next h with rfl | ⟨hh, he⟩
        · left; rfl
        · right
          obtain ⟨h1, ws, h2⟩ := exec_queue he
          exact ⟨hh, h1, hi, ws, h2⟩
      · right
        cases h
        exact ⟨hs, rfl, hi, [], by simp [State.enterFatal, State.log]⟩

theorem stepHost_queue {op : HostOp} {s t : State} (h : stepHost op s = .next t) : s.QueueGrows t := by
  cases op with
  | csrRead width off =>
    simp only [stepHost] at h
    split at h
    · cases h
      unfold State.csrRead State.popEvent State.notePop
      split
      · split
        · exact .of_eq rfl rfl
        · split <;> exact .of_eq rfl rfl
      · exact .of_eq rfl rfl
    · cases h
  | csrWrite width off v =>
    simp only [stepHost] at h
    split at h
    · cases h
      unfold State.csrWrite State.pushCommand
      split
      · exact .of_eq rfl rfl
      · exact .of_eq rfl rfl
      · split
        · exact .of_eq rfl rfl
        · split <;> exact .of_eq rfl rfl
      · exact .of_eq rfl rfl
      · exact .of_eq rfl rfl
    · cases h
  | dmemRead a => cases h; unfold State.dmemRead; split <;> exact .of_eq rfl rfl
  | dmemWrite a v => cases h; unfold State.dmemWrite; split <;> exact .of_eq rfl rfl

theorem stepCmdu_queue {s t : State} (h : stepCmdu s = .next t) : s.QueueGrows t := by
  have cut : ∀ (l : List Word) {u : State}, ({ s with cmdq := l } : State).QueueGrows u → s.QueueGrows u := fun _ _ k => k
  unfold stepCmdu at h
  split at h
  · cases h; exact .of_eq rfl rfl
  · split at h
    · cases h; exact .of_eq rfl rfl
    · split at h
      · rcases settle_next h with rfl | ⟨_, h⟩
        · exact .of_eq rfl rfl
        · exact cut _ (exec_queue h)
      · rcases settle_next h with rfl | ⟨_, h⟩
        · exact .of_eq rfl rfl
        · exact cut _ (takeStop_queue h)
      · rcases settle_next h with rfl | ⟨_, h⟩
        · exact .of_eq rfl rfl
        · exact cut _ (takeStop_queue h)
      · cases h; exact .of_eq rfl rfl
      · cases h; exact .of_eq rfl rfl

theorem stepSeq_queue {b : Nat} {s t : State} (h : stepSeq b s = .next t) : s.QueueGrows t := by
  unfold stepSeq at h
  split at h
  · cases h; exact .of_eq rfl rfl
  · split at h
    · cases h; exact .of_eq rfl rfl
    · cases h; exact .of_eq rfl rfl
    · exact exec_queue h
    · exact exec_queue h
    · exact exec_queue h
    · exact exec_queue h
    · unfold commitStep at h
      split at h
      · rename_i u hu
        have hq := exec_queue hu
        split at h
        · cases h; exact hq
        · cases h; exact hq
      · cases h
      · cases h

/-- The turns that take no task from the queue. -/
def Turn.leavesTasks : Turn → Prop
  | .agent (.cbe _) => False
  | .agent (.cbeAhead _ _) => False
  | .agent .resetInput => False
  | .agent (.host _) => True
  | .agent .cmdu => True
  | .agent (.seq _) => True
  | .issue _ => True

theorem runTurn_queue {u : Turn} {s t : State} (hu : u.leavesTasks) (h : runTurn u s = .next t) : s.QueueGrows t := by
  cases u with
  | agent a =>
    cases a with
    | host op => exact stepHost_queue h
    | cmdu => exact stepCmdu_queue h
    | seq b => exact stepSeq_queue h
    | cbe e => exact hu.elim
    | cbeAhead e i => exact hu.elim
    | resetInput => exact hu.elim
  | issue ws =>
    simp only [runTurn, stepIssue] at h
    split at h
    · exact exec_queue h
    · cases h
    · cases h

theorem State.takeTurn_queue (s : State) :
    s.takeTurn.2.held = false ∧ s.takeTurn.2.taskHead = s.taskHead ∧ s.takeTurn.2.taskq = s.taskq := by
  unfold State.takeTurn; split <;> exact ⟨rfl, rfl, rfl⟩

/-- Everything a step can do to the task queue: append to it; run the task at its head; run a later one, as often as the head
allows; or, in a reset, empty it. -/
theorem step_queue {s t : State} (h : step s = .next t) :
    (s.QueueGrows t ∧ (∀ j, s.place t j = some j) ∧ ∀ e, ¬ s.takes t (.cbe e)) ∨
    (t.taskHead = s.taskHead.next ∧ (∃ ws, t.taskq = s.taskq.eraseIdx 0 ++ ws) ∧
      ∀ j, s.place t j = if j = 0 then none else some (j - 1)) ∨
    (∃ i, s.taskHead.passed < Config.taskPasses s.taskHead.number ∧ t.taskHead = s.taskHead.pass ∧
      (∃ ws, t.taskq = s.taskq.eraseIdx i ++ ws) ∧
      ∀ j, s.place t j = if j = i then none else if j < i then some j else some (j - 1)) ∨
    (t.taskHead = s.taskHead.next ∧ ∀ j, s.place t j = none) := by
  obtain ⟨h1, h2, h3⟩ := s.takeTurn_queue
  have hold : t = s.takeTurn.2.hold →
      (s.QueueGrows t ∧ (∀ j, s.place t j = some j) ∧ ∀ e, ¬ s.takes t (.cbe e)) := by
    rintro rfl
    refine ⟨.of_eq h2 h3, fun j => by simp [State.place, State.hold], fun e => ?_⟩
    rintro ⟨a, -, -, hh⟩
    simp [State.hold] at hh
  have grows : ∀ u : Turn, s.takeTurn.1 = u → u.leavesTasks →
      (s.QueueGrows t ∧ (∀ j, s.place t j = some j) ∧ ∀ e, ¬ s.takes t (.cbe e)) := by
    intro u hu hl
    have hq := runTurn_queue (u := s.takeTurn.1) (by rw [hu]; exact hl) h
    refine ⟨⟨hq.1.trans h2, by simpa only [h3] using hq.2⟩, fun j => ?_, ?_⟩
    · unfold State.place
      rw [hu]
      split
      · rfl
      · cases u with
        | agent a => cases a <;> first | rfl | exact hl.elim
        | issue ws => rfl
    · rintro e ⟨a, ha, hx, -⟩
      rw [hu] at ha
      subst ha
      cases a <;> first | exact hl.elim | simp [Agent.actor] at hx
  cases hu : s.takeTurn.1 with
  | issue ws => exact .inl (grows _ hu trivial)
  | agent a =>
    have hr : runAgent a s.takeTurn.2 = .next t := by simpa only [step, stepTurn, hu, runTurn] using h
    cases a with
    | host op => exact .inl (grows _ hu trivial)
    | cmdu => exact .inl (grows _ hu trivial)
    | seq b => exact .inl (grows _ hu trivial)
    | resetInput =>
      right; right; right
      cases hr
      exact ⟨by simp [State.applyReset, h2], fun j => by simp [State.place, hu, State.applyReset, State.resetOf]⟩
    | cbe e =>
      rcases runTask_next h1 hr with ht | ⟨hh, ht, -, hw⟩
      · exact .inl (hold ht)
      · right; left
        exact ⟨by rw [ht, h2], by simpa only [h3] using hw, fun j => by simp [State.place, hh, hu]⟩
    | cbeAhead e i =>
      simp only [runAgent, stepCbeAhead] at hr
      split at hr
      · rename_i hp
        rw [h2] at hp
        rcases runTask_next h1 hr with ht | ⟨hh, ht, -, hw⟩
        · exact .inl (hold ht)
        · right; right; left
          exact ⟨i, hp.2, by rw [ht, h2], by simpa only [h3] using hw, fun j => by simp [State.place, hh, hu]⟩
      · cases hr; exact .inl (hold rfl)

/-! ### Progress -/

/-- The task that `State.place` follows is the same task. -/
theorem place_task {s t : State} {j k : Nat} (h : step s = .next t) (hj : j < s.taskq.length) (hp : s.place t j = some k) :
    t.taskq[k]? = s.taskq[j]? := by
  rcases step_queue h with ⟨⟨-, ws, hw⟩, hq, -⟩ | ⟨-, ⟨ws, hw⟩, hq⟩ | ⟨i, -, -, ⟨ws, hw⟩, hq⟩ | ⟨-, hq⟩ <;> rw [hq] at hp
  · cases hp; rw [hw, List.getElem?_append_left hj]
  · split at hp <;> cases hp
    rw [hw, List.getElem?_append_left (by rw [List.length_eraseIdx]; split <;> omega), List.getElem?_eraseIdx]
    simp; congr 1; omega
  · split at hp
    · cases hp
    · split at hp <;> cases hp
      · rw [hw, List.getElem?_append_left (by rw [List.length_eraseIdx]; split <;> omega), List.getElem?_eraseIdx]
        simp [*]
      · rw [hw, List.getElem?_append_left (by rw [List.length_eraseIdx]; split <;> omega), List.getElem?_eraseIdx,
          if_neg (by omega)]
        congr 1; omega
  · cases hp

/-- The task that `waitsAt` follows is the same task. -/
theorem waitsAt_task {r : Nat → State} {n j : Nat} (h : ∀ n, step (r n) = .next (r (n + 1))) (hj : j < (r n).taskq.length) :
    ∀ m k, waitsAt r n j m = some k → (r (n + m)).taskq[k]? = (r n).taskq[j]? := by
  intro m
  induction m with
  | zero => rintro k ⟨⟩; rfl
  | succ m ih =>
    intro k hk
    obtain ⟨a, ha, hb⟩ := Option.bind_eq_some_iff.1 hk
    have hl : (r (n + m)).taskq[a]? = some (r n).taskq[j] := by rw [ih a ha, List.getElem?_eq_getElem hj]
    exact (place_task (h _) (List.getElem?_eq_some_iff.1 hl).1 hb).trans (ih a ha)

/-- A waiting task moves up by one place at least whenever the queue gets its next head. -/
theorem place_le {s t : State} {j k : Nat} (h : step s = .next t) (hp : s.place t j = some k) :
    k + t.taskHead.number ≤ j + s.taskHead.number ∧ s.taskHead.number ≤ t.taskHead.number := by
  rcases step_queue h with ⟨⟨hq, -⟩, hk, -⟩ | ⟨hq, -, hk⟩ | ⟨i, -, hq, -, hk⟩ | ⟨-, hk⟩ <;> rw [hk] at hp
  · cases hp; simp [hq]
  · split at hp <;> cases hp
    simp only [hq, QueueHead.next]; omega
  · split at hp
    · cases hp
    · split at hp <;> cases hp <;> simp only [hq, QueueHead.pass] <;> omega
  · cases hp

/-- A step that leaves the head in its place passes it only where an engine takes the step, and then not more often than the head
allows. -/
theorem passed_le {s t : State} (h : step s = .next t) (hn : t.taskHead.number = s.taskHead.number) :
    s.taskHead.passed ≤ t.taskHead.passed ∧
    ∀ e, s.takes t (.cbe e) →
      s.taskHead.passed < t.taskHead.passed ∧ t.taskHead.passed ≤ Config.taskPasses s.taskHead.number := by
  rcases step_queue h with ⟨⟨hq, -⟩, -, hk⟩ | ⟨hq, -, -⟩ | ⟨i, hb, hq, -, -⟩ | ⟨hq, -⟩
  · exact ⟨by rw [hq], fun e he => (hk e he).elim⟩
  · simp [hq, QueueHead.next] at hn
  · rw [hq]
    exact ⟨Nat.le_succ _, fun _ _ => ⟨Nat.lt_succ_self _, hb⟩⟩
  · simp [hq, QueueHead.next] at hn

/-- The head of the queue does not stay for ever where an engine stays enabled. -/
theorem head_changes {r : Nat → State} {e : Nat} (h : FairRun r) (n : Nat) (he : ∀ m, n ≤ m → (r m).enabled (.cbe e)) :
    ∃ m, n ≤ m ∧ (r m).taskHead.number ≠ (r n).taskHead.number := by
  by_contra hc
  have hn : ∀ m, n ≤ m → (r m).taskHead.number = (r n).taskHead.number := fun m hm => by
    by_contra hne; exact hc ⟨m, hm, hne⟩
  have mono : ∀ d m, n ≤ m → (r m).taskHead.passed ≤ (r (m + d)).taskHead.passed := by
    intro d
    induction d with
    | zero => intro m _; exact Nat.le_refl _
    | succ d ih =>
      intro m hm
      have := (passed_le (h.steps (m + d)) (by rw [hn (m + d + 1) (by omega), hn (m + d) (by omega)])).1
      exact Nat.le_trans (ih m hm) this
  have grow : ∀ k, ∃ m, n ≤ m ∧ k ≤ (r m).taskHead.passed ∧
      (0 < k → (r m).taskHead.passed ≤ Config.taskPasses (r n).taskHead.number) := by
    intro k
    induction k with
    | zero => exact ⟨n, Nat.le_refl _, Nat.zero_le _, fun h => absurd h (by omega)⟩
    | succ k ih =>
      obtain ⟨m, hm, hk, -⟩ := ih
      obtain ⟨m', hm', ht⟩ := h.fair (.cbe e) m (fun a ha => he a (by omega))
      obtain ⟨h1, h2⟩ := (passed_le (h.steps m') (by rw [hn (m' + 1) (by omega), hn m' (by omega)])).2 e ht
      have h3 := mono (m' - m) m hm
      rw [show m + (m' - m) = m' by omega] at h3
      refine ⟨m' + 1, by omega, by omega, fun _ => ?_⟩
      rwa [hn m' (by omega)] at h2
  obtain ⟨m, -, h1, h2⟩ := grow (Config.taskPasses (r n).taskHead.number + 1)
  have := h2 (Nat.succ_pos _)
  omega

/-- R526: every queued task runs. In a run under a fair scheduler in which an engine stays enabled for as long as the task at
place `j` of step `n`'s queue waits, the task leaves the queue after finitely many steps. -/
theorem every_queued_task_runs {r : Nat → State} {n j e : Nat} (h : FairRun r)
    (he : ∀ m, waitsAt r n j m ≠ none → (r (n + m)).enabled (.cbe e)) : ∃ m, waitsAt r n j m = none := by
  by_contra hc
  have hw : ∀ m, waitsAt r n j m ≠ none := fun m hm => hc ⟨m, hm⟩
  have en : ∀ m, n ≤ m → (r m).enabled (.cbe e) := fun m hm => by
    have := he (m - n) (hw _)
    rwa [show n + (m - n) = m by omega] at this
  have up : ∀ m, n ≤ m → ∃ j k, (r m).place (r (m + 1)) j = some k := fun m hm => by
    obtain ⟨k, hk⟩ := Option.ne_none_iff_exists'.1 (hw (m - n + 1))
    rw [waitsAt, show n + (m - n) = m by omega] at hk
    obtain ⟨a, -, ha⟩ := Option.bind_eq_some_iff.1 hk
    exact ⟨a, k, ha⟩
  have mono : ∀ d m, n ≤ m → (r m).taskHead.number ≤ (r (m + d)).taskHead.number := by
    intro d
    induction d with
    | zero => intro m _; exact Nat.le_refl _
    | succ d ih =>
      intro m hm
      obtain ⟨a, k, hk⟩ := up (m + d) (by omega)
      exact Nat.le_trans (ih m hm) (place_le (h.steps _) hk).2
  have bound : ∀ m, ∃ k, waitsAt r n j m = some k ∧ k + (r (n + m)).taskHead.number ≤ j + (r n).taskHead.number := by
    intro m
    induction m with
    | zero => exact ⟨j, rfl, Nat.le_refl _⟩
    | succ m ih =>
      obtain ⟨a, ha, hb⟩ := ih
      obtain ⟨k, hk⟩ := Option.ne_none_iff_exists'.1 (hw (m + 1))
      refine ⟨k, hk, ?_⟩
      rw [waitsAt, ha] at hk
      exact Nat.le_trans (place_le (h.steps _) hk).1 hb
  have grow : ∀ k, ∃ m, n ≤ m ∧ (r n).taskHead.number + k ≤ (r m).taskHead.number := by
    intro k
    induction k with
    | zero => exact ⟨n, Nat.le_refl _, Nat.le_refl _⟩
    | succ k ih =>
      obtain ⟨m, hm, hk⟩ := ih
      obtain ⟨m', hm', hne⟩ := head_changes h m (fun a ha => en a (by omega))
      have := mono (m' - m) m hm
      rw [show m + (m' - m) = m' by omega] at this
      exact ⟨m', by omega, by omega⟩
  obtain ⟨m, hm, hk⟩ := grow (j + 1)
  obtain ⟨k, -, hb⟩ := bound (m - n)
  rw [show n + (m - n) = m by omega] at hb
  omega

end Sys2Proof.Machine
end

