-- ==== Sys2Proof/Laws/Quiet.lean ====
section
/-!
SUPPORT. Command errors come from host commands alone (spec/60_exceptions.md R462): no operation inside a step raises one, so
such an operation completes, holds, stops the block or is a model fault.
-/

namespace Sys2Proof.Machine

/-- The result is no command error. -/
def Quiet {α : Type} (r : Except Stop α) : Prop := ∀ c d, r ≠ .error (.cmdError c d)

theorem Quiet.ok {α : Type} (a : α) : Quiet (.ok a : Except Stop α) := by intro c d h; cases h

theorem Quiet.hold {α : Type} : Quiet (.error .hold : Except Stop α) := by intro c d h; cases h

theorem Quiet.fatal {α : Type} (e : FatalCode) : Quiet (.error (.fatal e) : Except Stop α) := by intro c d h; cases h

theorem Quiet.bind {α β : Type} {r : Except Stop α} {f : α → Except Stop β} (h : Quiet r) (k : ∀ a, Quiet (f a)) :
    Quiet (r >>= f) := by
  cases r with
  | ok a => exact k a
  | error e =>
    intro c d he
    cases he
    exact h c d rfl

theorem Quiet.check {p : Prop} [Decidable p] {e : Stop} (h : ∀ c d, e ≠ .cmdError c d) : Quiet (Machine.check p e) := by
  intro c d he
  unfold Machine.check at he
  split at he <;> cases he
  exact h c d rfl

theorem Quiet.need {α : Type} {o : Option α} {e : Stop} (h : ∀ c d, e ≠ .cmdError c d) : Quiet (Machine.need o e) := by
  intro c d he
  unfold Machine.need at he
  split at he <;> cases he
  exact h c d rfl

theorem Quiet.ite {α : Type} {p : Prop} [Decidable p] {a b : Except Stop α} (h : Quiet a) (k : Quiet b) :
    Quiet (if p then a else b) := by split <;> assumption

theorem getBundle_quiet (s : State) (b : Nat) : Quiet (s.getBundle b) := Quiet.need (by simp)

theorem getTb_quiet (s : State) (t : Nat) : Quiet (s.getTb t) := Quiet.need (by simp)

theorem getHarq_quiet (s : State) (h : Nat) : Quiet (s.getHarq h) := Quiet.need (by simp)

theorem getPort_quiet (s : State) (r : PortRef) : Quiet (s.getPort r) := Quiet.need (by simp)

theorem emit_quiet (ws : List Word) (s : State) : Quiet (emit ws s) := by
  unfold emit; split
  · exact Quiet.ok _
  · exact Quiet.hold

theorem assertDisposed_quiet (t : Nat) (s : State) : Quiet (assertDisposed t s) :=
  Quiet.bind (Quiet.check (by simp)) (fun _ => Quiet.ok _)

theorem tbJoin_quiet (t : Nat) (s : State) : Quiet (tbJoin t s) :=
  Quiet.bind (getTb_quiet _ _) fun _ => Quiet.bind (Quiet.check (by simp)) fun _ =>
    Quiet.bind (getHarq_quiet _ _) fun _ => Quiet.bind (Quiet.need (by simp)) fun _ =>
      Quiet.bind (Quiet.need (by simp)) fun _ => Quiet.bind (Quiet.check (by simp)) fun _ =>
        Quiet.bind (emit_quiet _ _) fun _ => assertDisposed_quiet _ _

theorem cbComplete_quiet (t r : Nat) (s : State) : Quiet (cbComplete t r s) := by
  refine Quiet.bind (getTb_quiet _ _) fun x => Quiet.bind (Quiet.check (by simp)) fun _ => ?_
  dsimp only
  split
  · exact Quiet.ok _
  · split
    · exact tbJoin_quiet _ _
    · exact Quiet.ok _
    · exact Quiet.fatal _
    · exact Quiet.fatal _

theorem taskContext_quiet (t r : Nat) (s : State) : Quiet (taskContext t r s) :=
  Quiet.bind (getTb_quiet _ _) fun _ => Quiet.bind (getHarq_quiet _ _) fun _ => Quiet.bind (Quiet.check (by simp)) fun _ =>
    Quiet.bind (Quiet.need (by simp)) fun _ => Quiet.ok _

theorem cbDecode_quiet (t r : Nat) (s : State) : Quiet (cbDecode t r s) :=
  Quiet.bind (taskContext_quiet _ _ _) fun _ => Quiet.bind (Quiet.need (by simp)) fun _ => cbComplete_quiet _ _ _

theorem cbRateDematch_quiet (t r : Nat) (s : State) : Quiet (cbRateDematch t r s) :=
  Quiet.bind (taskContext_quiet _ _ _) fun _ => Quiet.bind (Quiet.need (by simp)) fun _ => cbComplete_quiet _ _ _

theorem dispatchCb_quiet (t c r : Nat) (s : State) : Quiet (dispatchCb t c r s) :=
  Quiet.bind (getTb_quiet _ _) fun _ => Quiet.bind (getHarq_quiet _ _) fun _ => Quiet.bind (Quiet.need (by simp)) fun _ =>
    Quiet.ite (Quiet.ok _) (Quiet.ite (cbRateDematch_quiet _ _ _) (cbDecode_quiet _ _ _))

theorem dispatchAll_quiet (t c : Nat) (rs : List Nat) (s : State) : Quiet (dispatchAll t c rs s) := by
  induction rs generalizing s with
  | nil => exact Quiet.ok _
  | cons r rs ih => exact Quiet.bind (dispatchCb_quiet _ _ _ _) fun _ => ih _

theorem closeDispatch_quiet (t : Nat) (s : State) : Quiet (closeDispatch t s) :=
  Quiet.bind (getTb_quiet _ _) fun _ => Quiet.bind (Quiet.check (by simp)) fun _ => Quiet.bind (Quiet.check (by simp)) fun _ =>
    dispatchAll_quiet _ _ _ _

theorem closeCommit_quiet (t : Nat) (s : State) : Quiet (closeCommit t s) := by
  refine Quiet.bind (getTb_quiet _ _) fun x => ?_
  split
  · exact Quiet.ok _
  · exact tbJoin_quiet _ _
  · exact Quiet.fatal _
  · exact Quiet.fatal _

theorem uciDecode_quiet (b : Nat) (f : UciField) (s : State) : Quiet (uciDecode b f s) :=
  Quiet.bind (getBundle_quiet _ _) fun _ => Quiet.bind (Quiet.need (by simp)) fun _ => Quiet.ok _

theorem afterCsi1Close_quiet (b : Nat) (s : State) : Quiet (afterCsi1Close b s) :=
  Quiet.bind (getBundle_quiet _ _) fun _ => Quiet.ite (Quiet.ite (emit_quiet _ _) (Quiet.ok _)) (Quiet.ok _)

theorem consumeClose_quiet (r : PortRef) (s : State) : Quiet (consumeClose r s) := by
  unfold consumeClose
  split
  · exact Quiet.bind (uciDecode_quiet _ _ _) fun _ => afterCsi1Close_quiet _ _
  · exact uciDecode_quiet _ _ _
  · exact closeDispatch_quiet _ _
  · exact Quiet.fatal _

theorem consumeFlush_quiet (r : PortRef) (s : State) : Quiet (consumeFlush r s) := by
  unfold consumeFlush
  split
  · exact uciDecode_quiet _ _ _
  · exact closeDispatch_quiet _ _
  · exact Quiet.fatal _

theorem whenReal_quiet {p : Port} {op : Op} (s : State) (h : ∀ s, Quiet (op s)) : Quiet (whenReal p op s) :=
  Quiet.ite (Quiet.ok _) (h _)

theorem deliver_quiet {p : Port} {ls : List Llr} {op : Op} (s : State) (h : ∀ s, Quiet (op s)) : Quiet (deliver p ls op s) :=
  Quiet.ite (Quiet.ok _) (whenReal_quiet _ h)

theorem storeAtCount_quiet (r : PortRef) (ls : List Llr) (s : State) : Quiet (storeAtCount r ls s) :=
  Quiet.bind (getPort_quiet _ _) fun _ => Quiet.ok _

theorem publishCopyWith_quiet {consume : PortRef → List Llr → Op} (r : PortRef) (ls : List Llr) (s : State)
    (h : ∀ s, Quiet (consume r ls s)) : Quiet (publishCopyWith consume r ls s) :=
  Quiet.bind (getPort_quiet _ _) fun _ => Quiet.bind (Quiet.check (by simp)) fun _ => Quiet.bind (Quiet.check (by simp)) fun _ =>
    Quiet.bind (deliver_quiet _ h) fun _ => Quiet.ok _

theorem publishInPlaceWith_quiet {consume : PortRef → List Llr → Op} (r : PortRef) (n : Nat) (s : State)
    (h : ∀ ls s, Quiet (consume r ls s)) : Quiet (publishInPlaceWith consume r n s) :=
  Quiet.bind (getPort_quiet _ _) fun _ => Quiet.bind (Quiet.check (by simp)) fun _ => Quiet.bind (Quiet.check (by simp)) fun _ =>
    Quiet.bind (Quiet.need (by simp)) fun _ => Quiet.bind (deliver_quiet _ (h _)) fun _ => Quiet.ok _

theorem closeWith_quiet {consume : PortRef → Op} (r : PortRef) (s : State) (h : ∀ s, Quiet (consume r s)) :
    Quiet (closeWith consume r s) :=
  Quiet.bind (getPort_quiet _ _) fun _ => Quiet.bind (Quiet.check (by simp)) fun _ => whenReal_quiet _ h

theorem issuePublish_quiet (r : PortRef) (ls : List Llr) (s : State) : Quiet (issuePublish r ls s) :=
  publishCopyWith_quiet _ _ _ fun _ => storeAtCount_quiet _ _ _

theorem issueClose_quiet {consume : PortRef → Op} (r : PortRef) (s : State) (h : ∀ s, Quiet (consume r s)) :
    Quiet (issueClose consume r s) := closeWith_quiet _ _ h

theorem emitField_quiet (b : Nat) (f : UciField) (xs : List Nat) (s : State) : Quiet (emitField b f xs s) :=
  Quiet.ite (Quiet.ok _) (Quiet.bind (getBundle_quiet _ _) fun _ => Quiet.bind (Quiet.need (by simp)) fun _ =>
    Quiet.bind (issuePublish_quiet _ _ _) fun _ => Quiet.ite (issueClose_quiet _ _ fun _ => consumeClose_quiet _ _) (Quiet.ok _))

theorem emitSch_quiet (b : Nat) (s : State) : Quiet (emitSch b s) :=
  Quiet.bind (getBundle_quiet _ _) fun _ => Quiet.bind (Quiet.need (by simp)) fun _ => Quiet.bind (Quiet.need (by simp)) fun _ =>
    Quiet.ite (Quiet.ok _) (issuePublish_quiet _ _ _)

theorem finishSymbol_quiet (b : Nat) (s : State) : Quiet (finishSymbol b s) :=
  Quiet.bind (getBundle_quiet _ _) fun _ => Quiet.bind (Quiet.need (by simp)) fun _ =>
    Quiet.bind (emitField_quiet _ _ _ _) fun _ => Quiet.bind (emitSch_quiet _ _) fun _ => Quiet.ok _

theorem demuxSymbol_quiet (b : Nat) (s : State) : Quiet (demuxSymbol b s) :=
  Quiet.bind (getBundle_quiet _ _) fun _ => Quiet.bind (getBundle_quiet _ _) fun _ =>
    Quiet.bind (emitField_quiet _ _ _ _) fun _ => Quiet.bind (emitField_quiet _ _ _ _) fun _ =>
      Quiet.bind (getBundle_quiet _ _) fun _ => Quiet.ite (Quiet.ok _) (finishSymbol_quiet _ _)

theorem flushField_quiet (b : Nat) (f : UciField) (s : State) : Quiet (flushField b f s) :=
  Quiet.bind (getPort_quiet _ _) fun _ => Quiet.ite (issueClose_quiet _ _ fun _ => consumeFlush_quiet _ _) (Quiet.ok _)

theorem demuxFlush_quiet (b : Nat) (s : State) : Quiet (demuxFlush b s) :=
  Quiet.bind (getBundle_quiet _ _) fun _ => Quiet.bind (Quiet.check (by simp)) fun _ =>
    Quiet.bind (flushField_quiet _ _ _) fun _ => Quiet.bind (flushField_quiet _ _ _) fun _ =>
      Quiet.bind (flushField_quiet _ _ _) fun _ => issueClose_quiet _ _ fun _ => consumeFlush_quiet _ _

/-- A quiet operation that neither holds nor stops the block has completed. -/
theorem Quiet.completed {i : Instr} {tag : BitVec 8} {op : Op} {s t : State} (q : Quiet (op s))
    (h : runOp i tag op s = .next t)
    (hh : t.held = false) (hf : t.fatal = false) : op s = .ok t := by
  unfold runOp at h
  split at h
  · cases h; simp [State.hold] at hh
  · split at h
    · cases h; assumption
    · rename_i e he
      cases e with
      | hold => cases h; simp [State.hold] at hh
      | cmdError c d => exact absurd he (q c d)
      | fatal c => cases h; simp [State.enterFatal] at hf
      | unspecified => cases h
      | noAddress => cases h

end Sys2Proof.Machine
end

