-- ==== Sys2Proof/Tests/Slice0.lean ====
section
/-!
SUPPORT. Tests. Expected values come from the tables and worked examples of spec/ (named in each comment), or from the encoding
tables bit by bit. A theorem named `witness_…` shows, for one obligation, states and operands that meet its hypotheses.
-/

-- Many small kernel evaluations at once would start more threads than the memory limit allows.
set_option Elab.async false

namespace Sys2Proof.Tests

open Sys2Proof.Machine

/-! ### Helpers -/

/-- Descriptor D2 of spec/95_test_vectors.md section 0. -/
def d2 : Descriptor := { Descriptor.zero with
  bwp := 0x00010000#32
  alloc := 0x00010000#32
  symb := 0x000004C0#32
  dmrs := 0x00000008#32
  mod := 0x00000812#32
  tbs := 24#32
  scr := 0x00012345#32
  gUlsch := 264#32
  tbDest := 0x00001000#32
  nrx := 1#32 }

/-- Descriptor D3 of the same section. -/
def d3 : Descriptor := { d2 with
  symb := 0x00000130#32
  harq := 1#32
  csi1 := 0x00010003#32
  gCsi1 := 6#32
  gUlsch := 42#32
  tbDest := 0x00002000#32 }

/-- The reference instance after reset, with D2 and MAX_ITER 10, EARLY_STOP 1, and an event FIFO of `n` words. -/
def base (n : Nat) : State :=
  { State.reset with desc := d2, decCfg := 0x10A#32, params := { Params.reference with evqDepth := n } }

/-- An OPEN port. -/
def openAt (b : Binding) (count : Nat) : Port := ⟨b, true, 0, 0, count⟩

/-- A bundle of tag 7 in a phase with a descriptor, as CHEST leaves it, its field ports OPEN and bound NULL. -/
def bun (ph : Phase) (d : Descriptor) : Bundle := { Bundle.reset with
  phase := ph
  tag := 7#8
  d := d
  demuxIn := openAt .real 0
  ack := { FieldUnit.reset with port := openAt .null 0 }
  csi1 := { FieldUnit.reset with port := openAt .null 0 }
  csi2 := { FieldUnit.reset with port := openAt .null 0 } }

/-- A COLLECTING TB context of A = 24, BG1, with budget `g` and `n` soft bits of value 10 received. -/
def ctx (g n : Nat) : TbCtx := { TbCtx.reset Params.reference with
  fsm := .collecting
  tag := 7#8
  tbDest := 0x1000
  tbs := 24
  qm := 2
  nl := 1
  newData := true
  maxIter := 10
  earlyStop := true
  g := g
  stage := List.replicate n (some 10#8)
  sch := openAt .real n }

/-- The bits of a number, the most significant of `n` first. -/
def bitsOf (n v : Nat) : List Bool := (List.range n).map (fun i => v.testBit (n - 1 - i))

/-- The transport block 0xA50F3C with its CRC16 0xB18D (spec/95 section 0). -/
def goodBits : List Bool := bitsOf 40 0xA50F3CB18D

/-- A LOCKED handle of `c` codeblocks of the A = 24 geometry, the first holding `goodBits` with the flag `ok`. -/
def locked (c : Nat) (ok : Bool) : Harq :=
  ⟨.locked, geometry 24 .bg1 false 0, List.replicate c ⟨List.replicate 132 0#8, goodBits, ok⟩⟩

/-- Bundle 0, TB context 0 and handle 0 as given, all else as in `base`. -/
def with1 (x : Bundle) (t : TbCtx) (h : Harq) : State :=
  { base 1024 with
    bundles := [x, Bundle.reset]
    tbs := [t, TbCtx.reset Params.reference]
    harq := [h, Harq.reset, Harq.reset, Harq.reset] }

/-- The outcome is a next state, and neither a hold nor a stop of the block. -/
def done : Host.Outcome State Fault Refusal → Bool
  | .next u => !u.held && !u.fatal
  | .fault _ => false
  | .refused _ => false

/-- The outcome is a next state and holds. -/
def waits : Host.Outcome State Fault Refusal → Bool
  | .next u => u.held
  | .fault _ => false
  | .refused _ => false

/-- A property of the next state. -/
def after (o : Host.Outcome State Fault Refusal) (p : State → Bool) : Bool :=
  match o with
  | .next u => p u
  | .fault _ => false
  | .refused _ => false

/-- The outcome is a model fault. -/
def faults : Host.Outcome State Fault Refusal → Bool
  | .next _ => false
  | .fault _ => true
  | .refused _ => false

theorem exists_of_done {o : Host.Outcome State Fault Refusal} (h : done o = true) :
    ∃ u, o = .next u ∧ u.held = false ∧ u.fatal = false := by
  cases o <;> simp_all [done]

/-! ### Well-formedness and decoding -/

/-- R145, R148: N has 19 bits, so a copying publish of 2^19 soft bits is refused; one less is well-formed. -/
theorem test_wellFormed_refuses_a_long_copy :
    (Instr.publishCopy 1#4 0#8 (List.replicate (2 ^ 19) 0#8)).wellFormed = false ∧
    (Instr.publishCopy 1#4 0#8 (List.replicate (2 ^ 19 - 1) 0#8)).wellFormed = true := by
  simp only [Instr.wellFormed, List.length_replicate]
  decide

-- One word sequence per constructor, written out from R141 to R152: OPC, then TAG, TBX, UNIT or PORT, then the rest.
theorem test_decode_processPdu : decode [0b00000001_00000111_0000000000000000#32] = .ok (.processPdu 7#8, []) := by decide
theorem test_decode_configureCsiPart2 : decode [0b00000010_00001001_00000_00000000101#32,
    0b00000000_000000000000000000001000#32, 0b00000000_000000000000000000100010#32] =
    .ok (.configureCsiPart2 9#8 5#11 8#24 34#24, []) := by decide
theorem test_decode_csi2None : decode [0b00000011_00001001_0000000000000000#32] = .ok (.csi2None 9#8, []) := by decide
theorem test_decode_harqFree : decode [0b00000101_00000000_00000000_00000011#32] = .ok (.harqFree 3#8, []) := by decide
theorem test_decode_nop : decode [0b00001111_111111111111111111111111#32] = .ok (.nop 0xFFFFFF#24, []) := by decide
theorem test_decode_reserveView : decode [0b00010000_0000_0_0000000000001100100#32, 0b1#32] =
    .ok (.reserveView 0#4 100#19 1#8, []) := by decide
theorem test_decode_publishInPlace : decode [0b00010001_0000_1_0000000000000011000#32, 0b1#32] =
    .ok (.publishInPlace 0#4 24#19 1#8, []) := by decide
theorem test_decode_publishCopy : decode [0b00010001_0001_0_0000000000000000101#32, 0#32, 0x7F8002FF#32, 0x00000005#32] =
    .ok (.publishCopy 1#4 0#8 [-1#8, 2#8, -128#8, 127#8, 5#8], []) := by decide
theorem test_decode_close : decode [0b00010010_0001_00000000000000000000#32, 0b1#32] = .ok (.close 1#4 1#8, []) := by decide
theorem test_decode_cbDecode : decode [0b00100000_00000001_0000000000000010#32] = .ok (.cbDecode 1#8 2#16, []) := by decide
theorem test_decode_cbRateDematch : decode [0b00100001_00000001_0000000000000010#32] = .ok (.cbRateDematch 1#8 2#16, []) := by
  decide
theorem test_decode_chest : decode [0b00110000_00000001_0000000000000000#32] = .ok (.chest 1#8, []) := by decide
theorem test_decode_demodSymbol : decode [0b00110001_00000000_0000000000000011#32] = .ok (.demodSymbol 0#8 3#16, []) := by decide
theorem test_decode_descramble : decode [0b00110010_00000000_0000000000011000#32] = .ok (.descramble 0#8 24#16, []) := by decide
theorem test_decode_endStats : decode [0b00110011_00000001_0000000000000000#32] = .ok (.endStats 1#8, []) := by decide
theorem test_decode_demuxSymbol : decode [0b00110100_00000000_0000000000000010#32] = .ok (.demuxSymbol 0#8 2#16, []) := by decide
theorem test_decode_demuxFlush : decode [0b00110101_00000001_0000000000000000#32] = .ok (.demuxFlush 1#8, []) := by decide
theorem test_decode_uciDecode : decode [0b00110110_00000001_0000000000000010#32] = .ok (.uciDecode 1#8 .csi2, []) := by decide
theorem test_decode_tbConfigure : decode [0b00110111_00000001_0000000000000000#32] = .ok (.tbConfigure 1#8, []) := by decide
theorem test_decode_setNofSoftbits : decode [0b00111000_00000001_0000000000000000#32] = .ok (.setNofSoftbits 1#8, []) := by decide
theorem test_decode_closeDispatch : decode [0b00111001_00000001_0000000000000000#32] = .ok (.closeDispatch 1#8, []) := by decide
theorem test_decode_closeCommit : decode [0b00111010_00000001_0000000000000000#32] = .ok (.closeCommit 1#8, []) := by decide
theorem test_decode_cbComplete : decode [0b00111011_00000001_0000000000000111#32] = .ok (.cbComplete 1#8 7#16, []) := by decide
theorem test_decode_tbJoin : decode [0b00111100_00000001_0000000000000000#32] = .ok (.tbJoin 1#8, []) := by decide
theorem test_decode_seqEnd : decode [0b00111101_00000001_0000000000000000#32] = .ok (.seqEnd 1#8, []) := by decide
theorem test_decode_demuxResume : decode [0b00111110_00000001_0000000000000001#32] = .ok (.demuxResume 1#8 1#16, []) := by decide

/-- Reserved fields, reserved opcodes and missing words are refused by name (spec/95 section 2.1; R144, R145, R147, R154). -/
theorem test_decode_refuses :
    decode [0x01070001#32] = .error (.reservedField 0x01#8) ∧
    decode [0x02090805#32, 8#32, 34#32] = .error (.reservedField 0x02#8) ∧
    decode [0x02090005#32, 0x01000008#32, 34#32] = .error (.reservedField 0x02#8) ∧
    decode [0x02090005#32, 8#32] = .error (.missingWords 0x02#8) ∧
    decode [0x03090001#32] = .error (.reservedField 0x03#8) ∧
    decode [0x05010003#32] = .error (.reservedField 0x05#8) := by decide

theorem test_decode_refuses_more :
    decode [0x05000103#32] = .error (.reservedField 0x05#8) ∧
    decode [0x00000000#32] = .error (.illegalOpcode 0x00#8) ∧
    decode [0x04000000#32] = .error (.illegalOpcode 0x04#8) ∧
    decode [0xFF123456#32] = .error (.illegalOpcode 0xFF#8) ∧
    decode [0x36000003#32] = .error (.reservedField 0x36#8) ∧
    decode [] = .error .noWord := by decide

/-- Internal opcodes pushed by the host are illegal (spec/95 section 2.1; R143). -/
theorem test_host_cannot_push_internal_words :
    decodeCommand [0x10000000#32] = .error (.illegalOpcode 0x10#8) ∧
    decodeCommand [0x20000000#32] = .error (.illegalOpcode 0x20#8) ∧
    decodeCommand [0x3D010000#32] = .error (.illegalOpcode 0x3D#8) := by decide

/-! ### Arithmetic (spec/95 sections 2.3 to 2.6) -/

/-- Segmentation: K', Zc, K, N and C of the rows of section 2.4. -/
theorem test_segmentation :
    [(24, BaseGraph.bg1), (3824, .bg1), (8432, .bg1), (100, .bg2), (33736, .bg1)].map (fun r =>
      (nofCodeblocks r.1 r.2, kPrime r.1 r.2, liftingSize r.1 r.2, messageLen r.1 r.2, fullLen r.1 r.2)) =
    [(1, 40, 2, 44, 132), (1, 3840, 176, 3872, 11616), (2, 4252, 208, 4576, 13728), (1, 116, 20, 200, 1000),
      (5, 6776, 320, 7040, 21120)] := by decide +kernel

/-- `k0` of section 2.4. -/
theorem test_startPosition :
    [0, 1, 2, 3].map (fun rv => startPosition .bg1 rv 132 2) = [0, 34, 66, 112] ∧
    [0, 1, 2, 3].map (fun rv => startPosition .bg1 rv 100 2) = [0, 24, 50, 84] ∧
    [0, 1, 2, 3].map (fun rv => startPosition .bg2 rv 1000 20) = [0, 260, 500, 860] := by decide +kernel

/-- De-interleaving of section 2.4. -/
theorem test_deinterleave :
    deinterleave 2 [10#8, -20#8, 30#8, -40#8, 50#8, -60#8, 70#8, -80#8] =
      [10#8, 30#8, 50#8, 70#8, -20#8, -40#8, -60#8, -80#8] ∧
    deinterleave 4 [0#8, 1#8, 2#8, 3#8, 4#8, 5#8, 6#8, 7#8] = [0#8, 4#8, 1#8, 5#8, 2#8, 6#8, 3#8, 7#8] ∧
    deinterleave 1 [9#8, 8#8] = [9#8, 8#8] := by decide +kernel

/-- Vectors D1 and D2 of section 2.4: two wraps of the walk, then RV2 combined on top. -/
theorem test_dematch :
    let f := List.replicate 264 10#8
    let b1 := rateDematch Params.reference (segment 24 .bg1 264 2 1 0 false 0) 2 true (List.replicate 132 99#8) f
    let b2 := rateDematch Params.reference (segment 24 .bg1 264 2 1 2 false 0) 2 false b1 f
    b1 = List.replicate 8 30#8 ++ List.replicate 28 20#8 ++ List.replicate 4 127#8 ++ List.replicate 92 20#8 ∧
    b2 = List.replicate 8 50#8 ++ List.replicate 28 40#8 ++ List.replicate 4 127#8 ++ List.replicate 26 40#8 ++
      List.replicate 8 50#8 ++ List.replicate 58 40#8 := by decide +kernel

/-- Vectors D4 to D6: saturation at LLR_MAX 120. -/
theorem test_saturation :
    [(100, 50), (-100, -50), (120, -120)].map (fun t => sat Params.reference (t.1 + t.2)) = [120#8, -120#8, 0#8] := by decide

/-- CRC vectors of section 2.4. -/
theorem test_crc :
    crcRem .crc16 (bitsOf 24 0xA50F3C) = 0xB18D ∧ crcRem .crc24a (bitsOf 24 0xA50F3C) = 0xCE704B ∧
    crcRem .crc24b (bitsOf 24 0xA50F3C) = 0x09DB28 ∧ crcRem .crc24b [true] = 0x800063 ∧ crcPass .crc16 goodBits = true := by
  decide +kernel

/-- The Gold sequences of section 2.6, and S1. -/
theorem test_gold :
    scrambleBits 0#31 0 48 = bitsOf 48 0b000000100001101000010010011110100010010110010101 ∧
    scrambleBits 0x12345#31 0 48 = bitsOf 48 0b110101100101011101111010011110110011101010000111 := by decide +kernel

/-- The placeholder correction of section 2.3. -/
theorem test_placeholder :
    [(7#8, 8), (-7#8, 9), (7#8, 10), (-7#8, 11)].map (fun t => place 0x12345#31 4 2 t.1 t.2) = [7#8, -7#8, -7#8, -7#8] := by
  decide +kernel

/-- The partition of symbol 1 in section 2.3, without and with CSI Part 2 of 8 bits, and for a HARQ-ACK of 1 and of 3 bits. -/
theorem test_partition :
    (partitionA Params.reference d3 1 (initialBudgets d3)).1.c1 = [0, 4, 8] ∧
    (let y := partitionA Params.reference d3 1 (initialBudgets d3)
     let z := (partitionB d3 true y.1 { y.2 with csi2Rem := 8 }).1
     z.c2 = [1, 3, 6, 9] ∧ z.sch = [2, 5, 7, 10, 11]) ∧
    (let d := { d2 with ack := 1#32, gAck := 2#32, gAckRvd := 2#32, csi1 := 3#32, gCsi1 := 6#32 }
     let y := (partitionA Params.reference d 0 (initialBudgets d)).1
     y.r = [0] ∧ y.a = [0] ∧ y.c1 = [1, 4, 7]) ∧
    (let d := { d2 with ack := 3#32, gAck := 6#32 }
     let y := (partitionA Params.reference d 0 (initialBudgets d)).1
     y.r = [] ∧ y.a = [0, 4, 8]) := by decide +kernel

/-- The budgets over a slot of section 2.3, and `plan(D3, 8)` of Program 3. -/
theorem test_plan :
    (plan Params.reference d2 0).sch = 264 ∧
    (plan Params.reference { d2 with csi1 := 3#32, gCsi1 := 600#32 } 0).csi1 = 264 ∧
    (plan Params.reference d3 0).csi1 = 6 ∧ (plan Params.reference d3 0).sch = 42 ∧
    (plan Params.reference d3 8).csi2 = 8 ∧ (plan Params.reference d3 8).sch = 34 := by decide +kernel

/-- Positions of DM-RS symbols with data (section 2.3). -/
theorem test_dmrs_positions :
    [0x4#32, 0x8#32, 0x6#32, 0xA#32, 0xE#32].map (fun w => nofPositions { d2 with dmrs := w } 2) = [6, 0, 8, 4, 0] ∧
    nofPositions d2 0 = 12 := by decide +kernel

/-! ### Registers, records and validation (spec/95 sections 2.1, 2.5, 2.7 to 2.9) -/

/-- The registers right after reset at the reference values (section 2.9). -/
theorem test_reset_registers :
    [0x000#12, 0x004#12, 0x008#12, 0x00C#12, 0x010#12, 0x014#12, 0x018#12, 0x020#12, 0x024#12, 0x0C4#12].map
      (fun off => (State.reset.csrRead off).rdata) =
    [0x50470007#32, 0x24080222#32, 0x78080004#32, 0x7F040000#32, 0x00040000#32, 0x10000040#32, 0x00000400#32, 0x00402200#32,
      0x00000000#32, 0x00000000#32] := by decide +kernel

/-- Payload packing (section 2.1, R163). -/
theorem test_payload_words :
    payloadWords [true, true, false, false, true] = [0xC8000000#32] ∧
    payloadWords (List.replicate 33 true) = [0xFFFFFFFF#32, 0x80000000#32] := by decide +kernel

/-- Vector T7 of section 2.5. -/
theorem test_sch_result :
    schResult 7#8 true 3 [3, 7] = [0x04070003#32, 0x00030001#32, 0x00020703#32, 10#32] := by decide +kernel

/-- The code and detail of the first failing check, for D2 with a change. -/
def verdict (d : Descriptor) (dc : Word) : Option (BitVec 8 × Nat) :=
  (firstFailing (validateChecks { base 1024 with decCfg := dc } 7#8 d)).map (fun r => (r.1.code, r.2))

/-- Vectors V1 to V50 of section 2.7, some of each kind. -/
theorem test_validation :
    [verdict { d2 with bwp := 0x01130001#32 } 0x10A, verdict { d2 with alloc := 0x00010001#32 } 0x10A,
      verdict { d2 with symb := 0x002004C0#32 } 0x10A, verdict { d2 with mod := 0x000008A2#32, dmrs := 0x9#32 } 0x10A,
      verdict { d2 with tbs := 16856#32 } 0x10A, verdict { d2 with tbDest := 0xFFFFFFFE#32 } 0x10A,
      verdict { d2 with ack := 1#32, gAck := 4#32, gAckRvd := 2#32 } 0x10A,
      verdict { d2 with csi1 := 3#32, gCsi1 := 600#32 } 0x10A, verdict d2 0, verdict { d2 with lbrm := 0x00000A01#32 } 0x10A,
      verdict { d2 with gUlsch := 262#32 } 0x10A,
      verdict { d2 with tbs := 33736#32, symb := 0x110#32, dmrs := 0xA#32, gUlsch := 8#32 } 0x10A] =
    [some (0x01#8, 1), some (0x01#8, 3), some (0x04#8, 2), some (0x07#8, 3), some (0x09#8, 4), some (0x09#8, 5),
      some (0x0B#8, 4), some (0x0C#8, 3), some (0x10#8, 1), some (0x11#8, 1), some (0x12#8, 1), some (0x15#8, 0)] := by
  decide +kernel

/-- The boundary cases of section 2.7 pass. -/
theorem test_validation_boundaries :
    [verdict d2 0x10A, verdict { d2 with tbDest := 0xFFFFFFFD#32 } 0x10A, verdict { d2 with lbrm := 0x00002801#32 } 0x10A,
      verdict { d2 with mod := 0x0CE31812#32 } 0x10A,
      verdict { d2 with ack := 1#32, gAck := 2#32, gAckRvd := 2#32 } 0x10A] = [none, none, none, none, none] := by
  decide +kernel

/-! ### Witnesses: states and operands that meet an obligation's hypotheses, a clause at a time -/

theorem witness_DecodeOfEncode :
    (Instr.publishCopy 1#4 0#8 (List.replicate (2 ^ 19 - 1) 0#8)).wellFormed = true ∧ (Instr.nop 0#24).wellFormed = true :=
  ⟨test_wellFormed_refuses_a_long_copy.2, rfl⟩

theorem witness_EncodeOfDecode : decode [0x11200001#32, 0#32, 0x000000FF#32, 7#32] = .ok (.publishCopy 2#4 0#8 [255#8], [7#32]) := by
  decide

/-- The four clauses: an issue turn, a turn of CMDU with a command of three words, a turn of the last engine, and one of it ahead
of one task. Whether more tasks may pass the head is no hypothesis of the last one. -/
theorem witness_StepRunsTheDecodedOperation :
    decode [0x30000000#32] = .ok (.chest 0#8, []) ∧
    decodeCommand [0x02090005#32, 8#32, 34#32] = .ok (.configureCsiPart2 9#8 5#11 8#24 34#24, []) ∧
    (State.reset.fatal = false ∧ 1 < State.reset.params.nCbe) ∧
    decodeTask 0x21000001#32 = some (.cbRateDematch 0#8 1#16) ∧
    [0x21000000#32, 0x21000001#32] = [0x21000000#32] ++ 0x21000001#32 :: [] := by decide +kernel

/-- Both clauses: an operation that completes, and one that is a model fault. -/
theorem witness_PlacedOperationRunsNext :
    (State.reset.fatal = false ∧ 0 < State.reset.params.nCbe) ∧ done (exec (.nop 5#24) State.reset) = true ∧
    faults (exec (.uciDecode 0#8 .ack) { State.reset with
      bundles := [{ Bundle.reset with ack := { FieldUnit.reset with port := openAt .real 1 } }] }) = true := by decide +kernel

/-- A bundle in CHEST, in DEMOD on a symbol without positions, in RESUME with a held symbol of no positions, in END and in
COMMIT: each step completes. -/
theorem witness_SequencerPhases :
    done (runAgent (.seq 0) (with1 (bun .chest d2) (ctx 264 0) (locked 1 false))) = true ∧
    done (runAgent (.seq 0) (with1 { bun .demod d2 with l := 2 } (ctx 264 0) (locked 1 false))) = true ∧
    done (runAgent (.seq 0) (with1 { bun .resume d2 with l := 2, dm := { Demux.reset with sets := some ⟨[], [], [], [], [], [], [], []⟩ } }
      (ctx 264 0) (locked 1 false))) = true ∧
    done (runAgent (.seq 0) (with1 (bun .endPdu d2) (ctx 264 264) (locked 1 false))) = true ∧
    done (runAgent (.seq 0) (with1 (bun .commit d2) (ctx 264 264) (locked 1 false))) = true ∧
    waits (runAgent (.seq 1) (with1 (bun .commit d2) (ctx 264 264) (locked 1 false))) = true := by decide +kernel

/-- The instance with one turn of CMDU to come, a NOP in the FIFO and a LOCKED handle held by TB context 0. -/
def atWork : State := { with1 Bundle.reset (ctx 264 0) (locked 1 false) with
  sched := [.agent .cmdu]
  cmdq := [0x0F000000#32] }

theorem witness_SoundKept : atWork.Sound ∧ done (step atWork) = true := by
  refine ⟨?_, by decide +kernel⟩
  constructor
  case descMasked => unfold Descriptor.masked; decide +kernel
  case latchedMasked => unfold Descriptor.masked; decide +kernel
  case bundleViews => unfold Bundle.viewsOk Port.viewOk; decide +kernel
  case schViews => unfold Port.viewOk; decide +kernel
  case fatalCode => intro h; exact absurd h (by decide)
  all_goals decide +kernel

theorem atWork_holds (t h : Nat) : atWork.holds t = some h ↔ t = 0 ∧ h = 0 := by
  match t with
  | 0 => simp [State.holds, atWork, with1, ctx, TbCtx.reset, eq_comm]
  | 1 => simp [State.holds, atWork, with1, TbCtx.reset]
  | t + 2 => simp [State.holds, atWork, with1]

theorem atWork_locked (h : Nat) : atWork.lockedAt h ↔ h = 0 := by
  match h with
  | 0 => simp [State.lockedAt, atWork, with1, locked]
  | 1 => simp [State.lockedAt, atWork, with1, Harq.reset]
  | 2 => simp [State.lockedAt, atWork, with1, Harq.reset]
  | 3 => simp [State.lockedAt, atWork, with1, Harq.reset]
  | h + 4 => simp [State.lockedAt, atWork, with1]

theorem witness_HandleOwnershipKept : atWork.Exclusive ∧ done (step atWork) = true := by
  refine ⟨⟨fun h => ?_, fun t u h ht hu => ?_⟩, by decide +kernel⟩
  · rw [atWork_locked]; simp [atWork_holds]
  · rw [atWork_holds] at ht hu; omega

theorem witness_NothingRunsWhileFatal : ({ State.reset with fatal := true } : State).fatal = true := rfl

/-- Both ends of the clause: a turn of the reset input, and one of HOST. -/
theorem witness_OnlyResetLeavesFatal :
    let s : State := { State.reset with fatal := true, evq := [1#32] }
    after (step { s with sched := [.agent .resetInput] }) (fun t => !t.fatal) = true ∧
    after (step { s with sched := [.agent (.host (.csrRead 32 0x034#12))] }) (fun t => t.fatal && t.evq.isEmpty) = true := by
  decide +kernel

/-- Each of the four outcomes is one of some operation. -/
theorem witness_OperationOutcomes :
    waits (exec (.chest 0#8) State.reset) = true ∧
    after (exec (.close 5#4 0#8) State.reset) (fun t => t.fatal) = true ∧
    after (exec (.harqFree 4#8) State.reset) (fun t => t.cmdErr) = true ∧
    done (exec (.nop 0#24) State.reset) = true := by decide +kernel

theorem witness_OnlyJoinsWriteDmem :
    (Instr.nop 0#24).canJoin = false ∧ done (exec (.nop 0#24) State.reset) = true := by decide

/-- A TB context whose one codeblock holds `goodBits` and has passed. -/
def joining : TbCtx := { ctx 264 264 with
  fsm := .decoded
  counter := 0
  seg := segment 24 .bg1 264 2 1 0 false 0
  iter := [3]
  decoded := [true] }

/-- The join writes three bytes at 0x1000; 0xFFF and 0x1003 are the nearest addresses outside. -/
theorem witness_JoinWritesOnlyTheTransportBlock :
    let s := with1 (bun .commit d2) joining (locked 1 true)
    s.tbs[(0#8).toNat]? = some joining ∧
    after (exec (.tbJoin 0#8) s) (fun t => t.dmem = [(0x1000, 0xA5#8), (0x1001, 0x0F#8), (0x1002, 0x3C#8)]) = true ∧
    (0xFFF < joining.tbDest ∧ joining.tbDest + joining.tbs / 8 = 0x1003) := by decide +kernel

/-- The reference instance, and the greatest MAX_UCI_G. -/
theorem witness_ParameterRegisters :
    Params.reference.legal = true ∧ { Params.reference with maxUciG := 2 ^ 20 }.legal = true := by decide

theorem witness_RegistersAfterReset : Params.reference.legal = true := by decide

theorem witness_ResetResult :
    ({ State.reset with fatal := true, sched := [.agent .resetInput] } : State).sched = .agent .resetInput :: [] := rfl

/-! ### The host's bus -/

/-- The FIFO one word below its depth, at its depth, and the fatal state. -/
theorem witness_CommandStore :
    let s : State := { State.reset with cmdq := List.replicate 63 0#32 }
    let u : State := { State.reset with cmdq := List.replicate 64 0#32 }
    (s.fatal = false ∧ s.cmdq.length < s.params.cmdqDepth) ∧ (u.fatal = false ∧ u.params.cmdqDepth ≤ u.cmdq.length) ∧
    ({ s with fatal := true } : State).fatal = true := by decide +kernel

/-- A payload word, the header of another record, the header of a SCH_RESULT, and an empty FIFO. -/
theorem witness_EventLoad :
    let s (w : Word) (n : Nat) : State := { State.reset with evq := [w], popLeft := n }
    ((s 7#32 1).evq = 7#32 :: [] ∧ 0 < (s 7#32 1).popLeft) ∧
    ((s 0x03070003#32 0).popLeft = 0 ∧ Word.opc 0x03070003#32 ≠ 0x04#8) ∧ Word.opc 0x04070003#32 = 0x04#8 ∧
    State.reset.evq = [] := by decide +kernel

/-- The block at work; an enabled and a disabled source: the interrupt output is high and low (spec/95 section 2.8,
I2 and I3). -/
theorem witness_StatusRegisters :
    (atWork.params.legal = true ∧ atWork.Sound) ∧
    ({ State.reset with evq := [7#32], irqEnable := 1#3 } : State).irq = true ∧
    ({ State.reset with evq := [7#32], irqEnable := 6#3 } : State).irq = false ∧
    ((0x020#12).toNat % 4 = 0 ∧ 0x020#12 ≠ 0x034#12) :=
  ⟨⟨by decide, witness_SoundKept.1⟩, by decide⟩

/-- The last register, and its unlisted neighbour; a read-only register. -/
theorem witness_ConfigurationRegisters :
    (0x0C0#12, 0x0000000F#32) ∈ [(0x040#12, 0x000001FF#32), (0x0C0#12, 0x0000000F#32)] ∧ (0x0C4#12 ≠ 0x0C0#12) ∧
    ((0x0C4#12).toNat % 4 = 0 ∧ 0x0C4#12 ∉ [0x040#12, 0x0C0#12] ∧ 0x0C4#12 ∉ [0x028#12, 0x02C#12, 0x030#12] ∧
      0x0C4#12 ∉ [0x034#12, 0x038#12]) ∧
    ((0x020#12).toNat % 4 = 0 ∧ 0x020#12 ∉ [0x028#12, 0x02C#12, 0x030#12]) := by decide

/-- A narrow access, a misaligned one, and one that completes. -/
theorem witness_BusErrors :
    ((16 ≠ 32 ∨ (0x000#12).toNat % 4 ≠ 0) ∧ (32 ≠ 32 ∨ (0x022#12).toNat % 4 ≠ 0)) ∧ (0xFFC#12).toNat % 4 = 0 := by decide

/-- The addresses next to an output range of 3 bytes at 0x1000 are not raced; inside it nothing stands before the join, and after a
join that failed; after one that succeeded, its bytes do (R114). -/
theorem witness_HostDmemAccess :
    let s (joined : Bool) (block : List Byte) : State := { State.reset with windows := [⟨7#8, 0x1000, 3, joined, block, []⟩] }
    let ok := s true [0xA5#8, 0x0F#8, 0x3C#8]
    (ok.raced (0xFFF#32).toNat = false ∧ ok.raced (0x1003#32).toNat = false ∧
      ok.blockBytes (0x1003#32).toNat = [] ∧ ok.blockBytes (0x1002#32).toNat = [0x3C#8]) ∧
    ((s false []).raced (0x1002#32).toNat = true ∧ (s false []).blockBytes (0x1002#32).toNat = []) ∧
    (s true []).blockBytes (0x1000#32).toNat = [] := by decide

/-- An illegal opcode with just enough room, a reserved field with just enough room, a command that lacks one word, and one word
less of room than either error needs. -/
theorem witness_CommandDecodeErrors :
    (base 2).fatal = false ∧ (base 2).held = false ∧ (base 2).evq.length + 2 ≤ (base 2).params.evqDepth ∧
    isHostOpcode (Word.opc 0x04000000#32) = false ∧
    decodeCommand [0x02090805#32, 8#32, 34#32] = .error (.reservedField 0x02#8) ∧
    (Word.opc 0x02090005#32 = 0x02#8 ∧ [8#32].length < 2) ∧
    (base 1).params.evqDepth < (base 1).evq.length + 2 := by decide +kernel

/-! ### Host commands -/

theorem witness_NopResult :
    State.reset.fatal = false ∧ State.reset.held = false ∧
    ({ State.reset with cmdq := [0x0FFFFFFF#32] } : State).cmdq = (0x0F#8 ++ 0xFFFFFF#24) :: [] := by decide

/-- The last handle FREE, HELD and LOCKED, and the first number beyond it, with just enough room for the record and with one word
less. -/
theorem witness_HarqFreeResult :
    let s (h : HState) : State := { base 2 with harq := List.replicate 4 { Harq.reset with hstate := h } }
    let full : State := { s .locked with params := { Params.reference with evqDepth := 1 } }
    ((3#8).toNat < (s .free).params.nHarq ∧ (s .free).harq[(3#8).toNat]? = some { Harq.reset with hstate := .free }) ∧
    (s .held).harq[(3#8).toNat]? = some { Harq.reset with hstate := .held } ∧
    ((s .locked).harq[(3#8).toNat]? = some { Harq.reset with hstate := .locked } ∧ (s .locked).evq.length + 2 ≤ (s .locked).params.evqDepth) ∧
    (s .free).params.nHarq ≤ (4#8).toNat ∧
    (full.harq[(3#8).toNat]? = some { Harq.reset with hstate := .locked } ∧ full.params.nHarq ≤ (4#8).toNat ∧
      full.params.evqDepth < full.evq.length + 2) := by decide +kernel

/-- A bundle of tag 7 on D3, its CSI Part 2 in state `c`. -/
def bun3 (ph : Phase) (c : Csi2State) : Bundle := { bun ph d3 with
  l := 1
  dm := { Demux.reset with csi2State := c, bud := initialBudgets d3 } }

/-- A bundle that awaits CSI Part 2, one that does not, and a tag of no bundle; these two without room for the record as well. -/
theorem witness_Csi2NoneResult :
    let s (c : Csi2State) := with1 (bun3 .holdCsi2 c) (ctx 42 0) (locked 1 false)
    ((s .await).bundleOfTag 7#8 = some 0 ∧ (s .await).bundles[0]? = some (bun3 .holdCsi2 .await)) ∧
    ((s .waiting).bundleOfTag 7#8 = some 0 ∧ (bun3 .holdCsi2 .waiting).dm.csi2State ≠ .await) ∧
    ((s .await).bundleOfTag 8#8 = none ∧ (s .await).evq.length + 2 ≤ (s .await).params.evqDepth) ∧
    (let full : State := { s .waiting with params := { Params.reference with evqDepth := 1 } }
     full.bundleOfTag 7#8 = some 0 ∧ full.bundleOfTag 8#8 = none ∧ full.params.evqDepth < full.evq.length + 2) := by decide +kernel

/-- Program 3, line 13 of spec/95: CONFIGURE_CSI_PART2 5, 8, 34 for D3. -/
theorem witness_ConfigureCsiPart2Accepts :
    let x := bun3 .holdCsi2 .await
    let t := ctx 42 0
    let s := with1 x t (locked 1 false)
    (s.fatal = false ∧ s.bundleOfTag 7#8 = some 0 ∧ s.bundles[0]? = some x ∧ x.dm.csi2State = .await ∧ s.tbs[x.tbx]? = some t) ∧
    (t.fsm = .collecting ∧ t.sch.count ≤ 34 ∧ x.csi2.port.isOpen = true ∧ x.csi2.port.count = 0 ∧ x.csi2.port.bound = .null) ∧
    (8 % (qm x.d * nl x.d) = 0 ∧ 8 ≤ s.params.maxUciG ∧ (plan s.params x.d 8).csi2 = 8 ∧ (plan s.params x.d 8).sch = 34) ∧
    (34 ≤ s.params.maxCwBits ∧ nofCodeblocks t.tbs t.bg ≤ 34 / (t.nl * t.qm)) := by decide +kernel

/-- Each refusal: (bits, G_CSI2, G_ULSCH) = (5, 7, 35); (0, 8, 34) and (1707, 8, 34) and (5, 0, 42); (5, 44, 0); (5, 8, 42);
and (5, 34, 8) for a transport block of 5 codeblocks. -/
theorem witness_ConfigureCsiPart2Refuses :
    let x := bun3 .holdCsi2 .await
    let s := with1 x (ctx 42 0) (locked 1 false)
    (s.fatal = false ∧ s.evq.length + 2 ≤ s.params.evqDepth ∧ s.bundleOfTag 8#8 = none ∧ s.bundleOfTag 7#8 = some 0) ∧
    (7 % (qm x.d * nl x.d) ≠ 0 ∧ 8 % (qm x.d * nl x.d) = 0 ∧ 0 % (qm x.d * nl x.d) = 0 ∧ (1706 : Nat) < 1707) ∧
    ((plan s.params x.d 44).csi2 ≠ 44 ∧ 44 % (qm x.d * nl x.d) = 0) ∧
    ((plan s.params x.d 8).csi2 = 8 ∧ (plan s.params x.d 8).sch ≠ 42) ∧
    ((plan s.params x.d 34).csi2 = 34 ∧ (plan s.params x.d 34).sch = 8 ∧ 8 / (1 * 2) < nofCodeblocks 33736 .bg1) ∧
    ((bun3 .resume .configured).dm.csi2State = .configured ∧ (bun3 .demod .waiting).dm.csi2State = .waiting) := by decide +kernel

theorem resetHarq_exclusive (n : Nat) : (base n).Exclusive := by
  have hl : ∀ h, ¬ (base n).lockedAt h := by
    intro h
    match h with
    | 0 => simp [State.lockedAt, base, State.reset, State.resetOf, Params.reference, Harq.reset, List.replicate]
    | 1 => simp [State.lockedAt, base, State.reset, State.resetOf, Params.reference, Harq.reset, List.replicate]
    | 2 => simp [State.lockedAt, base, State.reset, State.resetOf, Params.reference, Harq.reset, List.replicate]
    | 3 => simp [State.lockedAt, base, State.reset, State.resetOf, Params.reference, Harq.reset, List.replicate]
    | h + 4 => simp [State.lockedAt, base, State.reset, State.resetOf, Params.reference, List.replicate]
  have ht : ∀ t, (base n).holds t = none := by
    intro t
    match t with
    | 0 => simp [State.holds, base, State.reset, State.resetOf, Params.reference, TbCtx.reset, List.replicate]
    | 1 => simp [State.holds, base, State.reset, State.resetOf, Params.reference, TbCtx.reset, List.replicate]
    | t + 2 => simp [State.holds, base, State.reset, State.resetOf, Params.reference, List.replicate]
  exact ⟨fun h => by simp [hl, ht], fun t u h h1 => by simp [ht] at h1⟩

/-- PROCESS_PDU with D2 right after reset (spec/95 Program 2, line 1). -/
theorem witness_ProcessPduAccepts :
    let s := base 1024
    s.Exclusive ∧ s.fatal = false ∧ firstFailing (validateChecks s 7#8 s.desc) = none ∧
    s.firstFreeBundle = some 0 ∧ s.firstIdleTb = some 0 ∧ s.bundles[0]? = some Bundle.reset ∧
    s.tbs[0]? = some (TbCtx.reset Params.reference) ∧ s.harq[harqHandle s.desc]? = some Harq.reset ∧
    Harq.reset.hstate ≠ .locked ∧ Bundle.reset.demuxIn.isOpen = false ∧ (TbCtx.reset Params.reference).sch.isOpen = false :=
  ⟨resetHarq_exclusive 1024, by decide +kernel⟩

/-- A failing descriptor with just enough room for the record and with one word less, and D2 with handle 0 LOCKED. -/
theorem witness_ProcessPduRefuses :
    let s : State := { base 2 with desc := Descriptor.zero }
    let u : State := { base 1024 with harq := List.replicate 4 (locked 1 false) }
    let full : State := { base 1 with desc := Descriptor.zero }
    (firstFailing (validateChecks s 1#8 s.desc) = some (.allocExceedsBwp, 1) ∧ s.evq.length + 2 ≤ s.params.evqDepth) ∧
    (firstFailing (validateChecks full 1#8 full.desc) = some (.allocExceedsBwp, 1) ∧ full.params.evqDepth < full.evq.length + 2) ∧
    (firstFailing (validateChecks u 7#8 u.desc) = none ∧ u.firstFreeBundle = some 0 ∧ u.firstIdleTb = some 0 ∧
      u.harq[harqHandle u.desc]? = some (locked 1 false) ∧ (locked 1 false).hstate = .locked) := by decide +kernel

/-- Both bundles taken, and both TB contexts taken; the FIFO with just enough room and with one word less. -/
theorem witness_ProcessPduPoolEmpty :
    let s (n : Nat) : State := { base n with bundles := List.replicate 2 { Bundle.reset with phase := .demod } }
    let u : State := { base 8 with tbs := List.replicate 2 { TbCtx.reset Params.reference with fsm := .decoding } }
    (firstFailing (validateChecks (s 8) 7#8 (s 8).desc) = none ∧ (s 8).firstFreeBundle = none) ∧
    (firstFailing (validateChecks u 7#8 u.desc) = none ∧ u.firstIdleTb = none) ∧
    (s 8).evq.length + 8 ≤ (s 8).params.evqDepth ∧ (s 7).params.evqDepth < (s 7).evq.length + 8 := by decide +kernel

/-! ### Stream ports -/

/-- Bundle 0 on symbol 0 of D2 with `n` of its 24 soft bits received, TB context 0 with 2 of 5 soft bits left. -/
def streaming (n : Nat) : State :=
  with1 { bun .demod d2 with dm := { Demux.reset with symBuf := List.replicate n (some 10#8), symCnt := n } } (ctx 5 3)
    (locked 1 false)

/-- 100 slots of DEMUX_IN, which offers 24 (spec/95 P1); SCH, which offers 2; no slot of a port that offers none; and a port bound
NULL (P11). -/
theorem witness_ReserveViewResult :
    let s := streaming 0
    (s.fatal = false ∧ PortRef.ofId 0#4 0#8 = some (.demuxIn 0) ∧ s.port? (.demuxIn 0) = some (openAt .real 0) ∧
      s.offer (.demuxIn 0) (openAt .real 0) = some 24 ∧ min (100#19).toNat 24 = 24) ∧
    (PortRef.ofId 1#4 0#8 = some (.sch 0) ∧ s.port? (.sch 0) = some (openAt .real 3) ∧
      s.offer (.sch 0) (openAt .real 3) = some 2) ∧
    (streaming 24).offer (.demuxIn 0) (openAt .real 0) = some 0 ∧
    (PortRef.ofId 2#4 0#8 = some (.uci .ack 0) ∧ s.port? (.uci .ack 0) = some (openAt .null 0) ∧
      s.offer (.uci .ack 0) (openAt .null 0) = none) := by decide +kernel

/-- A copy of just the offered 2 soft bits to SCH, an empty copy, a copy to a port bound NULL, and an in-place publish of a whole
view. -/
theorem witness_PublishStores :
    let s := streaming 0
    let p : Port := { openAt .real 3 with viewLen := 2, viewBase := 3 }
    let u := with1 (bun .demod d2) { ctx 5 3 with stage := List.replicate 5 (some 10#8), sch := p } (locked 1 false)
    (s.port? (.sch 0) = some (openAt .real 3) ∧ offers (s.offer (.sch 0) (openAt .real 3)) 2 = true) ∧
    (offers (s.offer (.sch 0) (openAt .real 3)) 0 = true ∧ offers (s.offer (.uci .ack 0) (openAt .null 0)) 9 = true) ∧
    (u.port? (.sch 0) = some p ∧ (2#19).toNat = [10#8, 10#8].length ∧ (2#19).toNat ≤ p.viewLen ∧
      u.viewLlrs (.sch 0) p 2 = some [10#8, 10#8]) := by decide +kernel

/-- An empty copy; one soft bit short of the symbol; and the copy that completes it, which runs DEMUX_SYMBOL. -/
theorem witness_PublishFillsTheSymbol :
    let s := with1 { bun .demod d2 with dm := { Demux.reset with symBuf := List.replicate 22 (some 10#8), symCnt := 22 } }
      (ctx 264 0) (locked 1 false)
    let x : Bundle := { bun .demod d2 with dm := { Demux.reset with symBuf := List.replicate 22 (some 10#8), symCnt := 22 } }
    (s.bundles[(0#8).toNat]? = some x ∧ x.demuxIn.isOpen = true ∧ x.demuxIn.bound = .real ∧
      ([] : List (BitVec 8)).length ≤ symbolBits x.d x.l - x.dm.symCnt ∧ [1#8].length ≤ symbolBits x.d x.l - x.dm.symCnt ∧ x.dm.symCnt + [1#8].length ≠ symbolBits x.d x.l) ∧
    (x.dm.symCnt + [1#8, 2#8].length = symbolBits x.d x.l ∧
      done (exec (.demuxSymbol 0#8 (BitVec.ofNat 16 x.l)) ((s.record (.publishCopy 0#4 0#8 [1#8, 2#8])).modBundle 0 (fun _ => { x with
        demuxIn := { x.demuxIn with viewLen := 0 }
        dm := { x.dm with symBuf := Slots.write x.dm.symBuf x.dm.symCnt [1#8, 2#8], symCnt := 24 } }))) = true) := by
  decide +kernel

/-- A bundle with a CSI1 port bound REAL that has two soft bits. -/
def bunCsi1 (c : Csi2State) : Bundle := { bun3 .demod c with
  csi1 := { FieldUnit.reset with port := openAt .real 2, llr := [some 5#8, some 6#8] } }

/-- A port bound NULL; CSI1; SCH with its budget met; DEMUX_IN. -/
theorem witness_CloseRunsTheConsumer :
    let s := with1 (bunCsi1 .off) (ctx 264 264) (locked 1 false)
    (s.port? (.uci .ack 0) = some (openAt .null 0)) ∧
    (s.port? (.uci .csi1 0) = some (openAt .real 2) ∧ Slots.get? ((bunCsi1 .off).uci .csi1).llr 0 2 = some [5#8, 6#8] ∧
      (bunCsi1 .off).dm.csi2State ≠ .waiting) ∧
    (s.port? (.sch 0) = some (openAt .real 264) ∧ done (exec (.closeDispatch 0#8)
      ((s.record (.close 1#4 0#8)).modPort (.sch 0) (fun q => { q with isOpen := false, viewLen := 0 }))) = true) ∧
    (s.port? (.demuxIn 0) = some (openAt .real 0) ∧ done (exec (.demuxFlush 0#8)
      ((s.record (.close 0#4 0#8)).modPort (.demuxIn 0) (fun q => { q with isOpen := false, viewLen := 0 }))) = true) := by
  decide +kernel

/-- Whichever way the UCI decoder decides, one clause applies; the FIFO has just enough room for the request. -/
theorem witness_Csi1CloseAsksForCsi2 :
    let x := bunCsi1 .waiting
    let s : State := { with1 x (ctx 42 0) (locked 1 false) with params := { Params.reference with evqDepth := 3 } }
    let n := csi1Bits x.d
    (s.bundles[(0#8).toNat]? = some x ∧ x.csi1.port.isOpen = true ∧ x.csi1.port.bound = .real ∧ x.dm.csi2State = .waiting ∧
      Slots.get? x.csi1.llr 0 x.csi1.port.count = some [5#8, 6#8]) ∧
    s.evq.length + (2 + (((List.range n).map (Config.uciBit .csi1 n [5#8, 6#8])).length + 31) / 32) ≤ s.params.evqDepth ∧
    (Config.uciValid .csi1 n [5#8, 6#8] = true ∨ Config.uciValid .csi1 n [5#8, 6#8] = false) := by
  refine ⟨by decide +kernel, by simp only [List.length_map]; decide +kernel, ?_⟩
  cases Config.uciValid .csi1 _ _ <;> simp

/-- A reserved id; a CLOSED port; a view of 0 slots; a full and a nearly full port (spec/95 P3, P7, P9, P10, P12). -/
theorem witness_PortViolations :
    let s := streaming 24
    5 ≤ (5#4).toNat ∧ (State.reset.port? (.sch 1) = some Port.reset ∧ Port.reset.isOpen = false) ∧
    (s.port? (.sch 0) = some (openAt .real 3) ∧ (openAt .real 3).viewLen < (1#19).toNat) ∧
    s.offer (.demuxIn 0) (openAt .real 0) = some 0 ∧
    (s.offer (.sch 0) (openAt .real 3) = some 2 ∧ 2 < [1#8, 2#8, 3#8].length) := by decide +kernel

/-! ### Codeblock tasks -/

/-- g = 32, C = 3, QM·NL = 2 of spec/95 section 2.4: codeblocks 0 and 1 are the shorter ones, codeblock 2 the longer one. -/
theorem witness_RateMatchedLengths :
    (0 < 3 ∧ 0 < 2 ∧ 32 % 2 = 0) ∧ (1 < 3 ∧ 1 + 32 / 2 % 3 < 3) ∧ (2 < 3 ∧ 3 ≤ 2 + 32 / 2 % 3) ∧ 3 ≤ 32 / 2 ∧
    (List.range 3).map (rateMatchedLen 3 2 32) = [10, 10, 12] := by decide +kernel

/-- Buffer positions 35, 36, 39 and 40 of the A = 24 geometry: the fillers are 36 to 39. -/
theorem witness_RateDematchKeepsRange :
    let g := segment 24 .bg1 264 2 1 0 false 0
    Params.reference.legal = true ∧ ¬ g.kPrime ≤ 35 + 2 * g.zc ∧ (g.kPrime ≤ 36 + 2 * g.zc ∧ 39 + 2 * g.zc < g.k) ∧
    ¬ 40 + 2 * g.zc < g.k ∧ (-120 ≤ (120#8).toInt ∧ (120#8).toInt ≤ 120) := by decide +kernel

/-- TB context 0 with `n` codeblock tasks outstanding. -/
def working (fsm : TbFsm) (n : Nat) : TbCtx := { ctx 264 264 with
  fsm := fsm
  counter := n
  seg := segment 24 .bg1 264 2 1 0 false 0
  iter := [0]
  decoded := [false] }

/-- Order (a) of R360: CBE[1] completes the second task of the queue while the first one is not complete yet. It has passed the
head once more, which stays the head. -/
theorem test_tasks_complete_out_of_order :
    let s : State := { with1 Bundle.reset (working .decoding 2) (locked 1 false) with taskq := [0x20010000#32, 0x21000000#32] }
    after (runTask 1 1 s.taskHead.pass s) (fun t => decide (t.taskq = [0x20010000#32] ∧ t.taskHead = ⟨0, 1⟩ ∧
      t.tbs[0]?.map (fun x => x.counter) = some 1)) = true ∧
    waits (runTask 1 2 s.taskHead.pass s) = true := by decide +kernel

/-- R340: CBE[1] completes the task at the head of the queue, and the task behind it is the next head. -/
theorem test_the_head_task_completes :
    let s : State := { with1 Bundle.reset (working .decoding 2) (locked 1 false) with
      taskq := [0x21000000#32, 0x20010000#32]
      taskHead := ⟨4, 3⟩ }
    after (runAgent (.cbe 1) s) (fun t => decide (t.taskq = [0x20010000#32] ∧ t.taskHead = ⟨5, 0⟩)) = true := by decide +kernel

/-- The counter at 2 in DECODING, and at 1 in COLLECTING. -/
theorem witness_CodeblockTasks :
    let x := working .decoding 2
    let y := working .collecting 1
    let s := with1 Bundle.reset x (locked 1 false)
    (s.fatal = false ∧ s.tbs[(0#8).toNat]? = some x ∧ s.harq[x.handle]? = some (locked 1 false) ∧
      (locked 1 false).hstate = .locked ∧ x.fsm = .decoding ∧ (0#16).toNat < x.seg.c ∧
      (locked 1 false).cbs[(0#16).toNat]? = some ⟨List.replicate 132 0#8, goodBits, false⟩) ∧
    Slots.get? x.stage (x.seg.off.getD 0 0) (x.seg.e.getD 0 0) = some (List.replicate 264 10#8) ∧
    2 ≤ x.counter ∧ (y.counter = 1 ∧ y.fsm = .collecting) := by decide +kernel

/-- Both clauses: with either task's results TB_JOIN completes. -/
theorem witness_LastTaskJoins :
    let x := { working .decoding 1 with earlyStop := false }
    let h := locked 1 false
    let s := with1 Bundle.reset x h
    let buf := rateDematch s.params x.seg x.qm x.newData (List.replicate 132 0#8) (List.replicate 264 10#8)
    let out := ldpcLoop x.bg x.seg x.earlyStop x.maxIter (ldpcInput x.seg buf)
    (s.tbs[(0#8).toNat]? = some x ∧ s.harq[x.handle]? = some h ∧ x.fsm = .decoding ∧ x.counter = 1 ∧
      Slots.get? x.stage (x.seg.off.getD 0 0) (x.seg.e.getD 0 0) = some (List.replicate 264 10#8)) ∧
    done (exec (.tbJoin 0#8) { (s.record (.cbRateDematch 0#8 0#16)).record (.cbComplete 0#8 0#16) with
      harq := s.harq.set x.handle { h with cbs := h.cbs.set 0 ⟨buf, goodBits, false⟩ }
      tbs := s.tbs.set 0 { x with counter := 0, iter := x.iter.set 0 0, decoded := x.decoded.set 0 false } }) = true ∧
    ∀ c : Bool, done (exec (.tbJoin 0#8) { (s.record (.cbDecode 0#8 0#16)).record (.cbComplete 0#8 0#16) with
      harq := s.harq.set x.handle { h with cbs := h.cbs.set 0 ⟨buf, out.2.take x.seg.kPrime, c⟩ }
      tbs := s.tbs.set 0 { x with counter := 0, iter := x.iter.set 0 (out.1.getD x.maxIter), decoded := x.decoded.set 0 true } }) = true := by
  decide +kernel

/-! ### The front end -/

theorem witness_ChestResult :
    let s (ph : Phase) := with1 (bun ph d2) (ctx 264 0) (locked 1 false)
    (s .chest).bundles[(0#8).toNat]? = some (bun .chest d2) ∧ (bun .chest d2).phase = .chest ∧ (bun .demod d2).phase ≠ .chest := by
  decide +kernel

/-- Work of exactly the symbol's 24 soft bits; its first and last soft bit, and the first beyond it. -/
theorem witness_DescrambleResult :
    let x : Bundle := { bun .demod d2 with work := List.replicate 24 7#8 }
    (with1 x (ctx 264 0) (locked 1 false)).bundles[(0#8).toNat]? = some x ∧ symbolBits x.d x.l = 24 ∧
    symbolBits x.d x.l ≤ x.work.length ∧ 24#16 = BitVec.ofNat 16 (symbolBits x.d x.l) ∧ x.work[0]? = some 7#8 ∧
    x.work[23]? = some 7#8 ∧ symbolBits x.d x.l ≤ 24 ∧ 23#16 ≠ BitVec.ofNat 16 (symbolBits x.d x.l) := by decide +kernel

/-- Just enough room, and one word less. -/
theorem witness_EndStatsResult :
    let s (n : Nat) : State := { with1 (bun .endPdu d2) (ctx 264 0) (locked 1 false) with params := { Params.reference with evqDepth := n } }
    (s 4).bundles[(0#8).toNat]? = some (bun .endPdu d2) ∧ (s 4).evq.length + 4 ≤ (s 4).params.evqDepth ∧
    (s 3).params.evqDepth < (s 3).evq.length + 4 := by decide +kernel

/-- Symbol 2 of D2, a DM-RS symbol without data (spec/95 section 0). -/
theorem witness_SymbolWithoutPositions :
    let x : Bundle := { bun .demod d2 with l := 2 }
    (with1 x (ctx 264 0) (locked 1 false)).bundles[(0#8).toNat]? = some x ∧ x.phase = .demod ∧ nofPositions x.d x.l = 0 ∧
    x.dm.csi2State ≠ .await := by decide +kernel

theorem bun_noUciDue : (bun .demod d2).noUciDue Params.reference := by
  unfold Bundle.noUciDue; decide +kernel

/-- Symbol 0 of D2: another phase; no room; just enough room, with nothing due but the 24 soft bits that SCH still takes. -/
theorem witness_DemodSymbolStreams :
    let x := bun .demod d2
    let c := ctx 264 240
    let s (n : Nat) : State := { with1 x c (locked 1 false) with params := { Params.reference with evqDepth := n } }
    x.noUciDue Params.reference ∧
    c.takes ((schPositions Params.reference x.d x.l (x.symbolSets Params.reference).1).length * bpr x.d) ∧
    (s 4).bundles[(0#8).toNat]? = some x ∧ (bun .chest d2).phase ≠ .demod ∧ nofPositions x.d x.l ≠ 0 ∧
    (s 3).params.evqDepth < (s 3).evq.length + 4 ∧ 0 < symbolBits x.d x.l ∧ (s 4).evq.length + 4 ≤ (s 4).params.evqDepth ∧
    x.demuxIn.isOpen = true ∧ x.demuxIn.bound = .real ∧ x.dm.symCnt = 0 ∧ (s 4).tbs[x.tbx]? = some c ∧ (s 4).held = false :=
  ⟨bun_noUciDue, by unfold TbCtx.takes; decide +kernel, by decide +kernel⟩

/-! ### The demultiplexer -/

/-- A symbol without and one with DM-RS, a HARQ-ACK of 1, 2 and 3 bits. -/
theorem witness_PartitionIsExact :
    isDmrs d2 1 = false ∧ isDmrs d2 2 = true ∧ ackBits { d2 with ack := 1#32 } = 1 ∧ ackBits { d2 with ack := 2#32 } = 2 ∧
    2 < ackBits { d2 with ack := 3#32 } := by decide

/-- Bundle 0 with all 24 soft bits of symbol `l` of the descriptor received. -/
def complete (d : Descriptor) (l : Nat) (c : Csi2State) : Bundle := { bun .demod d with
  l := l
  dm := { Demux.reset with
    symBuf := List.replicate 24 (some 10#8)
    symCnt := symbolBits d l
    csi2State := c
    bud := { initialBudgets d with csi1Rem := 0 } } }

/-- A symbol with UL-SCH alone, which exactly fills SCH; the DM-RS symbol, which publishes nothing; a symbol of D3 that holds; an
incomplete symbol and a wrong number. -/
theorem witness_DemuxSymbolResult :
    let x := complete d2 0 .off
    let s := with1 x (ctx 264 240) (locked 1 false)
    (x.noUciDue s.params ∧ (complete d2 2 .off).noUciDue s.params ∧ (ctx 264 240).takes 24) ∧
    (s.bundles[(0#8).toNat]? = some x ∧ s.tbs[x.tbx]? = some (ctx 264 240) ∧ x.dm.symCnt = symbolBits x.d x.l ∧
      schLlrs s.params x.d x.dm.symBuf x.l (x.symbolSets s.params).1 = some (List.replicate 24 10#8)) ∧
    schLlrs s.params d2 [] 2 ((complete d2 2 .off).symbolSets s.params).1 = some [] ∧
    ((complete d3 1 .await).dm.csi2State = .await ∧ (partitionA s.params d3 1 (complete d3 1 .await).dm.bud).1.a = [] ∧
      (partitionA s.params d3 1 (complete d3 1 .await).dm.bud).1.c1 = []) ∧
    (1#16 ≠ BitVec.ofNat 16 x.l ∧ (bun .demod d2).dm.symCnt ≠ symbolBits d2 0) :=
  ⟨by unfold Bundle.noUciDue TbCtx.takes; decide +kernel, by decide +kernel⟩

/-- A bundle in RESUME with the held sets of D3's symbol 1, CSI Part 2 in state `c`. -/
def resuming (c : Csi2State) (g2 : Nat) : Bundle :=
  let x := complete d3 1 c
  { x with
    phase := .resume
    csi2 := { FieldUnit.reset with port := openAt .real 0 }
    gCsi2 := 8
    dm := { x.dm with
      bud := { x.dm.bud with csi2Rem := g2 }
      csi2Bits := 5
      sets := some (partitionA Params.reference d3 1 (initialBudgets d3)).1 } }

/-- DEMUX_SYMBOL that advances and one that holds; DEMUX_RESUME with CSI Part 2 of 8 bits. -/
theorem witness_DemuxPublishesTheSets :
    (let s := with1 (complete d2 0 .off) (ctx 264 240) (locked 1 false)
     done (exec (.demuxSymbol 0#8 0#16) s) = true) ∧
    (let s := with1 (complete d3 1 .await) (ctx 42 0) (locked 1 false)
     after (exec (.demuxSymbol 0#8 1#16) s) (fun t => (t.bundles.map (fun x => x.phase)) = [.holdCsi2, .free]) = true) ∧
    (let s := with1 (resuming .configured 8) (ctx 34 0) (locked 1 false)
     (resuming .configured 8).dm.sets ≠ none ∧
     done (exec (.demuxResume 0#8 1#16) s) = true) := by decide +kernel

/-- After CSI2_NONE: D3's symbol 1 gives SCH the 18 soft bits of 9 positions (Program 4 of spec/95). -/
theorem witness_DemuxResumeResult :
    let x := resuming .declined 0
    let s := with1 x (ctx 42 0) (locked 1 false)
    let st := (partitionA Params.reference d3 1 (initialBudgets d3)).1
    (ctx 42 0).takes 18 ∧
    (s.bundles[(0#8).toNat]? = some x ∧ x.phase = .resume ∧ x.dm.sets = some st ∧
      (partitionB x.d (decide (x.dm.csi2State = .configured)) st x.dm.bud).1.c2 = [] ∧
      schLlrs s.params x.d x.dm.symBuf x.l (partitionB x.d (decide (x.dm.csi2State = .configured)) st x.dm.bud).1 =
        some (List.replicate 18 10#8)) ∧
    (schLlrs s.params x.d [] x.l (partitionB x.d true st ⟨0, 0, 0, 18⟩).1 = some [] ∧ (bun .demod d2).phase ≠ .resume) :=
  ⟨by unfold TbCtx.takes; decide +kernel, by decide +kernel⟩

/-- A transport block of two codeblocks (A = 8432) that has got its budget, with its two buffers. -/
def twoCbs : TbCtx := { ctx 4 4 with tbs := 8432 }

theorem twoCbs_dispatchable : (with1 (bun .endPdu d2) twoCbs (locked 2 false)).dispatchable 0 :=
  ⟨twoCbs, locked 2 false, rfl, rfl, by decide +kernel⟩

theorem quiet_null (n : Nat) : ({ FieldUnit.reset with port := openAt .null n } : FieldUnit).quiet := fun _ => rfl

/-- Field ports bound NULL; one codeblock, and two that the task queue takes; and a partial symbol. -/
theorem witness_DemuxFlushResult :
    let x := bun .endPdu d2
    let s := with1 x twoCbs (locked 2 false)
    (x.ack.quiet ∧ x.csi1.quiet ∧ x.csi2.quiet) ∧ s.dispatchable x.tbx ∧
    (s.bundles[(0#8).toNat]? = some x ∧ s.tbs[x.tbx]? = some twoCbs ∧ x.tbx < 256 ∧ x.dm.symCnt = 0 ∧
      twoCbs.sch.isOpen = true ∧ twoCbs.sch.bound = .real) ∧
    done (exec (.closeDispatch 0#8) { s with
      trace := s.trace ++ encode (.demuxFlush 0#8) ++ x.closeWords 0#8 ++ encode (.close 1#4 0#8)
      bundles := s.bundles.set 0 x.flushed
      tbs := s.tbs.set x.tbx { twoCbs with sch := { twoCbs.sch with isOpen := false, viewLen := 0 } } }) = true ∧
    (streaming 1).bundles.map (fun y => y.dm.symCnt) ≠ [0, 0] :=
  ⟨⟨quiet_null 0, quiet_null 0, quiet_null 0⟩, twoCbs_dispatchable, by decide +kernel⟩

/-! ### The UCI decoders and the end of a PDU -/

/-- CSI Part 1 with two soft bits, and a field whose port is bound NULL (log 33). -/
theorem witness_UciDecodeResult :
    let s := with1 (bunCsi1 .off) (ctx 42 0) (locked 1 false)
    s.bundles[(0#8).toNat]? = some (bunCsi1 .off) ∧
    Slots.get? ((bunCsi1 .off).uci .csi1).llr 0 ((bunCsi1 .off).uci .csi1).port.count = some [5#8, 6#8] ∧
    (((bunCsi1 .off).uci .ack).port.bound = .null ∧
      Slots.get? ((bunCsi1 .off).uci .ack).llr 0 ((bunCsi1 .off).uci .ack).port.count = some []) := by decide +kernel

/-- Another phase; too little room for END_STATS; a flush that completes with just enough room for UCI_RESULT and with too little;
and the outright case. -/
theorem witness_SeqEndResult :
    let x := bun .endPdu d2
    let s (n : Nat) : State := { with1 x twoCbs (locked 2 false) with params := { Params.reference with evqDepth := n } }
    ((s 8).dispatchable x.tbx ∧ x.ack.quiet ∧ x.csi1.quiet ∧ x.csi2.quiet) ∧
    ((s 8).bundles[(0#8).toNat]? = some x ∧ x.phase = .endPdu ∧ (bun .demod d2).phase ≠ .endPdu ∧
      (s 3).params.evqDepth < (s 3).evq.length + 4 ∧ (s 8).evq.length + 4 ≤ (s 8).params.evqDepth ∧
      x.demuxIn.isOpen = true ∧ x.demuxIn.bound = .real ∧ (s 8).evq.length + 4 + x.uciResult.length ≤ (s 8).params.evqDepth) ∧
    after (exec (.demuxFlush 0#8) { s 8 with
      evq := (s 8).evq ++ [0#32, 0#32, 0#32, 0#32]
      bundles := (s 8).bundles.set 0 { x with demuxIn := { x.demuxIn with isOpen := false, viewLen := 0 } } })
      (fun u => !u.held && !u.fatal && decide (u.evq.length + x.uciResult.length = 8)) = true ∧
    7 < 4 + x.uciResult.length :=
  ⟨⟨⟨twoCbs, locked 2 false, rfl, rfl, by decide +kernel⟩, quiet_null 0, quiet_null 0, quiet_null 0⟩, by decide +kernel⟩

/-! ### The transport-block decoder -/

/-- `atWork` with bundle 0 latched to the IDLE TB context 1. -/
def configuring : State := { atWork with bundles := [{ Bundle.reset with tbx := 1 }, Bundle.reset] }

/-- An IDLE context with a FREE handle; an IDLE one with a LOCKED handle; and a context that is not IDLE. -/
theorem witness_TbConfigureResult :
    (base 1024).Exclusive ∧ atWork.Exclusive ∧ configuring.Exclusive ∧
    (let s := base 1024
     s.bundleConfiguring (0#8).toNat = some 0 ∧ s.bundles[0]? = some Bundle.reset ∧
     s.tbs[(0#8).toNat]? = some (TbCtx.reset Params.reference) ∧ s.harq[harqHandle Bundle.reset.d]? = some Harq.reset ∧
     Harq.reset.hstate ≠ .locked) ∧
    (configuring.bundleConfiguring (1#8).toNat = some 0 ∧ configuring.bundles[0]? = some { Bundle.reset with tbx := 1 } ∧
      configuring.tbs[(1#8).toNat]? = some (TbCtx.reset Params.reference) ∧
      configuring.harq[harqHandle Bundle.reset.d]? = some (locked 1 false) ∧ (locked 1 false).hstate = .locked) ∧
    (atWork.bundleConfiguring (0#8).toNat = some 0 ∧ atWork.tbs[(0#8).toNat]? = some (ctx 264 0) ∧ (ctx 264 0).fsm ≠ .idle) :=
  have h := witness_HandleOwnershipKept.1
  ⟨resetHarq_exclusive 1024, h, ⟨h.1, h.2⟩, by decide +kernel⟩

/-- A budget equal to what has arrived, one below it, and a context that is not COLLECTING. -/
theorem witness_SetNofSoftbitsResult :
    let s (a : Word) : State := { with1 Bundle.reset (ctx 42 34) (locked 1 false) with a2 := a }
    ((s 34#32).tbs[(0#8).toNat]? = some (ctx 42 34) ∧ (ctx 42 34).fsm = .collecting ∧
      (ctx 42 34).sch.count ≤ ((s 34#32).a2.extractLsb' 0 24).toNat) ∧
    ((s 33#32).a2.extractLsb' 0 24).toNat < (ctx 42 34).sch.count ∧ joining.fsm ≠ .collecting := by decide +kernel

/-- Another state; a budget not met; two codeblocks that the queue takes with not a slot to spare; and one codeblock, run inline. -/
theorem witness_CloseDispatchResult :
    let s := with1 Bundle.reset twoCbs (locked 2 false)
    let q : State := { s with taskq := List.replicate 6 0#32 }
    let seg := segment twoCbs.tbs twoCbs.bg twoCbs.g twoCbs.qm twoCbs.nl twoCbs.rv twoCbs.lbrmEn twoCbs.nref
    joining.fsm ≠ .collecting ∧ (ctx 264 263).sch.count ≠ (ctx 264 263).g ∧
    (q.tbs[(0#8).toNat]? = some twoCbs ∧ twoCbs.fsm = .collecting ∧ twoCbs.sch.count = twoCbs.g ∧ seg.c = 2 ∧
      q.harq[twoCbs.handle]? = some (locked 2 false) ∧ seg.c ≤ (locked 2 false).cbs.length ∧ 1 ≤ q.params.nCbe ∧
      q.taskq.length + seg.c ≤ q.params.taskqDepth) ∧
    (let y := ctx 264 264
     let started : State := { with1 Bundle.reset y (locked 1 false) with tbs := [y.start, TbCtx.reset Params.reference] }
     y.start.seg.c = 1 ∧ done (exec (.cbDecode 0#8 (BitVec.ofNat 16 0)) started) = true) := by decide +kernel

/-- Every clause: COLLECTING, DECODED with a join that completes, IDLE and DECODING; the counter at 0, 2 and 1 in each state. -/
theorem witness_CommitAndComplete :
    let s (t : TbCtx) := with1 (bun .commit d2) t (locked 1 true)
    ((s (working .collecting 1)).tbs[(0#8).toNat]? = some (working .collecting 1) ∧ (working .collecting 1).counter = 1) ∧
    (joining.fsm = .decoded ∧ done (exec (.tbJoin 0#8) ((s joining).record (.closeCommit 0#8))) = true) ∧
    ((working .idle 0).fsm = .idle ∧ (working .idle 0).counter = 0 ∧ (working .decoding 2).fsm = .decoding ∧
      2 ≤ (working .decoding 2).counter) ∧
    (let x := working .decoding 1
     x.counter = 1 ∧ done (exec (.tbJoin 0#8) { (s x).record (.cbComplete 0#8 0#16) with
       tbs := (s x).tbs.set 0 { x with counter := x.counter - 1 } }) = true) ∧
    ((working .decoded 1).counter = 1 ∧ (working .decoded 1).fsm = .decoded) ∧
    ((s joining).bundles[0]? = some (bun .commit d2) ∧ (bun .commit d2).phase = .commit ∧ (bun .commit d2).tbx = (0#8).toNat ∧
      done (exec (.closeCommit 0#8) (s joining)) = true) := by decide +kernel

/-- No join due; one codeblock that has passed, at the top of the address space, with just enough room and with one word less. -/
theorem witness_TbJoinResult :
    let x : TbCtx := { joining with tbDest := 0xFFFFFFFD }
    let h := locked 1 true
    let s (n : Nat) : State := { with1 (bun .commit d2) x h with
      params := { Params.reference with evqDepth := n }
      windows := [⟨7#8, 0xFFFFFFFD, 3, false, [], []⟩] }
    (ctx 264 264).fsm ≠ .decoded ∧ (working .decoding 1).counter ≠ 0 ∧
    ((s 4).tbs[(0#8).toNat]? = some x ∧ x.fsm = .decoded ∧ x.counter = 0 ∧ (s 4).harq[x.handle]? = some h ∧ 1 ≤ x.seg.c ∧
      x.seg.c ≤ h.cbs.length ∧ (∀ cb ∈ h.cbs, x.seg.kPrime ≤ cb.data.length) ∧ x.seg.c = 1 ∧ x.tbs ≤ x.seg.kPrime ∧
      x.tbDest + x.tbs / 8 ≤ 2 ^ 32) ∧
    (s 4).evq.length + 4 ≤ (s 4).params.evqDepth ∧ (s 3).params.evqDepth < (s 3).evq.length + 4 ∧
    (2 < x.tbs / 8 ∧ (s 4).contested ((s 4).joiningWindow x.tag) (x.tbDest + 2) = false ∧
      (s 4).joiningWindow x.tag = some 0) := by decide +kernel

/-- A codeblock of A = 8432 that has passed, its data all 0. -/
def zeroCb : CbBuf := ⟨[], List.replicate 4252 false, true⟩

/-- Two codeblocks (A = 8432), each with K' = 4252 bits of data: the clause for several codeblocks. -/
theorem witness_TbJoinResult_several :
    let g := segment 8432 .bg1 4 2 1 0 false 0
    let x : TbCtx := { joining with tbs := 8432, seg := g }
    let h : Harq := { locked 2 true with cbs := List.replicate 2 zeroCb }
    (x.seg.c = 2 ∧ 1 ≤ x.seg.c ∧ x.seg.c ≤ h.cbs.length ∧ x.tbs ≤ x.seg.c * (x.seg.kPrime - 24) ∧
      x.tbDest + x.tbs / 8 ≤ 2 ^ 32) ∧
    ∀ cb ∈ h.cbs, x.seg.kPrime ≤ cb.data.length := by
  refine ⟨by decide +kernel, fun cb hcb => ?_⟩
  rw [List.eq_of_mem_replicate hcb]
  simp only [zeroCb, List.length_replicate]
  decide +kernel

/-- All bits 0 pass every CRC (spec/95 section 0). -/
theorem test_zero_data_passes : crcPass .crc24a (List.replicate 48 false) = true := by decide +kernel

end Sys2Proof.Tests
end

