-- ==== Sys2Proof/Proofs/Scope.lean ====
section
/-!
PROOFS. How a turn runs its operation (spec/00_scope.md R11, R15), how an operation ends, and CHEST.
-/

namespace Sys2Proof.Machine

/-! ### What a turn runs -/

/-- A turn already determined is the next one (R110; log 7). -/
theorem step_of_sched {s : State} {t : Turn} {turns : List Turn} (h : s.sched = t :: turns) :
    step s = runTurn t { s with sched := turns, held := false } := by
  simp only [step, stepTurn, State.takeTurn, h]

theorem stepIssue_of_decode {ws : List Word} {i : Instr} (h : decode ws = .ok (i, [])) (s : State) :
    stepIssue ws s = exec i s := by
  simp only [stepIssue, h]

/-- A hold leaves the state from before the removal; every other answer stands (R15). -/
theorem settle_eq (s : State) (o : Host.Outcome State Fault Refusal) :
    settle s o = match o with
      | .next t => .next (if t.held then { s with held := true } else t)
      | .fault r => .fault r
      | .refused r => .refused r := by
  cases o with
  | next t => exact (apply_ite Host.Outcome.next (t.held = true) s.hold t).symm
  | fault r => rfl
  | refused r => rfl

/-- CMDU runs the command it decodes, with the command's words removed (R142). -/
theorem stepCmdu_of_decodeCommand {s : State} {i : Instr} {left : List Word} (hf : s.fatal = false)
    (hd : decodeCommand s.cmdq = .ok (i, left)) : stepCmdu s = settle s (exec i { s with cmdq := left }) := by
  cases hq : s.cmdq with
  | nil => rw [hq] at hd; cases hd
  | cons w rest =>
    rw [hq] at hd
    simp [stepCmdu, hf, hq, hd]

/-- An engine runs the task behind `earlier`, with that task removed (R340, R360). -/
theorem runTask_of_decodeTask {s : State} {e : Nat} {head : QueueHead} {i : Instr} {w : Word} {earlier later : List Word}
    (hf : s.fatal = false) (he : e < s.params.nCbe) (hk : earlier.length < s.params.nCbe)
    (hq : s.taskq = earlier ++ w :: later) (hd : decodeTask w = some i) :
    runTask e earlier.length head s = settle s (exec i { s with taskq := earlier ++ later, taskHead := head }) := by
  have enabled : ¬ (s.fatal = true ∨ s.params.nCbe ≤ e ∨ s.params.nCbe ≤ earlier.length) := by
    rw [hf]; simp only [Bool.false_eq_true, false_or]; omega
  have task : s.taskq[earlier.length]? = some w := by simp [hq]
  have removed : s.taskq.eraseIdx earlier.length = earlier ++ later := by
    rw [hq, List.eraseIdx_append_of_length_le (Nat.le_refl _)]; simp
  simp only [runTask, if_neg enabled, task, hd, removed]

/-- Settles O4: each kind of turn takes itself out of `sched`, then runs what it decodes under `settle`. -/
theorem stepRunsTheDecodedOperation : Obligations.StepRunsTheDecodedOperation := by
  rintro s s0 i turns rfl
  refine ⟨fun ws hs hd => ?issue, fun left hs hf hd => ?cmdu, fun e w tasks hs hf he hq hd => ?cbe,
    fun e k w earlier later hs hf he hk hq hl hd => ?cbeAhead⟩
  case issue => exact (step_of_sched hs).trans (stepIssue_of_decode hd _)
  case cmdu => exact ((step_of_sched hs).trans (stepCmdu_of_decodeCommand hf hd)).trans (settle_eq _ _)
  case cbe =>
    have run := runTask_of_decodeTask (s := { s with sched := turns, held := false }) (head := s.taskHead.next)
      (earlier := []) hf he (Nat.zero_lt_of_lt he) hq hd
    exact ((step_of_sched hs).trans run).trans (settle_eq _ _)
  case cbeAhead =>
    subst hl
    have run := runTask_of_decodeTask (s := { s with sched := turns, held := false }) (head := s.taskHead.pass) hf he hk hq hd
    rw [step_of_sched hs]
    simp only [runTurn, runAgent, stepCbeAhead]
    split
    · exact run.trans (settle_eq _ _)
    · rfl

/-! ### How an operation ends -/

/-- Settles O12: an operation is one effect under `runOp`; a completed effect `Keeps` the host side, and a stop is what
`takeStop` makes of it. -/
theorem operationOutcomes : Obligations.OperationOutcomes := by
  intro i s t h
  obtain ⟨tag, op, hrun, hkeeps⟩ := exec_eq_runOp i
  rw [hrun] at h
  rcases runOp_next h with ⟨-, hold⟩ | ⟨-, completed⟩ | ⟨-, e, -, stop⟩
  · exact .inl hold
  · have k := hkeeps s t completed
    exact .inr <| .inr <| .inr ⟨k.fatal, k.errCode, k.errDetail, k.cmdErr, k.irqEnable, k.decCfg, k.desc, k.params, k.cmdq,
      k.rdata, k.popLeft, k.sched, k.turnNo, k.held, k.taskHead, k.evqGrows⟩
  · rcases takeStop_next stop with hold | fatal | ⟨c, d, room, raised⟩
    · exact .inl hold
    · exact .inr (.inl fatal)
    · exact .inr <| .inr <| .inl ⟨tag, c, d, room, raised⟩

/-! ### CHEST (R380) -/

theorem chestOp_of_phase {s : State} {b : Nat} {x : Bundle} (hx : s.bundles[b]? = some x) (hp : x.phase = .chest) :
    chestOp b s = .ok { s.record (.chest (BitVec.ofNat 8 b)) with bundles := s.bundles.set b x.estimate } := by
  have bundle : (s.record (.chest (BitVec.ofNat 8 b))).getBundle b = .ok x := getBundle_eq_ok.2 hx
  simp only [chestOp, bundle, ok_bind, check_pos hp, State.modBundle]
  rw [← modify_set Bundle.estimate hx]
  rfl

theorem chestOp_hold {s : State} {b : Nat} {x : Bundle} (hx : s.bundles[b]? = some x) (hp : x.phase ≠ .chest) :
    chestOp b s = .error .hold := by
  have bundle : (s.record (.chest (BitVec.ofNat 8 b))).getBundle b = .ok x := getBundle_eq_ok.2 hx
  simp only [chestOp, bundle, ok_bind, check_neg hp, error_bind]

/-- Settles O44: `chestOp` completes in phase CHEST and holds in every other. -/
theorem chestResult : Obligations.ChestResult := by
  intro s b x hf hx
  refine ⟨fun hp => ?_, fun hp => runOp_hold hf (chestOp_hold hx hp)⟩
  have completed := chestOp_of_phase hx hp
  rw [BitVec.ofNat_toNat, BitVec.setWidth_eq] at completed
  exact runOp_ok hf completed

end Sys2Proof.Machine
end

section
/-!
PROOFS. What every step keeps: `State.Sound` at reset and after every turn (spec/10_state.md R45 to R66, spec/20_memory.md R100,
spec/60_exceptions.md R465, spec/70_reset_and_hazards.md R500), and what a reset leaves.
-/

namespace Sys2Proof.Machine

/-! ### Reserved bits (R41, R42) -/

/-- A register that stores only its writable bits has no others. -/
theorem and_mask_idem (v m : Word) : v &&& m &&& m = v &&& m := by
  rw [BitVec.and_assoc, BitVec.and_self]

/-- A write to a descriptor register leaves every reserved bit 0 (R42). -/
theorem descWrite_masked {d : Descriptor} (h : d.masked) (off : BitVec 12) (v : Word) : (descWrite d off v).masked := by
  have fields := Descriptor.mk.inj h
  unfold descWrite
  split <;> simp_all [Descriptor.masked, Descriptor.writable, and_mask_idem]

/-! ### Operations -/

/-- An operation's own effect keeps the block sound. -/
theorem State.Sound.of_keeps {s t : State} (hs : s.Sound) (k : s.Keeps t) : t.Sound where
  bundleCount := by rw [k.bundleCount, k.params, hs.bundleCount]
  tbCount := by rw [k.tbCount, k.params, hs.tbCount]
  harqCount := by rw [k.harqCount, k.params, hs.harqCount]
  cmdqBound := by rw [k.cmdq, k.params]; exact hs.cmdqBound
  evqBound := by rw [k.params]; exact k.evqBound hs.evqBound
  taskqBound := by rw [k.params]; exact k.taskqBound hs.taskqBound
  dmemForm := k.dmemForm hs.dmemForm
  decCfgMasked := by rw [k.decCfg]; exact hs.decCfgMasked
  descMasked := by rw [k.desc]; exact hs.descMasked
  latchedMasked := k.latchedMasked hs.descMasked hs.latchedMasked
  bundleViews := k.bundleViews hs.bundleViews
  schViews := k.schViews hs.schViews
  fatalCode := by rw [k.fatal, k.errDetail, k.errCode]; exact hs.fatalCode

theorem State.Sound.hold {s : State} (hs : s.Sound) : s.hold.Sound := { hs with }

/-- Taking an exception keeps the block sound: a fatal error writes its code with detail 0 (R465), and a command error waits for
the room of its record (R111, R462). -/
theorem takeStop_sound {ws : List Word} {tag : BitVec 8} {e : Stop} {s t : State} (hs : s.Sound) (running : s.fatal = false)
    (h : s.takeStop ws tag e = .next t) : t.Sound := by
  rcases takeStop_next h with rfl | ⟨c, rfl⟩ | ⟨c, d, room, rfl⟩
  · exact hs.hold
  · exact { hs with fatalCode := fun _ => ⟨rfl, c, rfl⟩ }
  · exact { hs with
      evqBound := by simpa [errorRecord, eventRecord_length] using room
      fatalCode := fun stopped => absurd stopped (by simp [running]) }

theorem exec_sound {i : Instr} {s t : State} (hs : s.Sound) (h : exec i s = .next t) : t.Sound := by
  obtain ⟨tag, op, hrun, hkeeps⟩ := exec_eq_runOp i
  rw [hrun] at h
  rcases runOp_next h with ⟨-, rfl⟩ | ⟨-, completed⟩ | ⟨running, e, -, stop⟩
  · exact hs.hold
  · exact hs.of_keeps (hkeeps s t completed)
  · exact takeStop_sound hs running stop

/-- A step that removed words keeps the block sound where the step on the rest does. -/
theorem settle_sound {s t : State} {o : Host.Outcome State Fault Refusal} (hs : s.Sound) (ho : ∀ u, o = .next u → u.Sound)
    (h : settle s o = .next t) : t.Sound := by
  rcases settle_next h with rfl | ⟨-, stands⟩
  · exact hs.hold
  · exact ho t stands

/-! ### HOST -/

theorem csrRead_sound {s : State} (hs : s.Sound) (off : BitVec 12) : (s.csrRead off).Sound := by
  unfold State.csrRead State.popEvent
  split
  · split
    case h_1 => exact { hs with }
    case h_2 w rest hq =>
      have shorter : rest.length ≤ s.params.evqDepth := by
        have := hs.evqBound; rw [hq, List.length_cons] at this; omega
      unfold State.notePop
      split <;> exact { hs with evqBound := shorter }
  · exact { hs with }

theorem pushCommand_sound {s : State} (hs : s.Sound) (v : Word) : (s.pushCommand v).Sound := by
  unfold State.pushCommand
  split
  case isTrue => exact hs
  case isFalse running =>
    split
    case isTrue => exact { hs with fatalCode := fun stopped => absurd stopped running }
    case isFalse room =>
      have : s.cmdq.length < s.params.cmdqDepth := by simpa [State.cmdqFull] using room
      exact { hs with cmdqBound := by simpa using this }

theorem csrWrite_sound {s : State} (hs : s.Sound) (off : BitVec 12) (v : Word) : (s.csrWrite off v).Sound := by
  unfold State.csrWrite
  split
  · exact { hs with }
  · exact { hs with }
  · exact pushCommand_sound hs v
  · exact { hs with decCfgMasked := and_mask_idem v decCfgMask }
  · exact { hs with descMasked := descWrite_masked hs.descMasked off v }

theorem dmemRead_sound {s : State} (hs : s.Sound) (a : Nat) : (s.dmemRead a).Sound := by
  unfold State.dmemRead
  split <;> exact { hs with }

theorem dmemWrite_sound {s : State} (hs : s.Sound) {a : Nat} (ha : a < 2 ^ 32) (v : Byte) : (s.dmemWrite a v).Sound := by
  unfold State.dmemWrite
  split <;> exact { hs with dmemForm := Memory.wf_write _ _ _ hs.dmemForm ha }

theorem stepHost_sound {op : HostOp} {s t : State} (hs : s.Sound) (h : stepHost op s = .next t) : t.Sound := by
  cases op with
  | csrRead width off =>
    simp only [stepHost] at h
    split at h <;> cases h
    exact csrRead_sound hs off
  | csrWrite width off v =>
    simp only [stepHost] at h
    split at h <;> cases h
    exact csrWrite_sound hs off v
  | dmemRead a => cases h; exact dmemRead_sound hs _
  | dmemWrite a v => cases h; exact dmemWrite_sound hs a.isLt v

/-! ### CMDU, SEQ and CBE -/

/-- A host command's words come off the head of the FIFO (R142). -/
theorem decodeHost_suffix {w : Word} {rest left : List Word} {i : Instr} (h : decodeHost w rest = .ok (i, left)) :
    left <:+ rest := by
  unfold decodeHost at h
  split at h
  case h_2 =>
    split at h
    · split at h <;> cases h
      exact ⟨[_, _], rfl⟩
    · cases h
  case h_5 => cases h; exact List.suffix_refl _
  case h_6 => cases h
  all_goals
    split at h <;> cases h
    exact List.suffix_refl _

theorem decodeCommand_length {ws left : List Word} {i : Instr} (h : decodeCommand ws = .ok (i, left)) :
    left.length ≤ ws.length := by
  cases ws with
  | nil => cases h
  | cons w rest =>
    simp only [decodeCommand] at h
    split at h
    · exact Nat.le_succ_of_le (decodeHost_suffix h).length_le
    · cases h

/-- Words removed from the command FIFO. -/
theorem State.Sound.withCmdq {s : State} (hs : s.Sound) {ws : List Word} (h : ws.length ≤ s.cmdq.length) :
    ({ s with cmdq := ws } : State).Sound := { hs with cmdqBound := h.trans hs.cmdqBound }

theorem stepCmdu_sound {s t : State} (hs : s.Sound) (h : stepCmdu s = .next t) : t.Sound := by
  unfold stepCmdu at h
  split at h
  case isTrue => cases h; exact hs.hold
  case isFalse running =>
    have running : s.fatal = false := by simpa using running
    split at h
    case h_1 => cases h; exact hs.hold
    case h_2 w rest hq =>
      split at h
      case h_1 i left hd =>
        have removed : left.length ≤ s.cmdq.length := by rw [hq]; exact decodeCommand_length hd
        exact settle_sound hs (fun _ => exec_sound (hs.withCmdq removed)) h
      case h_2 => exact settle_sound hs (fun _ => takeStop_sound (hs.withCmdq (ws := rest) (by simp [hq])) running) h
      case h_3 =>
        have removed : ∀ n, (rest.drop n).length ≤ s.cmdq.length := fun n => by
          rw [hq, List.length_drop, List.length_cons]; omega
        exact settle_sound hs (fun _ => takeStop_sound (hs.withCmdq (removed _)) running) h
      case h_4 => cases h; exact hs.hold
      case h_5 => cases h; exact hs.hold

theorem stepSeq_sound {b : Nat} {s t : State} (hs : s.Sound) (h : stepSeq b s = .next t) : t.Sound := by
  unfold stepSeq at h
  split at h
  case h_1 => cases h; exact hs.hold
  case h_2 x _ =>
    cases hp : x.phase <;> simp only [hp] at h
    case free => cases h; exact hs.hold
    case holdCsi2 => cases h; exact hs.hold
    case commit =>
      unfold commitStep at h
      split at h
      case h_1 u hu =>
        have joined := exec_sound hs hu
        split at h <;> cases h
        · exact joined
        · exact joined.of_keeps (modBundle_keeps_quiet _ _ _ fun x => by simp)
      all_goals cases h
    all_goals exact exec_sound hs h

theorem runTask_sound {e i : Nat} {head : QueueHead} {s t : State} (hs : s.Sound) (h : runTask e i head s = .next t) :
    t.Sound := by
  unfold runTask at h
  split at h
  case isTrue => cases h; exact hs.hold
  case isFalse enabled =>
    split at h
    case h_1 => cases h; exact hs.hold
    case h_2 w _ =>
      have removed : ({ s with taskq := s.taskq.eraseIdx i, taskHead := head } : State).Sound :=
        { hs with taskqBound := (List.length_eraseIdx_le _ _).trans hs.taskqBound }
      split at h
      · exact settle_sound hs (fun _ => exec_sound removed) h
      · have running : s.fatal = false := by simpa using fun hf => enabled (.inl hf)
        exact takeStop_sound removed running h

/-! ### Reset (R66, R500) -/

theorem zero_masked : Descriptor.zero.masked := by
  unfold Descriptor.masked
  decide

theorem resetOf_sound (p : Params) : (State.resetOf p).Sound where
  bundleCount := List.length_replicate
  tbCount := List.length_replicate
  harqCount := List.length_replicate
  cmdqBound := Nat.zero_le _
  evqBound := Nat.zero_le _
  taskqBound := Nat.zero_le _
  dmemForm := rfl
  decCfgMasked := BitVec.zero_and
  descMasked := zero_masked
  latchedMasked := fun x hx => by rw [List.eq_of_mem_replicate hx]; exact zero_masked
  bundleViews := fun x hx => by
    rw [List.eq_of_mem_replicate hx]; exact ⟨fun _ => rfl, fun _ => rfl, fun _ => rfl, fun _ => rfl⟩
  schViews := fun x hx => by rw [List.eq_of_mem_replicate hx]; exact fun _ => rfl
  fatalCode := fun stopped => absurd stopped Bool.false_ne_true

/-- No handle is LOCKED and no context is at work right after reset. -/
theorem resetOf_exclusive (p : Params) : (State.resetOf p).Exclusive := by
  have unlocked : ∀ h, ¬ (State.resetOf p).lockedAt h := fun h locked => by
    obtain ⟨y, hy, hl⟩ := (lockedAt_iff _ h).1 locked
    rw [List.eq_of_mem_replicate (List.mem_of_getElem? hy)] at hl
    cases hl
  have idle : ∀ t, (State.resetOf p).holds t = none := fun t => by
    unfold State.holds
    split
    case h_1 x hx => rw [List.eq_of_mem_replicate (List.mem_of_getElem? hx)]; rfl
    case h_2 => rfl
  exact ⟨fun h => by simp [unlocked h, idle], fun t u h ht => by simp [idle] at ht⟩

theorem applyReset_sound {s : State} (hs : s.Sound) : s.applyReset.Sound :=
  { resetOf_sound s.params with dmemForm := hs.dmemForm }

/-! ### Every turn -/

theorem runTurn_sound {u : Turn} {s t : State} (hs : s.Sound) (h : runTurn u s = .next t) : t.Sound := by
  cases u with
  | agent a =>
    cases a with
    | host op => exact stepHost_sound hs h
    | cmdu => exact stepCmdu_sound hs h
    | seq b => exact stepSeq_sound hs h
    | cbe e => exact runTask_sound hs h
    | cbeAhead e i =>
      simp only [runTurn, runAgent, stepCbeAhead] at h
      split at h
      · exact runTask_sound hs h
      · cases h; exact hs.hold
    | resetInput => cases h; exact applyReset_sound hs
  | issue ws =>
    simp only [runTurn, stepIssue] at h
    split at h
    · exact exec_sound hs h
    · cases h
    · cases h

theorem takeTurn_sound {s : State} (hs : s.Sound) : s.takeTurn.2.Sound := by
  unfold State.takeTurn
  split <;> exact { hs with }

/-- Settles O7: taking the turn changes no field of the invariant, and every turn keeps it. -/
theorem soundKept : Obligations.SoundKept :=
  fun _ _ hs h => runTurn_sound (takeTurn_sound hs) h

/-- Settles O9: after reset every unit is a reset one, so each clause is about one closed value. -/
theorem invariantsAtReset : Obligations.InvariantsAtReset :=
  ⟨fun p => ⟨resetOf_sound p, resetOf_exclusive p⟩, resetOf_sound _, resetOf_exclusive _⟩

/-- Settles O17: a reset turn is `State.applyReset`, whose units are all reset ones. -/
theorem resetResult : Obligations.ResetResult := by
  intro s turns hs closed
  have port : closed Port.reset := ⟨rfl, rfl, rfl, rfl⟩
  have noError : 0#24 ++ 0#8 = 0#32 := by decide
  have quiet : flag false ++ flag false ++ flag false = 0#3 := by decide
  refine ⟨_, step_of_sched hs, rfl, rfl, rfl, rfl, rfl, rfl, noError, quiet, rfl, rfl, rfl, List.length_replicate,
    List.length_replicate, List.length_replicate, fun x hx => ?bundle, fun x hx => ?context, fun h hh => ?handle,
    rfl, rfl, rfl, rfl, rfl, rfl, rfl⟩
  case bundle =>
    rw [List.eq_of_mem_replicate hx]
    exact ⟨rfl, port, port, port, port, rfl, rfl, rfl⟩
  case context =>
    rw [List.eq_of_mem_replicate hx]
    exact ⟨rfl, port⟩
  case handle => rw [List.eq_of_mem_replicate hh]; rfl

end Sys2Proof.Machine
end

section
/-!
PROOFS. The host registers (spec/10_state.md R31 to R43): what a load reads, what a store changes, and what neither touches.
-/

namespace Sys2Proof.Machine

/-! ### Words as numbers (R9, R13) -/

theorem toNat_append_eq {n m : Nat} (x : BitVec n) (y : BitVec m) : (x ++ y).toNat = x.toNat * 2 ^ m + y.toNat := by
  rw [BitVec.toNat_append, ← Nat.shiftLeft_add_eq_or_of_lt y.isLt, Nat.shiftLeft_eq]

theorem field_eq_div_mod (w : Word) (lo len : Nat) : field w lo len = w.toNat / 2 ^ lo % 2 ^ len := by
  rw [field, BitVec.extractLsb'_toNat, Nat.shiftRight_eq_div_pow]

theorem flag_toNat (b : Bool) : (flag b).toNat = b.toNat := BitVec.toNat_ofBool b

/-- A one-bit number is 1 exactly where the bit is set. -/
theorem toNat_eq_one_iff (b : Bool) : b.toNat = 1 ↔ b = true := by cases b <;> decide

theorem toNat_decide_eq_one_iff {p : Prop} [Decidable p] : (decide p).toNat = 1 ↔ p :=
  (toNat_eq_one_iff _).trans decide_eq_true_iff

/-! ### Accesses (R107, R108) -/

/-- An aligned load reaches its register (R107). -/
theorem runAgent_csrRead {off : BitVec 12} (h : csrAligned 32 off = true) (s : State) :
    runAgent (.host (.csrRead 32 off)) s = .next (s.csrRead off) := if_pos h

/-- An aligned store reaches its register (R107). -/
theorem runAgent_csrWrite {off : BitVec 12} (h : csrAligned 32 off = true) (s : State) (v : Word) :
    runAgent (.host (.csrWrite 32 off v)) s = .next (s.csrWrite off v) := if_pos h

theorem csrAligned_of_mod {off : BitVec 12} (h : off.toNat % 4 = 0) : csrAligned 32 off = true := by
  have low : off.extractLsb' 0 2 = 0#2 := by
    apply BitVec.eq_of_toNat_eq
    simpa [BitVec.extractLsb'_toNat] using h
  simp [csrAligned, low]

/-- A load of any register but EVT changes nothing but what it returns (R108). -/
theorem csrRead_of_ne {off : BitVec 12} (h : off ≠ 0x034#12) (s : State) :
    s.csrRead off = { s with rdata := s.csrValue off } := if_neg h

/-! ### The command and event FIFOs (R38, R39) -/

theorem pushCommand_of_room {s : State} (running : s.fatal = false) (room : s.cmdq.length < s.params.cmdqDepth) (v : Word) :
    s.pushCommand v = { s with cmdq := s.cmdq ++ [v] } := by
  simp [State.pushCommand, State.cmdqFull, running, room]

theorem pushCommand_of_full {s : State} (running : s.fatal = false) (full : s.params.cmdqDepth ≤ s.cmdq.length) (v : Word) :
    s.pushCommand v = s.noteCmdError .cmdqOverflow 0#24 := by
  simp [State.pushCommand, State.cmdqFull, running, full]

theorem pushCommand_of_fatal {s : State} (stopped : s.fatal = true) (v : Word) : s.pushCommand v = s := if_pos stopped

/-- Settles O19: a store to CMD is `State.pushCommand`, whose three cases are the three clauses. -/
theorem commandStore : Obligations.CommandStore := by
  intro s v
  have store : runAgent (.host (.csrWrite 32 0x030#12 v)) s = .next (s.pushCommand v) := rfl
  refine ⟨fun running room => ?_, fun running full => ?_, fun stopped => ?_, rfl⟩
  · rw [store, pushCommand_of_room running room]
  · rw [store, pushCommand_of_full running full]; rfl
  · rw [store, pushCommand_of_fatal stopped]

/-- The window that closes is the oldest one of the tag. -/
theorem closeWindow_eq_eraseP (tag : BitVec 8) (ws : List Window) :
    closeWindow tag ws = ws.eraseP (fun x => decide (x.tag = tag)) := by
  induction ws with
  | nil => rfl
  | cons w ws ih => by_cases h : w.tag = tag <;> simp [closeWindow, h, ih]

/-- The head word is one of the record being popped. -/
theorem notePop_payload {s : State} (h : 0 < s.popLeft) (w : Word) : s.notePop w = { s with popLeft := s.popLeft - 1 } :=
  if_neg (Nat.ne_of_gt h)

/-- The head word is the header of the next record (R160). -/
theorem notePop_header {s : State} (h : s.popLeft = 0) (w : Word) :
    s.notePop w = { s with
      popLeft := field w 0 16
      windows := if w.opc = 0x04#8 then s.windows.eraseP (fun x => decide (x.tag = w.unit)) else s.windows } := by
  rw [State.notePop, if_pos h, closeWindow_eq_eraseP]

theorem popEvent_cons {s : State} {w : Word} {rest : List Word} (h : s.evq = w :: rest) :
    s.popEvent = { s.notePop w with evq := rest, rdata := w } := by simp only [State.popEvent, h]

theorem popEvent_nil {s : State} (h : s.evq = []) : s.popEvent = { s with rdata := 0#32 } := by simp only [State.popEvent, h]

/-- Settles O20: a load of EVT is `State.popEvent`; whether the popped word is a header decides what else it notes. -/
theorem eventLoad : Obligations.EventLoad := by
  intro s v
  have load : runAgent (.host (.csrRead 32 0x034#12)) s = .next s.popEvent := rfl
  refine ⟨fun w rest hq => ⟨fun inside => ?payload, fun header other => ?header, fun header result => ?result⟩,
    fun empty => ?empty, rfl⟩
  case payload => rw [load, popEvent_cons hq, notePop_payload inside]
  case header => rw [load, popEvent_cons hq, notePop_header header, if_neg other]; rfl
  case result => rw [load, popEvent_cons hq, notePop_header header, if_pos result]; rfl
  case empty => rw [load, popEvent_nil empty]

/-! ### PARAM0 to PARAM5 (R32) -/

theorem paramWord_zero_toNat (p : Params) : (paramWord p 0).toNat =
    p.nrxMax % 16 * 2 ^ 27 + p.nlMax % 8 * 2 ^ 24 + p.taskqDepth % 256 * 2 ^ 16 + p.nCbe % 256 * 2 ^ 8 +
      p.nTbdec % 16 * 2 ^ 4 + p.nBundles % 16 := by
  simp only [paramWord, toNat_append_eq, BitVec.toNat_ofNat]
  omega

theorem paramWord_one_toNat (p : Params) : (paramWord p 1).toNat =
    p.llrMax % 128 * 2 ^ 24 + p.maxCb % 256 * 2 ^ 16 + p.nHarq % 512 := by
  simp only [paramWord, toNat_append_eq, BitVec.toNat_ofNat]
  omega

theorem paramWord_four_toNat (p : Params) : (paramWord p 4).toNat =
    p.maxUciG / 16 % 2 ^ 16 * 2 ^ 16 + p.cmdqDepth % 2 ^ 16 := by
  simp only [paramWord, toNat_append_eq, BitVec.toNat_ofNat]

theorem paramWord_five_toNat (p : Params) : (paramWord p 5).toNat =
    (decide (p.ackStart = .ts38212)).toNat * 2 ^ 17 + (decide (p.rsvdForward = .discard)).toNat * 2 ^ 16 +
      p.evqDepth % 2 ^ 16 := by
  simp only [paramWord, toNat_append_eq, BitVec.toNat_ofNat, flag_toNat]
  omega

/-- The high field of PARAM2, a signed number. -/
theorem paramWord_two_filler (p : Params) : (paramWord p 2).extractLsb' 24 8 = BitVec.ofInt 8 p.llrFiller :=
  (extract_append_high (BitVec.ofInt 8 p.llrFiller) (BitVec.ofNat 24 p.maxCwBits) 24 8 (by omega)).trans (extract_all _)

theorem paramWord_two_low (p : Params) : field (paramWord p 2) 0 24 = p.maxCwBits % 2 ^ 24 := by
  simp only [field_eq_div_mod, paramWord, toNat_append_eq, BitVec.toNat_ofNat]
  omega

/-- Each parameter fits its field of PARAM0 to PARAM5. -/
structure Params.Fits (p : Params) : Prop where
  nBundles : p.nBundles < 2 ^ 4
  nTbdec : p.nTbdec < 2 ^ 4
  nCbe : p.nCbe < 2 ^ 8
  taskqDepth : p.taskqDepth < 2 ^ 8
  nHarq : p.nHarq < 2 ^ 9
  maxCb : p.maxCb < 2 ^ 8
  softbufLlrs : p.softbufLlrs < 2 ^ 32
  maxCwBits : p.maxCwBits < 2 ^ 24
  nlMax : p.nlMax < 2 ^ 3
  nrxMax : p.nrxMax < 2 ^ 4
  llrMax : p.llrMax < 2 ^ 7
  llrFiller : -128 ≤ p.llrFiller ∧ p.llrFiller < 128
  cmdqDepth : p.cmdqDepth < 2 ^ 16
  evqDepth : p.evqDepth < 2 ^ 16

/-- The legal ranges of R8 and R49 fit the registers (log 31). -/
theorem fits_of_legal {p : Params} (legal : p.legal = true) : Params.Fits p := by
  simp only [Params.legal, Bool.and_eq_true, decide_eq_true_eq] at legal
  constructor <;> omega

/-- Settles O15: each parameter is below the power of two that its field holds, so the field is the parameter. -/
theorem parameterRegisters : Obligations.ParameterRegisters := by
  intro s legal
  obtain ⟨bundles, tbdec, cbe, taskq, harq, maxCb, softbuf, cwBits, nlMax, nrxMax, llrMax, filler, cmdq, evq⟩ :=
    fits_of_legal legal
  have w0 := paramWord_zero_toNat s.params
  have w1 := paramWord_one_toNat s.params
  have w4 := paramWord_four_toNat s.params
  have w5 := paramWord_five_toNat s.params
  have discard := Bool.toNat_le (decide (s.params.rsvdForward = .discard))
  have ts38212 := Bool.toNat_le (decide (s.params.ackStart = .ts38212))
  have signed : (BitVec.ofInt 8 s.params.llrFiller).toInt = s.params.llrFiller := by
    rw [BitVec.toInt_ofInt]
    exact Int.bmod_eq_of_le (by omega) (by omega)
  refine ⟨paramWord s.params 0, paramWord s.params 1, paramWord s.params 2, paramWord s.params 3, paramWord s.params 4,
    paramWord s.params 5, rfl, rfl, rfl, rfl, rfl, rfl, ?_⟩
  rw [paramWord_two_filler, paramWord_two_low]
  simp only [field_eq_div_mod, w0, w1, w4, w5]
  refine ⟨by omega, by omega, by omega, by omega, by omega, by omega, by omega, by omega, by omega, by omega, by omega,
    by omega, by omega, signed, Nat.mod_eq_of_lt (by omega), by omega, by omega, by omega, ?_, ?_, by omega⟩
  · refine Iff.trans ?_ (toNat_decide_eq_one_iff (p := s.params.rsvdForward = .discard))
    omega
  · refine Iff.trans ?_ (toNat_decide_eq_one_iff (p := s.params.ackStart = .ts38212))
    omega

/-! ### The status and interrupt registers (R34 to R37, R40) -/

theorem and_ne_zero_iff (x y : BitVec 3) : x &&& y ≠ 0#3 ↔
    x.getLsbD 0 = true ∧ y.getLsbD 0 = true ∨ x.getLsbD 1 = true ∧ y.getLsbD 1 = true ∨
      x.getLsbD 2 = true ∧ y.getLsbD 2 = true := by
  revert x y
  decide

theorem flags_bits (a b c : Bool) : (flag a ++ flag b ++ flag c).getLsbD 0 = c ∧ (flag a ++ flag b ++ flag c).getLsbD 1 = b ∧
    (flag a ++ flag b ++ flag c).getLsbD 2 = a := by
  revert a b c
  decide

/-- The three sources of the interrupt (R36). -/
theorem irqStatus_bits (s : State) :
    s.irqStatus.getLsbD 0 = s.evqNonempty ∧ s.irqStatus.getLsbD 1 = s.cmdErr ∧ s.irqStatus.getLsbD 2 = s.fatal :=
  flags_bits _ _ _

/-- The bits of IRQ_STATUS in the word that a load returns (R36). -/
theorem irqStatus_word (s : State) :
    0#29 ++ s.irqStatus = 0#29 ++ BitVec.ofBool s.fatal ++ BitVec.ofBool s.cmdErr ++ BitVec.ofBool (!s.evq.isEmpty) := by
  apply BitVec.eq_of_toNat_eq
  simp only [State.irqStatus, State.evqNonempty, flag, toNat_append_eq]
  omega

theorem evqNonempty_iff (s : State) : s.evqNonempty = true ↔ s.evq ≠ [] := by simp [State.evqNonempty]

theorem cmdPending_iff (s : State) : s.cmdPending = true ↔ s.cmdq ≠ [] := by simp [State.cmdPending]

/-- The interrupt output is high exactly while an enabled source is (R37, R470). -/
theorem irq_iff (s : State) : s.irq = true ↔
    (s.evq ≠ [] ∧ s.irqEnable.getLsbD 0 = true) ∨ (s.cmdErr = true ∧ s.irqEnable.getLsbD 1 = true) ∨
      (s.fatal = true ∧ s.irqEnable.getLsbD 2 = true) := by
  obtain ⟨event, command, fatal⟩ := irqStatus_bits s
  rw [State.irq, decide_eq_true_iff, and_ne_zero_iff, event, command, fatal, evqNonempty_iff]

theorem statusWord_toNat (s : State) : s.statusWord.toNat =
    s.cmdqFree % 2 ^ 16 * 2 ^ 16 + s.freeTbdec % 16 * 2 ^ 12 + s.freeBundles % 16 * 2 ^ 8 + s.cmdPending.toNat * 8 +
      s.evqNonempty.toNat * 4 + s.cmdqFull.toNat * 2 + s.fatal.toNat := by
  simp only [State.statusWord, toNat_append_eq, BitVec.toNat_ofNat, flag_toNat]
  omega

theorem evtCount_toNat (s : State) : s.evtCount.toNat = s.evq.length % 2 ^ 16 := by
  simp only [State.evtCount, toNat_append_eq, BitVec.toNat_ofNat]
  omega

/-- In a sound state the command FIFO is full exactly where it holds CMDQ_DEPTH words (R34; log 22). -/
theorem cmdqFull_iff {s : State} (hs : s.Sound) : s.cmdqFull = true ↔ s.cmdq.length = s.params.cmdqDepth := by
  have := hs.cmdqBound
  rw [State.cmdqFull, decide_eq_true_iff]
  omega

/-- Settles O21: the registers are `State.irqStatus`, `State.errWord`, `State.statusWord` and `State.evtCount`, and the counts
of legal parameters fit their fields. -/
theorem statusRegisters : Obligations.StatusRegisters := by
  intro s v
  refine ⟨irqStatus_word s, rfl, rfl, rfl, irq_iff s, rfl, fun legal hs => ?_, fun off aligned notEvt => ?_⟩
  · have fits := fits_of_legal legal
    have evq := fits.evqDepth
    have word := statusWord_toNat s
    have count := evtCount_toNat s
    have freeBundles : s.freeBundles = (s.bundles.filter (fun x => decide (x.phase = .free))).length :=
      List.countP_eq_length_filter
    have freeTbdec : s.freeTbdec = (s.tbs.filter (fun x => decide (x.fsm = .idle))).length := List.countP_eq_length_filter
    have bundleCount : s.freeBundles < 2 ^ 4 := List.countP_le_length.trans_lt (hs.bundleCount.trans_lt fits.nBundles)
    have tbCount : s.freeTbdec < 2 ^ 4 := List.countP_le_length.trans_lt (hs.tbCount.trans_lt fits.nTbdec)
    have room : s.cmdqFree = min 65535 (s.params.cmdqDepth - s.cmdq.length) := rfl
    have events := hs.evqBound
    have b0 := Bool.toNat_le s.fatal
    have b1 := Bool.toNat_le s.cmdqFull
    have b2 := Bool.toNat_le s.evqNonempty
    have b3 := Bool.toNat_le s.cmdPending
    rw [← cmdqFull_iff hs, ← evqNonempty_iff, ← cmdPending_iff, ← toNat_eq_one_iff, ← toNat_eq_one_iff, ← toNat_eq_one_iff,
      ← toNat_eq_one_iff, ← freeBundles, ← freeTbdec, ← room]
    change (field s.statusWord 0 1 = 1 ↔ _) ∧ (field s.statusWord 1 1 = 1 ↔ _) ∧ (field s.statusWord 2 1 = 1 ↔ _) ∧
      (field s.statusWord 3 1 = 1 ↔ _) ∧ field s.statusWord 4 4 = 0 ∧ field s.statusWord 8 4 = _ ∧
      field s.statusWord 12 4 = _ ∧ field s.statusWord 16 16 = _ ∧ s.evtCount.toNat = _
    simp only [field_eq_div_mod, word, count]
    refine ⟨by omega, by omega, by omega, by omega, by omega, by omega, by omega, by omega, by omega⟩
  · rw [runAgent_csrRead (csrAligned_of_mod aligned), csrRead_of_ne notEvt]

/-! ### DEC_CFG and the descriptor registers (R41, R42, R43) -/

/-- A descriptor register reads back the writable bits of what was written; `descMask` at its offset holds them. -/
theorem descRead_descWrite_same {off : BitVec 12} {m : Word} (h : descRead descMask off = some m) (d : Descriptor) (v : Word) :
    descRead (descWrite d off v) off = some (v &&& m) := by
  unfold descRead at h
  split at h <;> cases h <;> rfl

theorem descRead_descWrite_other {off o : BitVec 12} (h : o ≠ off) (d : Descriptor) (v : Word) :
    descRead (descWrite d off v) o = descRead d o := by
  unfold descWrite
  split
  case h_18 => rfl
  all_goals
    unfold descRead
    split
    all_goals simp_all

/-- A write to an offset that holds no descriptor register is lost. -/
theorem descWrite_unlisted {off : BitVec 12} {d : Descriptor} (h : descRead d off = none) (v : Word) :
    descWrite d off v = d := by
  unfold descRead at h
  split at h <;> cases h
  unfold descWrite
  split <;> simp_all

/-- A store to a descriptor register reaches that register. -/
theorem csrWrite_descriptor {off : BitVec 12} {m : Word} (h : descRead descMask off = some m) (s : State) (v : Word) :
    s.csrWrite off v = { s with desc := descWrite s.desc off v } := by
  unfold descRead at h
  split at h <;> cases h <;> rfl

/-- A load of a descriptor register reads that register. -/
theorem csrValue_descriptor {off : BitVec 12} {m : Word} (h : descRead descMask off = some m) (s : State) :
    s.csrValue off = (descRead s.desc off).getD 0#32 := by
  unfold descRead at h
  split at h <;> cases h <;> rfl

/-- Only the descriptor registers show the descriptor. -/
theorem csrValue_withDesc {d : Descriptor} {s : State} {o : BitVec 12} (h : descRead d o = descRead s.desc o) :
    ({ s with desc := d } : State).csrValue o = s.csrValue o := by
  unfold State.csrValue
  split
  case h_14 => rw [h]
  all_goals rfl

/-- Only the register DEC_CFG shows DEC_CFG. -/
theorem csrValue_withDecCfg {o : BitVec 12} (h : o ≠ 0x040#12) (s : State) (w : Word) :
    ({ s with decCfg := w } : State).csrValue o = s.csrValue o := by
  unfold State.csrValue
  split
  case h_13 => exact absurd rfl h
  all_goals rfl

/-- DEC_CFG and the descriptor registers with their defined bits (R41, R42). -/
def configMasks : List (BitVec 12 × Word) :=
  [(0x040#12, 0x000001FF#32), (0x080#12, 0x01FF01FF#32), (0x084#12, 0x01FF01FF#32), (0x088#12, 0x003FFFFF#32),
    (0x08C#12, 0x001FFFFF#32), (0x090#12, 0x0FFF1FFF#32), (0x094#12, 0x00FFFFFF#32), (0x098#12, 0x00FFFF01#32),
    (0x09C#12, 0x000000FF#32), (0x0A0#12, 0x7FFFFFFF#32), (0x0A4#12, 0x000007FF#32), (0x0A8#12, 0x00FFFFFF#32),
    (0x0AC#12, 0x00FFFFFF#32), (0x0B0#12, 0x000107FF#32), (0x0B4#12, 0x00FFFFFF#32), (0x0B8#12, 0x00FFFFFF#32),
    (0x0BC#12, 0xFFFFFFFF#32), (0x0C0#12, 0x0000000F#32)]

/-- The model's masks are the defined bits. -/
theorem configMasks_cases :
    ∀ r ∈ configMasks, r = (0x040#12, decCfgMask) ∨ descRead descMask r.1 = some r.2 := by
  refine List.forall_mem_cons.2 ⟨.inl rfl, fun r hr => .inr ?_⟩
  fin_cases hr <;> rfl

def configOffsets : List (BitVec 12) := configMasks.map Prod.fst

/-- The offsets of the registers that show something but the configuration. -/
def statusOffsets : List (BitVec 12) :=
  [0x000#12, 0x004#12, 0x008#12, 0x00C#12, 0x010#12, 0x014#12, 0x018#12, 0x020#12, 0x024#12, 0x028#12, 0x02C#12, 0x034#12,
    0x038#12]

theorem descRead_unlisted {o : BitVec 12} (h : o ∉ configOffsets) (d : Descriptor) : descRead d o = none := by
  unfold descRead
  split
  case h_18 => rfl
  all_goals exact absurd (by decide) h

/-- A store to an offset that holds no writable register has no effect. -/
theorem csrWrite_ignored {o : BitVec 12} (h : o ∉ configOffsets) (k : o ∉ [0x028#12, 0x02C#12, 0x030#12]) (s : State)
    (v : Word) : s.csrWrite o v = s := by
  unfold State.csrWrite
  split
  case h_4 => exact absurd (by decide) h
  case h_5 => rw [descWrite_unlisted (descRead_unlisted h _)]
  all_goals exact absurd (by decide) k

/-- CMD and every unlisted offset read 0. -/
theorem csrValue_unlisted {o : BitVec 12} (h : o ∉ configOffsets) (k : o ∉ statusOffsets) (s : State) :
    s.csrValue o = 0#32 := by
  unfold State.csrValue
  split
  case h_13 => exact absurd (by decide) h
  case h_14 => rw [descRead_unlisted h]; rfl
  all_goals exact absurd (by decide) k

/-- Settles O22: every register of the list is DEC_CFG or a descriptor register with its mask. -/
theorem configurationRegisters : Obligations.ConfigurationRegisters := by
  intro s off other m v listed
  have untouched : ∀ o : BitVec 12, o.toNat % 4 = 0 → o ∉ configOffsets →
      (o ∉ [0x028#12, 0x02C#12, 0x030#12] → runAgent (.host (.csrWrite 32 o v)) s = .next s) ∧
      (o ∉ statusOffsets → runAgent (.host (.csrRead 32 o)) s = .next { s with rdata := 0#32 }) := by
    intro o aligned unlisted
    refine ⟨fun fixed => ?_, fun silent => ?_⟩
    · rw [runAgent_csrWrite (csrAligned_of_mod aligned), csrWrite_ignored unlisted fixed]
    · have notEvt : o ≠ 0x034#12 := fun h => silent (h ▸ by decide)
      rw [runAgent_csrRead (csrAligned_of_mod aligned), csrRead_of_ne notEvt, csrValue_unlisted unlisted silent]
  rcases configMasks_cases _ listed with decCfg | mask
  · cases decCfg
    exact ⟨rfl, fun h => csrValue_withDecCfg h _ _, rfl, untouched⟩
  · rw [csrWrite_descriptor mask]
    refine ⟨?_, fun h => csrValue_withDesc (descRead_descWrite_other h _ _), rfl, untouched⟩
    rw [csrValue_descriptor mask, descRead_descWrite_same mask]
    rfl

end Sys2Proof.Machine
end

section
/-!
PROOFS. HARQ_FREE (spec/43_tb_decoder.md R355) and RESERVE_VIEW (spec/40_stream.md R201, R206, R210).
-/

namespace Sys2Proof.Machine

/-! ### HARQ_FREE (R355) -/

/-- A handle of N_HARQ or more (R355, R462). -/
theorem harqFree_outside {s : State} {handle : BitVec 8} (h : s.params.nHarq ≤ handle.toNat) :
    harqFree handle s = .error (.cmdError .badHarqHandle (0#16 ++ handle)) := by
  have outside : ¬ handle.toNat < (s.record (.harqFree handle)).params.nHarq := by simpa using h
  simp only [harqFree, check_neg outside, error_bind]

section
variable {s : State} {handle : BitVec 8} {y : Harq} (inside : handle.toNat < s.params.nHarq)
  (hy : s.harq[handle.toNat]? = some y)
include inside hy

/-- A LOCKED handle is left alone (R355, R462). -/
theorem harqFree_locked (hl : y.hstate = .locked) : harqFree handle s = .error (.cmdError .harqBusy (0#16 ++ handle)) := by
  have here : handle.toNat < (s.record (.harqFree handle)).params.nHarq := inside
  have found : (s.record (.harqFree handle)).getHarq handle.toNat = .ok y := getHarq_eq_ok.2 hy
  simp only [harqFree, check_pos here, found, ok_bind, check_neg (not_not.2 hl), error_bind]

/-- Any other handle is released (R355). -/
theorem harqFree_unlocked (hl : y.hstate ≠ .locked) :
    harqFree handle s = .ok { s.record (.harqFree handle) with harq := s.harq.set handle.toNat y.release } := by
  have here : handle.toNat < (s.record (.harqFree handle)).params.nHarq := inside
  have found : (s.record (.harqFree handle)).getHarq handle.toNat = .ok y := getHarq_eq_ok.2 hy
  simp only [harqFree, check_pos here, found, ok_bind, check_pos hl, State.modHarq]
  rw [← modify_set Harq.release hy]
  rfl

end

/-- Without room for its record a command error holds (R111). -/
theorem runOp_cmdError_hold {i : Instr} {tag : BitVec 8} {op : Op} {s : State} {c : CmdCode} {d : BitVec 24}
    (running : s.fatal = false) (h : op s = .error (.cmdError c d)) (full : s.params.evqDepth < s.evq.length + 2) :
    runOp i tag op s = .next s.hold := by
  have noRoom : ¬ s.evq.length + 2 ≤ s.params.evqDepth := by omega
  simp [runOp, running, h, State.takeStop, State.raiseCmdError, State.evtRoom, noRoom]

/-- The ERROR record of a command that carries no tag (R161). -/
theorem errorRecord_untagged (c : CmdCode) (d : BitVec 24) : errorRecord 0#8 c d = [0x05000001#32, d ++ c.code] := by
  have header : eventHeader 0x05#8 0#8 1 = 0x05000001#32 := by decide
  exact congrArg (· :: [d ++ c.code]) header

/-- Settles O27: the handle is N_HARQ or more, LOCKED, or released; the errors wait for their record's room. -/
theorem harqFreeResult : Obligations.HarqFreeResult := by
  intro s handle running
  refine ⟨fun y inside hy => ⟨fun free => ?free, fun held => ?held, fun locked room => ?locked,
      fun locked full => ?lockedFull⟩,
    fun outside room => ?outside, fun outside full => ?outsideFull⟩
  case free =>
    have released : y.release = y := if_pos free
    have done := harqFree_unlocked inside hy (by rw [free]; decide)
    rw [released, set_self hy] at done
    exact runOp_ok running done
  case held =>
    have released : y.release = { y with hstate := .free, cbs := [] } := if_neg (by rw [held]; decide)
    have done := harqFree_unlocked inside hy (by rw [held]; decide)
    rw [released] at done
    exact ⟨[], runOp_ok running done⟩
  case locked =>
    have raised := runOp_cmdError (i := .harqFree handle) (tag := 0#8) running (harqFree_locked inside hy locked) room
    rw [errorRecord_untagged] at raised
    exact raised
  case lockedFull => exact runOp_cmdError_hold running (harqFree_locked inside hy locked) full
  case outside =>
    have raised := runOp_cmdError (i := .harqFree handle) (tag := 0#8) running (harqFree_outside outside) room
    rw [errorRecord_untagged] at raised
    exact raised
  case outsideFull => exact runOp_cmdError_hold running (harqFree_outside outside) full

/-! ### Slots of an internal memory (R101) -/

section
variable (m : Slots) (i : Nat) (xs : Slots)

theorem put_front_length : (m.take i ++ List.replicate (i - m.length) none).length = i := by
  simp only [List.length_append, List.length_take, List.length_replicate]
  omega

/-- The slots that were set. -/
theorem put_getElem?_inside {j : Nat} (h : j < xs.length) : (Slots.put m i xs)[i + j]? = xs[j]? := by
  have front := put_front_length m i
  rw [Slots.put, List.append_assoc, List.getElem?_append_right (by omega), front, Nat.add_sub_cancel_left,
    List.getElem?_append_left h]

/-- Every other slot holds what it held. -/
theorem put_getElem?_outside {k : Nat} (h : k < i ∨ i + xs.length ≤ k) : (Slots.put m i xs)[k]?.join = m[k]?.join := by
  have front := put_front_length m i
  rcases h with before | behind
  · rw [Slots.put, List.append_assoc, List.getElem?_append_left (by omega)]
    by_cases hk : k < m.length
    · rw [List.getElem?_append_left (by rw [List.length_take]; omega), List.getElem?_take_of_lt before]
    · have absent : m[k]? = none := List.getElem?_eq_none (by omega)
      rw [List.getElem?_append_right (by rw [List.length_take]; omega), List.getElem?_replicate, absent]
      split <;> rfl
  · rw [Slots.put, List.getElem?_append_right (by rw [List.length_append]; omega), List.length_append, front,
      List.getElem?_drop]
    congr 2
    omega

theorem put_length_ge : i + xs.length ≤ (Slots.put m i xs).length := by
  rw [Slots.put, List.length_append, List.length_append, put_front_length]
  omega

end

/-! ### Changes of a unit -/

theorem modBundle_modBundle (s : State) (b : Nat) (g h : Bundle → Bundle) :
    (s.modBundle b g).modBundle b h = s.modBundle b (h ∘ g) := by
  simp only [State.modBundle, List.modify_modify_eq]

theorem modTb_modTb (s : State) (t : Nat) (g h : TbCtx → TbCtx) : (s.modTb t g).modTb t h = s.modTb t (h ∘ g) := by
  simp only [State.modTb, List.modify_modify_eq]

theorem modBundle_of_fixed {s : State} {b : Nat} {x : Bundle} {g : Bundle → Bundle}
    (hx : s.bundles[b]? = some x) (hg : g x = x) :
    s.modBundle b g = s := by
  rw [State.modBundle, modify_set g hx, hg, set_self hx]

theorem modTb_of_fixed {s : State} {t : Nat} {x : TbCtx} {g : TbCtx → TbCtx} (hx : s.tbs[t]? = some x) (hg : g x = x) :
    s.modTb t g = s := by
  rw [State.modTb, modify_set g hx, hg, set_self hx]

/-! ### Changes of a port and of its storage (R47, R210) -/

section
variable {s : State} {r : PortRef}

theorem port?_modPort {p : Port} (g : Port → Port) (hp : s.port? r = some p) : (s.modPort r g).port? r = some (g p) := by
  cases r with
  | uci f b =>
    obtain ⟨x, hx, rfl⟩ := Option.map_eq_some_iff.1 hp
    exact Option.map_eq_some_iff.2 ⟨_, getElem?_modify_self _ hx, by cases f <;> rfl⟩
  | _ =>
    obtain ⟨x, hx, rfl⟩ := Option.map_eq_some_iff.1 hp
    exact Option.map_eq_some_iff.2 ⟨_, getElem?_modify_self _ hx, rfl⟩

theorem port?_modStorage {p : Port} (g : Slots → Slots) (hp : s.port? r = some p) : (s.modStorage r g).port? r = some p := by
  cases r with
  | uci f b =>
    obtain ⟨x, hx, rfl⟩ := Option.map_eq_some_iff.1 hp
    exact Option.map_eq_some_iff.2 ⟨_, getElem?_modify_self _ hx, by cases f <;> rfl⟩
  | _ =>
    obtain ⟨x, hx, rfl⟩ := Option.map_eq_some_iff.1 hp
    exact Option.map_eq_some_iff.2 ⟨_, getElem?_modify_self _ hx, rfl⟩

/-- A port that exists has a storage. -/
theorem exists_storage {p : Port} (hp : s.port? r = some p) : ∃ m i, s.storage? r = some (m, i) := by
  cases r <;> exact (Option.map_eq_some_iff.1 hp).elim fun x h => ⟨_, _, Option.map_eq_some_iff.2 ⟨x, h.1, rfl⟩⟩

/-- A change of the port leaves the storage's contents alone; where the port's view begins may move. -/
theorem storage?_modPort {m : Slots} {i : Nat} (g : Port → Port) (hm : s.storage? r = some (m, i)) :
    ∃ j, (s.modPort r g).storage? r = some (m, j) := by
  cases r with
  | uci f b =>
    obtain ⟨x, hx, hm⟩ := Option.map_eq_some_iff.1 hm
    cases hm
    cases f <;> exact ⟨_, Option.map_eq_some_iff.2 ⟨_, getElem?_modify_self _ hx, rfl⟩⟩
  | _ =>
    obtain ⟨x, hx, hm⟩ := Option.map_eq_some_iff.1 hm
    cases hm
    exact ⟨_, Option.map_eq_some_iff.2 ⟨_, getElem?_modify_self _ hx, rfl⟩⟩

theorem storage?_modStorage {m : Slots} {i : Nat} (g : Slots → Slots) (hm : s.storage? r = some (m, i)) :
    (s.modStorage r g).storage? r = some (g m, i) := by
  cases r with
  | uci f b =>
    obtain ⟨x, hx, hm⟩ := Option.map_eq_some_iff.1 hm
    cases hm
    exact Option.map_eq_some_iff.2 ⟨_, getElem?_modify_self _ hx, by cases f <;> rfl⟩
  | _ =>
    obtain ⟨x, hx, hm⟩ := Option.map_eq_some_iff.1 hm
    cases hm
    exact Option.map_eq_some_iff.2 ⟨_, getElem?_modify_self _ hx, rfl⟩

theorem modPort_modPort (g h : Port → Port) : (s.modPort r g).modPort r h = s.modPort r (h ∘ g) := by
  cases r with
  | uci f b => cases f <;> exact modBundle_modBundle _ _ _ _
  | demuxIn b => exact modBundle_modBundle _ _ _ _
  | sch t => exact modTb_modTb _ _ _ _

theorem modStorage_modStorage (g h : Slots → Slots) : (s.modStorage r g).modStorage r h = s.modStorage r (h ∘ g) := by
  cases r with
  | uci f b => cases f <;> exact modBundle_modBundle _ _ _ _
  | demuxIn b => exact modBundle_modBundle _ _ _ _
  | sch t => exact modTb_modTb _ _ _ _

/-- A port and its storage are different fields. -/
theorem modPort_modStorage (g : Port → Port) (h : Slots → Slots) :
    (s.modStorage r h).modPort r g = (s.modPort r g).modStorage r h := by
  cases r with
  | uci f b => cases f <;> simp only [State.modPort, State.modStorage, modBundle_modBundle] <;> rfl
  | demuxIn b => simp only [State.modPort, State.modStorage, modBundle_modBundle]; rfl
  | sch t => simp only [State.modPort, State.modStorage, modTb_modTb]; rfl

/-- Putting back the port that was there changes nothing. -/
theorem modPort_const {p : Port} (hp : s.port? r = some p) : s.modPort r (fun _ => p) = s := by
  cases r with
  | sch t =>
    obtain ⟨x, hx, rfl⟩ := Option.map_eq_some_iff.1 hp
    exact modTb_of_fixed hx rfl
  | demuxIn b =>
    obtain ⟨x, hx, rfl⟩ := Option.map_eq_some_iff.1 hp
    exact modBundle_of_fixed hx rfl
  | uci f b =>
    obtain ⟨x, hx, rfl⟩ := Option.map_eq_some_iff.1 hp
    cases f <;> exact modBundle_of_fixed hx rfl

/-- Putting back the contents that were there changes nothing. -/
theorem modStorage_const {m : Slots} {i : Nat} (hm : s.storage? r = some (m, i)) : s.modStorage r (fun _ => m) = s := by
  cases r with
  | sch t =>
    obtain ⟨x, hx, hm⟩ := Option.map_eq_some_iff.1 hm
    cases hm
    exact modTb_of_fixed hx rfl
  | demuxIn b =>
    obtain ⟨x, hx, hm⟩ := Option.map_eq_some_iff.1 hm
    cases hm
    exact modBundle_of_fixed hx rfl
  | uci f b =>
    obtain ⟨x, hx, hm⟩ := Option.map_eq_some_iff.1 hm
    cases hm
    cases f <;> exact modBundle_of_fixed hx rfl

end

/-! ### RESERVE_VIEW (R201, R206, R210) -/

theorem ofNat_toNat_self {n : Nat} (x : BitVec n) : BitVec.ofNat n x.toNat = x := by
  rw [BitVec.ofNat_toNat, BitVec.setWidth_eq]

/-- PORT and OWNER name the port (R145, R146). -/
theorem ofId_eq_some {port : BitVec 4} {owner : BitVec 8} {r : PortRef} (h : PortRef.ofId port owner = some r) :
    r.id = port ∧ r.owner = owner := by
  have owned := ofNat_toNat_self owner
  simp only [PortRef.ofId] at h
  split_ifs at h with h0 h1 h2 h3 h4 <;> cases h
  exacts [⟨h0.symm, owned⟩, ⟨h1.symm, owned⟩, ⟨h2.symm, owned⟩, ⟨h3.symm, owned⟩, ⟨h4.symm, owned⟩]

theorem portOf_of_ofId {port : BitVec 4} {owner : BitVec 8} {r : PortRef} (h : PortRef.ofId port owner = some r) :
    portOf port owner = .ok r := need_eq_ok.2 h

/-- A view of a port bound NULL has no slots in any storage (R206). -/
theorem openView_null {p : Port} (hb : p.bound = .null) (s : State) (r : PortRef) (n : Nat) :
    s.openView r p n = s.modPort r (fun q => { q with viewBase := q.count, viewLen := n }) := if_pos hb

/-- A view of a port bound REAL: its slots in the consumer's storage hold no value until they are written (R201, R210). -/
theorem openView_real {s : State} {r : PortRef} {p : Port} (hp : s.port? r = some p) (hb : p.bound = .real) (n : Nat) :
    ∃ m i j, s.storage? r = some (m, i) ∧
      s.openView r p n =
        (s.modPort r (fun q => { q with viewBase := q.count, viewLen := n })).modStorage r (fun m => Slots.forget m j n) ∧
      (s.openView r p n).storage? r = some (Slots.forget m j n, j) := by
  obtain ⟨m, i, before⟩ := exists_storage hp
  obtain ⟨j, between⟩ := storage?_modPort (fun q => { q with viewBase := q.count, viewLen := n }) before
  have opened : s.openView r p n =
      (s.modPort r (fun q => { q with viewBase := q.count, viewLen := n })).modStorage r (fun m => Slots.forget m j n) := by
    simp only [State.openView, hb, reduceCtorEq, if_false, between]
  exact ⟨m, i, j, before, opened, by rw [opened]; exact storage?_modStorage _ between⟩

@[simp] theorem record_port? (s : State) (i : Instr) (r : PortRef) : (s.record i).port? r = s.port? r := by cases r <;> rfl

@[simp] theorem record_storage? (s : State) (i : Instr) (r : PortRef) : (s.record i).storage? r = s.storage? r := by
  cases r <;> rfl

@[simp] theorem record_offer (s : State) (i : Instr) (r : PortRef) (p : Port) : (s.record i).offer r p = s.offer r p := by
  cases r <;> rfl

/-- RESERVE_VIEW on an OPEN port that takes soft bits gives a view (R201). -/
theorem exec_reserveView {s : State} {port : BitVec 4} {n : BitVec 19} {owner : BitVec 8} {r : PortRef} {p : Port}
    (running : s.fatal = false) (named : PortRef.ofId port owner = some r) (hp : s.port? r = some p) (opened : p.isOpen = true)
    (offered : n = 0#19 ∨ s.offer r p ≠ some 0) :
    exec (.reserveView port n owner) s =
      .next ((s.record (.reserveView port n owner)).openView r p (viewSize (s.offer r p) n.toNat)) := by
  obtain ⟨rid, rowner⟩ := ofId_eq_some named
  have takes : n.toNat = 0 ∨ s.offer r p ≠ some 0 := offered.imp_left fun h => by rw [h]; rfl
  have issued : issueReserve r n.toNat s = .ok (viewSize (s.offer r p) n.toNat,
      (s.record (.reserveView port n owner)).openView r p (viewSize (s.offer r p) n.toNat)) := by
    rw [issueReserve, rid, rowner, ofNat_toNat_self]
    exact reserveView_eq_ok.2 ⟨p, (record_port? _ _ _).trans hp, opened, by rwa [record_offer], by rw [record_offer]⟩
  rw [exec, execReserveView]
  refine runOp_ok running ?_
  simp only [portOf_of_ofId named, issued, ok_bind]

/-- Settles O34: `State.openView` changes the port's view and, bound REAL, forgets the view's slots; putting the port and the
storage back undoes the two changes. -/
theorem reserveViewResult : Obligations.ReserveViewResult := by
  intro s port n owner r p m running named hp opened offered hm
  have size : viewSize (s.offer r p) n.toNat = m := by rw [hm]; cases s.offer r p <;> rfl
  have recorded : (s.record (.reserveView port n owner)).port? r = some p := by simpa using hp
  refine ⟨_, exec_reserveView running named hp opened offered, ?_⟩
  rw [size]
  obtain hb | hb : p.bound = .null ∨ p.bound = .real := by cases p.bound <;> simp
  · rw [openView_null hb]
    refine ⟨port?_modPort _ recorded, fun _ => ?_, fun real => absurd (hb.symm.trans real) (by decide)⟩
    rw [modPort_modPort]
    exact modPort_const recorded
  · obtain ⟨old, i, j, before, change, after⟩ := openView_real recorded hb m
    refine ⟨by rw [change]; exact port?_modStorage _ (port?_modPort _ recorded),
      fun null => absurd (hb.symm.trans null) (by decide), fun _ => ?_⟩
    refine ⟨(old, i), Slots.forget old j m, j, by simpa using before, after, ?_, fun k outside => ?_, fun k low high => ?_⟩
    · rw [change, modPort_modStorage, modPort_modPort, modStorage_modStorage]
      calc _ = (s.record (.reserveView port n owner)).modStorage r (fun _ => old) :=
            congrArg (State.modStorage · r fun _ => old) (modPort_const recorded)
        _ = _ := modStorage_const before
    · exact put_getElem?_outside _ _ _ (by simpa using outside)
    · obtain ⟨d, rfl⟩ := Nat.exists_eq_add_of_le low
      rw [Slots.forget, put_getElem?_inside _ _ _ (by simpa using high)]
      exact List.getElem?_replicate_of_lt (by omega)

end Sys2Proof.Machine
end

section
/-!
PROOFS. A symbol through the demultiplexer (spec/41_demux.md R244 to R249, R257; spec/44_demod.md R388).
-/

namespace Sys2Proof.Machine

/-! ### A change of one unit -/

theorem modBundle_eq_set {s : State} {b : Nat} {x : Bundle} (g : Bundle → Bundle) (hx : s.bundles[b]? = some x) :
    s.modBundle b g = { s with bundles := s.bundles.set b (g x) } := by
  rw [State.modBundle, modify_set g hx]

theorem getElem?_set_found {α : Type} {l : List α} {i : Nat} {x : α} (y : α) (h : l[i]? = some x) :
    (l.set i y)[i]? = some y := by
  rw [← modify_set (fun _ => y) h]
  exact getElem?_modify_self _ h

theorem modTb_eq_set {s : State} {t : Nat} {c : TbCtx} (g : TbCtx → TbCtx) (hc : s.tbs[t]? = some c) :
    s.modTb t g = { s with tbs := s.tbs.set t (g c) } := by
  rw [State.modTb, modify_set g hc]

theorem modStorage_id {s : State} {r : PortRef} {p : Port} (hp : s.port? r = some p) : s.modStorage r (fun m => m) = s := by
  obtain ⟨m, i, hm⟩ := exists_storage hp
  have same := modStorage_modStorage (s := s) (r := r) (fun _ => m) (fun m => m)
  rw [modStorage_const hm] at same
  rw [same]
  exact modStorage_const hm

/-! ### Publishing to a port that stores at its count (R203, R209) -/

/-- What the storage of a port holds after a block: a port bound NULL stores nothing (R206), and an
empty block is none (R203). -/
def Port.receive (p : Port) (ls : List Llr) (m : Slots) : Slots :=
  if ls = [] ∨ p.bound = .null then m else Slots.write m p.count ls

theorem Port.receive_nil (p : Port) (m : Slots) : p.receive [] m = m := if_pos (.inl rfl)

theorem Port.receive_null {p : Port} (h : p.bound = .null) (ls : List Llr) (m : Slots) : p.receive ls m = m := if_pos (.inr h)

theorem Port.receive_real {p : Port} (h : p.bound = .real) {ls : List Llr} (hl : ls ≠ []) (m : Slots) :
    p.receive ls m = Slots.write m p.count ls := if_neg (by simp [h, hl])

/-- The port after a block: its view is consumed and its count grows (R203). -/
def Port.counted (p : Port) (n : Nat) : Port := { p with viewLen := 0, count := p.count + n }

/-- The consumer's action stores the block at the port's count (R209). -/
theorem deliverStored_eq_ok {p q : Port} {r : PortRef} {ls : List Llr} {s u : State} (hq : s.port? r = some q)
    (same : q.count = p.count) :
    deliver p ls (storeAtCount r ls) s = .ok u ↔ u = s.modStorage r (p.receive ls) := by
  have unchanged : s.modStorage r (fun m => m) = s := modStorage_id hq
  rw [deliver_eq_ok, whenReal_eq_ok]
  by_cases empty : ls = []
  · have nothing : p.receive ls = fun m => m := funext fun m => if_pos (.inl empty)
    rw [nothing, unchanged]
    simp [empty]
  · obtain hb | hb : p.bound = .null ∨ p.bound = .real := by cases p.bound <;> simp
    · have nothing : p.receive ls = fun m => m := funext (Port.receive_null hb ls)
      simp [empty, hb, nothing, unchanged]
    · have stored : p.receive ls = fun m => Slots.write m q.count ls :=
        funext fun m => by rw [same]; exact Port.receive_real hb empty m
      simp [empty, hb, stored, storeAtCount_eq_ok, hq]

/-- A copying publish to SCH or to a UCI field port, as one change of the port and one of its storage (R203, R209). -/
theorem publishStored_eq_ok {r : PortRef} {ls : List Llr} {s t : State} :
    publishCopyWith storeAtCount r ls s = .ok t ↔
      ∃ p, s.port? r = some p ∧ p.isOpen = true ∧ offers (s.offer r p) ls.length = true ∧
        t = (s.modPort r (fun q => q.counted ls.length)).modStorage r (p.receive ls) := by
  have counted : ∀ h : Slots → Slots,
      ((s.modPort r fun q => { q with viewLen := 0 }).modStorage r h).modPort r
        (fun q => { q with count := q.count + ls.length }) =
        (s.modPort r (fun q => q.counted ls.length)).modStorage r h := fun h => by
    rw [modPort_modStorage, modPort_modPort]
    rfl
  rw [publishCopyWith_eq_ok]
  constructor
  · rintro ⟨p, u, hp, opened, offered, hu, rfl⟩
    obtain rfl := (deliverStored_eq_ok (port?_modPort _ hp) rfl).1 hu
    exact ⟨p, hp, opened, offered, counted _⟩
  · rintro ⟨p, hp, opened, offered, rfl⟩
    exact ⟨p, _, hp, opened, offered, (deliverStored_eq_ok (port?_modPort _ hp) rfl).2 rfl, (counted _).symm⟩

/-- A TB context that has got the soft bits `ls` at its SCH port (R209). -/
def TbCtx.receive (c : TbCtx) (ls : List Llr) : TbCtx :=
  { c with stage := c.sch.receive ls c.stage, sch := c.sch.counted ls.length }

/-- A UCI field that has got the soft bits `ls` at its port (R209). -/
def FieldUnit.receive (u : FieldUnit) (ls : List Llr) : FieldUnit :=
  { u with llr := u.port.receive ls u.llr, port := u.port.counted ls.length }

/-- What the demultiplexer publishes to SCH (R249). -/
theorem issuePublish_sch_eq_ok {t : Nat} {ls : List Llr} {s u : State} {c : TbCtx} (hc : s.tbs[t]? = some c) :
    issuePublish (.sch t) ls s = .ok u ↔
      c.sch.isOpen = true ∧ offers (s.offer (.sch t) c.sch) ls.length = true ∧
        u = { s.record (.publishCopy 1#4 (BitVec.ofNat 8 t) ls) with tbs := s.tbs.set t (c.receive ls) } := by
  have port : (s.record (.publishCopy 1#4 (BitVec.ofNat 8 t) ls)).port? (.sch t) = some c.sch :=
    Option.map_eq_some_iff.2 ⟨c, hc, rfl⟩
  have change : ((s.record (.publishCopy 1#4 (BitVec.ofNat 8 t) ls)).modPort (.sch t) fun q => q.counted ls.length).modStorage
      (.sch t) (c.sch.receive ls) =
      { s.record (.publishCopy 1#4 (BitVec.ofNat 8 t) ls) with tbs := s.tbs.set t (c.receive ls) } := by
    rw [State.modPort, State.modStorage, modTb_modTb]
    exact modTb_eq_set _ hc
  refine publishStored_eq_ok.trans ?_
  simp only [PortRef.id, PortRef.owner, port, Option.some.injEq, exists_eq_left', record_offer, change]

/-- What the demultiplexer publishes to a UCI field (R244). -/
theorem issuePublish_uci_eq_ok {f : UciField} {b : Nat} {ls : List Llr} {s u : State} {x : Bundle}
    (hx : s.bundles[b]? = some x) :
    issuePublish (.uci f b) ls s = .ok u ↔
      (x.uci f).port.isOpen = true ∧ offers (s.offer (.uci f b) (x.uci f).port) ls.length = true ∧
        u = { s.record (.publishCopy (PortRef.uci f b).id (BitVec.ofNat 8 b) ls) with
          bundles := s.bundles.set b (x.modUci f fun u => u.receive ls) } := by
  have port : ∀ i, (s.record i).port? (.uci f b) = some (x.uci f).port := fun i => Option.map_eq_some_iff.2 ⟨x, hx, rfl⟩
  have change : ∀ i, ((s.record i).modPort (.uci f b) fun q => q.counted ls.length).modStorage
      (.uci f b) ((x.uci f).port.receive ls) =
      { s.record i with bundles := s.bundles.set b (x.modUci f fun u => u.receive ls) } := fun i => by
    rw [State.modPort, State.modStorage, modBundle_modBundle]
    refine (modBundle_eq_set (s := s.record i) _ hx).trans ?_
    cases f <;> rfl
  refine publishStored_eq_ok.trans ?_
  simp only [PortRef.owner, port, Option.some.injEq, exists_eq_left', record_offer, change]

/-- The state in which SCH has got the soft bits `ls`, where there are any (R249). -/
def State.published (s : State) (t : Nat) (c : TbCtx) (ls : List Llr) : State :=
  if ls = [] then s
  else { s.record (.publishCopy 1#4 (BitVec.ofNat 8 t) ls) with tbs := s.tbs.set t (c.receive ls) }

theorem published_nil (s : State) (t : Nat) (c : TbCtx) : s.published t c [] = s := if_pos rfl

theorem published_of_ne {ls : List Llr} (h : ls ≠ []) (s : State) (t : Nat) (c : TbCtx) :
    s.published t c ls =
      { s.record (.publishCopy 1#4 (BitVec.ofNat 8 t) ls) with tbs := s.tbs.set t (c.receive ls) } :=
  if_neg h

@[simp] theorem published_bundles (s : State) (t : Nat) (c : TbCtx) (ls : List Llr) :
    (s.published t c ls).bundles = s.bundles := by
  unfold State.published; split <;> rfl

/-- Publishing touches no bundle. -/
theorem published_withBundles (s : State) (t : Nat) (c : TbCtx) (ls : List Llr) (xs : List Bundle) :
    ({ s with bundles := xs } : State).published t c ls = { s.published t c ls with bundles := xs } := by
  unfold State.published; split <;> rfl

/-! ### The steps of a symbol without UCI soft bits (R244 to R249) -/

theorem emitField_nil (b : Nat) (f : UciField) (s : State) : emitField b f [] s = .ok s := if_pos rfl

/-- SCH takes a block within its budget (R205). -/
theorem offers_of_takes {s : State} {t n : Nat} {c : TbCtx} (hc : s.tbs[t]? = some c) (takes : c.takes n) :
    offers (s.offer (.sch t) c.sch) n = true := by
  obtain ⟨opened, real, budget⟩ := takes
  have offer : s.offer (.sch t) c.sch = some (c.g - c.sch.count) := by simp [State.offer, opened, real, hc]
  rw [offer, offers, decide_eq_true_iff]
  omega

section
variable {s : State} {b : Nat} {x : Bundle} {c : TbCtx} {ls : List Llr}

/-- `emit_sch` publishes the soft bits of the symbol's UL-SCH positions (R249). -/
theorem emitSch_of_takes {st : Sets} (hx : s.bundles[b]? = some x) (hst : x.dm.sets = some st) (hc : s.tbs[x.tbx]? = some c)
    (hl : schLlrs s.params x.d x.dm.symBuf x.l st = some ls) (takes : c.takes ls.length) :
    emitSch b s = .ok (s.published x.tbx c ls) := by
  simp only [emitSch, getBundle_eq_ok.2 hx, ok_bind, hst, need_some, hl, State.published]
  split
  · rfl
  · exact (issuePublish_sch_eq_ok hc).2 ⟨takes.1, offers_of_takes hc takes, rfl⟩

/-- With no UL-SCH soft bits in the symbol nothing is published (R249). -/
theorem emitSch_of_nothing {st : Sets} (hx : s.bundles[b]? = some x) (hst : x.dm.sets = some st)
    (hl : schLlrs s.params x.d x.dm.symBuf x.l st = some []) : emitSch b s = .ok s := by
  simp only [emitSch, getBundle_eq_ok.2 hx, ok_bind, hst, need_some, hl, if_true]

section
variable {st : Sets} {y : Sets × Budgets} (hx : s.bundles[b]? = some x) (hst : x.dm.sets = some st)
  (hy : y = partitionB x.d (decide (x.dm.csi2State = .configured)) st x.dm.bud) (noCsi2 : y.1.c2 = [])
include hx hst hy noCsi2

/-- `finish_symbol` where step 4 places no CSI Part 2 (R245, R248): `emit_sch`, then `advance`. -/
theorem finishSymbol_of_sent {t : State} (sent : emitSch b { s with bundles := s.bundles.set b (x.withSets y) } = .ok t) :
    finishSymbol b s = .ok (t.modBundle b Bundle.advance) := by
  simp only [finishSymbol, getBundle_eq_ok.2 hx, ok_bind, hst, need_some]
  rw [← hy, modBundle_eq_set (fun x => x.withSets y) hx, noCsi2, emitField_nil, ok_bind, sent, ok_bind]

theorem finishSymbol_of_takes (hc : s.tbs[x.tbx]? = some c) (hl : schLlrs s.params x.d x.dm.symBuf x.l y.1 = some ls)
    (takes : c.takes ls.length) :
    finishSymbol b s = .ok { s.published x.tbx c ls with bundles := s.bundles.set b (x.withSets y).advance } := by
  have found := getElem?_set_found (x.withSets y) hx
  rw [finishSymbol_of_sent hx hst hy noCsi2 (emitSch_of_takes (x := x.withSets y) found rfl hc hl takes), published_withBundles]
  simp only [State.modBundle, set_modify]
  rfl

theorem finishSymbol_of_nothing (hl : schLlrs s.params x.d x.dm.symBuf x.l y.1 = some []) :
    finishSymbol b s = .ok { s with bundles := s.bundles.set b (x.withSets y).advance } := by
  have found := getElem?_set_found (x.withSets y) hx
  rw [finishSymbol_of_sent hx hst hy noCsi2 (emitSch_of_nothing (x := x.withSets y) found rfl hl)]
  simp only [State.modBundle, set_modify]

end

/-- DEMUX_SYMBOL up to CSI Part 2 where neither HARQ-ACK nor CSI Part 1 bits are due (R245, R247). -/
theorem demuxSymbol_of_noAckCsi1 (hx : s.bundles[b]? = some x) (noAck : (partitionA s.params x.d x.l x.dm.bud).1.a = [])
    (noCsi1 : (partitionA s.params x.d x.l x.dm.bud).1.c1 = []) :
    demuxSymbol b s =
      let i : Instr := .demuxSymbol (BitVec.ofNat 8 b) (BitVec.ofNat 16 x.l)
      let y := x.withSets (partitionA s.params x.d x.l x.dm.bud)
      let planned : State := { s.record i with bundles := s.bundles.set b y }
      if x.dm.csi2State = .await then .ok { s.record i with bundles := s.bundles.set b { y with phase := .holdCsi2 } }
      else finishSymbol b planned := by
  have found : (s.record (.demuxSymbol (BitVec.ofNat 8 b) (BitVec.ofNat 16 x.l))).getBundle b = .ok x := getBundle_eq_ok.2 hx
  simp only [demuxSymbol, getBundle_eq_ok.2 hx, ok_bind, found, State.record_params, noAck, noCsi1, emitField_nil]
  have planned := modBundle_eq_set (s := s.record (.demuxSymbol (BitVec.ofNat 8 b) (BitVec.ofNat 16 x.l)))
    (fun x' => x'.withSets (partitionA s.params x.d x.l x.dm.bud)) hx
  have again : ({ s.record (.demuxSymbol (BitVec.ofNat 8 b) (BitVec.ofNat 16 x.l)) with
      bundles := s.bundles.set b (x.withSets (partitionA s.params x.d x.l x.dm.bud)) } : State).getBundle b =
      .ok (x.withSets (partitionA s.params x.d x.l x.dm.bud)) := getBundle_eq_ok.2 (getElem?_set_found _ hx)
  rw [planned]
  simp only [State.record_bundles, again, ok_bind, State.modBundle, set_modify]
  rfl

end

theorem runOp_congr {i : Instr} {tag : BitVec 8} {op op' : Op} {s : State} (h : op s = op' s) :
    runOp i tag op s = runOp i tag op' s := by simp only [runOp, h]

/-- The checks of a DEMUX_SYMBOL word are passed by the bundle's own, complete symbol (log 15). -/
theorem exec_demuxSymbol {s : State} {b : BitVec 8} {x : Bundle} (hx : s.bundles[b.toNat]? = some x)
    (complete : x.dm.symCnt = symbolBits x.d x.l) :
    exec (.demuxSymbol b (BitVec.ofNat 16 x.l)) s =
      runOp (.demuxSymbol b (BitVec.ofNat 16 x.l)) 0#8 (demuxSymbol b.toNat) s := by
  rw [exec, execDemuxSymbol]
  refine runOp_congr ?_
  rw [getBundle_eq_ok.2 hx, ok_bind, check_pos ⟨rfl, complete⟩, ok_bind]

/-- Any other symbol stops the block (log 15). -/
theorem exec_demuxSymbol_wrong {s : State} {b : BitVec 8} {l : BitVec 16} {x : Bundle} (running : s.fatal = false)
    (hx : s.bundles[b.toNat]? = some x) (wrong : l ≠ BitVec.ofNat 16 x.l ∨ x.dm.symCnt ≠ symbolBits x.d x.l) :
    exec (.demuxSymbol b l) s = .next ((s.record (.demuxSymbol b l)).enterFatal .stateViolation) := by
  have fails : ¬ (BitVec.ofNat 16 x.l = l ∧ x.dm.symCnt = symbolBits x.d x.l) := fun h =>
    wrong.elim (fun ne => ne h.1.symm) (fun ne => ne h.2)
  rw [exec, execDemuxSymbol]
  refine runOp_fatalError running ?_
  simp only [getBundle_eq_ok.2 hx, ok_bind, check_neg fails, error_bind]

/-- The state in which SCH, bound REAL, has got a block that is not empty. -/
theorem receive_of_takes {c : TbCtx} {ls : List Llr} (takes : c.takes ls.length) (h : ls ≠ []) :
    c.receive ls = { c with
      stage := Slots.write c.stage c.sch.count ls
      sch := { c.sch with viewLen := 0, count := c.sch.count + ls.length } } := by
  rw [TbCtx.receive, Port.receive_real takes.2.1 h, Port.counted]

/-- Settles O50: without UCI soft bits DEMUX_SYMBOL is `finishSymbol` on the planned symbol, or it holds for CSI Part 2. -/
theorem demuxSymbolResult : Obligations.DemuxSymbolResult := by
  intro s b x c ls running hx hc i y z after
  have self := ofNat_toNat_self b
  refine ⟨fun complete noUci hl takes => ?finish, fun complete await noAck noCsi1 => ?await,
    fun l wrong => exec_demuxSymbol_wrong running hx wrong⟩
  case finish =>
    obtain ⟨noAck, noCsi1, notAwait, noCsi2⟩ := noUci
    have found : ({ s.record i with bundles := s.bundles.set b.toNat (x.withSets y) } : State).bundles[b.toNat]? =
        some (x.withSets y) := getElem?_set_found _ hx
    have finished := finishSymbol_of_takes found rfl rfl noCsi2 hc hl takes
    have op := demuxSymbol_of_noAckCsi1 hx noAck noCsi1
    simp only [self, notAwait, if_false] at op
    rw [exec_demuxSymbol hx complete]
    have done := runOp_ok (i := i) (tag := 0#8) running (op.trans finished)
    rw [published_withBundles] at done
    simp only [List.set_set] at done
    refine ⟨fun empty => ?_, fun some => ?_⟩
    · rw [empty, published_nil] at done
      exact done
    · rw [published_of_ne some, receive_of_takes takes some] at done
      exact done
  case await =>
    have op := demuxSymbol_of_noAckCsi1 hx noAck noCsi1
    simp only [self, await, if_true] at op
    rw [exec_demuxSymbol hx complete]
    exact runOp_ok running op

/-! ### DEMUX_RESUME (R257) -/

theorem demuxResume_of_phase {s : State} {b : Nat} {x : Bundle} (hx : s.bundles[b]? = some x) (hp : x.phase = .resume) :
    demuxResume b s = finishSymbol b (s.record (.demuxResume (BitVec.ofNat 8 b) (BitVec.ofNat 16 x.l))) := by
  rw [demuxResume, getBundle_eq_ok.2 hx, ok_bind, check_pos hp, ok_bind]

/-- The checks of a DEMUX_RESUME word are passed by the bundle's own symbol in phase RESUME (log 15). -/
theorem exec_demuxResume {s : State} {b : BitVec 8} {x : Bundle} (hx : s.bundles[b.toNat]? = some x) (hp : x.phase = .resume) :
    exec (.demuxResume b (BitVec.ofNat 16 x.l)) s =
      runOp (.demuxResume b (BitVec.ofNat 16 x.l)) 0#8 (demuxResume b.toNat) s := by
  rw [exec, execDemuxResume]
  refine runOp_congr ?_
  rw [getBundle_eq_ok.2 hx, ok_bind, check_pos hp, ok_bind, check_pos rfl, ok_bind]

/-- In another phase DEMUX_RESUME has no step (R257). -/
theorem exec_demuxResume_hold {s : State} {b : BitVec 8} {x : Bundle} (running : s.fatal = false)
    (hx : s.bundles[b.toNat]? = some x) (hp : x.phase ≠ .resume) (l : BitVec 16) :
    exec (.demuxResume b l) s = .next s.hold := by
  rw [exec, execDemuxResume]
  refine runOp_hold running ?_
  rw [getBundle_eq_ok.2 hx, ok_bind, check_neg hp, error_bind]

/-- Settles O52: in phase RESUME the operation is `finishSymbol` on the symbol's sets, in any other it holds. -/
theorem demuxResumeResult : Obligations.DemuxResumeResult := by
  intro s b x c st ls running hx hc i z after
  have self := ofNat_toNat_self b
  refine ⟨fun hp hst noCsi2 hl takes => ?_, fun hp => exec_demuxResume_hold running hx hp⟩
  have finished := finishSymbol_of_takes (s := s.record i) hx hst rfl noCsi2 hc hl takes
  have op := demuxResume_of_phase hx hp
  rw [self] at op
  rw [exec_demuxResume hx hp]
  have done := runOp_ok (i := i) (tag := 0#8) running (op.trans finished)
  refine ⟨fun empty => ?_, fun some => ?_⟩
  · rw [empty, published_nil] at done
    exact done
  · rw [published_of_ne some, receive_of_takes takes some] at done
    exact done

/-! ### A symbol without positions (R388, R248) -/

theorem sel_nil (bpr rem : Nat) : sel bpr [] rem = ([], 0) := by simp [sel]

/-- The sets of a symbol without positions. -/
def Sets.empty : Sets := ⟨[], [], [], [], [], [], [], []⟩

section
variable {d : Descriptor} {l : Nat} (empty : nofPositions d l = 0)
include empty

theorem subcarriers_of_empty : subcarriers d l = [] := List.length_eq_zero_iff.1 empty

theorem symbolBits_of_empty : symbolBits d l = 0 := by rw [symbolBits, empty, Nat.zero_mul]

theorem uciCandidates_of_empty : uciCandidates d l = [] := by
  rw [uciCandidates, empty]
  exact ite_self []

/-- There is nothing to partition (R237). -/
theorem partitionA_of_empty (p : Params) (bud : Budgets) : partitionA p d l bud = (Sets.empty, bud) := by
  have reserve : stepReserve p d l bud [] = ([], 0) := by rw [stepReserve, sel_nil, ite_self]
  have longAck : stepLongAck p d l bud [] [] = ([], 0) := by rw [stepLongAck, minus, List.filter_nil, sel_nil, ite_self]
  have csi1 : stepCsi1 d bud [] [] = ([], 0) := by rw [stepCsi1, minus, List.filter_nil, sel_nil, ite_self]
  have shortAck : stepShortAck d bud [] = ([], 0) := by rw [stepShortAck, sel_nil, ite_self]
  simp [partitionA, uciCandidates_of_empty empty, empty, reserve, longAck, csi1, shortAck, minus, Sets.empty]

theorem schPositions_of_empty (p : Params) : schPositions p d l Sets.empty = [] := by
  rw [schPositions, empty]
  cases p.rsvdForward <;> rfl

theorem schLlrs_of_empty (p : Params) (buf : Slots) : schLlrs p d buf l Sets.empty = some [] := by
  rw [schLlrs, schPositions_of_empty empty]
  rfl

/-- There is nothing to demodulate (R385). -/
theorem demodulate_of_empty {x : Bundle} (hd : x.d = d) (hl : x.l = l) (p : Params) : demodulate p x = ⟨[], [], []⟩ := by
  have noPairs : symbolPairs x.d x.l = [] := by rw [symbolPairs, hd, hl, subcarriers_of_empty empty]; rfl
  have noSymbols : revertPrecoding x.d [] = [] := by rw [revertPrecoding]; split <;> rfl
  simp only [demodulate, noPairs, List.map_nil, noSymbols]
  rfl

end

/-- There are no positions for CSI Part 2 either (R238). -/
theorem partitionB_empty (d : Descriptor) (configured : Bool) (bud : Budgets) :
    partitionB d configured Sets.empty bud = (Sets.empty, bud) := by
  simp [partitionB, Sets.empty, minus, sel_nil]

/-- Nothing is accumulated (R393) but what the opaque fold makes of it. -/
theorem accumulate_nothing (x : Bundle) :
    x.accumulate ⟨[], [], []⟩ = { x with evmAcc := Config.evmFold x.evmAcc x.d [] [] } := by
  have sum : ExactReal.add x.nvSum (ExactReal.sum []) = x.nvSum := by
    simp [ExactReal.add, ExactReal.sum, ExactReal.zero]
  exact congrArg (fun v => { x with nvSum := v, evmAcc := Config.evmFold x.evmAcc x.d [] [] }) sum

/-- DESCRAMBLE has no soft bits to work on (R384, R388). -/
theorem descrambleOp_of_empty {s : State} {b : Nat} {x : Bundle} (hx : s.bundles[b]? = some x) (hw : x.work = [])
    (empty : nofPositions x.d x.l = 0) :
    descrambleOp b s = .ok (s.record (.descramble (BitVec.ofNat 8 b) 0#16)) := by
  have noBits := symbolBits_of_empty empty
  have enough : 0 ≤ x.work.length := Nat.zero_le _
  have unchanged : (s.record (.descramble (BitVec.ofNat 8 b) (BitVec.ofNat 16 0))).modBundle b (fun x =>
      { x with work := descrambleLlrs (cInit x.d) x.cwPos (x.work.take 0) ++ x.work.drop 0 }) =
      s.record (.descramble (BitVec.ofNat 8 b) (BitVec.ofNat 16 0)) := by
    have work : descrambleLlrs (cInit x.d) x.cwPos (x.work.take 0) ++ x.work.drop 0 = x.work := by
      rw [hw]
      simp [descrambleLlrs]
    exact modBundle_of_fixed hx (congrArg (fun w => { x with work := w }) work)
  simp only [descrambleOp, getBundle_eq_ok.2 hx, ok_bind, noBits, check_pos enough, unchanged]

/-- DEMUX_SYMBOL finds nothing to partition, publishes nothing and advances (R388, R248). -/
theorem demuxSymbol_of_empty {s : State} {b : Nat} {x : Bundle} (hx : s.bundles[b]? = some x)
    (empty : nofPositions x.d x.l = 0) (notAwait : x.dm.csi2State ≠ .await) :
    demuxSymbol b s = .ok { s.record (.demuxSymbol (BitVec.ofNat 8 b) (BitVec.ofNat 16 x.l)) with
      bundles := s.bundles.set b (x.withSets (Sets.empty, x.dm.bud)).advance } := by
  have partition := partitionA_of_empty empty s.params x.dm.bud
  have found : ({ s.record (.demuxSymbol (BitVec.ofNat 8 b) (BitVec.ofNat 16 x.l)) with
      bundles := s.bundles.set b (x.withSets (Sets.empty, x.dm.bud)) } : State).bundles[b]? = _ := getElem?_set_found _ hx
  have finished := finishSymbol_of_nothing found rfl (partitionB_empty _ _ _).symm rfl (schLlrs_of_empty empty _ _)
  rw [demuxSymbol_of_noAckCsi1 hx (by rw [partition]; rfl) (by rw [partition]; rfl), partition]
  simp only [notAwait, if_false, finished, List.set_set]
  rfl

/-- The bundle once a symbol without positions is demodulated (R393). -/
def Bundle.demodulatedNothing (x : Bundle) : Bundle := { x with evmAcc := Config.evmFold x.evmAcc x.d [] [], work := [] }

/-- DEMOD_SYMBOL of a symbol without positions goes on with DESCRAMBLE and DEMUX_SYMBOL (R388). -/
theorem demodSymbol_of_empty {s : State} {b : Nat} {x : Bundle} (hx : s.bundles[b]? = some x) (hp : x.phase = .demod)
    (empty : nofPositions x.d x.l = 0) (notAwait : x.dm.csi2State ≠ .await) :
    demodSymbol b s = .ok { ((s.record (.demodSymbol (BitVec.ofNat 8 b) (BitVec.ofNat 16 x.l))).record
        (.descramble (BitVec.ofNat 8 b) 0#16)).record (.demuxSymbol (BitVec.ofNat 8 b) (BitVec.ofNat 16 x.l)) with
      bundles := s.bundles.set b (x.demodulatedNothing.withSets (Sets.empty, x.dm.bud)).advance } := by
  obtain ⟨s1, hs1⟩ : ∃ s1 : State, s1 = { s.record (.demodSymbol (BitVec.ofNat 8 b) (BitVec.ofNat 16 x.l)) with
    bundles := s.bundles.set b x.demodulatedNothing } := ⟨_, rfl⟩
  have found : s1.bundles[b]? = some x.demodulatedNothing := by rw [hs1]; exact getElem?_set_found _ hx
  have demodulated : (s.record (.demodSymbol (BitVec.ofNat 8 b) (BitVec.ofNat 16 x.l))).modBundle b (fun x =>
      { x.accumulate ⟨[], [], []⟩ with work := [] }) = s1 := by
    rw [hs1]
    refine (modBundle_eq_set (s := s.record _) _ hx).trans ?_
    rw [accumulate_nothing]
    rfl
  have descrambled := descrambleOp_of_empty found rfl empty
  have advanced := demuxSymbol_of_empty (s := s1.record (.descramble (BitVec.ofNat 8 b) 0#16)) found empty notAwait
  simp only [demodSymbol, getBundle_eq_ok.2 hx, ok_bind, check_pos hp, demodulate_of_empty empty rfl rfl, empty, if_true,
    demodulated, descrambled, advanced]
  simp only [hs1, State.record_bundles, List.set_set]
  rfl

/-- The checks of a DEMOD_SYMBOL word are passed by the bundle's own symbol in phase DEMOD (log 15). -/
theorem exec_demodSymbol {s : State} {b : BitVec 8} {x : Bundle} (hx : s.bundles[b.toNat]? = some x) (hp : x.phase = .demod) :
    exec (.demodSymbol b (BitVec.ofNat 16 x.l)) s =
      runOp (.demodSymbol b (BitVec.ofNat 16 x.l)) 0#8 (demodSymbol b.toNat) s := by
  rw [exec, execDemodSymbol]
  refine runOp_congr ?_
  rw [getBundle_eq_ok.2 hx, ok_bind, check_pos hp, ok_bind, check_pos rfl, ok_bind]

/-- Settles O47: with no positions every stage works on empty lists, so only the symbol counter moves. -/
theorem symbolWithoutPositions : Obligations.SymbolWithoutPositions := by
  intro s b x running hx hp empty notAwait
  have self := ofNat_toNat_self b
  have op := demodSymbol_of_empty hx hp empty notAwait
  rw [self] at op
  have fields : x.demodulatedNothing.cwPos + symbolBits x.d x.l = x.cwPos := by rw [symbolBits_of_empty empty]; rfl
  have advanced : (x.demodulatedNothing.withSets (Sets.empty, x.dm.bud)).advance = { x with
      evmAcc := Config.evmFold x.evmAcc x.d [] []
      work := []
      l := x.l + 1
      phase := if x.l + 1 = startSymb x.d + nofSymb x.d then .endPdu else .demod
      dm := { x.dm with symCnt := 0, sets := none } } :=
    congrArg (fun n => { (x.demodulatedNothing.withSets (Sets.empty, x.dm.bud)).advance with cwPos := n }) fields
  rw [advanced] at op
  rw [exec_demodSymbol hx hp]
  exact runOp_ok running op

end Sys2Proof.Machine
end

section
/-!
PROOFS. The soft bits each port gets of a symbol (spec/41_demux.md R241 to R249, R257).
-/

namespace Sys2Proof.Machine

/-! ### Reading slots (R101, R241) -/

theorem eq_map_of_allSome {α : Type} {os : List (Option α)} {xs : List α} (h : allSome os = some xs) : os = xs.map some := by
  induction os generalizing xs with
  | nil => cases h; rfl
  | cons o os ih =>
    cases o with
    | none => cases h
    | some a =>
      simp only [allSome] at h
      split at h <;> cases h
      rw [ih ‹_›]
      rfl

/-- The values read are those the slots hold. -/
theorem get?_eq_some {m : Slots} {i n : Nat} {ls : List Llr} (h : Slots.get? m i n = some ls) :
    ls.length = n ∧ ∀ q, q < n → ls[q]? = (m[i + q]?).join := by
  unfold Slots.get? at h
  split at h
  case isFalse => cases h
  case isTrue inside =>
    have slots := eq_map_of_allSome h
    have length : ls.length = n := by
      have := congrArg List.length slots
      rw [List.length_take, List.length_drop, List.length_map] at this
      omega
    refine ⟨length, fun q hq => ?_⟩
    have slot : (m[i + q]?) = (ls[q]?).map some := by
      rw [← List.getElem?_map, ← slots, List.getElem?_take_of_lt hq, List.getElem?_drop]
    rw [slot]
    cases ls[q]? <;> rfl

/-- The blocks read at the entries of `xs`, one for each. -/
theorem blocks_of_allSome {F : Nat → Option (List Llr)} {xs : List Nat} {groups : List (List Llr)}
    (h : allSome (xs.map F) = some groups) :
    groups.length = xs.length ∧ ∀ (m x : Nat), xs[m]? = some x → ∃ g, groups[m]? = some g ∧ F x = some g := by
  have blocks := eq_map_of_allSome h
  refine ⟨by simpa using (congrArg List.length blocks).symm, fun m x hx => ?_⟩
  have entry : (groups[m]?).map some = some (F x) := by rw [← List.getElem?_map, ← blocks, List.getElem?_map, hx]; rfl
  obtain ⟨g, hg, hF⟩ := Option.map_eq_some_iff.1 entry
  exact ⟨g, hg, hF.symm⟩

/-- Entry `j` of a concatenation of lists of `k` entries each. -/
theorem flatMap_getElem? {α β : Type} {f : α → List β} {k : Nat} {l : List α} (h : ∀ a ∈ l, (f a).length = k) {j : Nat}
    (hj : j < l.length * k) : (l.flatMap f)[j]? = (l[j / k]?).bind fun a => (f a)[j % k]? := by
  induction l generalizing j with
  | nil => simp at hj
  | cons a l ih =>
    have ha := h a List.mem_cons_self
    have positive : 0 < k := Nat.pos_of_ne_zero fun zero => by simp [zero] at hj
    rw [List.flatMap_cons]
    by_cases first : j < k
    · rw [List.getElem?_append_left (by omega), Nat.div_eq_of_lt first, Nat.mod_eq_of_lt first]
      rfl
    · obtain ⟨i, rfl⟩ := Nat.exists_eq_add_of_le (Nat.le_of_not_lt first)
      have rest : i < l.length * k := by rw [List.length_cons, Nat.succ_mul] at hj; omega
      rw [List.getElem?_append_right (by omega), ha, Nat.add_sub_cancel_left, Nat.add_div_left _ positive, Nat.add_mod_left,
        ih (fun b hb => h b (List.mem_cons_of_mem _ hb)) rest]
      rfl

theorem length_flatMap_uniform {α β : Type} {f : α → List β} {k : Nat} {l : List α} (h : ∀ a ∈ l, (f a).length = k) :
    (l.flatMap f).length = l.length * k := by
  rw [List.length_flatMap, List.map_congr_left h, List.map_const', List.sum_replicate, smul_eq_mul]

/-- A block index within `n` blocks of `k` entries. -/
theorem getElem?_div {xs : List Nat} {k j : Nat} (hj : j < xs.length * k) : xs[j / k]? = some (xs.getD (j / k) 0) := by
  have inside : j / k < xs.length := Nat.div_lt_of_lt_mul (by rwa [Nat.mul_comm])
  rw [List.getD_eq_getElem?_getD, List.getElem?_eq_getElem inside]
  rfl

theorem mod_lt_of_lt_mul {n k j : Nat} (hj : j < n * k) : j % k < k :=
  Nat.mod_lt _ (Nat.pos_of_ne_zero fun zero => by simp [zero] at hj)

/-! ### The soft bits of a set of positions (R241, R242) -/

/-- `bits(X)` gives each position's `bpr` soft bits in order, with their codeword positions (R241). -/
theorem positionBits_getElem? {d : Descriptor} {buf : Slots} {cwPos : Nat} {xs : List Nat} {bits : List (Llr × Nat)}
    (h : positionBits d buf cwPos xs = some bits) :
    bits.length = xs.length * bpr d ∧ ∀ j, j < xs.length * bpr d → ∃ v,
      (buf[xs.getD (j / bpr d) 0 * bpr d + j % bpr d]?).join = some v ∧
        bits[j]? = some (v, cwPos + xs.getD (j / bpr d) 0 * bpr d + j % bpr d) := by
  unfold positionBits at h
  split at h
  case h_2 => cases h
  case h_1 groups hg =>
    cases h
    obtain ⟨length, blocks⟩ := blocks_of_allSome hg
    have uniform : ∀ gi ∈ List.zip groups xs,
        (gi.1.zip ((List.range (bpr d)).map (fun k => cwPos + gi.2 * bpr d + k))).length = bpr d := by
      intro gi hgi
      obtain ⟨m, hm⟩ := List.mem_iff_getElem?.1 hgi
      obtain ⟨hg, hx⟩ := List.getElem?_zip_eq_some.1 hm
      obtain ⟨g, hg', hget⟩ := blocks m gi.2 hx
      obtain rfl : gi.1 = g := Option.some.inj (hg.symm.trans hg')
      rw [List.length_zip, List.length_map, List.length_range, (get?_eq_some hget).1, Nat.min_self]
    have zipped : (List.zip groups xs).length = xs.length := by rw [List.length_zip, length, Nat.min_self]
    refine ⟨by rw [length_flatMap_uniform uniform, zipped], fun j hj => ?_⟩
    have hx := getElem?_div hj
    obtain ⟨g, hm, hget⟩ := blocks _ _ hx
    obtain ⟨size, values⟩ := get?_eq_some hget
    have inside := mod_lt_of_lt_mul hj
    rw [flatMap_getElem? uniform (by rwa [zipped])]
    have pair : (List.zip groups xs)[j / bpr d]? = some (g, xs.getD (j / bpr d) 0) := by
      rw [List.getElem?_zip_eq_some]; exact ⟨hm, hx⟩
    rw [pair]
    refine ⟨g[j % bpr d]'(by omega), ?_, ?_⟩
    · rw [← values _ inside]
      exact List.getElem?_eq_getElem _
    · simp [inside, size]

/-- The placeholder correction negates where the two scrambling bits differ (R242). -/
theorem place_eq (cinit : BitVec 31) (qm payload : Nat) (v : Llr) (p : Nat) :
    place cinit qm payload v p =
      if payload ≤ p % qm ∧ scrambleBit cinit p ≠ scrambleBit cinit (p - p % qm + payload - 1) then -v else v := by
  dsimp only [place]
  generalize scrambleBit cinit (p - p % qm + payload - 1) = b
  generalize scrambleBit cinit p = a
  by_cases info : p % qm < payload
  · simp [info, Nat.not_le.2 info]
  · cases a <;> cases b <;> simp [signBy, info, Nat.le_of_not_lt info]

/-- What `emit_field` publishes of the positions `xs` (R244). -/
theorem fieldLlrs_getElem? {x : Bundle} {xs : List Nat} {bits : List (Llr × Nat)} (payload : Nat)
    (h : positionBits x.d x.dm.symBuf x.cwPos xs = some bits) :
    (fieldLlrs x.d payload bits).length = xs.length * bpr x.d ∧ ∀ j, j < xs.length * bpr x.d → ∃ v,
      x.fieldBit payload (xs.getD (j / bpr x.d) 0) (j % bpr x.d) = some v ∧ (fieldLlrs x.d payload bits)[j]? = some v := by
  obtain ⟨length, entries⟩ := positionBits_getElem? h
  refine ⟨by rw [fieldLlrs, List.length_map, length], fun j hj => ?_⟩
  obtain ⟨v, slot, entry⟩ := entries j hj
  have bit : x.softBit (xs.getD (j / bpr x.d) 0) (j % bpr x.d) = some v := slot
  rw [fieldLlrs, List.getElem?_map, entry, Bundle.fieldBit, bit]
  refine ⟨_, rfl, congrArg some ?_⟩
  by_cases short : payload ≤ 2
  · simp only [short, if_true, true_and]
    exact place_eq _ _ _ _ _
  · simp only [short, if_false, false_and]

/-- What `emit_sch` publishes of the sets `z` (R249). -/
theorem schLlrs_getElem? {p : Params} {x : Bundle} {z : Sets} {ls : List Llr}
    (h : schLlrs p x.d x.dm.symBuf x.l z = some ls) :
    let xs := schPositions p x.d x.l z
    ls.length = xs.length * bpr x.d ∧ ∀ j, j < xs.length * bpr x.d → ∃ v,
      (x.softBit (xs.getD (j / bpr x.d) 0) (j % bpr x.d)).map (fun v =>
        if p.rsvdForward = .toUlsch ∧ xs.getD (j / bpr x.d) 0 ∈ z.a then 0#8 else v) = some v ∧ ls[j]? = some v := by
  intro xs
  unfold schLlrs at h
  split at h
  case h_2 => cases h
  case h_1 groups hg =>
    cases h
    obtain ⟨length, blocks⟩ := blocks_of_allSome hg
    have block : ∀ m i : Nat, xs[m]? = some i → ∃ ls, Slots.get? x.dm.symBuf (i * bpr x.d) (bpr x.d) = some ls ∧
        groups[m]? = some (if p.rsvdForward = .toUlsch ∧ i ∈ z.a then ls.map (fun _ => 0#8) else ls) := by
      intro m i hi
      obtain ⟨g, hm, hget⟩ := blocks m i hi
      split at hget <;> cases hget
      refine ⟨_, ‹_›, ?_⟩
      simpa only [List.contains_iff_mem] using hm
    have uniform : ∀ g ∈ groups, (id g).length = bpr x.d := by
      intro g hg
      obtain ⟨m, hm⟩ := List.mem_iff_getElem?.1 hg
      have inside : m < xs.length := by
        rw [← length]
        exact (List.getElem?_eq_some_iff.1 hm).1
      obtain ⟨ls, hget, hm'⟩ := block m _ (List.getElem?_eq_getElem inside)
      rw [id, Option.some.inj (hm.symm.trans hm')]
      split
      · rw [List.length_map, (get?_eq_some hget).1]
      · exact (get?_eq_some hget).1
    rw [← List.flatMap_id]
    refine ⟨by rw [length_flatMap_uniform uniform, length], fun j hj => ?_⟩
    obtain ⟨ls, hget, hm⟩ := block _ _ (getElem?_div hj)
    obtain ⟨size, values⟩ := get?_eq_some hget
    have inside := mod_lt_of_lt_mul hj
    have entry : ls[j % bpr x.d]? = some (ls[j % bpr x.d]'(by omega)) := List.getElem?_eq_getElem _
    have bit : x.softBit (xs.getD (j / bpr x.d) 0) (j % bpr x.d) = some (ls[j % bpr x.d]'(by omega)) :=
      (values _ inside).symm.trans entry
    refine ⟨_, by rw [bit]; rfl, ?_⟩
    rw [flatMap_getElem? uniform (by rwa [length]), hm, Option.bind_some, id]
    split
    · rw [List.getElem?_map, entry]; rfl
    · exact entry

/-! ### What a port has got (R206, R244, R249) -/

/-- A block stored at a port bound REAL stands at the port's count, and every other slot holds what it held. -/
theorem holdsFrom_receive {p : Port} (real : p.bound = .real) {ls : List Llr} {n : Nat} {f : Nat → Option Llr} (m : Slots)
    (length : ls.length = n) (h : ∀ j, j < n → ∃ v, f j = some v ∧ ls[j]? = some v) :
    Slots.holdsFrom m (p.receive ls m) p.count n f := by
  by_cases empty : ls = []
  · have none : n = 0 := by rw [← length, empty]; rfl
    rw [Port.receive, if_pos (.inl empty), none]
    exact ⟨fun j hj => absurd hj (Nat.not_lt_zero j), fun _ _ => rfl⟩
  · rw [Port.receive_real real empty]
    refine ⟨fun j hj => ?_, fun k outside => put_getElem?_outside _ _ _ (by rwa [List.length_map, length])⟩
    obtain ⟨v, hf, hv⟩ := h j hj
    refine ⟨v, hf, ?_⟩
    rw [Slots.write, put_getElem?_inside _ _ _ (by rwa [List.length_map, length]), List.getElem?_map, hv]
    rfl

/-- A field that has received what `emit_field` publishes has got the soft bits of its positions. -/
theorem gives_receive {x : Bundle} {xs : List Nat} {bits : List (Llr × Nat)} (payload : Nat) (u : FieldUnit)
    (h : positionBits x.d x.dm.symBuf x.cwPos xs = some bits) :
    x.gives payload xs u (u.receive (fieldLlrs x.d payload bits)) := by
  obtain ⟨length, entries⟩ := fieldLlrs_getElem? payload h
  exact ⟨congrArg (u.port.count + ·) length, fun null => Port.receive_null null _ _,
    fun real => holdsFrom_receive real _ length entries⟩

/-- No positions, no soft bits. -/
theorem gives_nil (x : Bundle) (payload : Nat) (u : FieldUnit) : x.gives payload [] u u := by
  have none : 0 * bpr x.d = 0 := Nat.zero_mul _
  refine ⟨by simp, fun _ => rfl, fun _ => ⟨fun j hj => ?_, fun _ _ => rfl⟩⟩
  rw [List.length_nil, none] at hj
  exact absurd hj (Nat.not_lt_zero j)

/-- SCH, having received what `emit_sch` publishes, has got the soft bits of its positions. -/
theorem givesSch_receive {p : Params} {x : Bundle} {z : Sets} {ls : List Llr} (c : TbCtx)
    (h : schLlrs p x.d x.dm.symBuf x.l z = some ls) : x.givesSch p z c (c.receive ls) := by
  obtain ⟨length, entries⟩ := schLlrs_getElem? h
  exact ⟨congrArg (c.sch.count + ·) length, fun null => Port.receive_null null _ _,
    fun real => holdsFrom_receive real _ length entries⟩

/-- The same where there is nothing to publish. -/
theorem givesSch_nothing {p : Params} {x : Bundle} {z : Sets} (c : TbCtx)
    (h : schLlrs p x.d x.dm.symBuf x.l z = some []) : x.givesSch p z c c := by
  obtain ⟨count, null, real⟩ := givesSch_receive c h
  have same : (c.receive []).stage = c.stage := c.sch.receive_nil c.stage
  exact ⟨count, fun _ => rfl, fun hb => same ▸ real hb⟩

end Sys2Proof.Machine
end

section
/-!
PROOFS. What the demultiplexer's steps do to a bundle and its TB context, and so which soft bits each port gets of a symbol
(spec/41_demux.md R241 to R250, R257).
-/

namespace Sys2Proof.Machine

/-! ### One field of a bundle changes -/

@[simp] theorem uci_modUci_self (x : Bundle) (f : UciField) (g : FieldUnit → FieldUnit) :
    (x.modUci f g).uci f = g (x.uci f) := by
  cases f <;> rfl

theorem uci_modUci_other {f e : UciField} (h : e ≠ f) (x : Bundle) (g : FieldUnit → FieldUnit) :
    (x.modUci f g).uci e = x.uci e := by
  cases f <;> cases e <;> simp_all [Bundle.modUci, Bundle.uci]

/-- The bundle is at the same symbol, with the same soft bits, sets and budgets; CSI Part 2 has got its
size or not as before. -/
structure Bundle.SameSymbol (x x' : Bundle) : Prop where
  d : x'.d = x.d
  tbx : x'.tbx = x.tbx
  l : x'.l = x.l
  cwPos : x'.cwPos = x.cwPos
  symBuf : x'.dm.symBuf = x.dm.symBuf
  sets : x'.dm.sets = x.dm.sets
  bud : x'.dm.bud = x.dm.bud
  csi2Bits : x'.dm.csi2Bits = x.dm.csi2Bits
  configured : x'.dm.csi2State = .configured ↔ x.dm.csi2State = .configured

theorem Bundle.SameSymbol.refl (x : Bundle) : x.SameSymbol x := ⟨rfl, rfl, rfl, rfl, rfl, rfl, rfl, rfl, Iff.rfl⟩

theorem Bundle.SameSymbol.trans {x y z : Bundle} (h : x.SameSymbol y) (k : y.SameSymbol z) : x.SameSymbol z :=
  ⟨k.d.trans h.d, k.tbx.trans h.tbx, k.l.trans h.l, k.cwPos.trans h.cwPos, k.symBuf.trans h.symBuf, k.sets.trans h.sets,
    k.bud.trans h.bud, k.csi2Bits.trans h.csi2Bits, k.configured.trans h.configured⟩

theorem modUci_sameSymbol (x : Bundle) (f : UciField) (g : FieldUnit → FieldUnit) : x.SameSymbol (x.modUci f g) := by
  cases f <;> exact ⟨rfl, rfl, rfl, rfl, rfl, rfl, rfl, rfl, Iff.rfl⟩

/-- Which soft bits a port gets is read from the symbol alone. -/
theorem Bundle.SameSymbol.gives_iff {x y : Bundle} (h : x.SameSymbol y) (payload : Nat) (xs : List Nat) (u u' : FieldUnit) :
    y.gives payload xs u u' ↔ x.gives payload xs u u' := by
  simp only [Bundle.gives, Bundle.fieldBit, Bundle.softBit, h.d, h.cwPos, h.symBuf]

theorem Bundle.SameSymbol.payloadBits {x y : Bundle} (h : x.SameSymbol y) (f : UciField) :
    y.payloadBits f = x.payloadBits f := by
  cases f <;> simp only [Bundle.payloadBits, h.d, h.csi2Bits]

theorem Bundle.SameSymbol.givesSch_iff {x y : Bundle} (h : x.SameSymbol y) (p : Params) (z : Sets) (c c' : TbCtx) :
    y.givesSch p z c c' ↔ x.givesSch p z c c' := by
  simp only [Bundle.givesSch, Bundle.softBit, h.d, h.l, h.symBuf]

/-! ### The close of a field port (R204, R250, R436) -/

/-- The bundle after the close of field `f`'s port: that field keeps what its port has
got, and every other field is as it was. -/
structure Bundle.Settled (f : UciField) (x x' : Bundle) : Prop where
  same : x.SameSymbol x'
  llr : (x'.uci f).llr = (x.uci f).llr
  count : (x'.uci f).port.count = (x.uci f).port.count
  others : ∀ e, e ≠ f → x'.uci e = x.uci e

theorem Bundle.Settled.refl (f : UciField) (x : Bundle) : Bundle.Settled f x x := ⟨.refl x, rfl, rfl, fun _ _ => rfl⟩

theorem Bundle.Settled.trans {f : UciField} {x y z : Bundle} (h : Bundle.Settled f x y) (k : Bundle.Settled f y z) :
    Bundle.Settled f x z :=
  ⟨h.same.trans k.same, k.llr.trans h.llr, k.count.trans h.count, fun e he => (k.others e he).trans (h.others e he)⟩

/-- A change of the field itself that keeps its soft bits. -/
theorem modUci_settled {f : UciField} {g : FieldUnit → FieldUnit} (x : Bundle) (hl : (g (x.uci f)).llr = (x.uci f).llr)
    (hc : (g (x.uci f)).port.count = (x.uci f).port.count) : Bundle.Settled f x (x.modUci f g) :=
  ⟨modUci_sameSymbol x f g, by rw [uci_modUci_self, hl], by rw [uci_modUci_self, hc], fun _ he => uci_modUci_other he x g⟩

/-- What the close of a field port does to the state (R209): no TB context changes, and the bundle is `Settled`. -/
structure State.Settles (b : Nat) (f : UciField) (s t : State) : Prop where
  tbs : t.tbs = s.tbs
  bundle : ∀ x, s.bundles[b]? = some x → ∃ x', t.bundles[b]? = some x' ∧ Bundle.Settled f x x'

theorem State.Settles.of_eq {b : Nat} {f : UciField} {s t : State} (ht : t.tbs = s.tbs) (hb : t.bundles = s.bundles) :
    State.Settles b f s t := ⟨ht, fun x hx => ⟨x, by rw [hb, hx], .refl f x⟩⟩

theorem State.Settles.trans {b : Nat} {f : UciField} {s t u : State} (h : State.Settles b f s t) (k : State.Settles b f t u) :
    State.Settles b f s u := by
  refine ⟨k.tbs.trans h.tbs, fun x hx => ?_⟩
  obtain ⟨y, hy, settled⟩ := h.bundle x hx
  obtain ⟨z, hz, settled'⟩ := k.bundle y hy
  exact ⟨z, hz, settled.trans settled'⟩

theorem record_settles (b : Nat) (f : UciField) (s : State) (i : Instr) : State.Settles b f s (s.record i) := .of_eq rfl rfl

theorem modBundle_settles {b : Nat} {f : UciField} {s : State} {g : Bundle → Bundle}
    (h : ∀ x, s.bundles[b]? = some x → Bundle.Settled f x (g x)) : State.Settles b f s (s.modBundle b g) :=
  ⟨rfl, fun x hx => ⟨g x, getElem?_modify_self g hx, h x hx⟩⟩

theorem uciDecode_settles {b : Nat} {f : UciField} {s t : State} (h : uciDecode b f s = .ok t) : State.Settles b f s t := by
  simp only [uciDecode, bind_eq_ok, getBundle_eq_ok, need_eq_ok, ok_eq_ok] at h
  obtain ⟨x, _, ls, _, rfl⟩ := h
  refine (record_settles b f s _).trans (modBundle_settles fun x _ => modUci_settled x ?_ ?_) <;>
    (unfold FieldUnit.decode; split <;> rfl)

/-- CSI Part 2, still waited for, is asked for or declined (R250); it gets no size here. -/
theorem setCsi2State_settles {b : Nat} {f : UciField} {c : Csi2State} {s : State} {x : Bundle} (hx : s.bundles[b]? = some x)
    (waiting : x.dm.csi2State = .waiting) (hc : c ≠ .configured) : State.Settles b f s (setCsi2State b c s) := by
  refine modBundle_settles fun y hy => ?_
  obtain rfl : x = y := Option.some.inj (hx.symm.trans hy)
  refine ⟨⟨rfl, rfl, rfl, rfl, rfl, rfl, rfl, rfl, ?_⟩, by cases f <;> rfl, by cases f <;> rfl,
    fun e _ => by cases e <;> rfl⟩
  simp [hc, waiting]

theorem afterCsi1Close_settles {b : Nat} {f : UciField} {s t : State} (h : afterCsi1Close b s = .ok t) :
    State.Settles b f s t := by
  simp only [afterCsi1Close, bind_eq_ok, getBundle_eq_ok] at h
  obtain ⟨x, hx, h⟩ := h
  split at h
  case isFalse => cases h; exact .of_eq rfl rfl
  case isTrue waiting =>
    split at h
    · obtain ⟨-, rfl⟩ := emit_eq_ok.1 h
      exact (setCsi2State_settles hx waiting (by decide)).trans (.of_eq rfl rfl)
    · cases h
      exact setCsi2State_settles hx waiting (by decide)

theorem consumeClose_settles {b : Nat} {f : UciField} {s t : State} (h : consumeClose (.uci f b) s = .ok t) :
    State.Settles b f s t := by
  cases f with
  | ack => exact uciDecode_settles h
  | csi2 => exact uciDecode_settles h
  | csi1 =>
    obtain ⟨u, hu, h⟩ := bind_eq_ok.1 h
    exact (uciDecode_settles hu).trans (afterCsi1Close_settles h)

theorem issueClose_settles {b : Nat} {f : UciField} {s t : State} (h : issueClose consumeClose (.uci f b) s = .ok t) :
    State.Settles b f s t := by
  obtain ⟨p, -, -, h⟩ := closeWith_eq_ok.1 h
  have closed : ∀ s : State, State.Settles b f s (s.modPort (.uci f b) fun q => { q with isOpen := false, viewLen := 0 }) :=
    fun s => modBundle_settles fun x _ => modUci_settled x rfl rfl
  refine (record_settles b f s (.close (PortRef.uci f b).id (PortRef.uci f b).owner)).trans ?_
  rcases whenReal_eq_ok.1 h with ⟨-, rfl⟩ | ⟨-, h⟩
  · exact closed _
  · exact (closed _).trans (consumeClose_settles h)

/-! ### `emit_field`, `emit_sch` and `finish_symbol` as they complete (R244, R245, R249) -/

/-- The bundle after `emit_field` of field `f` and the positions `xs` (R244). -/
structure Bundle.Emitted (f : UciField) (xs : List Nat) (x x' : Bundle) : Prop where
  same : x.SameSymbol x'
  got : x.gives (x.payloadBits f) xs (x.uci f) (x'.uci f)
  others : ∀ e, e ≠ f → x'.uci e = x.uci e

/-- A block is published, and the close of the port that may follow keeps it. -/
theorem Bundle.Settled.emitted {f : UciField} {xs : List Nat} {x x' : Bundle} {ls : List Llr}
    (h : Bundle.Settled f (x.modUci f fun u => u.receive ls) x')
    (got : x.gives (x.payloadBits f) xs (x.uci f) ((x.uci f).receive ls)) : Bundle.Emitted f xs x x' := by
  refine ⟨(modUci_sameSymbol x f _).trans h.same, ?_, fun e he => (h.others e he).trans (uci_modUci_other he x _)⟩
  have llr := h.llr
  have count := h.count
  rw [uci_modUci_self] at llr count
  unfold Bundle.gives at got ⊢
  rw [llr, count]
  exact got

theorem emitField_completed {b : Nat} {f : UciField} {xs : List Nat} {s t : State} {x : Bundle} (hx : s.bundles[b]? = some x)
    (h : emitField b f xs s = .ok t) :
    t.tbs = s.tbs ∧ ∃ x', t.bundles[b]? = some x' ∧ Bundle.Emitted f xs x x' := by
  unfold emitField at h
  split at h
  case isTrue none =>
    cases h
    rw [none]
    exact ⟨rfl, x, hx, .refl x, gives_nil x _ _, fun _ _ => rfl⟩
  case isFalse =>
    simp only [getBundle_eq_ok.2 hx, ok_bind] at h
    obtain ⟨bits, hbits, h⟩ := bind_eq_ok.1 h
    obtain ⟨u, hu, h⟩ := bind_eq_ok.1 h
    have got := gives_receive (x.payloadBits f) (x.uci f) (need_eq_ok.1 hbits)
    obtain ⟨-, -, rfl⟩ := (issuePublish_uci_eq_ok hx).1 hu
    have found := getElem?_set_found (x.modUci f fun u => u.receive (fieldLlrs x.d (x.payloadBits f) bits)) hx
    split at h
    · obtain ⟨tbs, bundle⟩ := issueClose_settles h
      obtain ⟨x', hx', settled⟩ := bundle _ found
      exact ⟨tbs, x', hx', settled.emitted got⟩
    · cases h
      exact ⟨rfl, _, found, (Bundle.Settled.refl f _).emitted got⟩

theorem emitSch_completed {b : Nat} {s t : State} {x : Bundle} {st : Sets} {c : TbCtx} (hx : s.bundles[b]? = some x)
    (hst : x.dm.sets = some st) (hc : s.tbs[x.tbx]? = some c) (h : emitSch b s = .ok t) :
    t.bundles = s.bundles ∧ ∃ c', t.tbs[x.tbx]? = some c' ∧ x.givesSch s.params st c c' := by
  simp only [emitSch, getBundle_eq_ok.2 hx, ok_bind, hst, need_some] at h
  obtain ⟨ls, hls, h⟩ := bind_eq_ok.1 h
  have hls := need_eq_ok.1 hls
  split at h
  case isTrue none =>
    cases h
    exact ⟨rfl, c, hc, givesSch_nothing c (none ▸ hls)⟩
  case isFalse =>
    obtain ⟨-, -, rfl⟩ := (issuePublish_sch_eq_ok hc).1 h
    exact ⟨rfl, _, getElem?_set_found _ hc, givesSch_receive c hls⟩

/-- What `finish_symbol` with the sets `v` of steps 4 and 5 leaves of a bundle and of its TB context (R245, R248). -/
structure Bundle.Finished (p : Params) (v : Sets) (x x' : Bundle) (c c' : TbCtx) : Prop where
  ack : x'.ack = x.ack
  csi1 : x'.csi1 = x.csi1
  l : x'.l = x.l + 1
  phase : x'.phase ≠ .holdCsi2
  sets : x'.dm.sets = none
  csi2 : x.gives x.dm.csi2Bits v.c2 x.csi2 x'.csi2
  sch : x.givesSch p v c c'

theorem advance_phase (x : Bundle) : x.advance.phase ≠ .holdCsi2 := by
  unfold Bundle.advance
  dsimp only
  split <;> decide

theorem finishSymbol_completed {b : Nat} {s t : State} {x : Bundle} {st : Sets} {c : TbCtx} (hx : s.bundles[b]? = some x)
    (hst : x.dm.sets = some st) (hc : s.tbs[x.tbx]? = some c) (h : finishSymbol b s = .ok t) :
    ∃ x' c', t.bundles[b]? = some x' ∧ t.tbs[x.tbx]? = some c' ∧
      Bundle.Finished s.params (partitionB x.d (decide (x.dm.csi2State = .configured)) st x.dm.bud).1 x x' c c' := by
  simp only [finishSymbol, getBundle_eq_ok.2 hx, ok_bind, hst, need_some] at h
  generalize partitionB x.d (decide (x.dm.csi2State = .configured)) st x.dm.bud = y at h ⊢
  obtain ⟨u, hu, h⟩ := bind_eq_ok.1 h
  obtain ⟨w, hw, h⟩ := bind_eq_ok.1 h
  cases h
  have planned : (s.modBundle b fun x => x.withSets y).bundles[b]? = some (x.withSets y) := getElem?_modify_self _ hx
  obtain ⟨tbs, z, hz, emitted⟩ := emitField_completed planned hu
  have context : u.tbs[z.tbx]? = some c := by rw [tbs, emitted.same.tbx]; exact hc
  have params : u.params = s.params := (emitField_keeps hu).params
  obtain ⟨bundles, c', hc', sent⟩ := emitSch_completed hz emitted.same.sets context hw
  rw [params, emitted.same.givesSch_iff] at sent
  refine ⟨z.advance, c', getElem?_modify_self _ (by rw [bundles]; exact hz), by rw [emitted.same.tbx] at hc'; exact hc', ?_⟩
  exact {
    ack := emitted.others .ack (by decide)
    csi1 := emitted.others .csi1 (by decide)
    l := congrArg (· + 1) emitted.same.l
    phase := advance_phase z
    sets := rfl
    csi2 := emitted.got
    sch := sent }

/-! ### DEMUX_SYMBOL and DEMUX_RESUME -/

/-- A DEMUX_SYMBOL that completes has given HARQ-ACK and CSI Part 1 their soft bits; then it holds for CSI Part 2, or it has
finished the symbol (R245, R247). -/
theorem demuxSymbol_completed {b : Nat} {s t : State} {x : Bundle} {c : TbCtx} (hx : s.bundles[b]? = some x)
    (hc : s.tbs[x.tbx]? = some c) (h : demuxSymbol b s = .ok t) :
    ∃ x' c', t.bundles[b]? = some x' ∧ t.tbs[x.tbx]? = some c' ∧
      x.gives (ackBits x.d) (partitionA s.params x.d x.l x.dm.bud).1.a x.ack x'.ack ∧
      x.gives (csi1Bits x.d) (partitionA s.params x.d x.l x.dm.bud).1.c1 x.csi1 x'.csi1 ∧
      (x'.phase = .holdCsi2 ∧ x'.dm.csi2State = .await ∧ x'.dm.sets = some (partitionA s.params x.d x.l x.dm.bud).1 ∧
          x'.l = x.l ∧ x'.csi2 = x.csi2 ∧ c' = c ∨
        x'.phase ≠ .holdCsi2 ∧ x'.l = x.l + 1 ∧ x'.dm.sets = none ∧
          x.gives x.dm.csi2Bits (x.symbolSets s.params).1.c2 x.csi2 x'.csi2 ∧
          x.givesSch s.params (x.symbolSets s.params).1 c c') := by
  have recorded : (s.record (.demuxSymbol (BitVec.ofNat 8 b) (BitVec.ofNat 16 x.l))).getBundle b = .ok x := getBundle_eq_ok.2 hx
  simp only [demuxSymbol, getBundle_eq_ok.2 hx, ok_bind, recorded, State.record_params] at h
  have sets : x.symbolSets s.params = partitionB x.d (decide (x.dm.csi2State = .configured))
    (partitionA s.params x.d x.l x.dm.bud).1 (partitionA s.params x.d x.l x.dm.bud).2 := rfl
  rw [sets]
  generalize partitionA s.params x.d x.l x.dm.bud = y at h ⊢
  obtain ⟨u, hu, h⟩ := bind_eq_ok.1 h
  obtain ⟨w, hw, h⟩ := bind_eq_ok.1 h
  obtain ⟨z, hz, h⟩ := bind_eq_ok.1 h
  have planned : ((s.record (.demuxSymbol (BitVec.ofNat 8 b) (BitVec.ofNat 16 x.l))).modBundle b fun x =>
      x.withSets y).bundles[b]? = some (x.withSets y) := getElem?_modify_self _ hx
  obtain ⟨tbs1, x1, hx1, ack⟩ := emitField_completed planned hu
  obtain ⟨tbs2, x2, hx2, csi1⟩ := emitField_completed hx1 hw
  obtain rfl : x2 = z := Option.some.inj (hx2.symm.trans (getBundle_eq_ok.1 hz))
  have same : (x.withSets y).SameSymbol x2 := ack.same.trans csi1.same
  have ackKept : x2.ack = x1.ack := csi1.others .ack (by decide)
  have csi1Before : x1.csi1 = x.csi1 := ack.others .csi1 (by decide)
  have csi2Kept : x2.csi2 = x.csi2 := (csi1.others .csi2 (by decide)).trans (ack.others .csi2 (by decide))
  have ackGot : x.gives (ackBits x.d) y.1.a x.ack x2.ack := by rw [ackKept]; exact ack.got
  have csi1Got : x.gives (csi1Bits x.d) y.1.c1 x.csi1 x2.csi1 := by
    have got := csi1.got
    rw [ack.same.gives_iff, ack.same.payloadBits, Bundle.uci, csi1Before] at got
    exact got
  have context : w.tbs[x2.tbx]? = some c := by rw [tbs2, tbs1, same.tbx]; exact hc
  split at h
  case isTrue await =>
    cases h
    refine ⟨_, c, getElem?_modify_self _ hx2, by rwa [same.tbx] at context, ackGot, csi1Got, .inl ?_⟩
    exact ⟨rfl, await, same.sets, same.l, csi2Kept, rfl⟩
  case isFalse =>
    obtain ⟨x', c', hx', hc', finished⟩ := finishSymbol_completed hx2 same.sets context h
    have params : w.params = s.params := (emitField_keeps hw).params.trans (emitField_keeps hu).params
    have sets : partitionB x2.d (decide (x2.dm.csi2State = .configured)) y.1 x2.dm.bud =
        partitionB x.d (decide (x.dm.csi2State = .configured)) y.1 y.2 := by
      rw [same.d, same.bud, decide_eq_decide.2 same.configured]
      rfl
    rw [params, sets] at finished
    have csi2Got := finished.csi2
    have schGot := finished.sch
    rw [same.gives_iff, same.csi2Bits, csi2Kept] at csi2Got
    rw [same.givesSch_iff] at schGot
    rw [← finished.ack] at ackGot
    rw [← finished.csi1] at csi1Got
    refine ⟨x', c', hx', by rwa [same.tbx] at hc', ackGot, csi1Got, .inr ?_⟩
    exact ⟨finished.phase, finished.l.trans (congrArg (· + 1) same.l), finished.sets, csi2Got, schGot⟩

/-- A DEMUX_RESUME that completes has finished the symbol from its sets (R257). -/
theorem demuxResume_completed {b : Nat} {s t : State} {x : Bundle} {c : TbCtx} {st : Sets} (hx : s.bundles[b]? = some x)
    (hst : x.dm.sets = some st) (hc : s.tbs[x.tbx]? = some c) (h : demuxResume b s = .ok t) :
    ∃ x' c', t.bundles[b]? = some x' ∧ t.tbs[x.tbx]? = some c' ∧
      Bundle.Finished s.params (partitionB x.d (decide (x.dm.csi2State = .configured)) st x.dm.bud).1 x x' c c' := by
  simp only [demuxResume, getBundle_eq_ok.2 hx, ok_bind] at h
  obtain ⟨_, _, h⟩ := bind_eq_ok.1 h
  exact finishSymbol_completed (s := s.record _) hx hst hc h

theorem exec_demuxSymbol_completed {b : BitVec 8} {l : BitVec 16} {s t : State} (h : exec (.demuxSymbol b l) s = .next t)
    (running : t.fatal = false) (taken : t.held = false) : demuxSymbol b.toNat s = .ok t := by
  rw [exec, execDemuxSymbol] at h
  have op := Quiet.completed (by
    exact Quiet.bind (getBundle_quiet _ _) fun _ => Quiet.bind (Quiet.check (by simp)) fun _ => demuxSymbol_quiet _ _)
    h taken running
  obtain ⟨_, _, op⟩ := bind_eq_ok.1 op
  obtain ⟨_, _, op⟩ := bind_eq_ok.1 op
  exact op

theorem demuxResume_quiet (b : Nat) (s : State) : Quiet (demuxResume b s) :=
  Quiet.bind (getBundle_quiet _ _) fun _ => Quiet.bind (Quiet.check (by simp)) fun _ => finishSymbol_quiet _ _

theorem exec_demuxResume_completed {b : BitVec 8} {l : BitVec 16} {s t : State} (h : exec (.demuxResume b l) s = .next t)
    (running : t.fatal = false) (taken : t.held = false) : demuxResume b.toNat s = .ok t := by
  rw [exec, execDemuxResume] at h
  have op := Quiet.completed (by
    exact Quiet.bind (getBundle_quiet _ _) fun _ => Quiet.bind (Quiet.check (by simp)) fun _ =>
      Quiet.bind (Quiet.check (by simp)) fun _ => demuxResume_quiet _ _)
    h taken running
  obtain ⟨_, _, op⟩ := bind_eq_ok.1 op
  obtain ⟨_, _, op⟩ := bind_eq_ok.1 op
  obtain ⟨_, _, op⟩ := bind_eq_ok.1 op
  exact op

/-- Settles O51: an operation that neither holds nor stops the block has completed, and then each port has got its soft bits. -/
theorem demuxPublishesTheSets : Obligations.DemuxPublishesTheSets := by
  intro s t b x x' c c' _ running taken hx hc hx' hc' y z
  refine ⟨fun h => ?_, fun st hst h => ?_⟩
  · obtain ⟨w, d, hw, hd, result⟩ := demuxSymbol_completed hx hc (exec_demuxSymbol_completed h running taken)
    obtain rfl : w = x' := Option.some.inj (hw.symm.trans hx')
    obtain rfl : d = c' := Option.some.inj (hd.symm.trans hc')
    exact result
  · obtain ⟨w, d, hw, hd, done⟩ := demuxResume_completed hx hst hc (exec_demuxResume_completed h running taken)
    obtain rfl : w = x' := Option.some.inj (hw.symm.trans hx')
    obtain rfl : d = c' := Option.some.inj (hd.symm.trans hc')
    exact ⟨done.ack, done.csi1, done.l, done.csi2, done.sch⟩

end Sys2Proof.Machine
end

section
/-!
PROOFS. Every step keeps the exclusive ownership of the HARQ handles (spec/20_memory.md R117, spec/43_tb_decoder.md R348).
-/

namespace Sys2Proof.Machine

/-! ### Operations -/

/-- Taking an exception moves no TB context and no handle (R462, R465). -/
theorem takeStop_locks {ws : List Word} {tag : BitVec 8} {e : Stop} {s t : State} (h : s.takeStop ws tag e = .next t) :
    s.Locks t := by
  rcases takeStop_next h with rfl | ⟨c, rfl⟩ | ⟨c, d, -, rfl⟩ <;> exact locks_of_eq rfl rfl

/-- A step of an operation keeps the handles exclusive where its effect does. -/
theorem runOp_locks {i : Instr} {tag : BitVec 8} {op : Op} {s t : State} (h : runOp i tag op s = .next t)
    (hop : ∀ u, op s = .ok u → s.Locks u) : s.Locks t := by
  rcases runOp_next h with ⟨-, rfl⟩ | ⟨-, completed⟩ | ⟨-, e, -, stop⟩
  · exact locks_of_eq rfl rfl
  · exact hop t completed
  · exact takeStop_locks stop

/-- What runs behind a value that an operation reads first keeps the handles exclusive. -/
theorem locks_of_bind {α : Type} {r : Except Stop α} {f : α → Except Stop State} {s u : State}
    (h : r >>= f = .ok u) (hf : ∀ a, f a = .ok u → s.Locks u) : s.Locks u := by
  obtain ⟨a, -, ha⟩ := bind_eq_ok.1 h
  exact hf a ha

theorem exec_locks {i : Instr} {s t : State} (h : exec i s = .next t) : s.Locks t := by
  cases i with
  | processPdu tag => exact runOp_locks h fun _ => processPdu_locks
  | configureCsiPart2 tag bits g2 gu => exact runOp_locks h fun _ => configureCsiPart2_locks
  | csi2None tag => exact runOp_locks h fun _ => csi2None_locks
  | harqFree handle => exact runOp_locks h fun _ => harqFree_locks
  | nop hint =>
    rw [exec, execNop] at h
    exact runOp_locks h fun _ hu => by cases hu; exact record_locks _ _
  | reserveView port n owner =>
    rw [exec, execReserveView] at h
    refine runOp_locks h fun _ hu => locks_of_bind hu fun r hr => ?_
    obtain ⟨v, hv, hr⟩ := bind_eq_ok.1 hr
    cases hr
    exact issueReserve_locks hv
  | publishInPlace port n owner =>
    rw [exec, execPublishInPlace] at h
    exact runOp_locks h fun _ hu => locks_of_bind hu fun _ => issuePublishInPlace_locks
  | publishCopy port owner data =>
    rw [exec, execPublishCopy] at h
    exact runOp_locks h fun _ hu => locks_of_bind hu fun _ hp =>
      (record_locks _ _).trans (publishCopyWith_locks (fun _ _ => consumePublish_locks) hp)
  | close port owner =>
    rw [exec, execClose] at h
    exact runOp_locks h fun _ hu => locks_of_bind hu fun _ => issueClose_locks fun _ _ => consumeCloseAll_locks
  | cbDecode t r => exact runOp_locks h fun _ => cbDecode_locks
  | cbRateDematch t r => exact runOp_locks h fun _ => cbRateDematch_locks
  | chest b => exact runOp_locks h fun _ => chestOp_locks
  | demodSymbol b l =>
    rw [exec, execDemodSymbol] at h
    exact runOp_locks h fun _ hu => locks_of_bind hu fun _ hu => locks_of_bind hu fun _ hu => locks_of_bind hu fun _ =>
      demodSymbol_locks
  | descramble b n =>
    rw [exec, execDescramble] at h
    exact runOp_locks h fun _ hu => locks_of_bind hu fun _ hu => locks_of_bind hu fun _ => descrambleOp_locks
  | endStats b => exact runOp_locks h fun _ => endStats_locks
  | demuxSymbol b l =>
    rw [exec, execDemuxSymbol] at h
    exact runOp_locks h fun _ hu => locks_of_bind hu fun _ hu => locks_of_bind hu fun _ => demuxSymbol_locks
  | demuxFlush b => exact runOp_locks h fun _ => demuxFlush_locks
  | uciDecode b f => exact runOp_locks h fun _ => uciDecode_locks
  | tbConfigure t =>
    rw [exec, execTbConfigure] at h
    exact runOp_locks h fun _ hu => locks_of_bind hu fun _ => tbConfigure_locks
  | setNofSoftbits t => exact runOp_locks h fun _ => setNofSoftbits_locks
  | closeDispatch t => exact runOp_locks h fun _ => closeDispatch_locks
  | closeCommit t => exact runOp_locks h fun _ => closeCommit_locks
  | cbComplete t r => exact runOp_locks h fun _ => cbComplete_locks
  | tbJoin t => exact runOp_locks h fun _ => tbJoin_locks
  | seqEnd b => exact runOp_locks h fun _ => seqEndOp_locks
  | demuxResume b l =>
    rw [exec, execDemuxResume] at h
    exact runOp_locks h fun _ hu => locks_of_bind hu fun _ hu => locks_of_bind hu fun _ hu => locks_of_bind hu fun _ =>
      demuxResume_locks

/-! ### Turns -/

/-- HOST reaches neither the TB contexts nor the handles (R31 to R43, R100). -/
theorem stepHost_locks {op : HostOp} {s t : State} (h : stepHost op s = .next t) : s.Locks t := by
  cases op with
  | csrRead width off =>
    simp only [stepHost] at h
    split at h <;> cases h
    unfold State.csrRead State.popEvent State.notePop
    split
    · split
      · exact locks_of_eq rfl rfl
      · split <;> exact locks_of_eq rfl rfl
    · exact locks_of_eq rfl rfl
  | csrWrite width off v =>
    simp only [stepHost] at h
    split at h <;> cases h
    unfold State.csrWrite
    split
    case h_3 =>
      unfold State.pushCommand
      split
      · exact .refl _
      · split <;> exact locks_of_eq rfl rfl
    all_goals exact locks_of_eq rfl rfl
  | dmemRead a =>
    cases h
    unfold State.dmemRead
    split <;> exact locks_of_eq rfl rfl
  | dmemWrite a v =>
    cases h
    unfold State.dmemWrite
    split <;> exact locks_of_eq rfl rfl

/-- A step that removed words or a task first: `rest` is the state without them. -/
theorem settle_locks {s rest t : State} {o : Host.Outcome State Fault Refusal} (removed : s.Locks rest)
    (ho : ∀ u, o = .next u → rest.Locks u) (h : settle s o = .next t) : s.Locks t := by
  rcases settle_next h with rfl | ⟨-, stands⟩
  · exact locks_of_eq rfl rfl
  · exact removed.trans (ho t stands)

theorem stepCmdu_locks {s t : State} (h : stepCmdu s = .next t) : s.Locks t := by
  have hold : s.Locks s.hold := locks_of_eq rfl rfl
  have removed : ∀ ws, s.Locks { s with cmdq := ws } := fun _ => locks_of_eq rfl rfl
  unfold stepCmdu at h
  split at h
  case isTrue => cases h; exact hold
  case isFalse =>
    split at h
    case h_1 => cases h; exact hold
    case h_2 =>
      split at h
      case h_1 => exact settle_locks (removed _) (fun _ => exec_locks) h
      case h_2 => exact settle_locks (removed _) (fun _ => takeStop_locks) h
      case h_3 => exact settle_locks (removed _) (fun _ => takeStop_locks) h
      case h_4 => cases h; exact hold
      case h_5 => cases h; exact hold

theorem stepSeq_locks {b : Nat} {s t : State} (h : stepSeq b s = .next t) : s.Locks t := by
  have hold : s.Locks s.hold := locks_of_eq rfl rfl
  unfold stepSeq at h
  split at h
  case h_1 => cases h; exact hold
  case h_2 x _ =>
    cases hp : x.phase <;> simp only [hp] at h
    case free => cases h; exact hold
    case holdCsi2 => cases h; exact hold
    case commit =>
      unfold commitStep at h
      split at h
      case h_1 u hu =>
        split at h <;> cases h
        · exact exec_locks hu
        · exact (exec_locks hu).trans (modBundle_locks _ _ _)
      all_goals cases h
    all_goals exact exec_locks h

theorem runTask_locks {e i : Nat} {head : QueueHead} {s t : State} (h : runTask e i head s = .next t) : s.Locks t := by
  have removed : s.Locks { s with taskq := s.taskq.eraseIdx i, taskHead := head } := locks_of_eq rfl rfl
  unfold runTask at h
  split at h
  case isTrue => cases h; exact locks_of_eq rfl rfl
  case isFalse =>
    split at h
    case h_1 => cases h; exact locks_of_eq rfl rfl
    case h_2 =>
      split at h
      · exact settle_locks removed (fun _ => exec_locks) h
      · exact removed.trans (takeStop_locks h)

theorem runTurn_locks {u : Turn} {s t : State} (h : runTurn u s = .next t) : s.Locks t := by
  cases u with
  | agent a =>
    cases a with
    | host op => exact stepHost_locks h
    | cmdu => exact stepCmdu_locks h
    | seq b => exact stepSeq_locks h
    | cbe e => exact runTask_locks h
    | cbeAhead e i =>
      simp only [runTurn, runAgent, stepCbeAhead] at h
      split at h
      · exact runTask_locks h
      · cases h; exact locks_of_eq rfl rfl
    | resetInput =>
      cases h
      have units : (State.resetOf s.params).Locks s.applyReset := locks_of_eq rfl rfl
      exact fun _ => units (resetOf_exclusive _)
  | issue ws =>
    simp only [runTurn, stepIssue] at h
    split at h
    · exact exec_locks h
    · cases h
    · cases h

theorem takeTurn_locks (s : State) : s.Locks s.takeTurn.2 := by
  unfold State.takeTurn
  split <;> exact locks_of_eq rfl rfl

/-- Settles O8: taking the turn moves no unit, and every turn is an operation, a host access or a reset, which keep the handles
exclusive. -/
theorem handleOwnershipKept : Obligations.HandleOwnershipKept :=
  fun s _ he h => ((takeTurn_locks s).trans (runTurn_locks h)) he

end Sys2Proof.Machine
end

section
/-!
PROOFS. What writes DMEM (spec/20_memory.md R103, spec/43_tb_decoder.md R350): the join alone, and it only the range of its
transport block.
-/

namespace Sys2Proof.Machine

/-! ### Effects that leave DMEM alone -/

/-- If the result is a state, DMEM and the count of its races (log 12) are those of `s`. -/
def SparesDmem (s : State) (r : Except Stop State) : Prop := ∀ t, r = .ok t → t.dmem = s.dmem ∧ t.freeNo = s.freeNo

theorem SparesDmem.ok {s t : State} (h : t.dmem = s.dmem ∧ t.freeNo = s.freeNo) : SparesDmem s (.ok t) := by
  rintro _ ⟨⟩; exact h

theorem SparesDmem.error {s : State} {e : Stop} : SparesDmem s (.error e) := by rintro _ ⟨⟩

/-- A value that an effect reads first. -/
theorem SparesDmem.read {α : Type} {s : State} {r : Except Stop α} {f : α → Except Stop State}
    (h : ∀ a, r = .ok a → SparesDmem s (f a)) : SparesDmem s (r >>= f) := by
  intro t ht
  obtain ⟨a, ha, ht⟩ := bind_eq_ok.1 ht
  exact h a ha t ht

/-- One effect after another. -/
theorem SparesDmem.seq {s : State} {r : Except Stop State} {f : State → Except Stop State} (h : SparesDmem s r)
    (k : ∀ u, SparesDmem u (f u)) : SparesDmem s (r >>= f) := by
  intro t ht
  obtain ⟨u, hu, ht⟩ := bind_eq_ok.1 ht
  obtain ⟨dmem, freeNo⟩ := h u hu
  obtain ⟨dmem', freeNo'⟩ := k u t ht
  exact ⟨dmem'.trans dmem, freeNo'.trans freeNo⟩

theorem SparesDmem.ite {s : State} {p : Prop} [Decidable p] {a b : Except Stop State} (h : SparesDmem s a)
    (k : SparesDmem s b) : SparesDmem s (if p then a else b) := by split <;> assumption

/-! ### Port operations -/

theorem modPort_sparesDmem (s : State) (r : PortRef) (g : Port → Port) : SparesDmem s (.ok (s.modPort r g)) :=
  .ok ⟨by simp, by simp⟩

theorem modStorage_sparesDmem (s : State) (r : PortRef) (g : Slots → Slots) : SparesDmem s (.ok (s.modStorage r g)) :=
  .ok ⟨by simp, by simp⟩

theorem emit_sparesDmem (ws : List Word) (s : State) : SparesDmem s (emit ws s) := .ite (.ok ⟨rfl, rfl⟩) .error

theorem openPort_sparesDmem (r : PortRef) (bound : Binding) (s : State) : SparesDmem s (openPort r bound s) :=
  .read fun _ _ => .read fun _ _ => modPort_sparesDmem _ _ _

theorem rebindPort_sparesDmem (r : PortRef) (s : State) : SparesDmem s (rebindPort r s) :=
  .read fun _ _ => .read fun _ _ => modPort_sparesDmem _ _ _

theorem openView_sparesDmem (s : State) (r : PortRef) (p : Port) (n : Nat) : SparesDmem s (.ok (s.openView r p n)) := by
  unfold State.openView
  dsimp only
  split
  · exact modPort_sparesDmem _ _ _
  · split
    · exact .ok ⟨by simp, by simp⟩
    · exact modPort_sparesDmem _ _ _

theorem writeView_sparesDmem (s : State) (r : PortRef) (ls : List Llr) : SparesDmem s (.ok (s.writeView r ls)) := by
  unfold State.writeView
  split
  · exact modStorage_sparesDmem _ _ _
  · exact .ok ⟨rfl, rfl⟩

theorem storeAtCount_sparesDmem (r : PortRef) (ls : List Llr) (s : State) : SparesDmem s (storeAtCount r ls s) :=
  .read fun _ _ => modStorage_sparesDmem _ _ _

theorem whenReal_sparesDmem {p : Port} {op : Op} {s : State} (h : SparesDmem s (op s)) : SparesDmem s (whenReal p op s) :=
  .ite (.ok ⟨rfl, rfl⟩) h

theorem deliver_sparesDmem {p : Port} {ls : List Llr} {op : Op} {s : State} (h : SparesDmem s (op s)) :
    SparesDmem s (deliver p ls op s) := .ite (.ok ⟨rfl, rfl⟩) (whenReal_sparesDmem h)

/-- An effect on a state whose port has changed first. -/
theorem SparesDmem.afterPort {s : State} {r : PortRef} {g : Port → Port} {e : Except Stop State}
    (h : SparesDmem (s.modPort r g) e) : SparesDmem s e := by
  intro t ht
  obtain ⟨dmem, freeNo⟩ := h t ht
  exact ⟨dmem.trans (by simp), freeNo.trans (by simp)⟩

theorem publishCopyWith_sparesDmem {consume : PortRef → List Llr → Op} (h : ∀ r ls s, SparesDmem s (consume r ls s))
    (r : PortRef) (ls : List Llr) (s : State) : SparesDmem s (publishCopyWith consume r ls s) :=
  .read fun _ _ => .read fun _ _ => .read fun _ _ => .seq (.afterPort (deliver_sparesDmem (h _ _ _)))
    fun _ => modPort_sparesDmem _ _ _

theorem publishInPlaceWith_sparesDmem {consume : PortRef → List Llr → Op} (h : ∀ r ls s, SparesDmem s (consume r ls s))
    (r : PortRef) (n : Nat) (s : State) : SparesDmem s (publishInPlaceWith consume r n s) :=
  .read fun _ _ => .read fun _ _ => .read fun _ _ => .read fun _ _ => .seq (.afterPort (deliver_sparesDmem (h _ _ _)))
    fun _ => modPort_sparesDmem _ _ _

theorem closeWith_sparesDmem {consume : PortRef → Op} (h : ∀ r s, SparesDmem s (consume r s)) (r : PortRef) (s : State) :
    SparesDmem s (closeWith consume r s) :=
  .read fun _ _ => .read fun _ _ => .afterPort (whenReal_sparesDmem (h _ _))

/-! ### CLOSE_DISPATCH runs its tasks before CLOSE_COMMIT, so none of them joins (R336, R343) -/

/-- TB context `t` is not DECODING: the completion of its last codeblock is no join (R343). -/
def State.notDecoding (s : State) (t : Nat) : Prop := ∀ x, s.tbs[t]? = some x → x.fsm ≠ .decoding

theorem notDecoding_modTb {s : State} {t : Nat} {g : TbCtx → TbCtx} (h : s.notDecoding t)
    (hg : ∀ x, s.tbs[t]? = some x → x.fsm ≠ .decoding → (g x).fsm ≠ .decoding) : (s.modTb t g).notDecoding t := by
  intro y hy
  simp only [State.modTb_tbs, List.getElem?_modify, if_true, Option.map_eq_map, Option.map_eq_some_iff] at hy
  obtain ⟨x, hx, rfl⟩ := hy
  exact hg x hx (h x hx)

/-- The completion of a codeblock without a join. -/
theorem cbComplete_sparesDmem {t r : Nat} {s u : State} (hn : s.notDecoding t) (h : cbComplete t r s = .ok u) :
    (u.dmem = s.dmem ∧ u.freeNo = s.freeNo) ∧ u.notDecoding t := by
  simp only [cbComplete, bind_eq_ok, getTb_eq_ok, check_eq_ok, exists_and_left, exists_const] at h
  obtain ⟨x, hx, -, h⟩ := h
  have counted : ((s.record (.cbComplete (BitVec.ofNat 8 t) (BitVec.ofNat 16 r))).modTb t
      fun x => { x with counter := x.counter - 1 }).notDecoding t := notDecoding_modTb hn fun _ _ hf => hf
  split at h
  case isTrue => cases h; exact ⟨⟨rfl, rfl⟩, counted⟩
  case isFalse =>
    cases hf : x.fsm <;> simp only [hf] at h
    case collecting => cases h; exact ⟨⟨rfl, rfl⟩, notDecoding_modTb counted fun _ _ _ => by simp⟩
    case decoding => exact absurd hf (hn x hx)
    all_goals cases h

theorem cbDecode_sparesDmem {t r : Nat} {s u : State} (hn : s.notDecoding t) (h : cbDecode t r s = .ok u) :
    (u.dmem = s.dmem ∧ u.freeNo = s.freeNo) ∧ u.notDecoding t := by
  simp only [cbDecode, bind_eq_ok, need_eq_ok] at h
  obtain ⟨v, -, f, -, h⟩ := h
  have kept := cbComplete_sparesDmem (notDecoding_modTb ?_ ?_) h
  · exact kept
  · exact fun x hx => hn x hx
  · exact fun _ _ hf => hf

theorem cbRateDematch_sparesDmem {t r : Nat} {s u : State} (hn : s.notDecoding t) (h : cbRateDematch t r s = .ok u) :
    (u.dmem = s.dmem ∧ u.freeNo = s.freeNo) ∧ u.notDecoding t := by
  simp only [cbRateDematch, bind_eq_ok, need_eq_ok] at h
  obtain ⟨v, -, f, -, h⟩ := h
  have kept := cbComplete_sparesDmem (notDecoding_modTb ?_ ?_) h
  · exact kept
  · exact fun x hx => hn x hx
  · exact fun _ _ hf => hf

theorem dispatchCb_sparesDmem {t c r : Nat} {s u : State} (hn : s.notDecoding t) (h : dispatchCb t c r s = .ok u) :
    (u.dmem = s.dmem ∧ u.freeNo = s.freeNo) ∧ u.notDecoding t := by
  simp only [dispatchCb, bind_eq_ok, getTb_eq_ok, getHarq_eq_ok, need_eq_ok] at h
  obtain ⟨x, -, y, -, cb, -, h⟩ := h
  split at h
  · cases h; exact ⟨⟨rfl, rfl⟩, hn⟩
  · split at h
    · exact cbRateDematch_sparesDmem hn h
    · exact cbDecode_sparesDmem hn h

theorem dispatchAll_sparesDmem {t c : Nat} {rs : List Nat} {s : State} (hn : s.notDecoding t) :
    SparesDmem s (dispatchAll t c rs s) := by
  induction rs generalizing s with
  | nil => exact .ok ⟨rfl, rfl⟩
  | cons r rs ih =>
    intro u h
    simp only [dispatchAll, bind_eq_ok] at h
    obtain ⟨v, hv, h⟩ := h
    obtain ⟨⟨dmem, freeNo⟩, kept⟩ := dispatchCb_sparesDmem hn hv
    obtain ⟨dmem', freeNo'⟩ := ih kept u h
    exact ⟨dmem'.trans dmem, freeNo'.trans freeNo⟩

theorem closeDispatch_sparesDmem (t : Nat) (s : State) : SparesDmem s (closeDispatch t s) := by
  refine .read fun x hx => .read fun _ collecting => .read fun _ _ => ?_
  have hx : s.tbs[t]? = some x := getTb_eq_ok.1 hx
  have hn : s.notDecoding t := fun y hy => by
    obtain rfl : x = y := Option.some.inj (hx.symm.trans hy)
    rw [check_eq_ok.1 collecting]
    decide
  exact dispatchAll_sparesDmem (s := (s.record (.closeDispatch (BitVec.ofNat 8 t))).modTb t TbCtx.start)
    (notDecoding_modTb hn fun _ _ hf => hf)

/-! ### The demultiplexer, the UCI decoders and the stream ports -/

theorem uciDecode_sparesDmem (b : Nat) (f : UciField) (s : State) : SparesDmem s (uciDecode b f s) :=
  .read fun _ _ => .read fun _ _ => .ok ⟨rfl, rfl⟩

theorem afterCsi1Close_sparesDmem (b : Nat) (s : State) : SparesDmem s (afterCsi1Close b s) :=
  .read fun _ _ => .ite (.ite (emit_sparesDmem _ (setCsi2State b .await s)) (.ok ⟨rfl, rfl⟩)) (.ok ⟨rfl, rfl⟩)

theorem consumeClose_sparesDmem (r : PortRef) (s : State) : SparesDmem s (consumeClose r s) := by
  unfold consumeClose
  split
  · exact .seq (uciDecode_sparesDmem _ _ _) fun _ => afterCsi1Close_sparesDmem _ _
  · exact uciDecode_sparesDmem _ _ _
  · exact closeDispatch_sparesDmem _ _
  · exact .error

theorem consumeFlush_sparesDmem (r : PortRef) (s : State) : SparesDmem s (consumeFlush r s) := by
  unfold consumeFlush
  split
  · exact uciDecode_sparesDmem _ _ _
  · exact closeDispatch_sparesDmem _ _
  · exact .error

theorem issuePublish_sparesDmem (r : PortRef) (ls : List Llr) (s : State) : SparesDmem s (issuePublish r ls s) :=
  publishCopyWith_sparesDmem storeAtCount_sparesDmem r ls (s.record _)

theorem issueClose_sparesDmem {consume : PortRef → Op} (h : ∀ r s, SparesDmem s (consume r s)) (r : PortRef) (s : State) :
    SparesDmem s (issueClose consume r s) := closeWith_sparesDmem h r (s.record _)

theorem emitField_sparesDmem (b : Nat) (f : UciField) (xs : List Nat) (s : State) : SparesDmem s (emitField b f xs s) :=
  .ite (.ok ⟨rfl, rfl⟩) (.read fun _ _ => .read fun _ _ => .seq (issuePublish_sparesDmem _ _ _)
    fun _ => .ite (issueClose_sparesDmem consumeClose_sparesDmem _ _) (.ok ⟨rfl, rfl⟩))

theorem emitSch_sparesDmem (b : Nat) (s : State) : SparesDmem s (emitSch b s) :=
  .read fun _ _ => .read fun _ _ => .read fun _ _ => .ite (.ok ⟨rfl, rfl⟩) (issuePublish_sparesDmem _ _ _)

theorem finishSymbol_sparesDmem (b : Nat) (s : State) : SparesDmem s (finishSymbol b s) :=
  .read fun _ _ => .read fun _ _ => .seq (emitField_sparesDmem b .csi2 _ (s.modBundle b _))
    fun _ => .seq (emitSch_sparesDmem _ _) fun _ => .ok ⟨rfl, rfl⟩

theorem demuxSymbol_sparesDmem (b : Nat) (s : State) : SparesDmem s (demuxSymbol b s) :=
  .read fun _ _ => .read fun _ _ => .seq (emitField_sparesDmem b .ack _ ((s.record _).modBundle b _))
    fun _ => .seq (emitField_sparesDmem _ _ _ _) fun _ => .read fun _ _ => .ite (.ok ⟨rfl, rfl⟩) (finishSymbol_sparesDmem _ _)

theorem demuxResume_sparesDmem (b : Nat) (s : State) : SparesDmem s (demuxResume b s) :=
  .read fun _ _ => .read fun _ _ => finishSymbol_sparesDmem b (s.record _)

theorem flushField_sparesDmem (b : Nat) (f : UciField) (s : State) : SparesDmem s (flushField b f s) :=
  .read fun _ _ => .ite (issueClose_sparesDmem consumeFlush_sparesDmem _ _) (.ok ⟨rfl, rfl⟩)

theorem demuxFlush_sparesDmem (b : Nat) (s : State) : SparesDmem s (demuxFlush b s) :=
  .read fun _ _ => .read fun _ _ => .seq (flushField_sparesDmem b .ack (s.record _))
    fun _ => .seq (flushField_sparesDmem _ _ _) fun _ => .seq (flushField_sparesDmem _ _ _)
      fun u => issueClose_sparesDmem consumeFlush_sparesDmem _ (u.modBundle b Bundle.decline)

theorem consumePublish_sparesDmem (r : PortRef) (ls : List Llr) (s : State) : SparesDmem s (consumePublish r ls s) := by
  cases r with
  | demuxIn b => exact .read fun _ _ => .ite (demuxSymbol_sparesDmem b (s.modBundle b _)) (.ok ⟨rfl, rfl⟩)
  | sch t => exact storeAtCount_sparesDmem _ _ _
  | uci f b => exact storeAtCount_sparesDmem _ _ _

theorem consumeCloseAll_sparesDmem (r : PortRef) (s : State) : SparesDmem s (consumeCloseAll r s) := by
  cases r with
  | demuxIn b => exact demuxFlush_sparesDmem _ _
  | sch t => exact consumeClose_sparesDmem (.sch t) s
  | uci f b => exact consumeClose_sparesDmem (.uci f b) s

theorem issueReserve_sparesDmem {r : PortRef} {n : Nat} {s : State} {v : Nat × State} (h : issueReserve r n s = .ok v) :
    v.2.dmem = s.dmem ∧ v.2.freeNo = s.freeNo := by
  obtain ⟨p, -, -, -, rfl⟩ := reserveView_eq_ok.1 h
  exact openView_sparesDmem (s.record _) _ _ _ _ rfl

theorem issuePublishInPlace_sparesDmem (r : PortRef) (n : Nat) (s : State) : SparesDmem s (issuePublishInPlace r n s) :=
  publishInPlaceWith_sparesDmem consumePublish_sparesDmem r n (s.record _)

/-! ### The demodulator, the sequencer and the host commands -/

theorem descrambleOp_sparesDmem (b : Nat) (s : State) : SparesDmem s (descrambleOp b s) :=
  .read fun _ _ => .read fun _ _ => .ok ⟨rfl, rfl⟩

theorem streamLoop_sparesDmem (b : Nat) (ls : List Llr) (fuel j : Nat) (s : State) :
    SparesDmem s (streamLoop b ls fuel j s) := by
  induction fuel generalizing j s with
  | zero => exact .ok ⟨rfl, rfl⟩
  | succ fuel ih =>
    refine .ite (.ok ⟨rfl, rfl⟩) (.read fun v hv => .seq (fun u hu => ?_) fun _ => ih _ _)
    obtain ⟨dmem, freeNo⟩ := issueReserve_sparesDmem hv
    obtain ⟨dmem', freeNo'⟩ := writeView_sparesDmem v.2 (.demuxIn b) ((ls.drop j).take v.1) _ rfl
    obtain ⟨dmem'', freeNo''⟩ := issuePublishInPlace_sparesDmem _ _ _ u hu
    exact ⟨dmem''.trans (dmem'.trans dmem), freeNo''.trans (freeNo'.trans freeNo)⟩

theorem demodSymbol_sparesDmem (b : Nat) (s : State) : SparesDmem s (demodSymbol b s) := by
  refine .read fun x _ => .read fun _ _ => .ite ?empty ?streamed
  case empty => exact .seq (descrambleOp_sparesDmem b ((s.record _).modBundle b _)) fun _ => demuxSymbol_sparesDmem _ _
  case streamed =>
    exact .seq (emit_sparesDmem _ ((s.record _).modBundle b _)) fun _ => .seq (descrambleOp_sparesDmem _ _)
      fun _ => .read fun _ _ => streamLoop_sparesDmem _ _ _ _ _

theorem endStats_sparesDmem (b : Nat) (s : State) : SparesDmem s (endStats b s) :=
  .read fun _ _ => emit_sparesDmem _ (s.record _)

theorem seqEndOp_sparesDmem (b : Nat) (s : State) : SparesDmem s (seqEndOp b s) :=
  .read fun _ _ => .read fun _ _ => .seq (endStats_sparesDmem b (s.record _)) fun _ =>
    .seq (issueClose_sparesDmem consumeCloseAll_sparesDmem _ _) fun _ => .read fun _ _ => .seq (emit_sparesDmem _ _)
      fun _ => .ok ⟨rfl, rfl⟩

theorem tbConfigure_sparesDmem (t b : Nat) (s : State) : SparesDmem s (tbConfigure t b s) := by
  intro u h
  simp only [tbConfigure, bind_eq_ok, getTb_eq_ok, getBundle_eq_ok, check_eq_ok, assertDisposed_eq_ok, harqLease_eq_ok,
    ok_eq_ok, exists_and_left, exists_const] at h
  obtain ⟨x, -, -, v, ⟨-, rfl⟩, y, -, w, ⟨x', -, z, -, -, rfl⟩, rfl⟩ := h
  exact ⟨rfl, rfl⟩

theorem setNofSoftbits_sparesDmem (t g : Nat) (s : State) : SparesDmem s (setNofSoftbits t g s) :=
  .read fun _ _ => .read fun _ _ => .read fun _ _ => .ok ⟨rfl, rfl⟩

theorem openPorts_sparesDmem (b t : Nat) (d : Descriptor) (s : State) : SparesDmem s (openPorts b t d s) :=
  .seq (openPort_sparesDmem _ _ _) fun _ => .seq (openPort_sparesDmem _ _ _) fun _ => .seq (openPort_sparesDmem _ _ _)
    fun _ => .seq (openPort_sparesDmem _ _ _) fun _ => openPort_sparesDmem _ _ _

theorem poolEmptyResult_sparesDmem (tag : BitVec 8) (d : Descriptor) (s : State) : SparesDmem s (poolEmptyResult tag d s) :=
  .seq (emit_sparesDmem _ _) fun _ => .seq (emit_sparesDmem _ _) fun _ => .ok ⟨rfl, rfl⟩

theorem processPdu_sparesDmem (tag : BitVec 8) (s : State) : SparesDmem s (processPdu tag s) := by
  refine .read fun _ _ => ?_
  split
  · exact .read fun _ _ => .read fun _ _ => .seq
      (openPorts_sparesDmem _ _ _ (((s.record (.processPdu tag)).modBundle _ _).acceptPdu _ _))
      fun _ => .seq (tbConfigure_sparesDmem _ _ _) fun _ => .ok ⟨rfl, rfl⟩
  · exact poolEmptyResult_sparesDmem _ _ (s.record _)

theorem configureCsiPart2_sparesDmem (tag : BitVec 8) (bits : BitVec 11) (g2 gu : BitVec 24) (s : State) :
    SparesDmem s (configureCsiPart2 tag bits g2 gu s) :=
  .read fun _ _ => .read fun _ _ => .read fun _ _ => .read fun _ _ => .read fun _ _ => .read fun _ _ =>
    .seq (rebindPort_sparesDmem _ { s.record _ with a2 := _ }) fun u => .seq (setNofSoftbits_sparesDmem _ _ (u.modBundle _ _))
      fun _ => .ok ⟨rfl, rfl⟩

theorem csi2None_sparesDmem (tag : BitVec 8) (s : State) : SparesDmem s (csi2None tag s) :=
  .read fun _ _ => .read fun _ _ => .read fun _ _ => .ok ⟨rfl, rfl⟩

theorem harqFree_sparesDmem (handle : BitVec 8) (s : State) : SparesDmem s (harqFree handle s) :=
  .read fun _ _ => .read fun _ _ => .read fun _ _ => .ok ⟨rfl, rfl⟩

theorem chestOp_sparesDmem (b : Nat) (s : State) : SparesDmem s (chestOp b s) :=
  .read fun _ _ => .read fun _ _ => .ok ⟨rfl, rfl⟩

/-! ### Operations -/

/-- A step of an operation, whatever stops it, leaves DMEM alone where its effect does. -/
theorem runOp_sparesDmem {i : Instr} {tag : BitVec 8} {op : Op} {s t : State} (h : runOp i tag op s = .next t)
    (hop : SparesDmem s (op s)) : t.dmem = s.dmem ∧ t.freeNo = s.freeNo := by
  rcases runOp_next h with ⟨-, rfl⟩ | ⟨-, completed⟩ | ⟨-, e, -, stop⟩
  · exact ⟨rfl, rfl⟩
  · exact hop t completed
  · rcases takeStop_next stop with rfl | ⟨c, rfl⟩ | ⟨c, d, -, rfl⟩ <;> exact ⟨rfl, rfl⟩

/-- Settles O13: no effect of such an operation stores a byte, and a codeblock task that CLOSE_DISPATCH runs inline finds its
context COLLECTING or DECODED, so its completion is no join. -/
theorem onlyJoinsWriteDmem : Obligations.OnlyJoinsWriteDmem := by
  intro i s t noJoin h
  cases i with
  | processPdu tag => exact runOp_sparesDmem h (processPdu_sparesDmem _ _)
  | configureCsiPart2 tag bits g2 gu => exact runOp_sparesDmem h (configureCsiPart2_sparesDmem _ _ _ _ _)
  | csi2None tag => exact runOp_sparesDmem h (csi2None_sparesDmem _ _)
  | harqFree handle => exact runOp_sparesDmem h (harqFree_sparesDmem _ _)
  | nop hint =>
    rw [exec, execNop] at h
    exact runOp_sparesDmem h (.ok ⟨rfl, rfl⟩)
  | reserveView port n owner =>
    rw [exec, execReserveView] at h
    exact runOp_sparesDmem h (.read fun _ _ => .read fun _ hv => .ok (issueReserve_sparesDmem hv))
  | publishInPlace port n owner =>
    rw [exec, execPublishInPlace] at h
    exact runOp_sparesDmem h (.read fun _ _ => issuePublishInPlace_sparesDmem _ _ _)
  | publishCopy port owner data =>
    rw [exec, execPublishCopy] at h
    exact runOp_sparesDmem h (.read fun _ _ => publishCopyWith_sparesDmem consumePublish_sparesDmem _ _ (s.record _))
  | close port owner =>
    rw [exec, execClose] at h
    exact runOp_sparesDmem h (.read fun _ _ => issueClose_sparesDmem consumeCloseAll_sparesDmem _ _)
  | chest b => exact runOp_sparesDmem h (chestOp_sparesDmem _ _)
  | demodSymbol b l =>
    rw [exec, execDemodSymbol] at h
    exact runOp_sparesDmem h (.read fun _ _ => .read fun _ _ => .read fun _ _ => demodSymbol_sparesDmem _ _)
  | descramble b n =>
    rw [exec, execDescramble] at h
    exact runOp_sparesDmem h (.read fun _ _ => .read fun _ _ => descrambleOp_sparesDmem _ _)
  | endStats b => exact runOp_sparesDmem h (endStats_sparesDmem _ _)
  | demuxSymbol b l =>
    rw [exec, execDemuxSymbol] at h
    exact runOp_sparesDmem h (.read fun _ _ => .read fun _ _ => demuxSymbol_sparesDmem _ _)
  | demuxFlush b => exact runOp_sparesDmem h (demuxFlush_sparesDmem _ _)
  | uciDecode b f => exact runOp_sparesDmem h (uciDecode_sparesDmem _ _ _)
  | tbConfigure u =>
    rw [exec, execTbConfigure] at h
    exact runOp_sparesDmem h (.read fun _ _ => tbConfigure_sparesDmem _ _ _)
  | setNofSoftbits u => exact runOp_sparesDmem h (setNofSoftbits_sparesDmem _ _ _)
  | closeDispatch u => exact runOp_sparesDmem h (closeDispatch_sparesDmem _ _)
  | seqEnd b => exact runOp_sparesDmem h (seqEndOp_sparesDmem _ _)
  | demuxResume b l =>
    rw [exec, execDemuxResume] at h
    exact runOp_sparesDmem h (.read fun _ _ => .read fun _ _ => .read fun _ _ => demuxResume_sparesDmem _ _)
  | cbDecode u r => cases noJoin
  | cbRateDematch u r => cases noJoin
  | closeCommit u => cases noJoin
  | cbComplete u r => cases noJoin
  | tbJoin u => cases noJoin

end Sys2Proof.Machine
end

section
/-!
PROOFS. A join writes only the range of its transport block (spec/20_memory.md R103, spec/43_tb_decoder.md R350).
-/

namespace Sys2Proof.Machine

/-- From `s` to `t`, DMEM reads the same at every address but the `n` from `base` on. -/
def State.SameOutside (base n : Nat) (s t : State) : Prop :=
  ∀ a, (a < base ∨ base + n ≤ a) → Memory.read t.dmem a = Memory.read s.dmem a

theorem State.SameOutside.of_dmem {base n : Nat} {s t : State} (h : t.dmem = s.dmem) : State.SameOutside base n s t :=
  fun a _ => by rw [h]

/-- A change of other fields than DMEM comes first. -/
theorem State.SameOutside.after {base n : Nat} {s t u : State} (k : State.SameOutside base n t u) (h : t.dmem = s.dmem) :
    State.SameOutside base n s u := fun a ha => by rw [k a ha, h]

theorem State.SameOutside.trans {base n : Nat} {s t u : State} (h : State.SameOutside base n s t)
    (k : State.SameOutside base n t u) : State.SameOutside base n s u := fun a ha => (k a ha).trans (h a ha)

/-- A block write reaches its own byte alone (R103). -/
theorem memWrite_read_other (s : State) (own : Option Nat) (v : Byte) {a c : Nat} (h : c ≠ a) :
    Memory.read (s.memWrite own a v).dmem c = Memory.read s.dmem c := by
  rcases State.memWrite_dmem s own a v with written | ⟨-, raced⟩
  · rw [written, Memory.read_write_other _ _ _ _ h]
  · rw [raced]

theorem writeTb_sameOutside (own : Option Nat) (base n : Nat) (bits : List Bool) (s : State) :
    State.SameOutside base n s (writeTb own base n bits s) := by
  have written : ∀ (offsets : List Nat) (s : State), (∀ i ∈ offsets, i < n) → State.SameOutside base n s
      (offsets.foldl (fun s i => s.memWrite own (base + i) (payloadByte bits i)) s) := by
    intro offsets
    induction offsets with
    | nil => exact fun s _ => .of_dmem rfl
    | cons i offsets ih =>
      intro s inside
      have here : i < n := inside i List.mem_cons_self
      refine State.SameOutside.trans (fun a ha => ?_) (ih _ fun j hj => inside j (List.mem_cons_of_mem _ hj))
      exact memWrite_read_other s own _ (by omega)
  exact written _ s fun i hi => List.mem_range.1 hi

theorem tbJoin_sameOutside {t : Nat} {s u : State} {x : TbCtx} (h : tbJoin t s = .ok u)
    (hx : s.tbs[t]? = some x) :
    State.SameOutside x.tbDest (x.tbs / 8) s u := by
  simp only [tbJoin, bind_eq_ok, getTb_eq_ok, getHarq_eq_ok, check_eq_ok, need_eq_ok, assertDisposed_eq_ok, emit_eq_ok,
    exists_and_left, exists_const] at h
  obtain ⟨y, hy, -, z, -, cbs, -, j, -, -, v, ⟨-, rfl⟩, -, rfl⟩ := h
  obtain rfl : x = y := Option.some.inj (hx.symm.trans hy)
  split
  · exact writeTb_sameOutside _ _ _ _ (s.record _)
  · exact .of_dmem rfl

theorem cbComplete_sameOutside {t r : Nat} {s u : State} {x : TbCtx} (h : cbComplete t r s = .ok u)
    (hx : s.tbs[t]? = some x) : State.SameOutside x.tbDest (x.tbs / 8) s u := by
  simp only [cbComplete, bind_eq_ok, getTb_eq_ok, check_eq_ok, exists_and_left, exists_const] at h
  obtain ⟨y, hy, -, h⟩ := h
  split at h
  case isTrue => cases h; exact .of_dmem rfl
  case isFalse =>
    cases hf : y.fsm <;> simp only [hf] at h
    case collecting => cases h; exact .of_dmem rfl
    case decoding => exact (tbJoin_sameOutside h (getElem?_modify_self _ hx)).after rfl
    all_goals cases h

theorem closeCommit_sameOutside {t : Nat} {s u : State} {x : TbCtx} (h : closeCommit t s = .ok u)
    (hx : s.tbs[t]? = some x) : State.SameOutside x.tbDest (x.tbs / 8) s u := by
  simp only [closeCommit, bind_eq_ok, getTb_eq_ok] at h
  obtain ⟨y, hy, h⟩ := h
  cases hf : y.fsm <;> simp only [hf] at h
  case collecting => cases h; exact .of_dmem rfl
  case decoded => exact (tbJoin_sameOutside h hx).after rfl
  all_goals cases h

theorem cbDecode_sameOutside {t r : Nat} {s u : State} {x : TbCtx} (h : cbDecode t r s = .ok u)
    (hx : s.tbs[t]? = some x) : State.SameOutside x.tbDest (x.tbs / 8) s u := by
  simp only [cbDecode, bind_eq_ok, need_eq_ok] at h
  obtain ⟨v, -, f, -, h⟩ := h
  exact (cbComplete_sameOutside h (getElem?_modify_self _ hx)).after rfl

theorem cbRateDematch_sameOutside {t r : Nat} {s u : State} {x : TbCtx} (h : cbRateDematch t r s = .ok u)
    (hx : s.tbs[t]? = some x) : State.SameOutside x.tbDest (x.tbs / 8) s u := by
  simp only [cbRateDematch, bind_eq_ok, need_eq_ok] at h
  obtain ⟨v, -, f, -, h⟩ := h
  exact (cbComplete_sameOutside h (getElem?_modify_self _ hx)).after rfl

/-- What stops an operation discards its writes (R462, R465). -/
theorem runOp_sameOutside {i : Instr} {tag : BitVec 8} {op : Op} {s t : State} {base n : Nat} (h : runOp i tag op s = .next t)
    (hop : ∀ u, op s = .ok u → State.SameOutside base n s u) : State.SameOutside base n s t := by
  rcases runOp_next h with ⟨-, rfl⟩ | ⟨-, completed⟩ | ⟨-, e, -, stop⟩
  · exact .of_dmem rfl
  · exact hop t completed
  · rcases takeStop_next stop with rfl | ⟨c, rfl⟩ | ⟨c, d, -, rfl⟩ <;> exact .of_dmem rfl

/-- Settles O14: `writeTb` is the only write of these operations, and no step before it moves the context's range. -/
theorem joinWritesOnlyTheTransportBlock : Obligations.JoinWritesOnlyTheTransportBlock := by
  intro i u k s t x hi hx h
  rcases hi with rfl | rfl | rfl | rfl | rfl
  · exact runOp_sameOutside h fun _ hu => tbJoin_sameOutside hu hx
  · exact runOp_sameOutside h fun _ hu => cbComplete_sameOutside hu hx
  · exact runOp_sameOutside h fun _ hu => closeCommit_sameOutside hu hx
  · exact runOp_sameOutside h fun _ hu => cbDecode_sameOutside hu hx
  · exact runOp_sameOutside h fun _ hu => cbRateDematch_sameOutside hu hx

end Sys2Proof.Machine
end

section
/-!
PROOFS. HOST's accesses of DMEM and bus errors (spec/20_memory.md R100, R107, R114), and what CMDU does with words that are no
command (spec/30_encoding.md R142, R143; spec/60_exceptions.md R462).
-/

namespace Sys2Proof.Machine

/-! ### Bus errors (R107) -/

theorem csrAligned_iff {width : Nat} {off : BitVec 12} : csrAligned width off = true ↔ width = 32 ∧ off.toNat % 4 = 0 := by
  constructor
  · intro h
    simp only [csrAligned, Bool.and_eq_true, decide_eq_true_eq] at h
    obtain ⟨wide, low⟩ := h
    have number := congrArg BitVec.toNat low
    exact ⟨wide, by simpa [BitVec.extractLsb'_toNat] using number⟩
  · rintro ⟨rfl, h⟩
    exact csrAligned_of_mod h

/-- Settles O23: an access is refused exactly where it is not aligned, and a byte write has no alignment. -/
theorem busErrors : Obligations.BusErrors := by
  intro s width off v
  refine ⟨fun bad => ?_, fun wide low => ?_, fun a x => ⟨_, rfl⟩⟩
  · have unaligned : ¬ csrAligned width off = true := fun h => by
      obtain ⟨wide, low⟩ := csrAligned_iff.1 h
      exact bad.elim (· wide) (· low)
    exact ⟨if_neg unaligned, if_neg unaligned⟩
  · subst wide
    exact ⟨⟨_, runAgent_csrRead (csrAligned_of_mod low) s⟩, ⟨_, runAgent_csrWrite (csrAligned_of_mod low) s v⟩⟩

/-! ### Host stores to DMEM (R100, R114) -/

/-- A note changes nothing of a window but what it notes. -/
theorem touch_forget (w : Window) (a : Nat) : { w.touch a with touched := [] } = { w with touched := [] } := by
  unfold Window.touch
  split <;> rfl

theorem touch_of_outside {w : Window} {a : Nat} (h : w.contains a = false) : w.touch a = w := by simp [Window.touch, h]

theorem touched_forget (ws : List Window) (a : Nat) :
    (ws.map fun w => w.touch a).map (fun w => { w with touched := [] }) = ws.map (fun w => { w with touched := [] }) := by
  rw [List.map_map]
  exact List.map_congr_left fun w _ => touch_forget w a

/-- Outside every output range nothing is noted. -/
theorem touched_of_not_raced {s : State} {a : Nat} (h : s.raced a = false) : (s.windows.map fun w => w.touch a) = s.windows := by
  have outside : ∀ w ∈ s.windows, w.contains a = false := by simpa [State.raced] using h
  calc (s.windows.map fun w => w.touch a) = s.windows.map id := List.map_congr_left fun w hw => touch_of_outside (outside w hw)
    _ = s.windows := List.map_id _

theorem dmemWrite_clear {s : State} {a : Nat} (h : s.blockBytes a = []) (v : Byte) :
    s.dmemWrite a v = { s with windows := s.windows.map fun w => w.touch a, dmem := Memory.write s.dmem a v } := if_pos h

theorem dmemWrite_contested {s : State} {a : Nat} (h : s.blockBytes a ≠ []) (v : Byte) :
    s.dmemWrite a v = { s with
      windows := s.windows.map fun w => w.touch a
      dmem := Memory.write s.dmem a (raceByteOf s.freeNo v (s.blockBytes a))
      freeNo := s.freeNo + 1 } := if_neg h

theorem dmemByte_of_write {s t : State} {a : Nat} {v : Byte} (h : t.dmem = Memory.write s.dmem a v) :
    t.dmemByte a = v ∧ ∀ c, c ≠ a → t.dmemByte c = s.dmemByte c := by
  refine ⟨?_, fun c hc => ?_⟩
  · rw [State.dmemByte, h, Memory.read_write_same, Option.getD_some]
  · rw [State.dmemByte, h, Memory.read_write_other _ _ _ _ hc, State.dmemByte]

/-- Settles O24: a store is one `Memory.write`, of the stored byte or, where transport blocks stand, of one racing byte. -/
theorem hostDmemAccess : Obligations.HostDmemAccess := by
  intro s a v
  have store : runAgent (.host (.dmemWrite a v)) s = .next (s.dmemWrite a.toNat v) := rfl
  refine ⟨fun outside => ?load, fun clear => ?clear, fun standing => ?contested⟩
  case load => exact congrArg Host.Outcome.next (if_neg (by simp [outside]))
  case clear =>
    rw [store, dmemWrite_clear clear]
    obtain ⟨here, elsewhere⟩ := dmemByte_of_write (s := s) (t := { s with
      windows := s.windows.map fun w => w.touch a.toNat, dmem := Memory.write s.dmem a.toNat v }) rfl
    exact ⟨_, rfl, here, elsewhere, touched_forget _ _, touched_of_not_raced, rfl⟩
  case contested =>
    rw [store, dmemWrite_contested standing]
    obtain ⟨here, elsewhere⟩ := dmemByte_of_write (s := s) (t := { s with
      windows := s.windows.map fun w => w.touch a.toNat
      dmem := Memory.write s.dmem a.toNat (raceByteOf s.freeNo v (s.blockBytes a.toNat))
      freeNo := s.freeNo + 1 }) rfl
    refine ⟨_, rfl, ?_, elsewhere, touched_forget _ _, rfl⟩
    rw [here]
    exact raceByteOf_mem _ _ _

/-! ### Words that are no command (R142, R143, R462) -/

theorem decodeCommand_illegal {w : Word} (h : isHostOpcode w.opc = false) (rest : List Word) :
    decodeCommand (w :: rest) = .error (.illegalOpcode w.opc) := by simp [decodeCommand, h]

/-- A reserved field is reported with the header's opcode (R143). -/
theorem decodeHost_reserved {w : Word} {rest : List Word} {opc : BitVec 8}
    (h : decodeHost w rest = .error (.reservedField opc)) : opc = w.opc := by
  unfold decodeHost at h
  split at h
  case h_2 =>
    split at h
    · split at h <;> cases h
      rfl
    · cases h
  case h_5 => cases h
  case h_6 => cases h
  all_goals
    split at h <;> cases h
    rfl

theorem decodeCommand_reserved {w : Word} {rest : List Word} {opc : BitVec 8}
    (h : decodeCommand (w :: rest) = .error (.reservedField opc)) : opc = w.opc := by
  simp only [decodeCommand] at h
  split at h
  · exact decodeHost_reserved h
  · cases h

/-- CONFIGURE_CSI_PART2 has two argument words (R144). -/
theorem decodeCommand_missing {w : Word} {rest : List Word} (ho : w.opc = 0x02#8) (short : rest.length < 2) :
    decodeCommand (w :: rest) = .error (.missingWords w.opc) := by
  have host : isHostOpcode 0x02#8 = true := by decide
  match rest with
  | [] => simp [decodeCommand, host, decodeHost, ho]
  | [_] => simp [decodeCommand, host, decodeHost, ho]
  | _ :: _ :: _ => simp at short

section
variable {s : State} {w : Word} {rest : List Word} (running : s.fatal = false) (hq : s.cmdq = w :: rest)
include running hq

/-- An illegal command loses its header alone (R142). -/
theorem stepCmdu_illegal (h : isHostOpcode w.opc = false) :
    stepCmdu s =
      settle s (State.takeStop { s with cmdq := rest } [w] w.unit (.cmdError .illegalOpcode (0#16 ++ w.opc))) := by
  simp [stepCmdu, running, hq, decodeCommand_illegal h]

/-- A malformed command loses all of its words (R142). -/
theorem stepCmdu_reserved (h : decodeCommand (w :: rest) = .error (.reservedField w.opc)) :
    stepCmdu s = settle s (State.takeStop { s with cmdq := rest.drop (hostNarg w.opc) } [w] w.unit
      (.cmdError .reservedFieldNonzero (0#16 ++ w.opc))) := by
  simp [stepCmdu, running, hq, h]

/-- An incomplete command waits for its words (R142). -/
theorem stepCmdu_missing (h : decodeCommand (w :: rest) = .error (.missingWords w.opc)) : stepCmdu s = .next s.hold := by
  simp [stepCmdu, running, hq, h]

end

section
variable {s : State} {left ws : List Word} {tag : BitVec 8} {c : CmdCode} {d : BitVec 24}

/-- A command error of CMDU removes the words, and reports (R462). -/
theorem settle_cmdError (notHeld : s.held = false) (room : s.evq.length + 2 ≤ s.params.evqDepth) :
    settle s (State.takeStop { s with cmdq := left } ws tag (.cmdError c d)) = .next { s with
      cmdq := left
      trace := s.trace ++ ws
      errCode := c.code
      errDetail := d
      cmdErr := true
      evq := s.evq ++ [0x05#8 ++ tag ++ 1#16, d ++ c.code] } := by
  simp only [State.takeStop, State.raiseCmdError, State.evtRoom, State.log_evq, State.log_params, room, decide_true, if_true,
    settle, State.noteCmdError_held, State.log_held, notHeld, Bool.false_eq_true, if_false]
  rfl

/-- Without room for its record it holds, and the words stay (R15, R111). -/
theorem settle_cmdError_hold (full : s.params.evqDepth < s.evq.length + 2) :
    settle s (State.takeStop { s with cmdq := left } ws tag (.cmdError c d)) = .next s.hold := by
  have noRoom : ¬ s.evq.length + 2 ≤ s.params.evqDepth := by omega
  simp only [State.takeStop, State.raiseCmdError, State.evtRoom, State.log_evq, State.log_params, noRoom, decide_false,
    Bool.false_eq_true, if_false, settle, State.hold_held, if_true]

end

/-- Settles O25: CMDU's turn is one command error of the words it removes, or a hold. -/
theorem commandDecodeErrors : Obligations.CommandDecodeErrors := by
  intro s w rest running notHeld hq
  have turn : runAgent .cmdu s = stepCmdu s := rfl
  have reserved : ∀ opc, decodeCommand s.cmdq = .error (.reservedField opc) →
      opc = w.opc ∧ decodeCommand (w :: rest) = .error (.reservedField w.opc) := fun opc h => by
    rw [hq] at h
    obtain rfl := decodeCommand_reserved h
    exact ⟨rfl, h⟩
  refine ⟨fun illegal room => ?_, fun opc h room => ?_, fun missing => ?_, fun illegal full => ?_, fun opc h full => ?_⟩
  · rw [turn, stepCmdu_illegal running hq illegal, settle_cmdError notHeld room]
    rfl
  · obtain ⟨rfl, decoded⟩ := reserved opc h
    rw [turn, stepCmdu_reserved running hq decoded, settle_cmdError notHeld room]
    exact ⟨rfl, rfl⟩
  · exact stepCmdu_missing running hq (decodeCommand_missing missing.1 missing.2)
  · rw [turn, stepCmdu_illegal running hq illegal, settle_cmdError_hold full]
  · obtain ⟨rfl, decoded⟩ := reserved opc h
    rw [turn, stepCmdu_reserved running hq decoded, settle_cmdError_hold full]

end Sys2Proof.Machine
end

section
/-!
PROOFS. What CSI2_NONE, CONFIGURE_CSI_PART2 and PROCESS_PDU report (spec/41_demux.md R256, R258; spec/45_sequencer.md R422, R424;
spec/60_exceptions.md R462, R475).
-/

namespace Sys2Proof.Machine

/-! ### Command errors (R462) -/

/-- What a command error of `c` and `d` answers: a report, or a hold while the event FIFO lacks the room for it (R111, R462). -/
def State.refused (s : State) (i : Instr) (tag c : BitVec 8) (d : BitVec 24) : Host.Outcome State Fault Refusal :=
  if s.evq.length + 2 ≤ s.params.evqDepth then
    .next { s.record i with
      errCode := c
      errDetail := d
      cmdErr := true
      evq := s.evq ++ [0x05#8 ++ tag ++ 1#16, d ++ c] }
  else .next s.hold

theorem runOp_refused {i : Instr} {tag : BitVec 8} {op : Op} {s : State} {c : CmdCode} {d : BitVec 24}
    (running : s.fatal = false) (h : op s = .error (.cmdError c d)) : runOp i tag op s = s.refused i tag c.code d := by
  unfold State.refused
  split
  case isTrue room => exact runOp_cmdError running h room
  case isFalse full => exact runOp_cmdError_hold running h (by omega)

theorem refused_of_room {s : State} (room : s.evq.length + 2 ≤ s.params.evqDepth) (i : Instr) (tag c : BitVec 8)
    (d : BitVec 24) :
    s.refused i tag c d = .next { s.record i with
      errCode := c
      errDetail := d
      cmdErr := true
      evq := s.evq ++ [0x05#8 ++ tag ++ 1#16, d ++ c] } := if_pos room

theorem refused_of_full {s : State} (full : s.params.evqDepth < s.evq.length + 2) (i : Instr) (tag c : BitVec 8)
    (d : BitVec 24) : s.refused i tag c d = .next s.hold := if_neg (by omega)

/-! ### CSI2_NONE (R258) -/

section
variable {s : State} {tag : BitVec 8}

theorem csi2None_noBundle (h : s.bundleOfTag tag = none) :
    csi2None tag s = .error (.cmdError .noSuchPdu (0#16 ++ tag)) := by
  have absent : (s.record (.csi2None tag)).bundleOfTag tag = none := h
  simp only [csi2None, absent, need_none, error_bind]

variable {b : Nat} {x : Bundle} (hb : s.bundleOfTag tag = some b) (hx : s.bundles[b]? = some x)
include hb hx

theorem csi2None_notAwaited (h : x.dm.csi2State ≠ .await) :
    csi2None tag s = .error (.cmdError .csi2NotExpected (0#16 ++ tag)) := by
  have named : (s.record (.csi2None tag)).bundleOfTag tag = some b := hb
  have found : (s.record (.csi2None tag)).getBundle b = .ok x := getBundle_eq_ok.2 hx
  simp only [csi2None, named, need_some, ok_bind, found, check_neg h, error_bind]

theorem csi2None_awaited (h : x.dm.csi2State = .await) :
    csi2None tag s = .ok { s.record (.csi2None tag) with
      bundles := s.bundles.set b { x with phase := .resume, dm := { x.dm with csi2State := .declined } } } := by
  have named : (s.record (.csi2None tag)).bundleOfTag tag = some b := hb
  have found : (s.record (.csi2None tag)).getBundle b = .ok x := getBundle_eq_ok.2 hx
  simp only [csi2None, named, need_some, ok_bind, found, check_pos h, setCsi2State, modBundle_modBundle]
  rw [modBundle_eq_set (s := s.record (.csi2None tag)) _ hx]
  rfl

end

/-- Settles O28: the tag names no bundle, one that does not await CSI Part 2, or one that does. -/
theorem csi2NoneResult : Obligations.Csi2NoneResult := by
  intro s tag running
  have unnamed : s.bundleOfTag tag = none →
      exec (.csi2None tag) s = s.refused (.csi2None tag) tag 0x23#8 (0#16 ++ tag) :=
    fun absent => runOp_refused running (csi2None_noBundle absent)
  have unasked : ∀ b x, s.bundleOfTag tag = some b → s.bundles[b]? = some x → x.dm.csi2State ≠ .await →
      exec (.csi2None tag) s = s.refused (.csi2None tag) tag 0x25#8 (0#16 ++ tag) :=
    fun b x hb hx other => runOp_refused running (csi2None_notAwaited hb hx other)
  refine ⟨fun b x hb hx await => runOp_ok running (csi2None_awaited hb hx await), fun b x hb hx other room => ?_,
    fun absent room => ?_, fun b x hb hx other full => ?_, fun absent full => ?_⟩
  · rw [unasked b x hb hx other, refused_of_room room]
  · rw [unnamed absent, refused_of_room room]
  · rw [unasked b x hb hx other, refused_of_full full]
  · rw [unnamed absent, refused_of_full full]

/-! ### CONFIGURE_CSI_PART2 (R256, R475) -/

theorem checkAll_error {cs : List (Bool × CmdCode × Nat)} {c : CmdCode} {d : Nat} (h : firstFailing cs = some (c, d)) :
    checkAll cs = .error (.cmdError c (BitVec.ofNat 24 d)) := by simp [checkAll, h]

section
variable {s : State} {tag : BitVec 8} {bits : BitVec 11} {g2 gu : BitVec 24}

theorem configureCsiPart2_noBundle (h : s.bundleOfTag tag = none) :
    configureCsiPart2 tag bits g2 gu s = .error (.cmdError .noSuchPdu (0#16 ++ tag)) := by
  have absent : ({ s.record (.configureCsiPart2 tag bits g2 gu) with a2 := argWord gu } : State).bundleOfTag tag = none := h
  simp only [configureCsiPart2, absent, need_none, error_bind]

variable {b : Nat} {x : Bundle} (hb : s.bundleOfTag tag = some b) (hx : s.bundles[b]? = some x)
include hb hx

/-- The bundle named, the first check is whether CSI Part 2 is configured already (R256). -/
theorem configureCsiPart2_configured (h : x.dm.csi2State = .configured) :
    configureCsiPart2 tag bits g2 gu s = .error (.fatal .uciNotifierTwice) := by
  have named : ({ s.record (.configureCsiPart2 tag bits g2 gu) with a2 := argWord gu } : State).bundleOfTag tag = some b := hb
  have found : ({ s.record (.configureCsiPart2 tag bits g2 gu) with a2 := argWord gu } : State).getBundle b = .ok x :=
    getBundle_eq_ok.2 hx
  simp only [configureCsiPart2, named, need_some, ok_bind, found, check_neg (not_not.2 h), error_bind]

theorem configureCsiPart2_notAwaited (unset : x.dm.csi2State ≠ .configured) (h : x.dm.csi2State ≠ .await) :
    configureCsiPart2 tag bits g2 gu s = .error (.cmdError .csi2NotExpected (0#16 ++ tag)) := by
  have named : ({ s.record (.configureCsiPart2 tag bits g2 gu) with a2 := argWord gu } : State).bundleOfTag tag = some b := hb
  have found : ({ s.record (.configureCsiPart2 tag bits g2 gu) with a2 := argWord gu } : State).getBundle b = .ok x :=
    getBundle_eq_ok.2 hx
  simp only [configureCsiPart2, named, need_some, ok_bind, found, check_pos unset, check_neg h, error_bind]

/-- A bundle that awaits CSI Part 2 is refused for the first of the budget checks that fails (R256, R475). -/
theorem configureCsiPart2_refused {t : TbCtx} {c : CmdCode} {d : Nat} (h : x.dm.csi2State = .await)
    (ht : s.tbs[x.tbx]? = some t)
    (fails : firstFailing (configureChecks s.params x t bits.toNat g2.toNat gu.toNat) = some (c, d)) :
    configureCsiPart2 tag bits g2 gu s = .error (.cmdError c (BitVec.ofNat 24 d)) := by
  have named : ({ s.record (.configureCsiPart2 tag bits g2 gu) with a2 := argWord gu } : State).bundleOfTag tag = some b := hb
  have found : ({ s.record (.configureCsiPart2 tag bits g2 gu) with a2 := argWord gu } : State).getBundle b = .ok x :=
    getBundle_eq_ok.2 hx
  have context : ({ s.record (.configureCsiPart2 tag bits g2 gu) with a2 := argWord gu } : State).getTb x.tbx = .ok t :=
    getTb_eq_ok.2 ht
  have unset : x.dm.csi2State ≠ .configured := by rw [h]; decide
  have checked : firstFailing (configureChecks (s.record (.configureCsiPart2 tag bits g2 gu)).params x t bits.toNat g2.toNat
    gu.toNat) = some (c, d) := fails
  simp only [configureCsiPart2, named, need_some, ok_bind, found, check_pos unset, check_pos h, context,
    checkAll_error checked, error_bind]

end

/-- The checks run in the order they stand in (R475). -/
theorem firstFailing_cons (bad : Bool) (c : CmdCode) (d : Nat) (rest : List (Bool × CmdCode × Nat)) :
    firstFailing ((bad, c, d) :: rest) = if bad then some (c, d) else firstFailing rest := rfl

theorem eOk_iff (t : TbCtx) (g : Nat) : (!t.eOk g) = true ↔ g / (t.nl * t.qm) < nofCodeblocks t.tbs t.bg := by
  simp [TbCtx.eOk]

/-- Settles O30: each clause is one stop of `configureCsiPart2`, the last five the first failing budget check. -/
theorem configureCsiPart2Refuses : Obligations.ConfigureCsiPart2Refuses := by
  intro s tag bits g2 gu running i refused
  have reported : ∀ c d, s.refused i tag c d = refused c d := fun _ _ => rfl
  refine ⟨fun absent => ?_, fun b x hb hx => ⟨fun configured => ?_, fun unset other => ?_, fun t await ht => ?_⟩⟩
  · exact (runOp_refused running (configureCsiPart2_noBundle absent)).trans (reported _ _)
  · exact runOp_fatalError running (configureCsiPart2_configured hb hx configured)
  · exact (runOp_refused running (configureCsiPart2_notAwaited hb hx unset other)).trans (reported _ _)
  · intro c1 c2 c3 c4 c5
    have budget : ∀ c d, firstFailing (configureChecks s.params x t bits.toNat g2.toNat gu.toNat) = some (c, d) →
        exec i s = refused c.code (BitVec.ofNat 24 d) := fun c d fails =>
      (runOp_refused running (configureCsiPart2_refused hb hx await ht fails)).trans (reported _ _)
    have order : firstFailing (configureChecks s.params x t bits.toNat g2.toNat gu.toNat) =
        if c1 then some (.budgetNotMultiple, 4) else if c2 then some (.uciConfig, 4) else if c3 then some (.uciConfig, 5)
        else if c4 then some (.ulschBudget, 1) else if c5 then some (.cbBudgetTooSmall, 0) else none := by
      simp only [configureChecks, firstFailing_cons, decide_eq_true_eq, eOk_iff]
      rfl
    refine ⟨fun h1 => ?_, fun h1 h2 => ?_, fun h1 h2 h3 => ?_, fun h1 h2 h3 h4 => ?_, fun h1 h2 h3 h4 h5 => ?_⟩
    · exact budget _ _ (by rw [order, if_pos h1])
    · exact budget _ _ (by rw [order, if_neg h1, if_pos h2])
    · exact budget _ _ (by rw [order, if_neg h1, if_neg h2, if_pos h3])
    · exact budget _ _ (by rw [order, if_neg h1, if_neg h2, if_neg h3, if_pos h4])
    · exact budget _ _ (by rw [order, if_neg h1, if_neg h2, if_neg h3, if_neg h4, if_pos h5])

/-! ### PROCESS_PDU refused (R422, R424, R475) -/

/-- The codes and details of the checks of R424, in their order. -/
def validationCodes : List (CmdCode × Nat) :=
  [(.allocExceedsBwp, 1), (.allocExceedsBwp, 2), (.allocExceedsBwp, 3), (.dmrsUnsupported, 1), (.dmrsUnsupported, 2),
    (.dmrsUnsupported, 3), (.lbrmZero, 1), (.dmrsMaskInconsistent, 1), (.dmrsMaskInconsistent, 2), (.badModulation, 1),
    (.badLayers, 1), (.badLayers, 2), (.tpConstraint, 1), (.tpConstraint, 2), (.tpConstraint, 3), (.tpConstraint, 4),
    (.tpConstraint, 5), (.badSymbolAlloc, 1), (.badSymbolAlloc, 2), (.badTbs, 1), (.badTbs, 2), (.badTbs, 3), (.badTbs, 4),
    (.badTbs, 5), (.budgetNotMultiple, 1), (.budgetNotMultiple, 2), (.budgetNotMultiple, 3), (.budgetNotMultiple, 5),
    (.ackConfig, 1), (.ackConfig, 2), (.ackConfig, 3), (.ackConfig, 4), (.ackConfig, 5), (.ackConfig, 6), (.uciConfig, 1),
    (.uciConfig, 2), (.uciConfig, 3), (.badHarqHandle, 1), (.harqGeometryMismatch, 1), (.softbufCapacity, 1), (.badDecCfg, 1),
    (.ncbTooSmall, 1), (.ulschBudget, 1), (.ulschBudget, 2), (.tagInUse, 1), (.badDc, 1), (.cbBudgetTooSmall, 0)]

theorem validateChecks_codes (s : State) (tag : BitVec 8) (d : Descriptor) :
    (validateChecks s tag d).map Prod.snd = validationCodes := rfl

/-- They ascend in code and detail (R475). -/
theorem validationCodes_ascending : validationCodes.Pairwise (fun p q =>
    p.1.code.toNat < q.1.code.toNat ∨ (p.1.code = q.1.code ∧ p.2 < q.2)) := by decide +kernel

section
variable {s : State} {tag : BitVec 8}

theorem processPdu_invalid {c : CmdCode} {d : Nat} (fails : firstFailing (validateChecks s tag s.desc) = some (c, d)) :
    processPdu tag s = .error (.cmdError c (BitVec.ofNat 24 d)) := by
  have checked : firstFailing (validateChecks (s.record (.processPdu tag)) tag (s.record (.processPdu tag)).desc) = some (c, d) :=
    fails
  simp only [processPdu, checkAll_error checked, error_bind]

theorem processPdu_lockedHandle {b t : Nat} {h : Harq} (valid : firstFailing (validateChecks s tag s.desc) = none)
    (hb : s.firstFreeBundle = some b) (ht : s.firstIdleTb = some t) (hh : s.harq[harqHandle s.desc]? = some h)
    (locked : h.hstate = .locked) : processPdu tag s = .error (.fatal .harqOverwriteLocked) := by
  have checked : checkAll (validateChecks (s.record (.processPdu tag)) tag (s.record (.processPdu tag)).desc) = .ok () :=
    checkAll_eq_ok.2 valid
  have bundle : (s.record (.processPdu tag)).firstFreeBundle = some b := hb
  have context : (s.record (.processPdu tag)).firstIdleTb = some t := ht
  have handle : (s.record (.processPdu tag)).getHarq (harqHandle (s.record (.processPdu tag)).desc) = .ok h :=
    getHarq_eq_ok.2 hh
  simp only [processPdu, checked, ok_bind, bundle, context, handle, check_neg (not_not.2 locked), error_bind]

end

/-- Settles O32: the first failing check is the error, and the checks are a list whose codes and details ascend. -/
theorem processPduRefuses : Obligations.ProcessPduRefuses := by
  intro s tag running
  have invalid : ∀ c d, firstFailing (validateChecks s tag s.desc) = some (c, d) →
      exec (.processPdu tag) s = s.refused (.processPdu tag) tag c.code (BitVec.ofNat 24 d) :=
    fun c d fails => runOp_refused running (processPdu_invalid fails)
  refine ⟨fun c d fails room => ?_, fun c d fails full => ?_, fun b t h valid hb ht hh locked => ?_, ?_⟩
  · rw [invalid c d fails, refused_of_room room]
  · rw [invalid c d fails, refused_of_full full]
  · exact runOp_fatalError running (processPdu_lockedHandle valid hb ht hh locked)
  · have ascending := validationCodes_ascending
    rw [← validateChecks_codes s tag s.desc, List.pairwise_map] at ascending
    exact ascending

end Sys2Proof.Machine
end

section
/-!
PROOFS. An accepted PROCESS_PDU (spec/45_sequencer.md R420, R421, R428; spec/43_tb_decoder.md R330, R331).
-/

namespace Sys2Proof.Machine

/-! ### The PDU's ports (R207, R428) -/

/-- A port as it opens (R207). -/
def Port.opened (bound : Binding) : Port := ⟨bound, true, 0, 0, 0⟩

section
variable {s : State} {bound : Binding}

theorem openPort_demuxIn {b : Nat} {x : Bundle} (hx : s.bundles[b]? = some x) (closed : x.demuxIn.isOpen = false) :
    openPort (.demuxIn b) bound s =
      .ok { s with bundles := s.bundles.set b { x with demuxIn := .opened bound } } := by
  refine openPort_eq_ok.2 ⟨x.demuxIn, by simp [State.port?, hx], closed, ?_⟩
  simp only [State.modPort, modBundle_eq_set _ hx]
  rfl

theorem openPort_sch {t : Nat} {c : TbCtx} (hc : s.tbs[t]? = some c) (closed : c.sch.isOpen = false) :
    openPort (.sch t) bound s = .ok { s with tbs := s.tbs.set t { c with sch := .opened bound } } := by
  refine openPort_eq_ok.2 ⟨c.sch, by simp [State.port?, hc], closed, ?_⟩
  simp only [State.modPort, modTb_eq_set _ hc]
  rfl

/-- A field port of a bundle that has become `x` already. -/
theorem openPort_uci {f : UciField} {b : Nat} {x' : Bundle} (hx : s.bundles[b]? = some x')
    (x : Bundle) (closed : (x.uci f).port.isOpen = false) :
    openPort (.uci f b) bound { s with bundles := s.bundles.set b x } =
      .ok { s with bundles := s.bundles.set b (x.modUci f fun u => { u with port := .opened bound }) } := by
  have found : (s.bundles.set b x)[b]? = some x := getElem?_set_found x hx
  refine openPort_eq_ok.2 ⟨(x.uci f).port, by simp [State.port?, found], closed, ?_⟩
  simp only [State.modPort, State.modBundle, set_modify]
  rfl

end

/-- The bundle with its ports opened for the descriptor `d`: a field's port is bound REAL where the field has payload bits, and
CSI2's waits for its size (R428). -/
def Bundle.opened (x : Bundle) (d : Descriptor) : Bundle :=
  { x with
    demuxIn := .opened .real
    ack := { x.ack with port := .opened (bindingOf (ackBits d)) }
    csi1 := { x.csi1 with port := .opened (bindingOf (csi1Bits d)) }
    csi2 := { x.csi2 with port := .opened .null } }

/-- All ports of the bundle are CLOSED. -/
structure Bundle.Closed (x : Bundle) : Prop where
  demuxIn : x.demuxIn.isOpen = false
  ack : x.ack.port.isOpen = false
  csi1 : x.csi1.port.isOpen = false
  csi2 : x.csi2.port.isOpen = false

theorem openPorts_of_closed {s : State} {b t : Nat} {x : Bundle} {c : TbCtx} (hx : s.bundles[b]? = some x)
    (hc : s.tbs[t]? = some c) (closed : x.Closed) (schClosed : c.sch.isOpen = false) (d : Descriptor) :
    openPorts b t d s = .ok { s with
      bundles := s.bundles.set b (x.opened d)
      tbs := s.tbs.set t { c with sch := .opened .real } } := by
  obtain ⟨c', hc'⟩ : ∃ c' : TbCtx, c' = { c with sch := .opened .real } := ⟨_, rfl⟩
  have o1 := openPort_demuxIn (bound := .real) hx closed.demuxIn
  have o2 := openPort_sch (s := { s with bundles := s.bundles.set b { x with demuxIn := .opened .real } }) (bound := .real)
    hc schClosed
  rw [← hc'] at o2 ⊢
  have uci := fun f bound => openPort_uci (s := { s with tbs := s.tbs.set t c' }) (f := f) (bound := bound) hx
  have o3 := uci .ack (bindingOf (ackBits d)) { x with demuxIn := .opened .real } closed.ack
  have o4 := uci .csi1 (bindingOf (csi1Bits d))
    { x with demuxIn := .opened .real, ack := { x.ack with port := .opened (bindingOf (ackBits d)) } } closed.csi1
  have o5 := uci .csi2 .null
    { x with
      demuxIn := .opened .real
      ack := { x.ack with port := .opened (bindingOf (ackBits d)) }
      csi1 := { x.csi1 with port := .opened (bindingOf (csi1Bits d)) } } closed.csi2
  exact bind_eq_ok.2 ⟨_, o1, bind_eq_ok.2 ⟨_, o2, bind_eq_ok.2 ⟨_, o3, bind_eq_ok.2 ⟨_, o4, o5⟩⟩⟩⟩

/-! ### TB_CONFIGURE (R330, R331) -/

/-- The TB context that TB_CONFIGURE makes of an IDLE one (R330). -/
def TbCtx.configured (c : TbCtx) (tag : BitVec 8) (d : Descriptor) (dc : Word) : TbCtx :=
  { c.latch tag d dc with tbCrcOk := false, fsm := .collecting }

theorem tbConfigure_of_idle {s : State} {t b : Nat} {x : Bundle} {c : TbCtx} {h : Harq} (disposed : s.undisposed t = false)
    (hx : s.bundles[b]? = some x) (hc : s.tbs[t]? = some c) (idle : c.fsm = .idle)
    (hh : s.harq[harqHandle x.d]? = some h) (unlocked : h.hstate ≠ .locked) :
    tbConfigure t b s = .ok { s.record (.tbConfigure (BitVec.ofNat 8 t)) with
      tbs := s.tbs.set t (c.configured x.tag x.d s.decCfg)
      harq := s.harq.set (harqHandle x.d)
        (h.lease (geometry (tbSize x.d) (baseGraph x.d) (lbrmEn x.d) (nref x.d)) (newData x.d)) } := by
  obtain ⟨r, hr⟩ : ∃ r, r = s.record (.tbConfigure (BitVec.ofNat 8 t)) := ⟨_, rfl⟩
  obtain ⟨c', hc'⟩ : ∃ c', c' = c.latch x.tag x.d s.decCfg := ⟨_, rfl⟩
  have latched : r.modTb t (fun c => c.latch x.tag x.d r.decCfg) = { r with tbs := s.tbs.set t c' } := by
    subst hr hc'; exact modTb_eq_set (s := s.record _) _ hc
  have leased : harqLease t { r with tbs := s.tbs.set t c' } = .ok { r with
      tbs := s.tbs.set t c'
      harq := s.harq.set (harqHandle x.d)
        (h.lease (geometry (tbSize x.d) (baseGraph x.d) (lbrmEn x.d) (nref x.d)) (newData x.d)) } := by
    subst hr hc'
    refine harqLease_eq_ok.2 ⟨_, h, getElem?_set_found _ hc, hh, unlocked, ?_⟩
    simp only [State.modHarq, State.record_harq, modify_set _ hh, TbCtx.latch, TbCtx.geometry]
  simp only [tbConfigure, ← hr]
  refine bind_eq_ok.2 ⟨c, getTb_eq_ok.2 (by rw [hr]; exact hc), bind_eq_ok.2 ⟨(), check_pos idle, ?_⟩⟩
  refine bind_eq_ok.2 ⟨r, assertDisposed_eq_ok.2 ⟨by rw [hr]; exact disposed, rfl⟩, ?_⟩
  refine bind_eq_ok.2 ⟨x, getBundle_eq_ok.2 (by rw [hr]; exact hx), ?_⟩
  rw [latched, leased, ok_bind]
  simp only [State.modTb, set_modify, hc']
  rfl

/-! ### PROCESS_PDU (R420) -/

theorem firstIdleTb_idle {s : State} {t : Nat} {c : TbCtx} (ht : s.firstIdleTb = some t) (hc : s.tbs[t]? = some c) :
    c.fsm = .idle := by
  obtain ⟨inside, idle, -⟩ := List.findIdx?_eq_some_iff_getElem.1 ht
  obtain ⟨_, rfl⟩ := List.getElem?_eq_some_iff.1 hc
  simpa using idle

theorem processPdu_accepted {s : State} {tag : BitVec 8} {b t : Nat} {x : Bundle} {c : TbCtx} {h : Harq} (he : s.Exclusive)
    (valid : firstFailing (validateChecks s tag s.desc) = none) (hb : s.firstFreeBundle = some b)
    (ht : s.firstIdleTb = some t) (hx : s.bundles[b]? = some x) (hc : s.tbs[t]? = some c)
    (hh : s.harq[harqHandle s.desc]? = some h) (unlocked : h.hstate ≠ .locked) (closed : x.Closed)
    (schClosed : c.sch.isOpen = false) :
    processPdu tag s = .ok { (s.record (.processPdu tag)).record (.tbConfigure (BitVec.ofNat 8 t)) with
      bundles := s.bundles.set b { (x.latch tag t s.desc s.gridNo).opened s.desc with phase := .chest }
      tbs := s.tbs.set t (({ c with sch := .opened .real } : TbCtx).configured tag s.desc s.decCfg)
      harq := s.harq.set (harqHandle s.desc)
        (h.lease (geometry (tbSize s.desc) (baseGraph s.desc) (lbrmEn s.desc) (nref s.desc)) (newData s.desc))
      windows := s.windows ++ [⟨tag, tbDest s.desc, tbSize s.desc / 8, false, [], []⟩]
      gridNo := s.gridNo + 1 } := by
  obtain ⟨y, hy⟩ : ∃ y, y = x.latch tag t s.desc s.gridNo := ⟨_, rfl⟩
  obtain ⟨s2, hs2⟩ : ∃ s2 : State, s2 = { s.record (.processPdu tag) with
    bundles := s.bundles.set b y
    windows := s.windows ++ [⟨tag, tbDest s.desc, tbSize s.desc / 8, false, [], []⟩]
    gridNo := s.gridNo + 1 } := ⟨_, rfl⟩
  have latched : ((s.record (.processPdu tag)).modBundle b fun x => x.latch tag t s.desc s.gridNo).acceptPdu tag s.desc = s2 := by
    rw [modBundle_eq_set (s := s.record (.processPdu tag)) _ hx, hs2, hy]
    rfl
  have hx2 : s2.bundles[b]? = some y := by rw [hs2]; exact getElem?_set_found y hx
  have hc2 : s2.tbs[t]? = some c := by rw [hs2]; exact hc
  have closed2 : y.Closed := by rw [hy]; exact ⟨closed.demuxIn, closed.ack, closed.csi1, closed.csi2⟩
  have opened := openPorts_of_closed hx2 hc2 closed2 schClosed s.desc
  have same : s.Locks s2 := by rw [hs2]; exact locks_of_eq rfl rfl
  have idle : ({ c with sch := .opened .real } : TbCtx).fsm = .idle := (firstIdleTb_idle ht hc :)
  have configured := tbConfigure_of_idle (undisposed_false ((same.trans (openPorts_locks opened)) he))
    (getElem?_set_found (y.opened s.desc) hx2) (getElem?_set_found { c with sch := .opened .real } hc2) idle (h := h)
    (by rw [hs2, hy]; exact hh) unlocked
  have checked : checkAll (validateChecks (s.record (.processPdu tag)) tag (s.record (.processPdu tag)).desc) = .ok () :=
    checkAll_eq_ok.2 valid
  have bundle : (s.record (.processPdu tag)).firstFreeBundle = some b := hb
  have context : (s.record (.processPdu tag)).firstIdleTb = some t := ht
  have handle : (s.record (.processPdu tag)).getHarq (harqHandle (s.record (.processPdu tag)).desc) = .ok h :=
    getHarq_eq_ok.2 hh
  simp only [processPdu, checked, ok_bind, bundle, context, handle, check_pos unlocked]
  refine bind_eq_ok.2 ⟨_, (congrArg (openPorts b t s.desc) latched).trans opened, bind_eq_ok.2 ⟨_, configured, ?_⟩⟩
  simp only [State.modBundle, hs2, hy, State.record_bundles, List.set_set, set_modify]
  rfl

/-- Settles O31: the three parts of an accepted PROCESS_PDU (latch, ports, TB_CONFIGURE) each have one whole next state. -/
theorem processPduAccepts : Obligations.ProcessPduAccepts := by
  intro s tag b t x c h running he valid hb ht hx hc hh unlocked closedIn closedAck closedCsi1 closedCsi2 schClosed
  have accepted := processPdu_accepted he valid hb ht hx hc hh unlocked ⟨closedIn, closedAck, closedCsi1, closedCsi2⟩ schClosed
  exact ⟨_, runOp_ok running accepted, rfl, rfl, rfl, rfl, rfl, rfl⟩

end Sys2Proof.Machine
end

section
/-!
PROOFS. Rate dematching keeps soft bits in range (spec/20_memory.md R106, spec/42_cb_decoder.md R292, R293).
-/

namespace Sys2Proof.Machine

/-- A soft bit within ±LLR_MAX (R106). -/
def LlrInRange (p : Params) (v : Llr) : Prop := -(p.llrMax : Int) ≤ v.toInt ∧ v.toInt ≤ (p.llrMax : Int)

/-- A small integer as a soft bit is that integer. -/
theorem toInt_ofInt_of_small {i : Int} (low : -128 ≤ i) (high : i < 128) : (BitVec.ofInt 8 i).toInt = i :=
  BitVec.toInt_ofInt_eq_self (by decide) (by omega) (by omega)

section
variable {p : Params} (legal : p.legal = true)
include legal

/-- LLR_FILLER is a soft bit (R8). -/
theorem filler_toInt : (BitVec.ofInt 8 p.llrFiller).toInt = p.llrFiller := by
  obtain ⟨low, high⟩ := (fits_of_legal legal).llrFiller
  exact toInt_ofInt_of_small low high

/-- Saturation keeps a soft bit in range (R14). -/
theorem sat_inRange (v : Int) : LlrInRange p (sat p v) := by
  have small := (fits_of_legal legal).llrMax
  rw [LlrInRange, sat, toInt_ofInt_of_small (by omega) (by omega)]
  omega

end

/-- From `buf` to `out`: as long, and in range wherever `buf` is. -/
structure StaysInRange (p : Params) (buf out : List Llr) : Prop where
  length : out.length = buf.length
  inRange : ∀ (m : Nat) (y v : Llr), buf[m]? = some y → out[m]? = some v → LlrInRange p y → LlrInRange p v

theorem StaysInRange.refl (p : Params) (buf : List Llr) : StaysInRange p buf buf :=
  ⟨rfl, fun m y v hy hv h => by rwa [← Option.some.inj (hy.symm.trans hv)]⟩

/-- One combine saturates the soft bit it adds to, and leaves every other one (R292). -/
theorem combineAt_staysInRange {p : Params} (legal : p.legal = true) {buf b : List Llr} (h : StaysInRange p buf b) (m : Nat)
    (x : Llr) : StaysInRange p buf (combineAt p b m x) := by
  refine ⟨by rw [combineAt, List.length_modify, h.length], fun k y v hy hv hr => ?_⟩
  rw [combineAt, List.getElem?_modify] at hv
  by_cases here : m = k
  · obtain ⟨w, -, rfl⟩ : ∃ w, b[k]? = some w ∧ sat p (w.toInt + x.toInt) = v := by simpa [here] using hv
    exact sat_inRange legal _
  · exact h.inRange k y v hy (by simpa [here] using hv) hr

theorem dematchCombine_staysInRange {p : Params} (legal : p.legal = true) (seg : Seg) (buf e : List Llr) :
    StaysInRange p buf (dematchCombine p seg buf e) := by
  unfold dematchCombine
  refine List.foldlRecOn (motive := StaysInRange p buf) _ _ (.refl p buf) fun b h xk _ => ?_
  split
  · exact combineAt_staysInRange legal h _ _
  · exact h

/-- The filler positions of R290, without truncated subtraction. -/
theorem isFiller_iff (seg : Seg) (m : Nat) :
    isFiller seg m = true ↔ seg.kPrime ≤ m + 2 * seg.zc ∧ m + 2 * seg.zc < seg.k := by
  rw [isFiller, decide_eq_true_eq]
  omega

theorem fillFillers_getElem? (p : Params) (seg : Seg) (buf : List Llr) (m : Nat) :
    (fillFillers p seg buf)[m]? =
      buf[m]?.map fun x => if isFiller seg m then BitVec.ofInt 8 p.llrFiller else x := List.getElem?_mapIdx

/-- Settles O41: every combine saturates, and the fillers are written over what is combined. -/
theorem rateDematchKeepsRange : Obligations.RateDematchKeepsRange := by
  intro p seg qm isNew buf f legal out
  obtain ⟨start, hs⟩ : ∃ start, start = if isNew then buf.map (fun _ => 0#8) else buf := ⟨_, rfl⟩
  have combined := dematchCombine_staysInRange legal seg start (deinterleave qm f)
  have hout : out = fillFillers p seg (dematchCombine p seg start (deinterleave qm f)) := by rw [hs]; rfl
  have startLength : start.length = buf.length := by rw [hs]; split <;> simp
  refine ⟨by rw [hout, fillFillers, List.length_mapIdx, combined.length, startLength], fun m v y hv hy => ?_⟩
  rw [hout, fillFillers_getElem?] at hv
  obtain ⟨x, hx, rfl⟩ := Option.map_eq_some_iff.1 hv
  rw [← isFiller_iff]
  refine ⟨fun filler => by rw [if_pos filler, filler_toInt legal], fun other hr => ?_⟩
  rw [if_neg other]
  have zeroInRange : LlrInRange p 0#8 := ⟨by simp, by simp⟩
  cases isNew with
  | true => exact combined.inRange m 0#8 x (by rw [hs, if_pos rfl, List.getElem?_map, hy]; rfl) hx zeroInRange
  | false => exact combined.inRange m y x (by rw [hs]; exact hy) hx (hr.resolve_left (by simp))

end Sys2Proof.Machine
end

section
/-!
PROOFS. END_STATS and SEQ_END (spec/44_demod.md R396; spec/45_sequencer.md R433; spec/41_demux.md R252).
-/

namespace Sys2Proof.Machine

/-! ### END_STATS (R396) -/

/-- The END_STATS record, written out (R396). -/
theorem endStatsRecord_eq (x : Bundle) :
    endStatsRecord x = [0x02#8 ++ x.tag ++ 3#16, if 0 < x.nvCnt then 0x100#32 else 0#32,
      if 0 < x.nvCnt then sinrMean x.nvSum x.nvCnt else 0#32, realWord (Config.evmEnd x.evmAcc)] := by
  by_cases finite : 0 < x.nvCnt <;> simp only [endStatsRecord, sinrOf, finite, if_true, if_false] <;> rfl

theorem endStats_of_room {s : State} {b : Nat} {x : Bundle} (hx : s.bundles[b]? = some x)
    (room : s.evq.length + 4 ≤ s.params.evqDepth) :
    endStats b s = .ok { s.record (.endStats (BitVec.ofNat 8 b)) with evq := s.evq ++ endStatsRecord x } := by
  have bundle : (s.record (.endStats (BitVec.ofNat 8 b))).getBundle b = .ok x := getBundle_eq_ok.2 hx
  simp only [endStats, bundle, ok_bind]
  exact emit_eq_ok.2 ⟨room, rfl⟩

theorem endStats_hold {s : State} {b : Nat} {x : Bundle} (hx : s.bundles[b]? = some x)
    (full : s.params.evqDepth < s.evq.length + 4) : endStats b s = .error .hold := by
  have bundle : (s.record (.endStats (BitVec.ofNat 8 b))).getBundle b = .ok x := getBundle_eq_ok.2 hx
  simp only [endStats, bundle, ok_bind]
  exact emit_hold full

/-- Settles O46: the operation is one `emit` of the record, whose four words are written out. -/
theorem endStatsResult : Obligations.EndStatsResult := by
  intro s b x running hx
  refine ⟨fun room => ?_, fun full => runOp_hold running (endStats_hold hx full)⟩
  have done := endStats_of_room hx room
  rw [ofNat_toNat_self, endStatsRecord_eq] at done
  exact runOp_ok running done

/-! ### DEMUX_FLUSH where the fields decode nothing and the task queue takes the tasks (R252, R336) -/

/-- Closing a field whose close decodes nothing changes its port alone, besides the trace (R206, R252). -/
theorem flushField_of_quiet {s : State} {b : Nat} {x : Bundle} {f : UciField} (hx : s.bundles[b]? = some x)
    (quiet : (x.uci f).quiet) :
    ∃ ws, flushField b f s = .ok { s.log ws with bundles := s.bundles.set b (x.modUci f FieldUnit.shut) } := by
  have hp : s.port? (.uci f b) = some (x.uci f).port := by simp [State.port?, hx]
  by_cases opened : (x.uci f).port.isOpen = true
  case pos =>
    refine ⟨traceWords (.close (PortRef.uci f b).id (PortRef.uci f b).owner), ?_⟩
    refine bind_eq_ok.2 ⟨_, getPort_eq_ok.2 hp, ?_⟩
    rw [if_pos opened]
    refine closeWith_eq_ok.2 ⟨(x.uci f).port, (record_port? _ _ _).trans hp, opened, whenReal_eq_ok.2 (.inl ⟨quiet opened, ?_⟩)⟩
    have shut : (x.uci f).shut = { x.uci f with port := { (x.uci f).port with isOpen := false, viewLen := 0 } } := if_pos opened
    simp only [State.modPort, modBundle_eq_set (s := s.record _) _ hx]
    cases f <;> simp only [Bundle.modUci, Bundle.uci] at shut ⊢ <;> rw [shut] <;> rfl
  case neg =>
    refine ⟨[], bind_eq_ok.2 ⟨_, getPort_eq_ok.2 hp, ?_⟩⟩
    have same : x.modUci f FieldUnit.shut = x := by
      have shut : (x.uci f).shut = x.uci f := if_neg opened
      cases f <;> simp only [Bundle.modUci, Bundle.uci] at shut ⊢ <;> rw [shut]
    rw [if_neg opened, same, set_self hx, State.log, List.append_nil]

/-- Where the task queue has the room, CLOSE_DISPATCH queues every task (R336). -/
theorem dispatchAll_queued {t c : Nat} {rs : List Nat} {s : State} {x : TbCtx} {h : Harq} (hx : s.tbs[t]? = some x)
    (hh : s.harq[x.handle]? = some h) (buffers : ∀ r ∈ rs, r < h.cbs.length) (engines : 1 ≤ s.params.nCbe) (several : 1 < c)
    (room : s.taskq.length + rs.length ≤ s.params.taskqDepth) :
    ∃ tasks, dispatchAll t c rs s = .ok { s with taskq := s.taskq ++ tasks } := by
  induction rs generalizing s with
  | nil => exact ⟨[], by rw [List.append_nil]; rfl⟩
  | cons r rs ih =>
    rw [List.length_cons] at room
    obtain ⟨cb, hcb⟩ : ∃ cb, h.cbs[r]? = some cb := ⟨_, List.getElem?_eq_getElem (buffers r List.mem_cons_self)⟩
    have queues : s.queues c = true := by
      simp only [State.queues, engines, several, decide_true, Bool.true_and, decide_eq_true_eq]
      omega
    obtain ⟨task, ht⟩ : ∃ task, dispatchCb t c r s = .ok { s with taskq := s.taskq ++ [task] } :=
      ⟨_, bind_eq_ok.2 ⟨x, getTb_eq_ok.2 hx, bind_eq_ok.2 ⟨h, getHarq_eq_ok.2 hh, bind_eq_ok.2 ⟨cb, need_eq_ok.2 hcb,
        if_pos queues⟩⟩⟩⟩
    obtain ⟨tasks, hts⟩ := ih (s := { s with taskq := s.taskq ++ [task] }) hx hh
      (fun r' hr => buffers r' (List.mem_cons_of_mem _ hr)) engines
      (show (s.taskq ++ [task]).length + rs.length ≤ s.params.taskqDepth by rw [List.length_append, List.length_singleton]; omega)
    refine ⟨task :: tasks, bind_eq_ok.2 ⟨_, ht, ?_⟩⟩
    rw [hts, List.append_assoc]
    rfl

/-- A dispatchable context: only TB contexts, the task queue and the trace change (R336). -/
theorem closeDispatch_of_dispatchable {s : State} {t : Nat} (h : s.dispatchable t) :
    ∃ ws tbs tasks, closeDispatch t s = .ok { s.log ws with tbs := tbs, taskq := tasks } := by
  obtain ⟨x, y, hx, hy, collecting, complete, engines, several, buffers, room⟩ := h
  have inside : ∀ r ∈ List.range x.start.seg.c, r < y.cbs.length := fun r hr => (List.mem_range.1 hr).trans_le buffers
  obtain ⟨tasks, queued⟩ := dispatchAll_queued (s := (s.record (.closeDispatch (BitVec.ofNat 8 t))).modTb t TbCtx.start)
    (getElem?_modify_self TbCtx.start hx) hy inside engines several (by rw [List.length_range]; exact room)
  exact ⟨_, _, _, bind_eq_ok.2 ⟨x, getTb_eq_ok.2 hx, bind_eq_ok.2 ⟨(), check_pos collecting,
    bind_eq_ok.2 ⟨(), check_pos complete, queued⟩⟩⟩⟩

theorem decline_shut (x : Bundle) :
    (((x.modUci .ack FieldUnit.shut).modUci .csi1 FieldUnit.shut).modUci .csi2 FieldUnit.shut).decline = x.flushed := by
  unfold Bundle.decline Bundle.flushed
  split <;> rename_i pending <;> simp only [Bundle.modUci] at pending ⊢
  · rw [if_pos pending]
  · rw [if_neg pending]

/-- The three field closes of DEMUX_FLUSH, where none of them decodes anything (R252). -/
theorem flushFields_of_quiet {s : State} {b : Nat} {x : Bundle} (hx : s.bundles[b]? = some x)
    (ack : x.ack.quiet) (csi1 : x.csi1.quiet) (csi2 : x.csi2.quiet) :
    ∃ s1 s2 y ws, y.decline = x.flushed ∧ flushField b .ack s = .ok s1 ∧ flushField b .csi1 s1 = .ok s2 ∧
      flushField b .csi2 s2 = .ok { s.log ws with bundles := s.bundles.set b y } := by
  obtain ⟨w1, h1⟩ := flushField_of_quiet (f := .ack) hx ack
  obtain ⟨w2, h2⟩ := flushField_of_quiet (b := b) (f := .csi1)
    (s := { s.log w1 with bundles := s.bundles.set b (x.modUci .ack FieldUnit.shut) }) (getElem?_set_found _ hx) csi1
  obtain ⟨w3, h3⟩ := flushField_of_quiet (b := b) (f := .csi2)
    (s := { s.log (w1 ++ w2) with bundles := s.bundles.set b ((x.modUci .ack FieldUnit.shut).modUci .csi1 FieldUnit.shut) })
    (getElem?_set_found _ hx) csi2
  refine ⟨_, { s.log (w1 ++ w2) with bundles := s.bundles.set b ((x.modUci .ack FieldUnit.shut).modUci .csi1 FieldUnit.shut) },
    _, w1 ++ w2 ++ w3, decline_shut x, h1, h2.trans ?_, h3.trans ?_⟩
  · simp only [State.log, List.set_set, List.append_assoc]
  · simp only [State.log, List.set_set, List.append_assoc]

/-- The flush's close of an OPEN, REAL SCH port of a context that can dispatch: no bundle changes (R204, R336). -/
theorem issueClose_sch_of_dispatchable {s : State} {t : Nat} {c : TbCtx} (hc : s.tbs[t]? = some c)
    (opened : c.sch.isOpen = true) (real : c.sch.bound = .real) (h : s.dispatchable t) :
    ∃ ws tbs tasks, issueClose consumeFlush (.sch t) s = .ok { s.log ws with tbs := tbs, taskq := tasks } := by
  have closed : (s.record (.close (PortRef.sch t).id (PortRef.sch t).owner)).modPort (.sch t)
      (fun q => { q with isOpen := false, viewLen := 0 }) =
      { s.record (.close (PortRef.sch t).id (PortRef.sch t).owner) with
        tbs := s.tbs.set t { c with sch := { c.sch with isOpen := false, viewLen := 0 } } } := modTb_eq_set _ hc
  have still : State.dispatchable { s.record (.close (PortRef.sch t).id (PortRef.sch t).owner) with
      tbs := s.tbs.set t { c with sch := { c.sch with isOpen := false, viewLen := 0 } } } t := by
    obtain ⟨x, y, hx, rest⟩ := h
    obtain rfl := Option.some.inj (hx.symm.trans hc)
    exact ⟨_, y, getElem?_set_found _ hc, rest⟩
  obtain ⟨ws, tbs, tasks, done⟩ := closeDispatch_of_dispatchable still
  refine ⟨traceWords (.close (PortRef.sch t).id (PortRef.sch t).owner) ++ ws, tbs, tasks, ?_⟩
  refine closeWith_eq_ok.2 ⟨c.sch, by simp [State.port?, hc], opened, whenReal_eq_ok.2 (.inr ⟨real, ?_⟩)⟩
  rw [closed]
  refine done.trans ?_
  simp only [State.log, State.record, List.append_assoc]

/-- DEMUX_FLUSH of a bundle whose fields decode nothing and whose context can dispatch. -/
theorem demuxFlush_of_dispatchable {s : State} {b : Nat} {x : Bundle} {c : TbCtx} (hx : s.bundles[b]? = some x)
    (hc : s.tbs[x.tbx]? = some c) (complete : x.dm.symCnt = 0) (ack : x.ack.quiet) (csi1 : x.csi1.quiet) (csi2 : x.csi2.quiet)
    (opened : c.sch.isOpen = true) (real : c.sch.bound = .real) (h : s.dispatchable x.tbx) :
    ∃ u, demuxFlush b s = .ok u ∧ u.bundles = s.bundles.set b x.flushed ∧ u.evq = s.evq := by
  obtain ⟨s1, s2, y, ws, declined, h1, h2, h3⟩ := flushFields_of_quiet (s := s.record (.demuxFlush (BitVec.ofNat 8 b))) hx ack csi1 csi2
  obtain ⟨ws', tbs, tasks, closed⟩ := issueClose_sch_of_dispatchable (t := x.tbx)
    (s := { (s.record (.demuxFlush (BitVec.ofNat 8 b))).log ws with bundles := s.bundles.set b x.flushed }) hc opened real h
  refine ⟨{ (s.record (.demuxFlush (BitVec.ofNat 8 b))).log (ws ++ ws') with
    bundles := s.bundles.set b x.flushed, tbs := tbs, taskq := tasks }, ?_, rfl, rfl⟩
  refine bind_eq_ok.2 ⟨x, getBundle_eq_ok.2 hx, bind_eq_ok.2 ⟨(), check_pos complete, bind_eq_ok.2 ⟨s1, h1,
    bind_eq_ok.2 ⟨s2, h2, bind_eq_ok.2 ⟨_, h3, ?_⟩⟩⟩⟩⟩
  rw [State.modBundle, set_modify, declined]
  refine closed.trans ?_
  simp only [State.log, List.append_assoc]

/-! ### SEQ_END (R433) -/

/-- The state in which SEQ_END flushes the demultiplexer: END_STATS emitted and DEMUX_IN closed. -/
def State.streamEnded (s : State) (b : BitVec 8) (x : Bundle) : State :=
  { s with
    trace := s.trace ++ encode (.seqEnd b) ++ encode (.endStats b) ++ encode (.close 0#4 b)
    evq := s.evq ++ endStatsRecord x
    bundles := s.bundles.set b.toNat { x with demuxIn := { x.demuxIn with isOpen := false, viewLen := 0 } } }

/-- SEQ_END after the flush: the UCI_RESULT record, and phase COMMIT. -/
def reportUci (b : Nat) : Op := fun s => do
  let x ← s.getBundle b
  let s ← emit x.uciResult s
  .ok (s.modBundle b (fun x => { x with phase := .commit }))

theorem reportUci_of_room {s : State} {b : Nat} {x : Bundle} (hx : s.bundles[b]? = some x)
    (room : s.evq.length + x.uciResult.length ≤ s.params.evqDepth) :
    reportUci b s = .ok { s with evq := s.evq ++ x.uciResult, bundles := s.bundles.set b { x with phase := .commit } } :=
  bind_eq_ok.2 ⟨x, getBundle_eq_ok.2 hx, bind_eq_ok.2 ⟨_, emit_eq_ok.2 ⟨room, rfl⟩,
    congrArg Except.ok (modBundle_eq_set (s := { s with evq := s.evq ++ x.uciResult }) _ hx)⟩⟩

theorem reportUci_hold {s : State} {b : Nat} {x : Bundle} (hx : s.bundles[b]? = some x)
    (full : s.params.evqDepth < s.evq.length + x.uciResult.length) : reportUci b s = .error .hold := by
  simp only [reportUci, getBundle_eq_ok.2 hx, ok_bind, emit_hold full, error_bind]

/-- Closing an OPEN, REAL DEMUX_IN flushes the demultiplexer (R204, R209). -/
theorem issueClose_demuxIn {s : State} {b : BitVec 8} {x : Bundle} (hx : s.bundles[b.toNat]? = some x)
    (opened : x.demuxIn.isOpen = true) (real : x.demuxIn.bound = .real) :
    issueClose consumeCloseAll (.demuxIn b.toNat) s = demuxFlush b.toNat { s.record (.close 0#4 b) with
      bundles := s.bundles.set b.toNat { x with demuxIn := { x.demuxIn with isOpen := false, viewLen := 0 } } } := by
  have port : s.port? (.demuxIn b.toNat) = some x.demuxIn := by simp [State.port?, hx]
  simp only [issueClose, closeWith, getPort_eq_ok.2 ((record_port? _ _ _).trans port), ok_bind, check_pos opened, whenReal, real,
    reduceCtorEq, if_false, consumeCloseAll, State.modPort, modBundle_eq_set (s := s.record _) _ hx, PortRef.id, PortRef.owner,
    ofNat_toNat_self, State.record_bundles]

/-- SEQ_END in phase END with room for END_STATS and DEMUX_IN open: the flush, then the report. -/
theorem seqEndOp_eq {s : State} {b : BitVec 8} {x : Bundle} (hx : s.bundles[b.toNat]? = some x) (phase : x.phase = .endPdu)
    (room : s.evq.length + 4 ≤ s.params.evqDepth) (opened : x.demuxIn.isOpen = true) (real : x.demuxIn.bound = .real) :
    seqEndOp b.toNat s = (demuxFlush b.toNat (s.streamEnded b x)).bind (reportUci b.toNat) := by
  have bundle : (s.record (.seqEnd b)).getBundle b.toNat = .ok x := getBundle_eq_ok.2 hx
  obtain ⟨e, he, stats⟩ : ∃ e, e = { (s.record (.seqEnd b)).record (.endStats b) with evq := s.evq ++ endStatsRecord x } ∧
      endStats b.toNat (s.record (.seqEnd b)) = .ok e :=
    ⟨_, rfl, (endStats_of_room (s := s.record (.seqEnd b)) hx room).trans (by rw [ofNat_toNat_self]; rfl)⟩
  have hex : e.bundles[b.toNat]? = some x := by rw [he]; exact hx
  simp only [seqEndOp, ofNat_toNat_self, bundle, ok_bind, check_pos phase, stats, issueClose_demuxIn hex opened real]
  rw [he]
  rfl

theorem seqEndOp_hold_of_phase {s : State} {b : Nat} {x : Bundle} (hx : s.bundles[b]? = some x) (other : x.phase ≠ .endPdu) :
    seqEndOp b s = .error .hold := by
  have bundle : (s.record (.seqEnd (BitVec.ofNat 8 b))).getBundle b = .ok x := getBundle_eq_ok.2 hx
  simp only [seqEndOp, bundle, ok_bind, check_neg other, error_bind]

theorem seqEndOp_hold_of_full {s : State} {b : Nat} {x : Bundle} (hx : s.bundles[b]? = some x) (phase : x.phase = .endPdu)
    (full : s.params.evqDepth < s.evq.length + 4) : seqEndOp b s = .error .hold := by
  have bundle : (s.record (.seqEnd (BitVec.ofNat 8 b))).getBundle b = .ok x := getBundle_eq_ok.2 hx
  have stats : endStats b (s.record (.seqEnd (BitVec.ofNat 8 b))) = .error .hold := endStats_hold hx full
  simp only [seqEndOp, bundle, ok_bind, check_pos phase, stats, error_bind]

theorem FieldUnit.shut_status (u : FieldUnit) : u.shut.status = u.status := by unfold FieldUnit.shut; split <;> rfl

theorem FieldUnit.shut_reported (u : FieldUnit) : u.shut.reported = u.reported := by unfold FieldUnit.shut; split <;> rfl

/-- A flush whose field ports decode nothing leaves the record as it was (R437). -/
theorem uciResult_flushed (x : Bundle) : x.flushed.uciResult = x.uciResult := by
  simp only [Bundle.uciResult, Bundle.flushed, FieldUnit.shut_status, FieldUnit.shut_reported]

/-- Settles O55: `seqEndOp_eq` reduces SEQ_END to the flush of `s1` and the report that follows it; a flush whose fields decode
nothing and whose tasks are queued touches neither the event FIFO nor the fields' results. -/
theorem seqEndResult : Obligations.SeqEndResult := by
  intro s b x running hx s1 ended
  have written : s.streamEnded b x = s1 := by rw [State.streamEnded, endStatsRecord_eq]
  refine ⟨fun other => runOp_hold running (seqEndOp_hold_of_phase hx other),
    fun phase full => runOp_hold running (seqEndOp_hold_of_full hx phase full), fun phase room opened real => ?_⟩
  have op := seqEndOp_eq hx phase room opened real
  rw [written] at op
  refine ⟨fun u y flush unheld unfatal hy => ?_, fun c hc _ complete ack csi1 csi2 schOpen schReal dispatchable room' => ?_⟩
  · have flushed : demuxFlush b.toNat s1 = .ok u := (demuxFlush_quiet _ _).completed flush unheld unfatal
    have params : u.params = s.params := (demuxFlush_keeps flushed).params
    rw [flushed] at op
    exact ⟨fun fits => runOp_ok running (op.trans (reportUci_of_room hy (params ▸ fits))),
      fun full => runOp_hold running (op.trans (reportUci_hold hy (params ▸ full)))⟩
  · obtain ⟨u, flushed, bundles, evq⟩ := demuxFlush_of_dispatchable (s := s1) (getElem?_set_found _ hx) hc complete ack csi1 csi2
      schOpen schReal dispatchable
    refine ⟨u, runOp_ok running flushed, ?_⟩
    refine runOp_ok running ?_
    have left : u.bundles[b.toNat]? = some { x.flushed with demuxIn := { x.demuxIn with isOpen := false, viewLen := 0 } } := by
      rw [bundles]
      exact getElem?_set_found _ (getElem?_set_found _ hx)
    have fits : u.evq.length + x.flushed.uciResult.length ≤ u.params.evqDepth := by
      rw [evq, uciResult_flushed, (demuxFlush_keeps flushed).params, ← written]
      show (s.evq ++ endStatsRecord x).length + x.uciResult.length ≤ s.params.evqDepth
      rw [List.length_append]
      exact room'
    rw [op, flushed]
    exact reportUci_of_room left fits

end Sys2Proof.Machine
end

section
/-!
PROOFS. TB_JOIN (spec/43_tb_decoder.md R346, R347, R350; spec/30_encoding.md R164; spec/20_memory.md R114).
-/

namespace Sys2Proof.Machine

/-! ### The bits of a byte of the transport block (R104) -/

theorem bitsToNat_concat (bits : List Bool) (b : Bool) : bitsToNat (bits ++ [b]) = 2 * bitsToNat bits + b.toNat := by
  simp [bitsToNat]

/-- Bit `i` of the number is the `i`-th bit of the list from its end. -/
theorem bitsToNat_testBit (bits : List Bool) (i : Nat) : (bitsToNat bits).testBit i = bits.reverse.getD i false := by
  induction bits using List.reverseRecOn generalizing i with
  | nil => simp [bitsToNat]
  | append_singleton bits b ih =>
    rw [bitsToNat_concat, List.reverse_append]
    cases i with
    | zero => cases b <;> simp
    | succ i =>
      have half : (2 * bitsToNat bits + b.toNat) / 2 = bitsToNat bits := by cases b <;> simp [Bool.toNat] ; omega
      rw [Nat.testBit_succ, half, ih]
      rfl

theorem payloadByte_getLsbD (bits : List Bool) (k : Nat) {j : Nat} (hj : j < 8) :
    (payloadByte bits k).getLsbD (7 - j) = bits.getD (8 * k + j) false := by
  have inside : 7 - j < 8 := by omega
  have mirrored : 8 - 1 - (7 - j) = j := by omega
  rw [payloadByte, BitVec.getLsbD_ofNat, bitsToNat_testBit, List.getD_eq_getElem?_getD, List.getElem?_reverse (by simpa using inside)]
  simp [mirrored, hj, inside]

/-- The bytes of a transport block of `a` bits show the bits it was cut from (R350). -/
theorem payloadByte_take {bits : List Bool} {a k j : Nat} (hk : k < a / 8) (hj : j < 8) :
    (payloadByte (bits.take a) k).getLsbD (7 - j) = bits.getD (8 * k + j) false := by
  rw [payloadByte_getLsbD _ _ hj, List.getD_eq_getElem?_getD, List.getElem?_take_of_lt (by omega), List.getD_eq_getElem?_getD]

/-! ### The combine policy (R347) -/

/-- The bits that a join of `c` codeblocks of `kp` bits puts together. -/
def joinSum (c kp : Nat) (cbs : List CbBuf) : List Bool :=
  if c = 1 then (cbs.map (fun cb => cb.data)).flatten else (cbs.map (fun cb => cb.data.take (kp - 24))).flatten

/-- The transport block is good. -/
def joinOk (c kp : Nat) (cbs : List CbBuf) : Bool :=
  cbs.all (fun cb => cb.crcOk) && (decide (c = 1) || crcPass .crc24a (joinSum c kp cbs))

theorem readBits_of_le {n : Nat} {data : List Bool} (h : n ≤ data.length) : readBits n data = some (data.take n) := if_pos h

theorem allSome_map_some {α β : Type} {f : α → Option β} {g : α → β} {l : List α} (h : ∀ a ∈ l, f a = some (g a)) :
    allSome (l.map f) = some (l.map g) := by
  induction l with
  | nil => rfl
  | cons a l ih =>
    simp only [List.map_cons, h a List.mem_cons_self, allSome, ih fun b hb => h b (List.mem_cons_of_mem _ hb)]

/-- The policy for caches that hold their bits: the verdict, the block's bits, and the flags to reset. -/
theorem joinResult_eq {a c kp : Nat} {cbs : List CbBuf} (count : cbs.length = c)
    (caches : ∀ cb ∈ cbs, kp ≤ cb.data.length) (size : a ≤ if c = 1 then kp else c * (kp - 24)) :
    ∃ j, joinResult a kp cbs = some j ∧ j.ok = joinOk c kp cbs ∧
      j.clearFlags = (cbs.all (fun cb => cb.crcOk) && !joinOk c kp cbs) ∧
      (j.ok = true → j.bits = (joinSum c kp cbs).take a) := by
  by_cases single : c = 1
  case pos =>
    obtain ⟨cb, rfl⟩ := List.length_eq_one_iff.1 (count.trans single)
    have cache : a ≤ cb.data.length := by
      rw [if_pos single] at size
      exact size.trans (caches cb List.mem_cons_self)
    refine ⟨⟨cb.crcOk, cb.data.take a, false⟩, ?_, ?_, ?_, ?_⟩
    · simp only [joinResult, readBits_of_le cache]
    all_goals simp [joinOk, joinSum, single]
  case neg =>
    have several : ∀ cb, cbs ≠ [cb] := by
      rintro cb rfl
      exact single count.symm
    rw [if_neg single] at size
    have parts : allSome (cbs.map fun cb => readBits (kp - 24) cb.data) = some (cbs.map fun cb => cb.data.take (kp - 24)) :=
      allSome_map_some fun cb hcb => readBits_of_le ((Nat.sub_le _ _).trans (caches cb hcb))
    have length : (cbs.map fun cb => cb.data.take (kp - 24)).flatten.length = c * (kp - 24) := by
      have equal : ∀ n ∈ (cbs.map fun cb => cb.data.take (kp - 24)).map List.length, n = kp - 24 := by
        simp only [List.map_map, List.mem_map]
        rintro n ⟨cb, hcb, rfl⟩
        exact List.length_take_of_le ((Nat.sub_le _ _).trans (caches cb hcb))
      rw [List.length_flatten, List.sum_eq_card_nsmul _ _ equal, List.length_map, List.length_map, count, smul_eq_mul]
    have policy : joinResult a kp cbs = if cbs.all (fun cb => cb.crcOk) then
        some ⟨crcPass .crc24a (joinSum c kp cbs), (joinSum c kp cbs).take a, !crcPass .crc24a (joinSum c kp cbs)⟩
        else some ⟨false, [], false⟩ := by
      unfold joinResult
      split
      · exact absurd rfl (several _)
      · simp only [parts, readBits_of_le (length ▸ size), joinSum, if_neg single]
    rw [policy]
    cases good : cbs.all (fun cb => cb.crcOk) with
    | false => exact ⟨_, rfl, by simp [joinOk, good], by simp, by simp⟩
    | true => exact ⟨_, rfl, by simp [joinOk, good, single], by simp [joinOk, good, single], fun _ => rfl⟩

/-! ### The writes of a join (R350) -/

/-- From `s` to `t`, the PDU of window number `own` has written: DMEM, the notes in the other windows and the count of races
may differ. -/
structure State.BlockWritten (own : Option Nat) (s t : State) : Prop where
  frame : ∃ ws m n, t = { s with windows := ws, dmem := m, freeNo := n }
  ranges : t.windows.map (fun w => (w.tag, w.base, w.len)) = s.windows.map (fun w => (w.tag, w.base, w.len))
  own : ∀ o, own = some o → t.windows[o]? = s.windows[o]?

theorem State.BlockWritten.refl (own : Option Nat) (s : State) : State.BlockWritten own s s :=
  ⟨⟨_, _, _, rfl⟩, rfl, fun _ _ => rfl⟩

theorem State.BlockWritten.trans {own : Option Nat} {s t u : State} (h : State.BlockWritten own s t)
    (k : State.BlockWritten own t u) : State.BlockWritten own s u := by
  refine ⟨?_, k.ranges.trans h.ranges, fun o ho => (k.own o ho).trans (h.own o ho)⟩
  obtain ⟨ws, m, n, ht⟩ := h.frame
  obtain ⟨ws', m', n', hu⟩ := k.frame
  exact ⟨ws', m', n', by rw [hu, ht]⟩

theorem State.BlockWritten.contested {own : Option Nat} {s t : State} (h : State.BlockWritten own s t) (a : Nat) :
    t.contested own a = s.contested own a := by
  cases own with
  | none => rfl
  | some o => simp only [State.contested, h.own o rfl]

theorem touch_range (w : Window) (a : Nat) :
    ((w.touch a).tag, (w.touch a).base, (w.touch a).len) = (w.tag, w.base, w.len) := by
  unfold Window.touch
  split <;> rfl

theorem memWrite_windows (s : State) (own : Option Nat) (a : Nat) (v : Byte) :
    (s.memWrite own a v).windows = s.windows.mapIdx (fun i w => if some i = own then w else w.touch a) := by
  unfold State.memWrite
  split <;> rfl

theorem memWrite_blockWritten (s : State) (own : Option Nat) (a : Nat) (v : Byte) :
    State.BlockWritten own s (s.memWrite own a v) := by
  refine ⟨?_, ?_, fun o ho => ?_⟩
  · unfold State.memWrite
    split <;> exact ⟨_, _, _, rfl⟩
  · rw [memWrite_windows]
    apply List.ext_getElem?
    intro i
    simp only [List.getElem?_map, List.getElem?_mapIdx, Option.map_map]
    congr 1
    funext w
    simp only [Function.comp]
    split
    · rfl
    · exact touch_range w a
  · rw [memWrite_windows, List.getElem?_mapIdx]
    simp [ho]

theorem writeTb_succ (own : Option Nat) (dest n : Nat) (bits : List Bool) (s : State) :
    writeTb own dest (n + 1) bits s = (writeTb own dest n bits s).memWrite own (dest + n) (payloadByte bits n) := by
  simp only [writeTb, List.range_succ, List.foldl_append, List.foldl_cons, List.foldl_nil]

theorem writeTb_blockWritten (own : Option Nat) (dest n : Nat) (bits : List Bool) (s : State) :
    State.BlockWritten own s (writeTb own dest n bits s) := by
  induction n with
  | zero => exact .refl own s
  | succ n ih =>
    rw [writeTb_succ]
    exact ih.trans (memWrite_blockWritten _ _ _ _)

/-- A byte of the block stands in DMEM wherever no other writer has raced it (R114, R350). -/
theorem writeTb_read {own : Option Nat} {dest n k : Nat} {bits : List Bool} {s : State} (hk : k < n)
    (clear : s.contested own (dest + k) = false) :
    Memory.read (writeTb own dest n bits s).dmem (dest + k) = some (payloadByte bits k) := by
  induction n with
  | zero => exact absurd hk (Nat.not_lt_zero k)
  | succ n ih =>
    rw [writeTb_succ]
    rcases Nat.lt_succ_iff_lt_or_eq.1 hk with before | rfl
    · rw [memWrite_read_other _ _ _ (by omega), ih before]
    · have still := ((writeTb_blockWritten own dest k bits s).contested (dest + k)).trans clear
      rcases State.memWrite_dmem (writeTb own dest k bits s) own (dest + k) (payloadByte bits k) with written | ⟨raced, -⟩
      · rw [written, Memory.read_write_same]
      · exact absurd (still.symm.trans raced) Bool.false_ne_true

/-! ### The record (R164) -/

theorem minOf_eq (l : List Nat) : minOf l = l.min?.getD 0 := by cases l <;> rfl

theorem maxOf_eq (l : List Nat) : maxOf l = l.max?.getD 0 := by
  cases l with
  | nil => rfl
  | cons a l =>
    rw [maxOf, List.foldl_cons, Nat.zero_max]
    rfl

/-- The SCH_RESULT record, written out (R164). -/
theorem schResult_eq (tag : BitVec 8) (ok : Bool) (c : Nat) (iters : List Nat) :
    schResult tag ok c iters = [0x04#8 ++ tag ++ 3#16, BitVec.ofNat 16 c ++ 0#15 ++ BitVec.ofBool ok,
      BitVec.ofNat 16 iters.length ++ BitVec.ofNat 8 (iters.max?.getD 0) ++ BitVec.ofNat 8 (iters.min?.getD 0),
      BitVec.ofNat 32 iters.sum] := by
  rw [schResult, minOf_eq, maxOf_eq]
  rfl

/-! ### TB_JOIN (R346) -/

/-- The state after the join's writes: the transport block's where it is good, none else (R350). -/
def State.writeBlock (s : State) (x : TbCtx) (j : JoinResult) : State :=
  if j.ok then writeTb (s.joiningWindow x.tag) x.tbDest (x.tbs / 8) j.bits s else s

/-- The bytes that the join wrote (R114; log 12). -/
def JoinResult.block (j : JoinResult) (n : Nat) : List Byte := if j.ok then tbBytes n j.bits else []

theorem writeBlock_blockWritten (s : State) (x : TbCtx) (j : JoinResult) :
    State.BlockWritten (s.joiningWindow x.tag) s (s.writeBlock x j) := by
  unfold State.writeBlock
  split
  · exact writeTb_blockWritten _ _ _ _ _
  · exact .refl _ _

theorem tbJoin_doubleNotify {s : State} {t : Nat} {x : TbCtx} (hx : s.tbs[t]? = some x)
    (undue : x.fsm ≠ .decoding ∧ x.fsm ≠ .decoded ∨ x.counter ≠ 0) : tbJoin t s = .error (.fatal .doubleNotify) := by
  have context : (s.record (.tbJoin (BitVec.ofNat 8 t))).getTb t = .ok x := getTb_eq_ok.2 hx
  have due : ¬ ((x.fsm = .decoding ∨ x.fsm = .decoded) ∧ x.counter = 0) := by tauto
  simp only [tbJoin, context, ok_bind, check_neg due, error_bind]

/-- TB_JOIN up to its record: the checks pass, the block is written and the handle is disposed of. -/
theorem tbJoin_eq {s : State} {t : Nat} {x : TbCtx} {h : Harq} {j : JoinResult} (hx : s.tbs[t]? = some x)
    (due : (x.fsm = .decoding ∨ x.fsm = .decoded) ∧ x.counter = 0) (hh : s.harq[x.handle]? = some h)
    (buffers : x.seg.c ≤ h.cbs.length) (hj : joinResult x.tbs x.seg.kPrime (h.cbs.take x.seg.c) = some j)
    (address : x.tbDest + x.tbs / 8 ≤ 2 ^ 32) :
    tbJoin t s = (emit (schResult x.tag j.ok x.seg.c x.decodedIters)
        (((s.record (.tbJoin (BitVec.ofNat 8 t))).writeBlock x j).modHarq x.handle (fun h => h.dispose j x.seg.c))).bind
      fun u => assertDisposed t ((u.markJoined (s.joiningWindow x.tag) (j.block (x.tbs / 8))).modTb t
        (fun x => { x with tbCrcOk := j.ok, fsm := .idle })) := by
  have context : (s.record (.tbJoin (BitVec.ofNat 8 t))).getTb t = .ok x := getTb_eq_ok.2 hx
  have handle : (s.record (.tbJoin (BitVec.ofNat 8 t))).getHarq x.handle = .ok h := getHarq_eq_ok.2 hh
  have cbs : need (h.codeblocks x.seg.c) Stop.unspecified = .ok (h.cbs.take x.seg.c) := need_eq_ok.2 (if_pos buffers)
  simp only [tbJoin, context, ok_bind, check_pos due, handle, cbs, need_eq_ok.2 hj, check_pos (Or.inr address)]
  rfl

theorem undisposed_of_unlocked {s : State} {t : Nat} {x : TbCtx} {h : Harq} (hx : s.tbs[t]? = some x)
    (hh : s.harq[x.handle]? = some h) (unlocked : h.hstate ≠ .locked) : s.undisposed t = false := by
  simp only [State.undisposed, hx, hh, Option.map_some, Option.some.injEq, unlocked, decide_false, Bool.and_false, Bool.false_and]

theorem modHarq_eq_set {s : State} {n : Nat} {h : Harq} (g : Harq → Harq) (hh : s.harq[n]? = some h) :
    s.modHarq n g = { s with harq := s.harq.set n (g h) } := by
  rw [State.modHarq, modify_set g hh]

theorem markJoined_ranges (s : State) (own : Option Nat) (block : List Byte) :
    (s.markJoined own block).windows.map (fun w => (w.tag, w.base, w.len)) = s.windows.map (fun w => (w.tag, w.base, w.len)) := by
  cases own with
  | none => rfl
  | some i =>
    refine List.ext_getElem? fun k => ?_
    simp only [State.markJoined, List.getElem?_map, List.getElem?_modify]
    cases s.windows[k]? with
    | none => rfl
    | some w => by_cases joining : i = k <;> simp [joining, Window.join]

theorem markJoined_own {s : State} {o : Nat} {w : Window} (block : List Byte) (hw : s.windows[o]? = some w) :
    (s.markJoined (some o) block).windows[o]? = some { w with joined := true, block := block } :=
  getElem?_modify_self (Window.join block) hw

/-- The end of a join: the window is noted, the context becomes IDLE, and its handle has been disposed of (R348). -/
theorem joinEnd_eq {s : State} {t : Nat} {x : TbCtx} {h : Harq} (own : Option Nat) (block : List Byte) (ok : Bool)
    (hx : s.tbs[t]? = some x) (hh : s.harq[x.handle]? = some h) (unlocked : h.hstate ≠ .locked) :
    assertDisposed t ((s.markJoined own block).modTb t (fun x => { x with tbCrcOk := ok, fsm := .idle })) =
      .ok { s with
        windows := (s.markJoined own block).windows
        tbs := s.tbs.set t { x with tbCrcOk := ok, fsm := .idle } } := by
  rw [modTb_eq_set (s := s.markJoined own block) _ hx]
  exact assertDisposed_eq_ok.2 ⟨undisposed_of_unlocked (getElem?_set_found _ hx) hh unlocked, rfl⟩

/-- TB_JOIN with room for its record, where `w` is the state that its writes leave. -/
theorem tbJoin_of_room {s w : State} {t : Nat} {x : TbCtx} {h : Harq} {j : JoinResult} (hx : s.tbs[t]? = some x)
    (due : (x.fsm = .decoding ∨ x.fsm = .decoded) ∧ x.counter = 0) (hh : s.harq[x.handle]? = some h)
    (buffers : x.seg.c ≤ h.cbs.length) (hj : joinResult x.tbs x.seg.kPrime (h.cbs.take x.seg.c) = some j)
    (address : x.tbDest + x.tbs / 8 ≤ 2 ^ 32) (room : s.evq.length + 4 ≤ s.params.evqDepth)
    (hw : (s.record (.tbJoin (BitVec.ofNat 8 t))).writeBlock x j = w) :
    tbJoin t s = .ok { w with
      tbs := s.tbs.set t { x with tbCrcOk := j.ok, fsm := .idle }
      harq := s.harq.set x.handle (h.dispose j x.seg.c)
      evq := s.evq ++ schResult x.tag j.ok x.seg.c x.decodedIters
      windows := (w.markJoined (s.joiningWindow x.tag) (j.block (x.tbs / 8))).windows } := by
  obtain ⟨ws, m, n, frame⟩ := (writeBlock_blockWritten (s.record (.tbJoin (BitVec.ofNat 8 t))) x j).frame
  have fields : w.tbs = s.tbs ∧ w.harq = s.harq ∧ w.evq = s.evq ∧ w.params = s.params := by
    rw [← hw, frame]
    exact ⟨rfl, rfl, rfl, rfl⟩
  obtain ⟨tbs, harq, evq, params⟩ := fields
  rw [tbJoin_eq hx due hh buffers hj address, hw, modHarq_eq_set _ (harq ▸ hh), ← tbs, ← harq, ← evq]
  refine bind_eq_ok.2 ⟨_, emit_eq_ok.2 ⟨by rw [params]; exact evq ▸ room, rfl⟩, ?_⟩
  exact joinEnd_eq (s := { w with
    harq := w.harq.set x.handle (h.dispose j x.seg.c)
    evq := w.evq ++ schResult x.tag j.ok x.seg.c x.decodedIters }) _ _ _ (tbs ▸ hx) (getElem?_set_found _ (harq ▸ hh))
    (Harq.dispose_hstate _ _ _)

theorem tbJoin_hold {s : State} {t : Nat} {x : TbCtx} {h : Harq} {j : JoinResult} (hx : s.tbs[t]? = some x)
    (due : (x.fsm = .decoding ∨ x.fsm = .decoded) ∧ x.counter = 0) (hh : s.harq[x.handle]? = some h)
    (buffers : x.seg.c ≤ h.cbs.length) (hj : joinResult x.tbs x.seg.kPrime (h.cbs.take x.seg.c) = some j)
    (address : x.tbDest + x.tbs / 8 ≤ 2 ^ 32) (full : s.params.evqDepth < s.evq.length + 4) :
    tbJoin t s = .error .hold := by
  obtain ⟨ws, m, n, frame⟩ := (writeBlock_blockWritten (s.record (.tbJoin (BitVec.ofNat 8 t))) x j).frame
  rw [tbJoin_eq hx due hh buffers hj address, frame, emit_hold full]
  rfl

/-- The handle after a join, in the terms of R347: the flags are reset where all are set and the checksum fails. -/
theorem dispose_eq {h : Harq} {j : JoinResult} {c : Nat} {all ok : Bool} (hok : j.ok = ok) (flags : j.clearFlags = (all && !ok)) :
    h.dispose j c = { h with
      hstate := if ok = true then .free else .held
      cbs := h.cbs.mapIdx (fun r cb => if r < c ∧ all = true ∧ ok = false then { cb with crcOk := false } else cb) } := by
  unfold Harq.dispose
  rw [hok, flags]
  have same : h.cbs.mapIdx (fun _ cb => cb) = h.cbs := List.ext_getElem? fun r => by simp
  cases all <;> cases ok <;> simp [same]

theorem block_length {j : JoinResult} (n : Nat) : (j.block n).length = if j.ok = true then n else 0 := by
  unfold JoinResult.block
  split <;> simp [tbBytes]

/-- The bytes of the block show the bits that the join put together (R350). -/
theorem block_bits {j : JoinResult} {sum : List Bool} {a k : Nat} {v : Byte} (bits : j.ok = true → j.bits = sum.take a)
    (hv : (j.block (a / 8))[k]? = some v) (i : Nat) (hi : i < 8) : v.getLsbD (7 - i) = sum.getD (8 * k + i) false := by
  unfold JoinResult.block at hv
  split at hv
  case isTrue good =>
    rw [tbBytes, List.getElem?_map, Option.map_eq_some_iff] at hv
    obtain ⟨k', hk', rfl⟩ := hv
    obtain ⟨inside, rfl⟩ := List.getElem?_eq_some_iff.1 hk'
    rw [List.length_range] at inside
    rw [List.getElem_range, bits good]
    exact payloadByte_take inside hi
  case isFalse => cases hv

/-- Settles O60: `joinResult_eq` gives the verdict and the bits, `tbJoin_of_room` the state, `writeTb_read` the bytes in DMEM. -/
theorem tbJoinResult : Obligations.TbJoinResult := by
  intro s t x h running hx
  refine ⟨fun undue => runOp_fatalError running (tbJoin_doubleNotify hx undue), ?_⟩
  intro phase counter hh _ buffers caches size address cbs all sum ok iters
  have count : cbs.length = x.seg.c := List.length_take_of_le buffers
  obtain ⟨j, hj, hok, flags, bits⟩ := joinResult_eq count (fun cb hcb => caches cb (List.mem_of_mem_take hcb)) size
  replace hok : j.ok = ok := hok
  refine ⟨fun full => runOp_hold running (tbJoin_hold hx ⟨phase, counter⟩ hh buffers hj address full), fun room => ?_⟩
  obtain ⟨w, hw⟩ : ∃ w, (s.record (.tbJoin t)).writeBlock x j = w := ⟨_, rfl⟩
  have done := tbJoin_of_room (w := w) hx ⟨phase, counter⟩ hh buffers hj address room (by rw [ofNat_toNat_self]; exact hw)
  have written := hw ▸ writeBlock_blockWritten (s.record (.tbJoin t)) x j
  obtain ⟨ws, m, n, frame⟩ := written.frame
  refine ⟨_, runOp_ok running done, ?tbs, ?harq, ?evq, ?trace, ?ranges, ?window, ?failed, ?bytes, ?frame⟩
  case tbs => rw [← hok]
  case harq => rw [← dispose_eq hok flags]
  case evq => rw [← hok, ← schResult_eq]; rfl
  case trace => rw [frame]; rfl
  case ranges => exact (markJoined_ranges w _ _).trans written.ranges
  case window =>
    intro o v own hv
    refine ⟨j.block (x.tbs / 8), ?_, hok ▸ block_length _, fun k v hv i hi => block_bits bits hv i hi⟩
    rw [own]
    exact markJoined_own _ ((written.own o own).trans hv)
  case failed =>
    intro bad
    rw [← hw, State.writeBlock, hok, bad]
    exact ⟨rfl, rfl⟩
  case bytes =>
    intro good k hk clear
    refine ⟨payloadByte j.bits k, ?_, fun i hi => by rw [bits (hok.trans good)]; exact payloadByte_take hk hi⟩
    rw [← hw, State.writeBlock, if_pos (hok.trans good)]
    exact writeTb_read hk clear
  case frame => rw [frame]; rfl

end Sys2Proof.Machine
end

section
/-!
PROOFS. Decoding and encoding are inverse to each other (spec/30_encoding.md R141 to R155).
-/

namespace Sys2Proof

/-! ### Which decoder reads an operation (R141) -/

theorem decode_host {w : Word} (h : w.opc.toNat < 0x10) (rest : List Word) : decode (w :: rest) = decodeHost w rest := if_pos h

theorem decode_port {w : Word} (low : 0x10 ≤ w.opc.toNat) (high : w.opc.toNat < 0x20) (rest : List Word) :
    decode (w :: rest) = decodePort w rest := (if_neg (by omega)).trans (if_pos high)

theorem decode_unit {w : Word} (h : 0x20 ≤ w.opc.toNat) (rest : List Word) : decode (w :: rest) = decodeUnit w rest :=
  (if_neg (by omega)).trans (if_neg (by omega))

/-! ### Fields that span a header (R144) -/

/-- A field of a header's low 16 bits. -/
theorem header_low (o u : BitVec 8) (imm : BitVec 16) {lo len : Nat} (h : lo + len ≤ 16) :
    (header o u imm).extractLsb' lo len = imm.extractLsb' lo len := extract_append_low (o ++ u) imm lo len h

/-- Bits 23 to 8 of HARQ_FREE's header, which R144 reserves. -/
theorem header_middle (o u : BitVec 8) (imm : BitVec 16) :
    (header o u imm).extractLsb' 8 16 = u ++ imm.extractLsb' 8 8 := by
  have fields := append_extract (header o u imm) 8 8 8
  rw [header_low o u imm (lo := 8) (len := 8) (by omega)] at fields
  exact fields.symm.trans (congrArg (· ++ imm.extractLsb' 8 8) (header_unit o u imm))

@[simp] theorem nop_opc (hint : BitVec 24) : Word.opc (0x0F#8 ++ hint) = 0x0F#8 :=
  (extract_append_high 0x0F#8 hint 24 8 (by omega)).trans (extract_all _)

@[simp] theorem nop_low24 (hint : BitVec 24) : Word.low24 (0x0F#8 ++ hint) = hint :=
  (extract_append_low 0x0F#8 hint 0 24 (by omega)).trans (extract_all hint)

/-! ### Decoding inverts encoding -/

theorem ofArg_arg (f : UciField) : UciField.ofArg f.arg = some f := by cases f <;> rfl

theorem decodeHost_configureCsiPart2 (tag : BitVec 8) (bits : BitVec 11) (g2 gu : BitVec 24) (rest : List Word) :
    decodeHost (header 0x02#8 tag (0#5 ++ bits)) (argWord g2 :: argWord gu :: rest) =
      .ok (.configureCsiPart2 tag bits g2 gu, rest) := by
  have reserved : (header 0x02#8 tag (0#5 ++ bits)).extractLsb' 11 5 = 0#5 :=
    (header_low _ _ _ (by omega)).trans ((extract_append_high 0#5 bits 11 5 (by omega)).trans (extract_all _))
  have payload : (header 0x02#8 tag (0#5 ++ bits)).extractLsb' 0 11 = bits :=
    (header_low _ _ _ (by omega)).trans ((extract_append_low 0#5 bits 0 11 (by omega)).trans (extract_all bits))
  simp [decodeHost, reserved, payload]

theorem decodeHost_harqFree (handle : BitVec 8) (rest : List Word) :
    decodeHost (header 0x05#8 0#8 (0#8 ++ handle)) rest = .ok (.harqFree handle, rest) := by
  have reserved : (header 0x05#8 0#8 (0#8 ++ handle)).extractLsb' 8 16 = 0#16 := by
    rw [header_middle, extract_append_high 0#8 handle 8 8 (by omega)]
    decide
  have operand : (header 0x05#8 0#8 (0#8 ++ handle)).extractLsb' 0 8 = handle :=
    (header_low _ _ _ (by omega)).trans ((extract_append_low 0#8 handle 0 8 (by omega)).trans (extract_all handle))
  simp [decodeHost, reserved, operand]

theorem decodePort_publishCopy (port : BitVec 4) (owner : BitVec 8) {data : List (BitVec 8)} (h : data.length < 2 ^ 19)
    (rest : List Word) :
    decodePort (portHeader 0x11#8 port 0#1 (BitVec.ofNat 19 data.length)) (ownerWord owner :: (packLlrs data ++ rest)) =
      .ok (.publishCopy port owner data, rest) := by
  have count : (BitVec.ofNat 19 data.length).toNat = data.length := Nat.mod_eq_of_lt h
  have present : ¬ (packLlrs data ++ rest).length < (data.length + 3) / 4 := by
    rw [List.length_append, packLlrs_length]
    omega
  simp only [decodePort, portHeader_opc, portHeader_inPlace, portHeader_count19, portHeader_port, withOwner, ownerWord_high24,
    ownerWord_owner, count, unpackLlrs_packLlrs, if_neg present]
  simp

theorem decode_encode {i : Instr} (h : i.wellFormed = true) (rest : List Word) :
    decode (encode i ++ rest) = .ok (i, rest) := by
  cases i with
  | configureCsiPart2 tag bits g2 gu => exact (decode_host (by simp) _).trans (decodeHost_configureCsiPart2 ..)
  | harqFree handle => exact (decode_host (by simp) _).trans (decodeHost_harqFree ..)
  | publishCopy port owner data =>
    have short : data.length < 2 ^ 19 := by simpa [Instr.wellFormed] using h
    exact (decode_port (by simp) (by simp) _).trans (decodePort_publishCopy port owner short rest)
  | uciDecode b f =>
    refine (decode_unit (by simp) _).trans ?_
    simp [decodeUnit, ofArg_arg]
  | processPdu | csi2None | nop =>
    refine (decode_host (by simp) _).trans ?_
    simp [decodeHost]
  | reserveView | publishInPlace | close =>
    refine (decode_port (by simp) (by simp) _).trans ?_
    simp [decodePort, withOwner]
  | _ =>
    refine (decode_unit (by simp) _).trans ?_
    simp [decodeUnit, fixedArg]

/-- Settles O1: each class's decoder reads its fields back out of the words that `encode` puts together. -/
theorem decodeOfEncode : Obligations.DecodeOfEncode := fun _ rest h => decode_encode h rest

/-- Settles O3: each written word sequence is the encoding of its operation. -/
theorem writtenWordsDecode : Obligations.WrittenWordsDecode := by
  have written : ∀ {ws : List Word} {i : Instr}, ws = encode i → i.wellFormed = true → decode ws = .ok (i, []) := by
    rintro ws i rfl h
    simpa using decode_encode h []
  refine ⟨?_, ?_, ?_, ?_, ?_, ?_, ?_, ?_⟩ <;> exact written (by decide) rfl

/-! ### What decodes is an encoding -/

/-- The operation is well-formed, and the words are its own with `left` after them. -/
def Instr.encodes (i : Instr) (left ws : List Word) : Prop := i.wellFormed = true ∧ ws = encode i ++ left

/-- A header with its opcode known. -/
theorem header_of_opc {w : Word} {o : BitVec 8} (h : w.opc = o) : header o w.unit w.imm16 = w := h ▸ header_fields w

/-- A header whose low 16 bits are reserved, or an ARG that R152 fixes. -/
theorem header_of_opc_zero {w : Word} {o : BitVec 8} (h : w.opc = o) (zero : w.imm16 = 0#16) : header o w.unit 0#16 = w :=
  zero ▸ header_of_opc h

theorem portHeader_of_opc {w : Word} {o : BitVec 8} {b : BitVec 1} (h : w.opc = o) (hb : w.inPlace = b.getLsbD 0) :
    portHeader o w.port b w.count19 = w := by
  have bit : w.extractLsb' 19 1 = b := by
    rw [inPlace_field, hb]
    apply BitVec.eq_of_getLsbD_eq
    intro k hk
    obtain rfl : k = 0 := by omega
    simp
  have fields := portHeader_fields w
  rwa [h, bit] at fields

theorem header_of_harqFree {w : Word} (h : w.opc = 0x05#8) (reserved : w.extractLsb' 8 16 = 0#16) :
    header 0x05#8 0#8 (0#8 ++ w.extractLsb' 0 8) = w := by
  have top : w.extractLsb' 24 8 ++ w.extractLsb' 8 16 = w.extractLsb' 8 24 := append_extract w 8 16 8
  have all : w.extractLsb' 8 24 ++ w.extractLsb' 0 8 = w.extractLsb' 0 32 := append_extract w 0 8 24
  rw [← top, reserved, show w.extractLsb' 24 8 = 0x05#8 from h, extract_all] at all
  have zeros : 0x05#8 ++ 0#16 = 0x05#8 ++ 0#8 ++ 0#8 := by decide
  rw [zeros] at all
  exact (BitVec.append_assoc (x₁ := 0x05#8 ++ 0#8) (x₂ := 0#8)).symm.trans all

theorem decodeHost_ok {w : Word} {rest left : List Word} {i : Instr} (h : decodeHost w rest = .ok (i, left)) :
    i.encodes left (w :: rest) := by
  unfold decodeHost at h
  split at h
  case h_2 opc =>
    split at h
    case h_1 a1 a2 rest =>
      split at h
      case isTrue clear =>
        cases h
        obtain ⟨reserved, high1, high2⟩ := clear
        have bits : 0#5 ++ w.extractLsb' 0 11 = w.imm16 := reserved ▸ append_extract w 0 11 5
        exact ⟨rfl, by simp [encode, bits, header_of_opc opc, argWord_fields high1, argWord_fields high2]⟩
      case isFalse => cases h
    case h_2 => cases h
  case h_4 opc =>
    split at h
    case isTrue reserved =>
      cases h
      exact ⟨rfl, by simp [encode, header_of_harqFree opc reserved]⟩
    case isFalse => cases h
  case h_5 opc =>
    cases h
    have fields : w.opc ++ w.low24 = w := (append_extract w 0 24 8).trans (extract_all w)
    rw [opc] at fields
    exact ⟨rfl, by simp [encode, fields]⟩
  case h_6 => cases h
  all_goals
    rename_i opc
    split at h
    case isTrue zero =>
      cases h
      exact ⟨rfl, by simp [encode, header_of_opc_zero opc zero]⟩
    case isFalse => cases h

theorem withOwner_ok {w : Word} {extra : Bool} {k : BitVec 8 → List Word → Except DecodeError (Instr × List Word)}
    {ws left : List Word} {i : Instr} (h : withOwner w extra k ws = .ok (i, left)) :
    ∃ owner rest, ws = ownerWord owner :: rest ∧ extra = true ∧ k owner rest = .ok (i, left) := by
  cases ws with
  | nil => cases h
  | cons ow rest =>
    simp only [withOwner] at h
    split at h
    case isTrue clear => exact ⟨ow.owner, rest, by rw [ownerWord_fields clear.1], clear.2, h⟩
    case isFalse => cases h

theorem decodePort_ok {w : Word} {rest left : List Word} {i : Instr} (h : decodePort w rest = .ok (i, left)) :
    i.encodes left (w :: rest) := by
  unfold decodePort at h
  split at h
  case h_1 opc =>
    obtain ⟨owner, rest, rfl, inPlace, h⟩ := withOwner_ok h
    cases h
    have fields := portHeader_of_opc (b := 0#1) opc (by simpa using inPlace)
    exact ⟨rfl, by simp [encode, fields]⟩
  case h_2 opc =>
    split at h
    case isTrue inPlace =>
      obtain ⟨owner, rest, rfl, -, h⟩ := withOwner_ok h
      cases h
      have fields := portHeader_of_opc (b := 1#1) opc (by simpa using inPlace)
      exact ⟨rfl, by simp [encode, fields]⟩
    case isFalse copy =>
      obtain ⟨owner, rest, rfl, -, h⟩ := withOwner_ok h
      split at h
      · cases h
      · split at h
        case h_1 ls after unpacked =>
          cases h
          obtain ⟨count, packed⟩ := packLlrs_unpackLlrs unpacked
          have short : ls.length < 2 ^ 19 := count ▸ w.count19.isLt
          have number : BitVec.ofNat 19 ls.length = w.count19 := by rw [count, BitVec.ofNat_toNat, BitVec.setWidth_eq]
          have fields := portHeader_of_opc (b := 0#1) opc (by simpa using copy)
          exact ⟨by simpa [Instr.wellFormed] using short, by simp [encode, number, fields, packed]⟩
        case h_2 => cases h
  case h_3 opc =>
    obtain ⟨owner, rest, rfl, clear, h⟩ := withOwner_ok h
    cases h
    obtain ⟨inPlace, count⟩ : w.inPlace = false ∧ w.count19 = 0#19 := by simpa using clear
    have fields := portHeader_of_opc (b := 0#1) opc (by simpa using inPlace)
    rw [count] at fields
    exact ⟨rfl, by simp [encode, fields]⟩
  case h_4 => cases h

/-- A micro-operation whose ARG is 0. -/
theorem fixedArg_ok {w : Word} {i j : Instr} {rest left : List Word} (h : fixedArg w i rest = .ok (j, left)) :
    w.imm16 = 0#16 ∧ j = i ∧ left = rest := by
  unfold fixedArg at h
  split at h
  case isTrue zero => cases h; exact ⟨zero, rfl, rfl⟩
  case isFalse => cases h

theorem ofArg_eq_some {a : BitVec 16} {f : UciField} (h : UciField.ofArg a = some f) : a = f.arg := by
  unfold UciField.ofArg at h
  split_ifs at h with h0 h1 h2 <;> cases h
  exacts [h0, h1, h2]

theorem decodeUnit_ok {w : Word} {rest left : List Word} {i : Instr} (h : decodeUnit w rest = .ok (i, left)) :
    i.encodes left (w :: rest) := by
  unfold decodeUnit at h
  split at h
  case h_9 opc =>
    split at h
    case h_1 f arg =>
      cases h
      exact ⟨rfl, by simp [encode, ← ofArg_eq_some arg, header_of_opc opc]⟩
    case h_2 => cases h
  case h_18 => cases h
  case h_1 opc | h_2 opc | h_4 opc | h_5 opc | h_7 opc | h_14 opc | h_17 opc =>
    cases h
    exact ⟨rfl, by simp [encode, header_of_opc opc]⟩
  all_goals
    rename_i opc
    obtain ⟨zero, rfl, rfl⟩ := fixedArg_ok h
    exact ⟨rfl, by simp [encode, header_of_opc_zero opc zero]⟩

/-- Settles O2: each class's decoder accepts a header only as the encoder builds it, and an operand word only with its reserved
bits 0. -/
theorem encodeOfDecode : Obligations.EncodeOfDecode := by
  intro ws rest i h
  cases ws with
  | nil => cases h
  | cons w ws =>
    by_cases host : w.opc.toNat < 0x10
    · exact decodeHost_ok ((decode_host host _).symm.trans h)
    · by_cases port : w.opc.toNat < 0x20
      · exact decodePort_ok ((decode_port (by omega) port _).symm.trans h)
      · exact decodeUnit_ok ((decode_unit (by omega) _).symm.trans h)

end Sys2Proof
end

section
/-!
PROOFS. A placed operation runs next (spec/30_encoding.md R140, R142; spec/43_tb_decoder.md R340), NOP (R445), and the contract
violations of the port operations (spec/40_stream.md R201 to R204; spec/30_encoding.md R146).
-/

namespace Sys2Proof

/-! ### What each reader takes from an operation's words (R140, R142, R150) -/

/-- OPC of an operation's header (R141). -/
def Instr.opc (i : Instr) : BitVec 8 := Word.opc ((encode i).headD 0#32)

/-- An operation's words are its header and what follows it. -/
theorem encode_cons (i : Instr) : ∃ w rest, encode i = w :: rest ∧ w.opc = i.opc := by
  cases i <;> exact ⟨_, _, rfl, rfl⟩

/-- The opcode tells the reader: an engine reads a task, CMDU a host command, and the issue turn any other operation (R140, R144,
R150). -/
theorem opc_reader (i : Instr) :
    (i.isTask = true ∧ (i.opc = 0x20#8 ∨ i.opc = 0x21#8)) ∨
    (i.isTask = false ∧ isHostOpcode i.opc = true) ∨
    (i.isTask = false ∧ ((0x10 ≤ i.opc.toNat ∧ i.opc.toNat ≤ 0x12) ∨ (0x30 ≤ i.opc.toNat ∧ i.opc.toNat ≤ 0x3E))) := by
  cases i <;> simp [Instr.isTask, Instr.opc, encode, isHostOpcode]

theorem taskOpcode_range {o : BitVec 8} (h : o = 0x20#8 ∨ o = 0x21#8) : 0x20 ≤ o.toNat ∧ o.toNat ≤ 0x21 := by
  rcases h with rfl | rfl <;> decide

theorem isHostOpcode_lt {o : BitVec 8} (h : isHostOpcode o = true) : o.toNat < 0x10 := by
  simp only [isHostOpcode, Bool.or_eq_true, decide_eq_true_eq] at h
  rcases h with (((rfl | rfl) | rfl) | rfl) | rfl <;> decide

/-- CMDU reads a host command as `decode` does (R142). -/
theorem decodeCommand_encode {i : Instr} (h : i.wellFormed = true) (host : isHostOpcode i.opc = true) (rest : List Word) :
    decodeCommand (encode i ++ rest) = .ok (i, rest) := by
  have decoded := decode_encode h rest
  obtain ⟨w, more, words, opc⟩ := encode_cons i
  rw [← opc] at host
  rw [words, List.cons_append, decode_host (isHostOpcode_lt host)] at decoded
  rw [words]
  exact (if_pos host).trans decoded

/-- A task is one word, which an engine reads (R150). -/
theorem decodeTask_encode {i : Instr} (h : i.isTask = true) : ∃ w, encode i = [w] ∧ decodeTask w = some i := by
  cases i with
  | cbDecode | cbRateDematch => exact ⟨_, rfl, by simp [decodeTask]⟩
  | _ => cases h

end Sys2Proof

namespace Sys2Proof.Machine

/-! ### A placed operation runs next (R140, R142, R340; log 8) -/

theorem placeWords_task {i : Instr} (h : i.opc = 0x20#8 ∨ i.opc = 0x21#8) (s : State) :
    s.placeWords (encode i) = { s with taskq := encode i ++ s.taskq, sched := .agent (.cbe 0) :: s.sched } := if_pos h

theorem placeWords_issue {i : Instr}
    (h : (0x10 ≤ i.opc.toNat ∧ i.opc.toNat ≤ 0x12) ∨ (0x30 ≤ i.opc.toNat ∧ i.opc.toNat ≤ 0x3E)) (s : State) :
    s.placeWords (encode i) = { s with sched := .issue (encode i) :: s.sched } := by
  have noTask : ¬ (i.opc = 0x20#8 ∨ i.opc = 0x21#8) := fun task => by
    have range := taskOpcode_range task
    omega
  exact (if_neg noTask).trans (if_pos h)

theorem placeWords_command {i : Instr} (h : isHostOpcode i.opc = true) (s : State) :
    s.placeWords (encode i) = { s with cmdq := encode i ++ s.cmdq, sched := .agent .cmdu :: s.sched } := by
  have low := isHostOpcode_lt h
  have noTask : ¬ (i.opc = 0x20#8 ∨ i.opc = 0x21#8) := fun task => by
    have range := taskOpcode_range task
    omega
  have noIssue : ¬ ((0x10 ≤ i.opc.toNat ∧ i.opc.toNat ≤ 0x12) ∨ (0x30 ≤ i.opc.toNat ∧ i.opc.toNat ≤ 0x3E)) := by
    omega
  exact (if_neg noTask).trans (if_neg noIssue)

/-- The state in which a placed operation runs: the turn, and a task, taken out (R340). -/
def State.placedIn (s : State) (i : Instr) : State :=
  { s with
    held := false
    taskHead := if i.isTask = true then s.taskHead.next else s.taskHead }

theorem placedIn_task {i : Instr} (h : i.isTask = true) (s : State) :
    s.placedIn i = { s with held := false, taskHead := s.taskHead.next } := by simp only [State.placedIn, h, if_true]

theorem placedIn_other {i : Instr} (h : i.isTask = false) (s : State) : s.placedIn i = { s with held := false } := by
  simp only [State.placedIn, h, Bool.false_eq_true, if_false]

/-- The step runs the placed operation, outright in an issue turn and else under `settle`. -/
theorem step_placeWords {s : State} {i : Instr} (h : i.wellFormed = true) (running : s.fatal = false)
    (engine : 0 < s.params.nCbe) :
    step (s.placeWords (encode i)) = exec i (s.placedIn i) ∨
      ∃ u, step (s.placeWords (encode i)) = settle u (exec i (s.placedIn i)) := by
  rcases opc_reader i with ⟨task, opc⟩ | ⟨noTask, opc⟩ | ⟨noTask, opc⟩
  · obtain ⟨w, word, read⟩ := decodeTask_encode task
    rw [placeWords_task opc, word, step_of_sched rfl, placedIn_task task]
    exact .inr ⟨_, runTask_of_decodeTask (s := { s with taskq := [w] ++ s.taskq, held := false }) (earlier := [])
      running engine engine rfl read⟩
  · rw [placeWords_command opc, step_of_sched rfl, placedIn_other noTask]
    exact .inr ⟨_, stepCmdu_of_decodeCommand running (decodeCommand_encode h opc s.cmdq)⟩
  · have read : decode (encode i) = .ok (i, []) := by simpa using decode_encode h []
    rw [placeWords_issue opc, step_of_sched rfl, placedIn_other noTask]
    exact .inl (stepIssue_of_decode read _)

theorem settle_completed {s t : State} (h : t.held = false) : settle s (.next t) = .next t := if_neg (by simp [h])

/-- Settles O5: the step is `exec` in the stated state, or that under `settle`, which changes holds alone. -/
theorem placedOperationRunsNext : Obligations.PlacedOperationRunsNext := by
  rintro s s0 i wellFormed running engine rfl
  rcases step_placeWords wellFormed running engine with run | ⟨u, run⟩
  · exact ⟨fun t done _ => run.trans done, fun r fault => run.trans fault⟩
  · refine ⟨fun t done taken => ?_, fun r fault => ?_⟩
    · exact (run.trans (congrArg (settle u) done)).trans (settle_completed taken)
    · exact run.trans (congrArg (settle u) fault)

/-! ### NOP (R445) -/

theorem exec_nop {s : State} (running : s.fatal = false) (hint : BitVec 24) :
    exec (.nop hint) s = .next (s.record (.nop hint)) := by
  rw [exec, execNop]
  exact runOp_ok running rfl

/-- Settles O26: NOP's effect is its record, and CMDU removes its word. -/
theorem nopResult : Obligations.NopResult := by
  intro s hint running
  refine ⟨exec_nop running hint, fun rest notHeld hq => ?_⟩
  have read : decodeCommand s.cmdq = .ok (.nop hint, rest) := by
    rw [hq]
    exact decodeCommand_encode (i := .nop hint) rfl (by simp [Instr.opc, encode, isHostOpcode]) rest
  have removed : ({ s with cmdq := rest } : State).fatal = false := running
  calc runAgent .cmdu s = settle s (exec (.nop hint) { s with cmdq := rest }) := stepCmdu_of_decodeCommand running read
    _ = settle s (.next (({ s with cmdq := rest } : State).record (.nop hint))) := by rw [exec_nop removed]
    _ = _ := settle_completed notHeld

/-! ### Contract violations of the port operations (R146, R201 to R204, R465) -/

theorem ofId_reserved {port : BitVec 4} (h : 5 ≤ port.toNat) (owner : BitVec 8) : PortRef.ofId port owner = none := by
  have reserved : ∀ k : BitVec 4, k.toNat < 5 → port ≠ k := fun k hk named => by
    rw [named] at h
    omega
  simp only [PortRef.ofId, reserved 0#4 (by decide), reserved 1#4 (by decide), reserved 2#4 (by decide),
    reserved 3#4 (by decide), reserved 4#4 (by decide), if_false]

/-- An operation on a port, `op`, after its header has named the port (R146). -/
def onPort (port : BitVec 4) (owner : BitVec 8) (op : PortRef → Op) : Op := fun s => do
  let r ← portOf port owner
  op r s

section
variable {s : State} {i : Instr} {port : BitVec 4} {owner : BitVec 8} {op : PortRef → Op} (running : s.fatal = false)
include running

theorem runOp_onPort_reserved (h : 5 ≤ port.toNat) :
    runOp i 0#8 (onPort port owner op) s = .next ((s.record i).enterFatal .stateViolation) := by
  refine runOp_fatalError running ?_
  rw [onPort, portOf, ofId_reserved h, need_none, error_bind]

theorem runOp_onPort_fatal {r : PortRef} (c : FatalCode) (named : PortRef.ofId port owner = some r)
    (h : op r s = .error (.fatal c)) : runOp i 0#8 (onPort port owner op) s = .next ((s.record i).enterFatal c) := by
  refine runOp_fatalError running ?_
  rw [onPort, portOf_of_ofId named, ok_bind, h]

end

section
variable (s : State) (port : BitVec 4) (n : BitVec 19) (owner : BitVec 8) (data : List (BitVec 8))

theorem exec_reserveView_onPort : exec (.reserveView port n owner) s =
    runOp (.reserveView port n owner) 0#8 (onPort port owner fun r s => do
      let v ← issueReserve r n.toNat s
      .ok v.2) s := rfl

theorem exec_publishInPlace_onPort : exec (.publishInPlace port n owner) s =
    runOp (.publishInPlace port n owner) 0#8 (onPort port owner fun r => issuePublishInPlace r n.toNat) s := rfl

theorem exec_publishCopy_onPort : exec (.publishCopy port owner data) s =
    runOp (.publishCopy port owner data) 0#8 (onPort port owner fun r s =>
      publishCopyWith consumePublish r data (s.record (.publishCopy port owner data))) s := rfl

theorem exec_close_onPort : exec (.close port owner) s =
    runOp (.close port owner) 0#8 (onPort port owner fun r => issueClose consumeCloseAll r) s := rfl

end

section
variable {s : State} {r : PortRef} {p : Port} (hp : s.port? r = some p)
include hp

theorem reserveView_closed (closed : ¬ p.isOpen = true) (n : Nat) :
    reserveView r n s = .error (.fatal .publishAfterClose) := by
  simp only [reserveView, getPort_eq_ok.2 hp, ok_bind, check_neg closed, error_bind]

theorem publishInPlaceWith_closed (closed : ¬ p.isOpen = true) (consume : PortRef → List Llr → Op) (n : Nat) :
    publishInPlaceWith consume r n s = .error (.fatal .publishAfterClose) := by
  simp only [publishInPlaceWith, getPort_eq_ok.2 hp, ok_bind, check_neg closed, error_bind]

theorem publishCopyWith_closed (closed : ¬ p.isOpen = true) (consume : PortRef → List Llr → Op) (ls : List Llr) :
    publishCopyWith consume r ls s = .error (.fatal .publishAfterClose) := by
  simp only [publishCopyWith, getPort_eq_ok.2 hp, ok_bind, check_neg closed, error_bind]

theorem closeWith_closed (closed : ¬ p.isOpen = true) (consume : PortRef → Op) :
    closeWith consume r s = .error (.fatal .doubleClose) := by
  simp only [closeWith, getPort_eq_ok.2 hp, ok_bind, check_neg closed, error_bind]

theorem publishInPlaceWith_stale (opened : p.isOpen = true) {n : Nat} (beyond : p.viewLen < n)
    (consume : PortRef → List Llr → Op) : publishInPlaceWith consume r n s = .error (.fatal .staleView) := by
  simp only [publishInPlaceWith, getPort_eq_ok.2 hp, ok_bind, check_pos opened, check_neg (show ¬ n ≤ p.viewLen by omega),
    error_bind]

theorem reserveView_overflow (opened : p.isOpen = true) (full : s.offer r p = some 0) {n : Nat} (positive : n ≠ 0) :
    reserveView r n s = .error (.fatal .cwOverflow) := by
  have refused : ¬ (n = 0 ∨ s.offer r p ≠ some 0) := by simp [positive, full]
  simp only [reserveView, getPort_eq_ok.2 hp, ok_bind, check_pos opened, check_neg refused, error_bind]

theorem publishCopyWith_overflow (opened : p.isOpen = true) {k : Nat} (offer : s.offer r p = some k) {ls : List Llr}
    (beyond : k < ls.length) (consume : PortRef → List Llr → Op) :
    publishCopyWith consume r ls s = .error (.fatal .cwOverflow) := by
  have refused : ¬ offers (s.offer r p) ls.length = true := by simp [offers, offer, beyond]
  simp only [publishCopyWith, getPort_eq_ok.2 hp, ok_bind, check_pos opened, check_neg refused, error_bind]

end

theorem issueReserve_error {s : State} {r : PortRef} {n : Nat} {e : Stop}
    (h : ∀ i, reserveView r n (s.record i) = .error e) :
    (do let v ← issueReserve r n s; .ok v.2 : Except Stop State) = .error e := by rw [issueReserve, h, error_bind]

/-- Settles O39: each violation is the first check of its operation that fails, and a fatal error keeps its record alone
(R153, R465). -/
theorem portViolations : Obligations.PortViolations := by
  intro s port n owner data running
  dsimp only
  rw [exec_reserveView_onPort, exec_publishInPlace_onPort, exec_publishCopy_onPort, exec_close_onPort]
  refine ⟨fun reserved => ?reserved, fun r p named hp => ?_⟩
  case reserved => refine ⟨?_, ?_, ?_, ?_⟩ <;> exact runOp_onPort_reserved running reserved
  have recorded : ∀ i, (s.record i).port? r = some p := fun i => (record_port? s i r).trans hp
  have offered : ∀ i, (s.record i).offer r p = s.offer r p := fun i => record_offer s i r p
  refine ⟨fun shut => ?closed, fun opened beyond => ?stale,
    fun opened k offer => ⟨fun full nonzero => ?full, fun beyond => ?long⟩⟩
  case closed =>
    have closed : ¬ p.isOpen = true := by simp [shut]
    exact ⟨runOp_onPort_fatal running .publishAfterClose named
        (issueReserve_error fun _ => reserveView_closed (recorded _) closed _),
      runOp_onPort_fatal running .publishAfterClose named (publishInPlaceWith_closed (recorded _) closed _ _),
      runOp_onPort_fatal running .publishAfterClose named (publishCopyWith_closed (recorded _) closed _ _),
      runOp_onPort_fatal running .doubleClose named (closeWith_closed (recorded _) closed _)⟩
  case stale =>
    exact runOp_onPort_fatal running .staleView named (publishInPlaceWith_stale (recorded _) opened beyond _)
  case full =>
    subst full
    have positive : n.toNat ≠ 0 := fun zero => nonzero (BitVec.eq_of_toNat_eq zero)
    exact runOp_onPort_fatal running .cwOverflow named
      (issueReserve_error fun _ => reserveView_overflow (recorded _) opened ((offered _).trans offer) positive)
  case long =>
    exact runOp_onPort_fatal running .cwOverflow named
      (publishCopyWith_overflow (recorded _) opened ((offered _).trans offer) beyond _)

end Sys2Proof.Machine
end

section
/-!
PROOFS. UCI_DECODE (spec/45_sequencer.md R436), and PUBLISH_BLOCK and CLOSE as a producer issues them, with what each port's
consumer does (spec/40_stream.md R202 to R209).
-/

namespace Sys2Proof.Machine

/-! ### UCI_DECODE (R436) -/

theorem uciDecode_of_counted {s : State} {b : BitVec 8} {f : UciField} {x : Bundle} {ls : List Llr}
    (hx : s.bundles[b.toNat]? = some x) (hl : Slots.get? (x.uci f).llr 0 (x.uci f).port.count = some ls) :
    uciDecode b.toNat f s = .ok { s.record (.uciDecode b f) with
      bundles := s.bundles.set b.toNat (x.modUci f fun u => u.decode f (x.payloadBits f) ls) } := by
  have bundle : (s.record (.uciDecode b f)).getBundle b.toNat = .ok x := getBundle_eq_ok.2 hx
  simp only [uciDecode, ofNat_toNat_self, bundle, ok_bind, hl, need_some]
  exact congrArg Except.ok (modBundle_eq_set (s := s.record _) _ hx)

/-- Settles O54: `uciDecode_of_counted`, for the payload size of each field. -/
theorem uciDecodeResult : Obligations.UciDecodeResult := by
  intro s b f x ls running hx hl n
  have size : x.payloadBits f = n := by cases f <;> rfl
  have decoded := uciDecode_of_counted hx hl
  rw [size] at decoded
  exact runOp_ok running decoded

/-! ### A port operation that completes (R202 to R204) -/

section
variable {s : State} {port : BitVec 4} {owner : BitVec 8} {r : PortRef} {p : Port} (running : s.fatal = false)
  (named : PortRef.ofId port owner = some r)
include running named

theorem runOp_onPort_ok {i : Instr} {op : PortRef → Op} {t : State} (h : op r s = .ok t) :
    runOp i 0#8 (onPort port owner op) s = .next t := by
  refine runOp_ok running ?_
  rw [onPort, portOf_of_ofId named, ok_bind, h]

variable (hp : s.port? r = some p) (opened : p.isOpen = true)
include hp opened

/-- A copy within the offer (R203): the view ends, the consumer acts, the count grows. -/
theorem exec_publishCopy_delivered {data : List Llr} {u : State} (offered : offers (s.offer r p) data.length = true)
    (delivered : deliver p data (consumePublish r data)
      ((s.record (.publishCopy port owner data)).modPort r fun q => { q with viewLen := 0 }) = .ok u) :
    exec (.publishCopy port owner data) s = .next (u.modPort r fun q => { q with count := q.count + data.length }) := by
  rw [exec_publishCopy_onPort]
  refine runOp_onPort_ok running named (publishCopyWith_eq_ok.2 ⟨p, u, ?_, opened, ?_, delivered, rfl⟩)
  · rw [record_port?, hp]
  · rw [record_offer, offered]

/-- A publish of slots the view has (R202): the same, of the soft bits that stand in the view. -/
theorem exec_publishInPlace_delivered {n : BitVec 19} {ls : List Llr} {u : State} (inView : n.toNat ≤ p.viewLen)
    (written : s.viewLlrs r p n.toNat = some ls)
    (delivered : deliver p ls (consumePublish r ls)
      ((s.record (.publishInPlace port n owner)).modPort r fun q => { q with viewLen := 0 }) = .ok u) :
    exec (.publishInPlace port n owner) s = .next (u.modPort r fun q => { q with count := q.count + n.toNat }) := by
  obtain ⟨rid, rowner⟩ := ofId_eq_some named
  rw [exec_publishInPlace_onPort]
  refine runOp_onPort_ok running named ?_
  rw [issuePublishInPlace, rid, rowner, ofNat_toNat_self]
  refine publishInPlaceWith_eq_ok.2 ⟨p, ls, u, ?_, opened, inView, ?_, delivered, rfl⟩
  · rw [record_port?, hp]
  · rw [← written, State.viewLlrs, State.viewLlrs, record_storage?]

/-- CLOSE of an OPEN port (R204): the unit ends, then the consumer acts. -/
theorem exec_close_consumed {t : State} (consumed : whenReal p (consumeCloseAll r)
      ((s.record (.close port owner)).modPort r fun q => { q with isOpen := false, viewLen := 0 }) = .ok t) :
    exec (.close port owner) s = .next t := by
  obtain ⟨rid, rowner⟩ := ofId_eq_some named
  rw [exec_close_onPort]
  refine runOp_onPort_ok running named ?_
  rw [issueClose, rid, rowner]
  exact closeWith_eq_ok.2 ⟨p, (record_port? _ _ _).trans hp, opened, consumed⟩

end

/-! ### PUBLISH_BLOCK to SCH and the UCI ports (R202, R203, R206, R209) -/

theorem consumePublish_stores {r : PortRef} (other : ∀ b, r ≠ .demuxIn b) (ls : List Llr) :
    consumePublish r ls = storeAtCount r ls := by
  cases r with
  | demuxIn b => exact absurd rfl (other b)
  | sch t => rfl
  | uci f b => rfl

/-- A port bound NULL reads nothing of its view, so it publishes as many soft bits as it is told to (R206). -/
theorem viewLlrs_null {p : Port} (null : p.bound = .null) (s : State) (r : PortRef) (n : Nat) :
    s.viewLlrs r p n = some (List.replicate n 0#8) := if_pos null

/-- The state after a block has been stored at the port's count, from that in which the view has ended. -/
theorem stored_counted (s : State) (r : PortRef) (p : Port) (data : List Llr) :
    ((s.modPort r fun q => { q with viewLen := 0 }).modStorage r (p.receive data)).modPort r
        (fun q => { q with count := q.count + data.length }) =
      (s.modPort r fun q => q.counted data.length).modStorage r (p.receive data) := by
  rw [modPort_modStorage, modPort_modPort]
  rfl

theorem modStorage_receive {s : State} {r : PortRef} {q : Port} (hq : s.port? r = some q) (p : Port) (data : List Llr) :
    s.modStorage r (p.receive data) =
      if p.bound = .null ∨ data = [] then s else s.modStorage r (fun m => Slots.write m p.count data) := by
  split
  case isTrue nothing =>
    have same : p.receive data = fun m => m := funext fun m => if_pos nothing.symm
    rw [same, modStorage_id hq]
  case isFalse something =>
    have stored : p.receive data = fun m => Slots.write m p.count data :=
      funext fun m => if_neg fun h => something h.symm
    rw [stored]

/-- Settles O35: each form of PUBLISH_BLOCK delivers to `storeAtCount`, whose effect is `Port.receive` on the storage. -/
theorem publishStores : Obligations.PublishStores := by
  intro s port owner r p data n running named hp opened other after
  have recorded : ∀ i, (s.record i).port? r = some p := fun i => (record_port? s i r).trans hp
  have delivered : ∀ i ls, deliver p ls (consumePublish r ls) ((s.record i).modPort r fun q => { q with viewLen := 0 }) =
      .ok (((s.record i).modPort r fun q => { q with viewLen := 0 }).modStorage r (p.receive ls)) := fun i ls => by
    rw [consumePublish_stores other]
    exact (deliverStored_eq_ok (port?_modPort _ (recorded i)) rfl).2 rfl
  have result : ∀ i, (((s.record i).modPort r fun q => { q with viewLen := 0 }).modStorage r (p.receive data)).modPort r
      (fun q => { q with count := q.count + data.length }) = after (s.record i) := fun i => by
    rw [stored_counted, modStorage_receive (port?_modPort _ (recorded i))]
    rfl
  refine ⟨fun offered => ?copy, fun size inView written => ?inPlace⟩
  case copy =>
    rw [exec_publishCopy_delivered running named hp opened offered (delivered _ data), result]
  case inPlace =>
    obtain ⟨ls, read, same⟩ : ∃ ls, s.viewLlrs r p n.toNat = some ls ∧ p.receive ls = p.receive data := by
      obtain null | real : p.bound = .null ∨ p.bound = .real := by cases p.bound <;> simp
      · exact ⟨_, viewLlrs_null null s r _, funext fun m => by rw [Port.receive_null null, Port.receive_null null]⟩
      · exact ⟨data, written real, rfl⟩
    rw [exec_publishInPlace_delivered running named hp opened inView read (delivered _ ls), same, size, result]

/-! ### PUBLISH_BLOCK to DEMUX_IN (R202, R203, R209) -/

/-- Two changes of a bundle that agree on the bundle there. -/
theorem modBundle_congr {s : State} {b : Nat} {x : Bundle} {g h : Bundle → Bundle} (hx : s.bundles[b]? = some x)
    (same : g x = h x) : s.modBundle b g = s.modBundle b h := by
  rw [modBundle_eq_set g hx, modBundle_eq_set h hx, same]

/-- The symbol buffer gets the soft bits, and the block that completes the symbol runs DEMUX_SYMBOL (R209). -/
theorem consumePublish_demuxIn {s : State} {b : Nat} {x : Bundle} (hx : s.bundles[b]? = some x) (ls : List Llr) :
    consumePublish (.demuxIn b) ls s =
      if x.dm.symCnt + ls.length = symbolBits x.d x.l then demuxSymbol b (s.modBundle b fun x => x.receive ls)
      else .ok (s.modBundle b fun x => x.receive ls) := by
  simp only [consumePublish, getBundle_eq_ok.2 hx, ok_bind]

/-- DEMUX_IN offers what the symbol still lacks (R205). -/
theorem offers_demuxIn {s : State} {b n : Nat} {x : Bundle} (hx : s.bundles[b]? = some x) (opened : x.demuxIn.isOpen = true)
    (real : x.demuxIn.bound = .real) (fits : n ≤ symbolBits x.d x.l - x.dm.symCnt) :
    offers (s.offer (.demuxIn b) x.demuxIn) n = true := by
  have offer : s.offer (.demuxIn b) x.demuxIn = some (symbolBits x.d x.l - x.dm.symCnt) := by
    simp [State.offer, opened, real, hx]
  rw [offer]
  exact decide_eq_true fits

theorem deliver_nil (p : Port) (op : Op) (s : State) : deliver p [] op s = .ok s := if_pos rfl

theorem deliver_real {p : Port} (real : p.bound = .real) {ls : List Llr} (nonempty : ls ≠ []) (op : Op) (s : State) :
    deliver p ls op s = op s := by
  rw [deliver, if_neg nonempty, whenReal, real]
  exact if_neg (by decide)

/-- Settles O36: both forms of the operation deliver the block to DEMUX_IN's consumer in the state in which the view has ended
(`published`), and `consumePublish_demuxIn` says what the consumer does there. -/
theorem publishFillsTheSymbol : Obligations.PublishFillsTheSymbol := by
  intro s b x data n i running hx opened real form s1 counted
  have hp : s.port? (.demuxIn b.toNat) = some x.demuxIn := Option.map_eq_some_iff.2 ⟨x, hx, rfl⟩
  obtain ⟨ended, endedEq⟩ : ∃ t, t = (s.record i).modPort (.demuxIn b.toNat) fun q => { q with viewLen := 0 } := ⟨_, rfl⟩
  have published : ∀ u, deliver x.demuxIn data (consumePublish (.demuxIn b.toNat) data) ended = .ok u →
      exec i s = .next (counted u) := by
    rw [endedEq]
    intro u delivered
    rcases form with ⟨rfl, fits⟩ | ⟨rfl, size, inView, written⟩
    · exact exec_publishCopy_delivered running rfl hp opened (offers_demuxIn hx opened real fits) delivered
    · rw [exec_publishInPlace_delivered running rfl hp opened inView written delivered, size]
  have hEnded : ended.bundles[b.toNat]? = some { x with demuxIn := { x.demuxIn with viewLen := 0 } } := by
    rw [endedEq]
    exact getElem?_modify_self _ hx
  have filled : ended.modBundle b.toNat (fun y => y.receive data) = s1 := by
    rw [endedEq, State.modPort, modBundle_modBundle]
    exact modBundle_congr (s := s.record i) hx rfl
  have consumed := consumePublish_demuxIn hEnded data
  rw [filled] at consumed
  refine ⟨fun empty => ?empty, fun nonempty partly => ?more, fun nonempty full u run unheld unfatal => ?complete⟩
  case empty =>
    subst empty
    rw [published _ (deliver_nil _ _ _), endedEq]
    refine congrArg Host.Outcome.next ((modBundle_modBundle _ _ _ _).trans ?_)
    exact modBundle_congr (s := s.record i) hx rfl
  case more =>
    refine published _ ?_
    rw [deliver_real real nonempty, consumed]
    exact if_neg partly
  case complete =>
    have hs1 : s1.bundles[b.toNat]? = some (Bundle.receive { x with demuxIn := { x.demuxIn with viewLen := 0 } } data) := by
      rw [← filled]
      exact getElem?_modify_self _ hEnded
    have run' := (exec_demuxSymbol hs1 full).symm.trans run
    refine published _ ?_
    rw [deliver_real real nonempty, consumed]
    exact (if_pos full).trans ((demuxSymbol_quiet _ _).completed run' unheld unfatal)

/-! ### CLOSE (R204, R206, R209) -/

/-- The close of a field port decodes the field (R436); unless CSI Part 2 waits for it, nothing follows the close of CSI1
(R250). -/
theorem consumeClose_uci_decodes {s t : State} {b : Nat} {f : UciField} {x : Bundle} (decoded : uciDecode b f s = .ok t)
    (hx : t.bundles[b]? = some x) (notWaiting : f = .csi1 → x.dm.csi2State ≠ .waiting) : consumeClose (.uci f b) s = .ok t := by
  cases f with
  | ack => exact decoded
  | csi2 => exact decoded
  | csi1 =>
    refine bind_eq_ok.2 ⟨t, decoded, ?_⟩
    rw [afterCsi1Close, getBundle_eq_ok.2 hx, ok_bind, if_neg (notWaiting rfl)]

/-- Settles O37: after `exec_close_consumed` the consumer's action is the named operation, which is `Quiet`. -/
theorem closeRunsTheConsumer : Obligations.CloseRunsTheConsumer := by
  intro s port owner r p running named hp opened s1
  have closes : ∀ t, whenReal p (consumeCloseAll r) s1 = .ok t → exec (.close port owner) s = .next t :=
    fun t => exec_close_consumed running named hp opened
  refine ⟨fun null => closes _ (whenReal_eq_ok.2 (.inl ⟨null, rfl⟩)), ?uci, ?sch, ?demuxIn⟩
  case uci =>
    rintro f x ls real rfl hx hl notWaiting
    obtain rfl : (x.uci f).port = p := by simpa [State.port?, hx] using hp
    have closed : s1.bundles[owner.toNat]? =
        some (x.modUci f fun u => { u with port := { u.port with isOpen := false, viewLen := 0 } }) :=
      getElem?_modify_self _ hx
    have decoded := uciDecode_of_counted (f := f) closed (by simpa using hl)
    refine ⟨_, runOp_ok ((State.modPort_fatal _ _ _).trans running) decoded, ?_⟩
    refine closes _ (whenReal_eq_ok.2 (.inr ⟨real, ?_⟩))
    refine consumeClose_uci_decodes decoded (getElem?_set_found _ closed) fun csi1 => ?_
    subst csi1
    exact notWaiting rfl
  case sch =>
    rintro real rfl u run unheld unfatal
    exact closes _ (whenReal_eq_ok.2 (.inr ⟨real, (closeDispatch_quiet _ _).completed run unheld unfatal⟩))
  case demuxIn =>
    rintro real rfl u run unheld unfatal
    exact closes _ (whenReal_eq_ok.2 (.inr ⟨real, (demuxFlush_quiet _ _).completed run unheld unfatal⟩))

end Sys2Proof.Machine
end

section
/-!
PROOFS. The partition of a symbol (spec/41_demux.md R233 to R239).
-/

namespace Sys2Proof.Machine

/-! ### Selection (R234) -/

theorem mem_minus {i : Nat} {xs ys : List Nat} : i ∈ minus xs ys ↔ i ∈ xs ∧ i ∉ ys := by simp [minus]

theorem minus_nil_right (xs : List Nat) : minus xs [] = xs := by simp [minus]

theorem mem_of_mem_sel {n rem i : Nat} {xs : List Nat} (h : i ∈ (sel n xs rem).1) : i ∈ xs := by
  simp only [sel] at h
  split_ifs at h with nothing all
  · cases h
  · exact h
  · obtain ⟨j, -, selected⟩ := List.mem_filterMap.1 h
    exact List.mem_of_getElem? selected

/-- What a step of the partition that runs under the condition `c` selects lies in its candidates. -/
theorem mem_of_mem_ite_sel {c : Prop} [Decidable c] {n rem i : Nat} {xs : List Nat}
    (h : i ∈ (if c then sel n xs rem else ([], 0)).1) : c ∧ i ∈ xs := by
  split at h
  case isTrue runs => exact ⟨runs, mem_of_mem_sel h⟩
  case isFalse => cases h

theorem mem_of_stepReserve {p : Params} {d : Descriptor} {l i : Nat} {bud : Budgets} {u : List Nat}
    (h : i ∈ (stepReserve p d l bud u).1) : i ∈ u := (mem_of_mem_ite_sel h).2

theorem mem_of_stepLongAck {p : Params} {d : Descriptor} {l i : Nat} {bud : Budgets} {u r : List Nat}
    (h : i ∈ (stepLongAck p d l bud u r).1) : 2 < ackBits d ∧ i ∈ u ∧ i ∉ r :=
  ⟨(mem_of_mem_ite_sel h).1.1, mem_minus.1 (mem_of_mem_ite_sel h).2⟩

theorem mem_of_stepCsi1 {d : Descriptor} {i : Nat} {bud : Budgets} {u r : List Nat}
    (h : i ∈ (stepCsi1 d bud u r).1) : i ∈ u ∧ i ∉ r := mem_minus.1 (mem_of_mem_ite_sel h).2

theorem mem_of_stepShortAck {d : Descriptor} {i : Nat} {bud : Budgets} {r : List Nat}
    (h : i ∈ (stepShortAck d bud r).1) : i ∈ r := (mem_of_mem_ite_sel h).2

/-! ### The sets of a symbol (R237, R238) -/

theorem uciCandidates_of_dmrs {d : Descriptor} {l : Nat} (h : isDmrs d l = true) : uciCandidates d l = [] := if_pos h

theorem mem_uciCandidates {d : Descriptor} {l : Nat} (h : isDmrs d l = false) (i : Nat) :
    i ∈ uciCandidates d l ↔ i < nofPositions d l := by simp [uciCandidates, h]

/-- What `partition_a` leaves of a symbol with the UCI candidates `us` and `n` positions. -/
structure Sets.Parted (d : Descriptor) (us : List Nat) (n : Nat) (y : Sets) : Prop where
  reserved : ∀ i ∈ y.r, i ∈ us
  shortAck : ackBits d ≤ 2 → ∀ i ∈ y.a, i ∈ y.r
  longAck : 2 < ackBits d → ∀ i ∈ y.a, i ∈ us ∧ i ∉ y.r
  csi1 : ∀ i ∈ y.c1, i ∈ us ∧ i ∉ y.r ∧ i ∉ y.a
  unused : ∀ i, i ∈ y.rsv ↔ i ∈ y.r ∧ i ∉ y.a
  /-- Outside the reserved positions, `U` and `S` are what HARQ-ACK and CSI Part 1 leave. -/
  candidates : ∀ i, i ∉ y.r → (i ∈ y.u ↔ i ∈ us ∧ i ∉ y.a ∧ i ∉ y.c1)
  data : ∀ i, i ∉ y.r → (i ∈ y.s ↔ i < n ∧ i ∉ y.a ∧ i ∉ y.c1)

theorem partitionA_parted (p : Params) (d : Descriptor) (l : Nat) (bud : Budgets) :
    Sets.Parted d (uciCandidates d l) (nofPositions d l) (partitionA p d l bud).1 := by
  dsimp only [partitionA]
  generalize uciCandidates d l = us
  generalize hr : (stepReserve p d l bud us).1 = r
  generalize hLong : (stepLongAck p d l bud us r).1 = long
  generalize hCsi1 : (stepCsi1 d bud (minus us long) r).1 = c1
  generalize hShort : (stepShortAck d bud r).1 = short
  have ofLong : ∀ i ∈ long, 2 < ackBits d ∧ i ∈ us ∧ i ∉ r := fun i h => mem_of_stepLongAck (hLong ▸ h)
  have ofCsi1 : ∀ i ∈ c1, (i ∈ us ∧ i ∉ long) ∧ i ∉ r := fun i h =>
    (mem_of_stepCsi1 (hCsi1 ▸ h)).imp_left mem_minus.1
  have ofShort : ∀ i ∈ short, i ∈ r := fun i h => mem_of_stepShortAck (hShort ▸ h)
  have reserved : ∀ i ∈ r, i ∈ us := fun i h => mem_of_stepReserve (hr ▸ h)
  by_cases isLong : 2 < ackBits d
  case pos =>
    simp only [if_pos isLong]
    exact {
      reserved
      shortAck := fun small => absurd isLong (by omega)
      longAck := fun _ i h => (ofLong i h).2
      csi1 := fun i h => by
        obtain ⟨⟨candidate, notLong⟩, outside⟩ := ofCsi1 i h
        exact ⟨candidate, outside, notLong⟩
      unused := fun i => mem_minus
      candidates := fun i _ => by simp only [mem_minus, and_assoc]
      data := fun i _ => by simp only [mem_minus, List.mem_range, and_assoc] }
  case neg =>
    have noLong : ∀ i, i ∉ long := fun i h => isLong (ofLong i h).1
    have notShort : ∀ i, i ∉ r → i ∉ short := fun i outside h => outside (ofShort i h)
    simp only [if_neg isLong]
    exact {
      reserved
      shortAck := fun _ => ofShort
      longAck := fun large => absurd large isLong
      csi1 := fun i h => by
        obtain ⟨⟨candidate, -⟩, outside⟩ := ofCsi1 i h
        exact ⟨candidate, outside, notShort i outside⟩
      unused := fun i => mem_minus
      candidates := fun i outside => by simp only [mem_minus, noLong, notShort i outside, not_false_eq_true, and_true, true_and]
      data := fun i outside => by
        simp only [mem_minus, List.mem_range, noLong, notShort i outside, not_false_eq_true, and_true, true_and] }

/-- Step 4 of R238 takes CSI Part 2 from the candidates left. -/
theorem mem_of_partitionB_c2 {d : Descriptor} {configured : Bool} {y : Sets} {bud : Budgets} {i : Nat}
    (h : i ∈ (partitionB d configured y bud).1.c2) : i ∈ y.u ∧ i ∉ y.r := mem_minus.1 (mem_of_mem_ite_sel h).2

/-- Step 5 of R238 gives UL-SCH the data that is neither CSI Part 2's nor reserved. -/
theorem mem_partitionB_sch {d : Descriptor} {configured : Bool} {y : Sets} {bud : Budgets} {i : Nat} :
    i ∈ (partitionB d configured y bud).1.sch ↔ i ∈ y.s ∧ i ∉ (partitionB d configured y bud).1.c2 ∧ i ∉ y.r := by
  simp only [partitionB, mem_minus, and_assoc]

section
variable {d : Descriptor} {us : List Nat} {n : Nat} {y : Sets} (h : Sets.Parted d us n y)
include h

/-- A HARQ-ACK position is a candidate, reserved or not (R237). -/
theorem Sets.Parted.ack {i : Nat} (hi : i ∈ y.a) : i ∈ us := by
  by_cases large : 2 < ackBits d
  · exact (h.longAck large i hi).1
  · exact h.reserved i (h.shortAck (by omega) i hi)

variable {configured : Bool} {bud : Budgets}

theorem Sets.Parted.csi2 {i : Nat} (hi : i ∈ (partitionB d configured y bud).1.c2) :
    i ∈ us ∧ i ∉ y.r ∧ i ∉ y.a ∧ i ∉ y.c1 := by
  obtain ⟨left, outside⟩ := mem_of_partitionB_c2 hi
  obtain ⟨candidate, free⟩ := (h.candidates i outside).1 left
  exact ⟨candidate, outside, free⟩

/-- UL-SCH has the positions that no other set has. -/
theorem Sets.Parted.mem_sch {i : Nat} : i ∈ (partitionB d configured y bud).1.sch ↔
    (i < n ∧ i ∉ y.a ∧ i ∉ y.c1) ∧ i ∉ (partitionB d configured y bud).1.c2 ∧ i ∉ y.r := by
  rw [mem_partitionB_sch]
  exact and_congr_left fun free => h.data i free.2

/-- No position is in two sets (R239). -/
theorem Sets.Parted.disjoint :
    [(partitionB d configured y bud).1.sch, y.a, y.c1, (partitionB d configured y bud).1.c2, y.rsv].Pairwise
      List.Disjoint := by
  have sch : ∀ {i}, i ∈ (partitionB d configured y bud).1.sch → _ := fun hi => h.mem_sch.1 hi
  have reserved : ∀ {i}, i ∈ y.rsv → _ := fun hi => (h.unused _).1 hi
  simp only [List.pairwise_cons, List.mem_cons, List.not_mem_nil, or_false, forall_eq_or_imp, forall_eq, List.Disjoint]
  refine ⟨⟨?schAck, ?schCsi1, ?schCsi2, ?schUnused⟩, ⟨?ackCsi1, ?ackCsi2, ?ackUnused⟩, ⟨?csi1Csi2, ?csi1Unused⟩, ?csi2Unused,
    fun _ no => no.elim, List.Pairwise.nil⟩
  case schAck => exact fun i hs ha => (sch hs).1.2.1 ha
  case schCsi1 => exact fun i hs h1 => (sch hs).1.2.2 h1
  case schCsi2 => exact fun i hs h2 => (sch hs).2.1 h2
  case schUnused => exact fun i hs hu => (sch hs).2.2 (reserved hu).1
  case ackCsi1 => exact fun i ha h1 => (h.csi1 i h1).2.2 ha
  case ackCsi2 => exact fun i ha h2 => (h.csi2 h2).2.2.1 ha
  case ackUnused => exact fun i ha hu => (reserved hu).2 ha
  case csi1Csi2 => exact fun i h1 h2 => (h.csi2 h2).2.2.2 h1
  case csi1Unused => exact fun i h1 hu => (h.csi1 i h1).2.1 (reserved hu).1
  case csi2Unused => exact fun i h2 hu => (h.csi2 h2).2.1 (reserved hu).1

/-- Where every position is a candidate, every position is in a set (R239). -/
theorem Sets.Parted.cover (candidate : ∀ i, i ∈ us ↔ i < n) (i : Nat) :
    i < n ↔ i ∈ (partitionB d configured y bud).1.sch ∨ i ∈ y.a ∨ i ∈ y.c1 ∨ i ∈ (partitionB d configured y bud).1.c2 ∨
      i ∈ y.rsv := by
  rw [h.mem_sch, h.unused i]
  constructor
  · intro position
    by_cases ack : i ∈ y.a
    · exact .inr (.inl ack)
    by_cases reserved : i ∈ y.r
    · exact .inr (.inr (.inr (.inr ⟨reserved, ack⟩)))
    by_cases csi1 : i ∈ y.c1
    · exact .inr (.inr (.inl csi1))
    by_cases csi2 : i ∈ (partitionB d configured y bud).1.c2
    · exact .inr (.inr (.inr (.inl csi2)))
    · exact .inl ⟨⟨position, ack, csi1⟩, csi2, reserved⟩
  · rintro (sch | ack | csi1 | csi2 | reserved)
    · exact sch.1.1
    · exact (candidate i).1 (h.ack ack)
    · exact (candidate i).1 (h.csi1 i csi1).1
    · exact (candidate i).1 (h.csi2 csi2).1
    · exact (candidate i).1 (h.reserved i reserved.1)

end

/-- Without candidates no step selects anything, and every position is left to UL-SCH. -/
theorem partition_of_noCandidates {p : Params} {d : Descriptor} {l : Nat} {bud : Budgets} (configured : Bool)
    (none : uciCandidates d l = []) :
    (partitionB d configured (partitionA p d l bud).1 (partitionA p d l bud).2).1 =
      { Sets.empty with s := List.range (nofPositions d l), sch := List.range (nofPositions d l) } := by
  simp [partitionA, partitionB, none, stepReserve, stepLongAck, stepCsi1, stepShortAck, sel_nil, minus_nil_right, Sets.empty]

/-- Settles O49: on a DM-RS symbol there are no candidates; on any other every position is one, and `partitionA_parted` says where
it goes. -/
theorem partitionIsExact : Obligations.PartitionIsExact := by
  intro p d l bud configured y z
  have parted : Sets.Parted d (uciCandidates d l) (nofPositions d l) y.1 := partitionA_parted p d l bud
  refine ⟨fun plain => ⟨parted.disjoint, parted.cover (mem_uciCandidates plain)⟩, fun dmrs => ?_,
    fun _ small => parted.shortAck small, fun large i hi => (parted.longAck large i hi).2⟩
  have sets : z = _ := partition_of_noCandidates configured (uciCandidates_of_dmrs dmrs)
  rw [sets]
  exact ⟨rfl, rfl, rfl, rfl, rfl⟩

end Sys2Proof.Machine
end

section
/-!
PROOFS. CSI Part 2 asked for at the close of CSI Part 1, and its configuration (spec/41_demux.md R250, R256; spec/43_tb_decoder.md
R334).
-/

namespace Sys2Proof.Machine

/-! ### The close of CSI Part 1 (R250) -/

theorem payloadWords_length (bits : List Bool) : (payloadWords bits).length = (bits.length + 31) / 32 := by simp [payloadWords]

/-- The CSI2_REQUEST record, written out (R161). -/
theorem csi2Request_eq (tag : BitVec 8) (n : Nat) (payload : List Bool) :
    csi2Request tag n payload = (0x06#8 ++ tag ++ BitVec.ofNat 16 (1 + (payload.length + 31) / 32)) ::
      (0#21 ++ BitVec.ofNat 11 n) :: payloadWords payload := by
  have len : ((0#21 ++ BitVec.ofNat 11 n : Word) :: payloadWords payload).length = 1 + (payload.length + 31) / 32 := by
    rw [List.length_cons, payloadWords_length, Nat.add_comm]
  exact congrArg (fun k => (0x06#8 ++ tag ++ BitVec.ofNat 16 k : Word) :: _) len

theorem csi2Request_length (tag : BitVec 8) (n : Nat) (payload : List Bool) :
    (csi2Request tag n payload).length = 2 + (payload.length + 31) / 32 := by
  rw [csi2Request_eq, List.length_cons, List.length_cons, payloadWords_length]
  omega

section
variable {s : State} {b : Nat} {x : Bundle} (hx : s.bundles[b]? = some x) (waiting : x.dm.csi2State = .waiting)
include hx waiting

theorem afterCsi1Close_valid (valid : x.csi1.status = .valid)
    (room : s.evq.length + (csi2Request x.tag (csi1Bits x.d) x.csi1.payload).length ≤ s.params.evqDepth) :
    afterCsi1Close b s = .ok { s with
      bundles := s.bundles.set b { x with dm := { x.dm with csi2State := .await } }
      evq := s.evq ++ csi2Request x.tag (csi1Bits x.d) x.csi1.payload } := by
  rw [afterCsi1Close, getBundle_eq_ok.2 hx, ok_bind, if_pos waiting, if_pos valid, setCsi2State, modBundle_eq_set _ hx]
  exact emit_eq_ok.2 ⟨room, rfl⟩

theorem afterCsi1Close_invalid (invalid : x.csi1.status ≠ .valid) :
    afterCsi1Close b s = .ok { s with bundles := s.bundles.set b { x with dm := { x.dm with csi2State := .declined } } } := by
  rw [afterCsi1Close, getBundle_eq_ok.2 hx, ok_bind, if_pos waiting, if_neg invalid, setCsi2State, modBundle_eq_set _ hx]

end

theorem FieldUnit.shut_of_open {u : FieldUnit} (opened : u.port.isOpen = true) :
    u.shut = { u with port := { u.port with isOpen := false, viewLen := 0 } } := if_pos opened

/-- The end of an OPEN field port's logical unit (R204). -/
theorem modPort_uci_shut {s : State} {b : Nat} {f : UciField} {x : Bundle} (hx : s.bundles[b]? = some x)
    (opened : (x.uci f).port.isOpen = true) :
    s.modPort (.uci f b) (fun q => { q with isOpen := false, viewLen := 0 }) =
      { s with bundles := s.bundles.set b (x.modUci f FieldUnit.shut) } := by
  have shut := FieldUnit.shut_of_open opened
  rw [State.modPort, modBundle_eq_set _ hx]
  cases f <;> simp only [Bundle.modUci, Bundle.uci] at shut ⊢ <;> rw [shut]

/-- The close of an OPEN, REAL CSI1 port decodes the field, and the follow-up of R250 comes after that (R209). -/
theorem exec_close_csi1 {s t : State} {b : BitVec 8} {x : Bundle} {ls : List Llr} (running : s.fatal = false)
    (hx : s.bundles[b.toNat]? = some x) (opened : x.csi1.port.isOpen = true) (real : x.csi1.port.bound = .real)
    (hl : Slots.get? x.csi1.llr 0 x.csi1.port.count = some ls)
    (follow : afterCsi1Close b.toNat { (s.record (.close 3#4 b)).record (.uciDecode b .csi1) with
      bundles := s.bundles.set b.toNat { x with csi1 := x.csi1.shut.decode .csi1 (csi1Bits x.d) ls } } = .ok t) :
    exec (.close 3#4 b) s = .next t := by
  have hp : s.port? (.uci .csi1 b.toNat) = some x.csi1.port := Option.map_eq_some_iff.2 ⟨x, hx, rfl⟩
  have kept : Slots.get? x.csi1.shut.llr 0 x.csi1.shut.port.count = some ls := by
    rw [FieldUnit.shut_of_open opened]
    exact hl
  have decoded := uciDecode_of_counted (f := .csi1)
    (s := { s.record (.close 3#4 b) with bundles := s.bundles.set b.toNat (x.modUci .csi1 FieldUnit.shut) })
    (getElem?_set_found _ hx) kept
  refine exec_close_consumed running rfl hp opened (whenReal_eq_ok.2 (.inr ⟨real, ?_⟩))
  rw [modPort_uci_shut (f := .csi1) (s := s.record _) hx opened]
  refine bind_eq_ok.2 ⟨_, decoded, Eq.trans ?_ follow⟩
  rw [List.set_set]
  rfl

theorem FieldUnit.decode_valid {f : UciField} {n : Nat} {ls : List Llr} (h : Config.uciValid f n ls = true) (u : FieldUnit) :
    u.decode f n ls = { u with status := .valid, payload := (List.range n).map (Config.uciBit f n ls) } := if_pos h

theorem FieldUnit.decode_invalid {f : UciField} {n : Nat} {ls : List Llr} (h : Config.uciValid f n ls = false) (u : FieldUnit) :
    u.decode f n ls = { u with status := .invalid } := if_neg (by simp [h])

/-- Settles O38: `exec_close_csi1` leaves the follow-up, which acts on what the decoder has found. -/
theorem csi1CloseAsksForCsi2 : Obligations.Csi1CloseAsksForCsi2 := by
  intro s b x ls running hx opened real waiting hl n pay closed s1
  have shut : x.csi1.shut = { x.csi1 with port := closed } := FieldUnit.shut_of_open opened
  refine ⟨fun valid room => ?valid, fun invalid => ?invalid⟩
  case valid =>
    refine exec_close_csi1 running hx opened real hl ?_
    rw [shut, FieldUnit.decode_valid valid]
    refine (afterCsi1Close_valid (x := { x with csi1 := { x.csi1 with port := closed, status := .valid, payload := pay } })
      (getElem?_set_found _ hx) waiting rfl ?_).trans ?_
    · rw [csi2Request_length]
      exact room
    · rw [csi2Request_eq, List.set_set]
      rfl
  case invalid =>
    refine exec_close_csi1 running hx opened real hl ?_
    rw [shut, FieldUnit.decode_invalid invalid]
    refine (afterCsi1Close_invalid (x := { x with csi1 := { x.csi1 with port := closed, status := .invalid } })
      (getElem?_set_found _ hx) waiting (by simp)).trans ?_
    rw [List.set_set]

/-! ### CONFIGURE_CSI_PART2 accepted (R256, R334) -/

theorem setNofSoftbits_of_collecting {s : State} {t g : Nat} {c : TbCtx} (hc : s.tbs[t]? = some c) (collecting : c.fsm = .collecting)
    (fits : c.sch.count ≤ g) :
    setNofSoftbits t g s = .ok { s.record (.setNofSoftbits (BitVec.ofNat 8 t)) with tbs := s.tbs.set t { c with g := g } } := by
  have context : (s.record (.setNofSoftbits (BitVec.ofNat 8 t))).getTb t = .ok c := getTb_eq_ok.2 hc
  simp only [setNofSoftbits, context, ok_bind, check_pos collecting, check_pos fits]
  exact congrArg Except.ok (modTb_eq_set (s := s.record _) _ hc)

/-- A field's port is bound to its decoder (R208). -/
theorem rebindPort_uci {s : State} {b : Nat} {f : UciField} {x : Bundle} (hx : s.bundles[b]? = some x)
    (ready : (x.uci f).port.isOpen = true ∧ (x.uci f).port.count = 0 ∧ (x.uci f).port.bound = .null) :
    rebindPort (.uci f b) s = .ok { s with
      bundles := s.bundles.set b (x.modUci f fun u => { u with port := { u.port with bound := .real } }) } :=
  rebindPort_eq_ok.2 ⟨(x.uci f).port, Option.map_eq_some_iff.2 ⟨x, hx, rfl⟩, ready,
    (modBundle_eq_set (fun x => x.modUci f fun u => { u with port := { u.port with bound := .real } }) hx).symm⟩

/-- Budgets that pass every check of R256. -/
theorem configureChecks_pass {p : Params} {x : Bundle} {t : TbCtx} {bits g2 gu : Nat} (multiple : g2 % bpr x.d = 0)
    (bitsLow : 1 ≤ bits) (bitsHigh : bits ≤ 1706) (g2Low : 0 < g2) (g2High : g2 ≤ p.maxUciG) (csi2 : (plan p x.d g2).csi2 = g2)
    (sch : (plan p x.d g2).sch = gu) (guHigh : gu ≤ p.maxCwBits) (eOk : nofCodeblocks t.tbs t.bg ≤ gu / (t.nl * t.qm)) :
    checkAll (configureChecks p x t bits g2 gu) = .ok () := by
  have size : ¬ (bits = 0 ∨ 1706 < bits ∨ g2 = 0 ∨ p.maxUciG < g2) := by omega
  have budget : ¬ (gu ≠ (plan p x.d g2).sch ∨ p.maxCwBits < gu) := by omega
  have enough : t.eOk gu = true := decide_eq_true eOk
  refine checkAll_eq_ok.2 (firstFailing_eq_none.2 ?_)
  simp [configureChecks, multiple, csi2, size, budget, enough]

/-- CONFIGURE_CSI_PART2 whose checks pass: the port is bound, the bundle configured, the context's budget set, and the bundle goes
on (R256). -/
theorem configureCsiPart2_accepted {s : State} {tag : BitVec 8} {bits : BitVec 11} {g2 gu : BitVec 24} {b : Nat} {x : Bundle}
    {t : TbCtx} (hb : s.bundleOfTag tag = some b) (hx : s.bundles[b]? = some x) (await : x.dm.csi2State = .await)
    (ht : s.tbs[x.tbx]? = some t) (checked : checkAll (configureChecks s.params x t bits.toNat g2.toNat gu.toNat) = .ok ())
    (ready : x.csi2.port.isOpen = true ∧ x.csi2.port.count = 0 ∧ x.csi2.port.bound = .null) (collecting : t.fsm = .collecting)
    (fits : t.sch.count ≤ gu.toNat) :
    configureCsiPart2 tag bits g2 gu s =
      .ok { (s.record (.configureCsiPart2 tag bits g2 gu)).record (.setNofSoftbits (BitVec.ofNat 8 x.tbx)) with
        a2 := argWord gu
        bundles := s.bundles.set b
          { (x.modUci .csi2 fun u => { u with port := { u.port with bound := .real } }).configure bits.toNat g2.toNat with
            phase := .resume }
        tbs := s.tbs.set x.tbx { t with g := gu.toNat } } := by
  have unset : x.dm.csi2State ≠ .configured := by rw [await]; decide
  refine bind_eq_ok.2 ⟨b, need_eq_ok.2 hb, bind_eq_ok.2 ⟨x, getBundle_eq_ok.2 hx, bind_eq_ok.2 ⟨(), check_pos unset,
    bind_eq_ok.2 ⟨(), check_pos await, bind_eq_ok.2 ⟨t, getTb_eq_ok.2 ht, bind_eq_ok.2 ⟨(), checked,
      bind_eq_ok.2 ⟨_, rebindPort_uci hx ready, bind_eq_ok.2 ⟨_, setNofSoftbits_of_collecting ht collecting fits, ?_⟩⟩⟩⟩⟩⟩⟩⟩
  simp only [State.modBundle, State.record_bundles, set_modify]
  rfl

/-- Settles O29: the budgets pass the checks, and `configureCsiPart2_accepted` says what follows. -/
theorem configureCsiPart2Accepts : Obligations.ConfigureCsiPart2Accepts := by
  intro s tag bits g2 gu b x t running hb hx await ht collecting fits opened unused null multiple bitsLow bitsHigh g2Low g2High
    csi2 sch guHigh eOk
  have checked := configureChecks_pass multiple bitsLow bitsHigh g2Low g2High csi2 sch guHigh eOk
  exact runOp_ok running (configureCsiPart2_accepted hb hx await ht checked ⟨opened, unused, null⟩ collecting fits)

end Sys2Proof.Machine
end

section
/-!
PROOFS. DEMUX_FLUSH where no field port has anything to decode (spec/41_demux.md R252).
-/

namespace Sys2Proof.Machine

/-! ### The field ports' closes (R204, R206) -/

theorem FieldUnit.shut_of_closed {u : FieldUnit} (closed : ¬ u.port.isOpen = true) : u.shut = u := if_neg closed

theorem modUci_shut_of_closed {x : Bundle} {f : UciField} (closed : ¬ (x.uci f).port.isOpen = true) :
    x.modUci f FieldUnit.shut = x := by
  have shut := FieldUnit.shut_of_closed closed
  cases f <;> simp only [Bundle.modUci, Bundle.uci] at shut ⊢ <;> rw [shut]

/-- The words of the flush's close of a field port, where it issues one (R252). -/
def FieldUnit.closeWords (u : FieldUnit) (id : BitVec 4) (b : BitVec 8) : List Word :=
  if u.port.isOpen = true then encode (.close id b) else []

/-- The flush's close of a field that decodes nothing, with the words that `flushField_of_quiet` leaves open (R252). -/
theorem flushField_quiet_eq {s : State} {b : BitVec 8} {f : UciField} {x : Bundle} (hx : s.bundles[b.toNat]? = some x)
    (quiet : (x.uci f).quiet) :
    flushField b.toNat f s = .ok { s.log ((x.uci f).closeWords (PortRef.uci f b.toNat).id b) with
      bundles := s.bundles.set b.toNat (x.modUci f FieldUnit.shut) } := by
  have hp : s.port? (.uci f b.toNat) = some (x.uci f).port := Option.map_eq_some_iff.2 ⟨x, hx, rfl⟩
  refine bind_eq_ok.2 ⟨_, getPort_eq_ok.2 hp, ?_⟩
  by_cases opened : (x.uci f).port.isOpen = true
  case pos =>
    rw [if_pos opened, FieldUnit.closeWords, if_pos opened]
    refine closeWith_eq_ok.2 ⟨_, (record_port? _ _ _).trans hp, opened, whenReal_eq_ok.2 (.inl ⟨quiet opened, ?_⟩)⟩
    rw [modPort_uci_shut (s := s.record _) hx opened, PortRef.owner, ofNat_toNat_self]
    rfl
  case neg =>
    rw [if_neg opened, FieldUnit.closeWords, if_neg opened, modUci_shut_of_closed opened, set_self hx, State.log, List.append_nil]

/-- The flush of the three field ports, where none of them decodes anything (R252). -/
theorem flushFields_quiet_eq {s : State} {b : BitVec 8} {x : Bundle} (hx : s.bundles[b.toNat]? = some x)
    (ack : x.ack.quiet) (csi1 : x.csi1.quiet) (csi2 : x.csi2.quiet) {α : Type} (k : State → Except Stop α) :
    (do
      let s ← flushField b.toNat .ack s
      let s ← flushField b.toNat .csi1 s
      let s ← flushField b.toNat .csi2 s
      k (s.modBundle b.toNat Bundle.decline)) =
      k { s.log (x.closeWords b) with bundles := s.bundles.set b.toNat x.flushed } := by
  have hx1 := getElem?_set_found (x.modUci .ack FieldUnit.shut) hx
  have hx2 := getElem?_set_found ((x.modUci .ack FieldUnit.shut).modUci .csi1 FieldUnit.shut) hx1
  rw [flushField_quiet_eq (f := .ack) hx ack, ok_bind,
    flushField_quiet_eq (f := .csi1) (x := x.modUci .ack FieldUnit.shut) hx1 csi1, ok_bind,
    flushField_quiet_eq (f := .csi2) (x := (x.modUci .ack FieldUnit.shut).modUci .csi1 FieldUnit.shut) hx2 csi2, ok_bind,
    State.modBundle, set_modify, decline_shut]
  simp only [State.log, List.set_set, List.append_assoc, Bundle.closeWords]
  rfl

/-! ### The close of SCH (R204, R336) -/

/-- The close of an OPEN, REAL SCH port dispatches the transport block. -/
theorem issueClose_sch {s : State} {t : Nat} {c : TbCtx} (hc : s.tbs[t]? = some c) (opened : c.sch.isOpen = true)
    (real : c.sch.bound = .real) :
    issueClose consumeFlush (.sch t) s = closeDispatch t { s.record (.close 1#4 (BitVec.ofNat 8 t)) with
      tbs := s.tbs.set t { c with sch := { c.sch with isOpen := false, viewLen := 0 } } } := by
  have port : s.port? (.sch t) = some c.sch := Option.map_eq_some_iff.2 ⟨c, hc, rfl⟩
  simp only [issueClose, closeWith, getPort_eq_ok.2 ((record_port? _ _ _).trans port), ok_bind, check_pos opened, whenReal, real,
    reduceCtorEq, if_false, consumeFlush, State.modPort, modTb_eq_set (s := s.record _) _ hc, PortRef.id, PortRef.owner,
    State.record_tbs]

/-! ### DEMUX_FLUSH (R252) -/

/-- The state in which DEMUX_FLUSH dispatches the transport block: the field ports and SCH closed. -/
def State.flushedTo (s : State) (b : BitVec 8) (x : Bundle) (c : TbCtx) : State :=
  { s with
    trace := s.trace ++ encode (.demuxFlush b) ++ x.closeWords b ++ encode (.close 1#4 (BitVec.ofNat 8 x.tbx))
    bundles := s.bundles.set b.toNat x.flushed
    tbs := s.tbs.set x.tbx { c with sch := { c.sch with isOpen := false, viewLen := 0 } } }

/-- The fields decode nothing, so what is left of the flush is CLOSE_DISPATCH. -/
theorem demuxFlush_eq {s : State} {b : BitVec 8} {x : Bundle} {c : TbCtx} (hx : s.bundles[b.toNat]? = some x)
    (hc : s.tbs[x.tbx]? = some c) (complete : x.dm.symCnt = 0) (ack : x.ack.quiet) (csi1 : x.csi1.quiet) (csi2 : x.csi2.quiet)
    (opened : c.sch.isOpen = true) (real : c.sch.bound = .real) :
    demuxFlush b.toNat s = closeDispatch x.tbx (s.flushedTo b x c) := by
  have bundle : (s.record (.demuxFlush b)).getBundle b.toNat = .ok x := getBundle_eq_ok.2 hx
  have fields := flushFields_quiet_eq (s := s.record (.demuxFlush b)) hx ack csi1 csi2 (issueClose consumeFlush (.sch x.tbx))
  simp only [demuxFlush, ofNat_toNat_self, bundle, ok_bind, check_pos complete, fields]
  exact issueClose_sch (s := { (s.record (.demuxFlush b)).log (x.closeWords b) with
    bundles := s.bundles.set b.toNat x.flushed }) hc opened real

/-- A partial symbol stops the flush (R252). -/
theorem demuxFlush_partial {s : State} {b : Nat} {x : Bundle} (hx : s.bundles[b]? = some x) (part : x.dm.symCnt ≠ 0) :
    demuxFlush b s = .error (.fatal .stateViolation) := by
  have bundle : (s.record (.demuxFlush (BitVec.ofNat 8 b))).getBundle b = .ok x := getBundle_eq_ok.2 hx
  simp only [demuxFlush, bundle, ok_bind, check_neg part, error_bind]

theorem flushedTo_dispatchable {s : State} {b : BitVec 8} {x : Bundle} {c : TbCtx} (hc : s.tbs[x.tbx]? = some c)
    (h : s.dispatchable x.tbx) : (s.flushedTo b x c).dispatchable x.tbx := by
  obtain ⟨c', y, hc', rest⟩ := h
  obtain rfl := Option.some.inj (hc'.symm.trans hc)
  exact ⟨_, y, getElem?_set_found _ hc, rest⟩

/-- Settles O53: `demuxFlush_eq` makes the flush CLOSE_DISPATCH in the state `s1`, which is `Quiet` and completes where the queue
takes all tasks. -/
theorem demuxFlushResult : Obligations.DemuxFlushResult := by
  intro s b x c running hx hc small t s1
  have self : t.toNat = x.tbx := (BitVec.toNat_ofNat _ _).trans (Nat.mod_eq_of_lt small)
  refine ⟨fun complete ack csi1 csi2 opened real => ?_, fun part => runOp_fatalError running (demuxFlush_partial hx part)⟩
  have op : demuxFlush b.toNat s = closeDispatch t.toNat s1 := by
    rw [self]
    exact demuxFlush_eq hx hc complete ack csi1 csi2 opened real
  refine ⟨fun u run unheld unfatal => ?_, fun dispatchable => ?_⟩
  · exact runOp_ok running (op.trans ((closeDispatch_quiet _ _).completed run unheld unfatal))
  · obtain ⟨ws, tbs, tasks, done⟩ := closeDispatch_of_dispatchable (flushedTo_dispatchable (b := b) hc dispatchable)
    rw [← self] at done
    exact ⟨_, runOp_ok running done, runOp_ok running (op.trans done)⟩

end Sys2Proof.Machine
end

section
/-!
PROOFS. The rate-matched lengths (spec/42_cb_decoder.md R288, R289), and the codeblock tasks CB_DECODE and CB_RATE_DEMATCH
(R300, R305) up to their completion (spec/43_tb_decoder.md R343, R346).
-/

namespace Sys2Proof.Machine

/-! ### The rate-matched lengths (R288, R289) -/

section
variable {c m g r : Nat}

/-- One of the first `c - q % c` codeblocks, the shorter ones. -/
theorem rateMatchedLen_shorter (short : r + g / m % c < c) : rateMatchedLen c m g r = m * (g / m / c) := if_pos short

/-- One of the last `q % c` codeblocks, which takes one symbol more. -/
theorem rateMatchedLen_longer (inBlock : r < c) (long : c ≤ r + g / m % c) :
    rateMatchedLen c m g r = m * (g / m / c + 1) := by
  have roundedUp : (g / m + c - 1) / c = g / m / c + 1 := by
    have positive := Nat.zero_lt_of_lt inBlock
    have below := Nat.mod_lt (g / m) positive
    have split : g / m + c - 1 = g / m % c - 1 + c * (g / m / c + 1) := by
      have := Nat.div_add_mod (g / m) c
      rw [Nat.mul_succ]
      omega
    rw [split, Nat.add_mul_div_left _ _ positive, Nat.div_eq_of_lt (by omega), Nat.zero_add]
  exact (if_neg (by omega)).trans (by rw [roundedUp])

theorem rateMatchedOffset_succ : rateMatchedOffset c m g (r + 1) = rateMatchedOffset c m g r + rateMatchedLen c m g r := by
  simp [rateMatchedOffset, List.range_succ]

/-- Before codeblock `r` there are `r` codeblocks of `q / c` symbols, and one more symbol for each longer one among them. -/
theorem rateMatchedOffset_eq (le : r ≤ c) :
    rateMatchedOffset c m g r = m * (r * (g / m / c) + (r - (c - g / m % c))) := by
  induction r with
  | zero => simp [rateMatchedOffset]
  | succ r ih =>
    rw [rateMatchedOffset_succ, ih (Nat.le_of_succ_le le)]
    rcases Nat.lt_or_ge (r + g / m % c) c with short | long
    · have shorterOnly : r - (c - g / m % c) = 0 ∧ r + 1 - (c - g / m % c) = 0 := by omega
      rw [rateMatchedLen_shorter short, shorterOnly.1, shorterOnly.2]
      ring
    · have oneMore : r + 1 - (c - g / m % c) = r - (c - g / m % c) + 1 := by
        have below := Nat.mod_lt (g / m) (Nat.zero_lt_of_lt le)
        omega
      rw [rateMatchedLen_longer le long, oneMore]
      ring

/-- The codeblocks take all soft bits (R288). -/
theorem rateMatchedOffset_all (positive : 0 < c) (whole : g % m = 0) : rateMatchedOffset c m g c = g := by
  have longer : c - (c - g / m % c) = g / m % c := Nat.sub_sub_self (Nat.mod_lt _ positive).le
  rw [rateMatchedOffset_eq le_rfl, longer, Nat.div_add_mod, Nat.mul_div_cancel' (Nat.dvd_of_mod_eq_zero whole)]

/-- Where there are symbols for all codeblocks, each takes one at least (R288). -/
theorem rateMatchedLen_pos (inBlock : r < c) (enough : c ≤ g / m) : m ≤ rateMatchedLen c m g r := by
  have share : 0 < g / m / c := Nat.div_pos enough (Nat.zero_lt_of_lt inBlock)
  rcases Nat.lt_or_ge (r + g / m % c) c with short | long
  · exact rateMatchedLen_shorter short ▸ Nat.le_mul_of_pos_right m share
  · exact rateMatchedLen_longer inBlock long ▸ Nat.le_mul_of_pos_right m (Nat.succ_pos _)

end

/-- Settles O40: the lengths' sum is the last offset, which `rateMatchedOffset_eq` counts in symbols. -/
theorem rateMatchedLengths : Obligations.RateMatchedLengths := by
  intro c m g positive _ whole q
  refine ⟨rateMatchedOffset_all positive whole, rfl, rateMatchedOffset_all positive whole, fun r inBlock => ?_⟩
  exact ⟨rateMatchedLen_shorter, rateMatchedLen_longer inBlock, rateMatchedLen_pos inBlock, rateMatchedOffset_succ⟩

/-! ### CB_COMPLETE (R343) -/

/-- Work is still outstanding, or close() has not returned: the completion only counts. -/
theorem cbComplete_counts {s : State} {t : BitVec 8} {r : BitVec 16} {x : TbCtx} (hx : s.tbs[t.toNat]? = some x)
    (noJoin : 2 ≤ x.counter ∨ (x.counter = 1 ∧ x.fsm = .collecting)) :
    cbComplete t.toNat r.toNat s = .ok { s.record (.cbComplete t r) with
      tbs := s.tbs.set t.toNat { x with counter := x.counter - 1, fsm := if x.counter = 1 then .decoded else x.fsm } } := by
  have context : (s.record (.cbComplete t r)).getTb t.toNat = .ok x := getTb_eq_ok.2 hx
  have outstanding : x.counter ≠ 0 := by omega
  simp only [cbComplete, ofNat_toNat_self, context, ok_bind, check_pos outstanding]
  rcases noJoin with more | ⟨last, collecting⟩
  · have left : x.counter - 1 ≠ 0 ∧ x.counter ≠ 1 := by omega
    rw [if_pos left.1, if_neg left.2, modTb_eq_set (s := s.record _) _ hx]
    rfl
  · simp only [last, collecting, ne_eq, not_true_eq_false, if_false, if_true, modTb_modTb]
    rw [modTb_eq_set (s := s.record _) _ hx]
    simp [last]

/-- The last completion after close() has returned joins. -/
theorem cbComplete_joins {s : State} {t : BitVec 8} {r : BitVec 16} {x : TbCtx} (hx : s.tbs[t.toNat]? = some x)
    (last : x.counter = 1) (decoding : x.fsm = .decoding) :
    cbComplete t.toNat r.toNat s =
      tbJoin t.toNat { s.record (.cbComplete t r) with tbs := s.tbs.set t.toNat { x with counter := 0 } } := by
  have context : (s.record (.cbComplete t r)).getTb t.toNat = .ok x := getTb_eq_ok.2 hx
  have outstanding : x.counter ≠ 0 := by omega
  have finished : ¬ x.counter - 1 ≠ 0 := by omega
  simp only [cbComplete, ofNat_toNat_self, context, ok_bind, check_pos outstanding, if_neg finished, decoding]
  rw [modTb_eq_set (s := s.record _) _ hx, last, decoding]
  rfl

/-! ### CB_DECODE and CB_RATE_DEMATCH up to their completion (R300, R305) -/

/-- What a codeblock task finds: its context `x` at work, the handle LOCKED, the codeblock's buffer, and its new soft bits.
`Tests.witness_CodeblockTasks` meets it. -/
structure State.HasTask (s : State) (t r : Nat) (x : TbCtx) (h : Harq) (cb : CbBuf) (f : List Llr) : Prop where
  context : s.tbs[t]? = some x
  handle : s.harq[x.handle]? = some h
  locked : h.hstate = .locked
  working : x.fsm = .collecting ∨ x.fsm = .decoding
  inBlock : r < x.seg.c
  buffer : h.cbs[r]? = some cb
  softBits : x.newLlrs r = some f

/-- The context with codeblock `r`'s iteration count and its DECODED flag. -/
def TbCtx.noted (x : TbCtx) (r k : Nat) (decoded : Bool) : TbCtx :=
  { x with iter := x.iter.set r k, decoded := x.decoded.set r decoded }

/-- The state in which the task completes: codeblock `r`'s buffer is `cb`, and the context has noted the task. -/
def State.afterTask (s : State) (t r : Nat) (x : TbCtx) (h : Harq) (cb : CbBuf) (k : Nat) (decoded : Bool) : State :=
  { s with
    harq := s.harq.set x.handle { h with cbs := h.cbs.set r cb }
    tbs := s.tbs.set t (x.noted r k decoded) }

section
variable {s : State} {t : BitVec 8} {r : BitVec 16} {x : TbCtx} {h : Harq} {cb : CbBuf} {f : List Llr}

theorem State.HasTask.record {t r : Nat} (task : s.HasTask t r x h cb f) (i : Instr) : (s.record i).HasTask t r x h cb f :=
  { task with }

theorem taskContext_of_hasTask {t r : Nat} (task : s.HasTask t r x h cb f) : taskContext t r s = .ok (x, cb) := by
  have due : h.hstate = .locked ∧ (x.fsm = .collecting ∨ x.fsm = .decoding) ∧ r < x.seg.c :=
    ⟨task.locked, task.working, task.inBlock⟩
  simp only [taskContext, getTb_eq_ok.2 task.context, getHarq_eq_ok.2 task.handle, ok_bind, check_pos due,
    need_eq_ok.2 task.buffer]

/-- The task's two writes, to the codeblock's buffer and to the context. -/
theorem afterTask_eq {t r : Nat} (task : s.HasTask t r x h cb f) (g : CbBuf → CbBuf) (k : TbCtx → Nat) (decoded : Bool) :
    (s.modHarq x.handle (fun h => h.modCb r g)).modTb t
      (fun x => { x with iter := x.iter.set r (k x), decoded := x.decoded.set r decoded }) =
      s.afterTask t r x h (g cb) (k x) decoded := by
  rw [modTb_eq_set (s := s.modHarq _ _) _ task.context, modHarq_eq_set _ task.handle, Harq.modCb, modify_set g task.buffer]
  rfl

theorem cbDecode_of_hasTask (task : s.HasTask t.toNat r.toNat x h cb f) :
    let buf := rateDematch s.params x.seg x.qm x.newData cb.llr f
    let out := x.decodeLlrs buf
    cbDecode t.toNat r.toNat s = cbComplete t.toNat r.toNat ((s.record (.cbDecode t r)).afterTask t.toNat r.toNat x h
      ⟨buf, out.2.take x.seg.kPrime, out.1.isSome⟩ (out.1.getD x.maxIter) true) := by
  intro buf out
  have writes := afterTask_eq (task.record (.cbDecode t r))
    (fun _ => ⟨buf, out.2.take x.seg.kPrime, out.1.isSome⟩) (fun x => out.1.getD x.maxIter) true
  rw [← writes]
  simp only [cbDecode, ofNat_toNat_self, taskContext_of_hasTask (task.record _), ok_bind, need_eq_ok.2 task.softBits]
  rfl

theorem cbRateDematch_of_hasTask (task : s.HasTask t.toNat r.toNat x h cb f) :
    cbRateDematch t.toNat r.toNat s = cbComplete t.toNat r.toNat ((s.record (.cbRateDematch t r)).afterTask t.toNat r.toNat x h
      { cb with llr := rateDematch s.params x.seg x.qm x.newData cb.llr f } 0 false) := by
  have writes := afterTask_eq (task.record (.cbRateDematch t r))
    (fun old => { old with llr := rateDematch s.params x.seg x.qm x.newData cb.llr f }) (fun _ => 0) false
  rw [← writes]
  simp only [cbRateDematch, ofNat_toNat_self, taskContext_of_hasTask (task.record _), ok_bind, need_eq_ok.2 task.softBits]
  rfl

/-! ### The tasks complete (R343, R346) -/

/-- A task whose completion only counts. -/
theorem afterTask_counts (task : s.HasTask t.toNat r.toNat x h cb f)
    (noJoin : 2 ≤ x.counter ∨ (x.counter = 1 ∧ x.fsm = .collecting)) (out : CbBuf) (k : Nat) (decoded : Bool) :
    cbComplete t.toNat r.toNat (s.afterTask t.toNat r.toNat x h out k decoded) = .ok { s.record (.cbComplete t r) with
      harq := s.harq.set x.handle { h with cbs := h.cbs.set r.toNat out }
      tbs := s.tbs.set t.toNat { x.noted r.toNat k decoded with
        counter := x.counter - 1
        fsm := if x.counter = 1 then .decoded else x.fsm } } := by
  have found := getElem?_set_found (x.noted r.toNat k decoded) task.context
  rw [cbComplete_counts (s := s.afterTask _ _ _ _ _ _ _) found noJoin]
  simp only [State.afterTask, List.set_set]
  rfl

/-- A task whose completion joins. -/
theorem afterTask_joins (task : s.HasTask t.toNat r.toNat x h cb f) (last : x.counter = 1) (decoding : x.fsm = .decoding)
    (out : CbBuf) (k : Nat) (decoded : Bool) :
    cbComplete t.toNat r.toNat (s.afterTask t.toNat r.toNat x h out k decoded) =
      tbJoin t.toNat { s.record (.cbComplete t r) with
        harq := s.harq.set x.handle { h with cbs := h.cbs.set r.toNat out }
        tbs := s.tbs.set t.toNat { x.noted r.toNat k decoded with counter := 0 } } := by
  have found := getElem?_set_found (x.noted r.toNat k decoded) task.context
  rw [cbComplete_joins (s := s.afterTask _ _ _ _ _ _ _) found last decoding]
  simp only [State.afterTask, List.set_set]
  rfl

end

/-- Settles O42: each task is its two writes and a CB_COMPLETE, which only counts. -/
theorem codeblockTasks : Obligations.CodeblockTasks := by
  intro s t r x h cb f running hx hh locked working inBlock hcb hf noJoin buf out done
  have task : s.HasTask t.toNat r.toNat x h cb f := ⟨hx, hh, locked, working, inBlock, hcb, hf⟩
  constructor
  · exact runOp_ok running ((cbDecode_of_hasTask task).trans (afterTask_counts (task.record _) noJoin _ _ _))
  · exact runOp_ok running ((cbRateDematch_of_hasTask task).trans (afterTask_counts (task.record _) noJoin _ _ _))

/-- Settles O43: each task is its two writes and a CB_COMPLETE, which joins; TB_JOIN is `Quiet`, so that it completes in both
operations alike. -/
theorem lastTaskJoins : Obligations.LastTaskJoins := by
  intro s t r x h cb f u running hx hh locked decoding inBlock hcb hf last unheld unfatal buf out decoded dematched
  have task : s.HasTask t.toNat r.toNat x h cb f := ⟨hx, hh, locked, .inr decoding, inBlock, hcb, hf⟩
  constructor <;> intro joined <;> have join := (tbJoin_quiet _ _).completed joined unheld unfatal
  · exact runOp_ok running ((cbDecode_of_hasTask task).trans
      ((afterTask_joins (task.record _) last decoding _ _ _).trans join))
  · exact runOp_ok running ((cbRateDematch_of_hasTask task).trans
      ((afterTask_joins (task.record _) last decoding _ _ _).trans join))

end Sys2Proof.Machine
end

section
/-!
PROOFS. TB_CONFIGURE and SET_NOF_SOFTBITS (spec/43_tb_decoder.md R330, R331, R334).
-/

namespace Sys2Proof.Machine

/-! ### TB_CONFIGURE (R330, R331) -/

/-- A context at work is not configured again (R330). -/
theorem tbConfigure_notIdle {s : State} {t b : Nat} {c : TbCtx} (hc : s.tbs[t]? = some c) (working : c.fsm ≠ .idle) :
    tbConfigure t b s = .error (.fatal .stateViolation) := by
  have context : (s.record (.tbConfigure (BitVec.ofNat 8 t))).getTb t = .ok c := getTb_eq_ok.2 hc
  simp only [tbConfigure, context, ok_bind, check_neg working, error_bind]

/-- A LOCKED handle is not leased again (R331). -/
theorem harqLease_locked {s : State} {t : Nat} {c : TbCtx} {h : Harq} (hc : s.tbs[t]? = some c)
    (hh : s.harq[c.handle]? = some h) (locked : h.hstate = .locked) :
    harqLease t s = .error (.fatal .harqOverwriteLocked) := by
  simp only [harqLease, getTb_eq_ok.2 hc, getHarq_eq_ok.2 hh, ok_bind, check_neg (not_not_intro locked), error_bind]

/-- The lease is the one step of TB_CONFIGURE that stops an IDLE context. -/
theorem tbConfigure_locked {s : State} {t b : Nat} {y : Bundle} {c : TbCtx} {h : Harq} (disposed : s.undisposed t = false)
    (hy : s.bundles[b]? = some y) (hc : s.tbs[t]? = some c) (idle : c.fsm = .idle)
    (hh : s.harq[harqHandle y.d]? = some h) (locked : h.hstate = .locked) :
    tbConfigure t b s = .error (.fatal .harqOverwriteLocked) := by
  obtain ⟨r, hr⟩ : ∃ r, r = s.record (.tbConfigure (BitVec.ofNat 8 t)) := ⟨_, rfl⟩
  have context : r.tbs[t]? = some c := by rw [hr]; exact hc
  have checked : assertDisposed t r = .ok r := assertDisposed_eq_ok.2 ⟨by rw [hr]; exact disposed, rfl⟩
  have bundle : r.getBundle b = .ok y := getBundle_eq_ok.2 (by rw [hr]; exact hy)
  have handle : r.harq[harqHandle y.d]? = some h := by rw [hr]; exact hh
  have stopped : harqLease t (r.modTb t fun c => c.latch y.tag y.d r.decCfg) = .error (.fatal .harqOverwriteLocked) :=
    harqLease_locked (getElem?_modify_self _ context) handle locked
  simp only [tbConfigure, ← hr, getTb_eq_ok.2 context, ok_bind, check_pos idle, checked, bundle, stopped, error_bind]

/-- TB_CONFIGURE's word is run for the bundle it stands for (log 14). -/
theorem exec_tbConfigure {s : State} {t : BitVec 8} {b : Nat} (hb : s.bundleConfiguring t.toNat = some b) :
    exec (.tbConfigure t) s = runOp (.tbConfigure t) 0#8 (tbConfigure t.toNat b) s := by
  simp only [exec, execTbConfigure, runOp, need_eq_ok.2 hb, ok_bind]

/-- Settles O56: of the checks of TB_CONFIGURE, that of R348 passes in an `Exclusive` state; the other two are the two stops. -/
theorem tbConfigureResult : Obligations.TbConfigureResult := by
  intro s t b x y h running he hb hy hx hh stopped
  have disposed := undisposed_false he (t := t.toNat)
  rw [exec_tbConfigure hb]
  refine ⟨fun working => ?_, fun idle locked => ?_, fun idle unlocked => ?_⟩
  · exact runOp_fatalError running (tbConfigure_notIdle hx working)
  · exact runOp_fatalError running (tbConfigure_locked disposed hy hx idle hh locked)
  · have configured := tbConfigure_of_idle disposed hy hx idle hh unlocked
    rw [ofNat_toNat_self] at configured
    exact runOp_ok running configured

/-! ### SET_NOF_SOFTBITS (R334) -/

theorem setNofSoftbits_notCollecting {s : State} {t g : Nat} {c : TbCtx} (hc : s.tbs[t]? = some c) (other : c.fsm ≠ .collecting) :
    setNofSoftbits t g s = .error (.fatal .stateViolation) := by
  have context : (s.record (.setNofSoftbits (BitVec.ofNat 8 t))).getTb t = .ok c := getTb_eq_ok.2 hc
  simp only [setNofSoftbits, context, ok_bind, check_neg other, error_bind]

/-- SCH has counted more soft bits than the budget allows (R334). -/
theorem setNofSoftbits_exceeded {s : State} {t g : Nat} {c : TbCtx} (hc : s.tbs[t]? = some c) (collecting : c.fsm = .collecting)
    (more : g < c.sch.count) : setNofSoftbits t g s = .error (.fatal .cwOverflow) := by
  have context : (s.record (.setNofSoftbits (BitVec.ofNat 8 t))).getTb t = .ok c := getTb_eq_ok.2 hc
  simp only [setNofSoftbits, context, ok_bind, check_pos collecting, check_neg (Nat.not_le.2 more), error_bind]

/-- Settles O57: one case for each way through the two checks. -/
theorem setNofSoftbitsResult : Obligations.SetNofSoftbitsResult := by
  intro s t x running hx g
  refine ⟨fun collecting fits => ?_, fun collecting more => ?_, fun other => ?_⟩
  · have given := setNofSoftbits_of_collecting hx collecting fits
    rw [ofNat_toNat_self] at given
    exact runOp_ok running given
  · exact runOp_fatalError running (setNofSoftbits_exceeded hx collecting more)
  · exact runOp_fatalError running (setNofSoftbits_notCollecting hx other)

end Sys2Proof.Machine
end

section
/-!
PROOFS. CLOSE_COMMIT, CB_COMPLETE and the COMMIT step (spec/43_tb_decoder.md R329, R338, R343; spec/45_sequencer.md R434).
-/

namespace Sys2Proof.Machine

/-! ### CLOSE_COMMIT (R338) -/

section
variable {s : State} {t : BitVec 8} {x : TbCtx} (hx : s.tbs[t.toNat]? = some x)
include hx

theorem closeCommit_collecting (collecting : x.fsm = .collecting) :
    closeCommit t.toNat s = .ok { s.record (.closeCommit t) with tbs := s.tbs.set t.toNat { x with fsm := .decoding } } := by
  have context : (s.record (.closeCommit t)).getTb t.toNat = .ok x := getTb_eq_ok.2 hx
  simp only [closeCommit, ofNat_toNat_self, context, ok_bind, collecting]
  exact congrArg Except.ok (modTb_eq_set (s := s.record _) _ hx)

theorem closeCommit_decoded (decoded : x.fsm = .decoded) :
    closeCommit t.toNat s = tbJoin t.toNat (s.record (.closeCommit t)) := by
  have context : (s.record (.closeCommit t)).getTb t.toNat = .ok x := getTb_eq_ok.2 hx
  simp only [closeCommit, ofNat_toNat_self, context, ok_bind, decoded]

theorem closeCommit_stopped (other : x.fsm = .idle ∨ x.fsm = .decoding) :
    closeCommit t.toNat s = .error (.fatal .stateViolation) := by
  have context : (s.record (.closeCommit t)).getTb t.toNat = .ok x := getTb_eq_ok.2 hx
  rcases other with idle | decoding
  · simp only [closeCommit, ofNat_toNat_self, context, ok_bind, idle]
  · simp only [closeCommit, ofNat_toNat_self, context, ok_bind, decoding]

end

/-! ### CB_COMPLETE stopped (R343) -/

section
variable {s : State} {t : BitVec 8} {r : BitVec 16} {x : TbCtx} (hx : s.tbs[t.toNat]? = some x)
include hx

/-- No codeblock is outstanding: the notification is a second one. -/
theorem cbComplete_doubleNotify (notDue : x.counter = 0) : cbComplete t.toNat r.toNat s = .error (.fatal .doubleNotify) := by
  have context : (s.record (.cbComplete t r)).getTb t.toNat = .ok x := getTb_eq_ok.2 hx
  simp only [cbComplete, ofNat_toNat_self, context, ok_bind, check_neg (not_not_intro notDue), error_bind]

/-- The last codeblock completes in a context that has none at work. -/
theorem cbComplete_stopped (last : x.counter = 1) (other : x.fsm = .idle ∨ x.fsm = .decoded) :
    cbComplete t.toNat r.toNat s = .error (.fatal .stateViolation) := by
  have context : (s.record (.cbComplete t r)).getTb t.toNat = .ok x := getTb_eq_ok.2 hx
  have outstanding : x.counter ≠ 0 := by omega
  have finished : ¬ x.counter - 1 ≠ 0 := by omega
  simp only [cbComplete, ofNat_toNat_self, context, ok_bind, check_pos outstanding, if_neg finished]
  rcases other with idle | decoded
  · rw [idle]
  · rw [decoded]

end

/-! ### What TB_CONFIGURE latched outlives the decoder's later operations (R330, R336, R343) -/

/-- From `s` to `u`, the bundles are left alone, and TB context `t` keeps its handle and whether its data is new. -/
structure State.KeepsLatched (t : Nat) (s u : State) : Prop where
  bundles : u.bundles = s.bundles
  context : ∀ x, s.tbs[t]? = some x → ∃ y, u.tbs[t]? = some y ∧ y.handle = x.handle ∧ y.newData = x.newData

theorem State.KeepsLatched.of_eq {t : Nat} {s u : State} (hb : u.bundles = s.bundles) (ht : u.tbs = s.tbs) :
    State.KeepsLatched t s u := ⟨hb, fun x hx => ⟨x, by rw [ht, hx], rfl, rfl⟩⟩

theorem State.KeepsLatched.trans {t : Nat} {s u v : State} (h : State.KeepsLatched t s u) (k : State.KeepsLatched t u v) :
    State.KeepsLatched t s v := by
  refine ⟨k.bundles.trans h.bundles, fun x hx => ?_⟩
  obtain ⟨y, hy, handle, newData⟩ := h.context x hx
  obtain ⟨z, hz, handle', newData'⟩ := k.context y hy
  exact ⟨z, hz, handle'.trans handle, newData'.trans newData⟩

theorem modTb_keepsLatched (s : State) (t : Nat) {g : TbCtx → TbCtx}
    (h : ∀ x, (g x).handle = x.handle ∧ (g x).newData = x.newData) : State.KeepsLatched t s (s.modTb t g) :=
  ⟨rfl, fun x hx => ⟨g x, getElem?_modify_self g hx, h x⟩⟩

theorem tbJoin_keepsLatched {t : Nat} {s u : State} (h : tbJoin t s = .ok u) : State.KeepsLatched t s u := by
  simp only [tbJoin, bind_eq_ok, getTb_eq_ok, getHarq_eq_ok, check_eq_ok, need_eq_ok, assertDisposed_eq_ok, emit_eq_ok,
    exists_and_left, exists_const] at h
  obtain ⟨x, -, -, y, -, cbs, -, j, -, -, v, ⟨-, rfl⟩, -, rfl⟩ := h
  obtain ⟨ws, m, n, written⟩ := (writeBlock_blockWritten (s.record (.tbJoin (BitVec.ofNat 8 t))) x j).frame
  have block : State.KeepsLatched t s ((s.record (.tbJoin (BitVec.ofNat 8 t))).writeBlock x j) := by
    rw [written]
    exact .of_eq rfl rfl
  refine State.KeepsLatched.trans ?_ (modTb_keepsLatched _ t fun _ => ⟨rfl, rfl⟩)
  exact block.trans (.of_eq rfl rfl)

theorem closeCommit_keepsLatched {t : Nat} {s u : State} (h : closeCommit t s = .ok u) : State.KeepsLatched t s u := by
  have recorded : State.KeepsLatched t s (s.record (.closeCommit (BitVec.ofNat 8 t))) := .of_eq rfl rfl
  simp only [closeCommit, bind_eq_ok, getTb_eq_ok] at h
  obtain ⟨x, -, h⟩ := h
  cases hf : x.fsm <;> simp only [hf] at h
  case collecting => cases h; exact recorded.trans (modTb_keepsLatched _ _ fun _ => ⟨rfl, rfl⟩)
  case decoded => exact recorded.trans (tbJoin_keepsLatched h)
  all_goals cases h

/-! ### The COMMIT step (R434) -/

/-- A bundle in phase COMMIT runs CLOSE_COMMIT of its context. -/
theorem stepSeq_commit {s : State} {b : Nat} {y : Bundle} (hy : s.bundles[b]? = some y) (phase : y.phase = .commit) :
    stepSeq b s = commitStep b y.tbx s := by simp only [stepSeq, hy, phase]

theorem commitStep_completed {s u : State} {b t : Nat} (run : exec (.closeCommit (BitVec.ofNat 8 t)) s = .next u)
    (unheld : u.held = false) (unfatal : u.fatal = false) :
    commitStep b t s = .next (u.modBundle b fun x => { x with phase := .free }) := by
  have completed : ¬ (u.held = true ∨ u.fatal = true) := by simp [unheld, unfatal]
  simp only [commitStep, run, if_neg completed]

/-- Settles O59: the lemmas above and those of CB_COMPLETE give each clause its way through the operation; the joins complete in
both operations alike because TB_JOIN is `Quiet`, and CLOSE_COMMIT leaves the bundles to the COMMIT step. -/
theorem commitAndComplete : Obligations.CommitAndComplete := by
  intro s t r x running hx stopped counted
  refine ⟨?collecting, ?decoded, ?notCommitted, ?doubleNotify, ?counts, ?lastDecodes, ?lastJoins, ?lastStopped, ?commit⟩
  case collecting => exact fun collecting => runOp_ok running (closeCommit_collecting hx collecting)
  case decoded =>
    intro decoded u joined unheld unfatal
    exact runOp_ok running ((closeCommit_decoded hx decoded).trans ((tbJoin_quiet _ _).completed joined unheld unfatal))
  case notCommitted => exact fun other => runOp_fatalError running (closeCommit_stopped hx other)
  case doubleNotify => exact fun notDue => runOp_fatalError running (cbComplete_doubleNotify hx notDue)
  case counts =>
    intro more
    have counts := cbComplete_counts (r := r) hx (.inl more)
    rw [if_neg (by omega)] at counts
    exact runOp_ok running counts
  case lastDecodes =>
    intro last collecting
    have counts := cbComplete_counts (r := r) hx (.inr ⟨last, collecting⟩)
    rw [if_pos last, last] at counts
    exact runOp_ok running counts
  case lastJoins =>
    intro last decoding u joined unheld unfatal
    have joins := cbComplete_joins (r := r) hx last decoding
    simp only [counted, last] at joined
    exact runOp_ok running (joins.trans ((tbJoin_quiet _ _).completed joined unheld unfatal))
  case lastStopped => exact fun last other => runOp_fatalError running (cbComplete_stopped hx last other)
  case commit =>
    intro b y u hy phase context run unheld unfatal
    have kept := closeCommit_keepsLatched ((closeCommit_quiet _ _).completed run unheld unfatal)
    have still : u.bundles[b]? = some y := by rw [kept.bundles, hy]
    have word : BitVec.ofNat 8 y.tbx = t := by rw [context, ofNat_toNat_self]
    calc runAgent (.seq b) s = commitStep b y.tbx s := stepSeq_commit hy phase
      _ = .next (u.modBundle b fun x => { x with phase := .free }) := commitStep_completed (by rw [word, run]) unheld unfatal
      _ = .next { u with bundles := s.bundles.set b { y with phase := .free } } := by rw [modBundle_eq_set _ still, kept.bundles]

end Sys2Proof.Machine
end

section
/-!
PROOFS. CLOSE_DISPATCH (spec/43_tb_decoder.md R336).
-/

namespace Sys2Proof.Machine

/-! ### What the tasks leave alone -/

theorem cbComplete_keepsLatched {t r : Nat} {s u : State} (h : cbComplete t r s = .ok u) : State.KeepsLatched t s u := by
  simp only [cbComplete, bind_eq_ok, getTb_eq_ok, check_eq_ok, exists_and_left, exists_const] at h
  obtain ⟨x, -, -, h⟩ := h
  have recorded : State.KeepsLatched t s (s.record (.cbComplete (BitVec.ofNat 8 t) (BitVec.ofNat 16 r))) := .of_eq rfl rfl
  have counted := recorded.trans (modTb_keepsLatched _ t (g := fun x => { x with counter := x.counter - 1 }) fun _ => ⟨rfl, rfl⟩)
  split at h
  case isTrue => cases h; exact counted
  case isFalse =>
    cases hf : x.fsm <;> simp only [hf] at h
    case collecting => cases h; exact counted.trans (modTb_keepsLatched _ _ fun _ => ⟨rfl, rfl⟩)
    case decoding => exact counted.trans (tbJoin_keepsLatched h)
    all_goals cases h

theorem cbDecode_keepsLatched {t r : Nat} {s u : State} (h : cbDecode t r s = .ok u) : State.KeepsLatched t s u := by
  simp only [cbDecode, bind_eq_ok, need_eq_ok] at h
  obtain ⟨v, -, f, -, h⟩ := h
  refine State.KeepsLatched.trans (State.KeepsLatched.trans ?_ (modTb_keepsLatched _ t ?_)) (cbComplete_keepsLatched h)
  · exact .of_eq rfl rfl
  · exact fun _ => ⟨rfl, rfl⟩

theorem cbRateDematch_keepsLatched {t r : Nat} {s u : State} (h : cbRateDematch t r s = .ok u) : State.KeepsLatched t s u := by
  simp only [cbRateDematch, bind_eq_ok, need_eq_ok] at h
  obtain ⟨v, -, f, -, h⟩ := h
  refine State.KeepsLatched.trans (State.KeepsLatched.trans ?_ (modTb_keepsLatched _ t ?_)) (cbComplete_keepsLatched h)
  · exact .of_eq rfl rfl
  · exact fun _ => ⟨rfl, rfl⟩

theorem dispatchCb_keepsLatched {t c r : Nat} {s u : State} (h : dispatchCb t c r s = .ok u) : State.KeepsLatched t s u := by
  simp only [dispatchCb, bind_eq_ok, getTb_eq_ok, getHarq_eq_ok, need_eq_ok] at h
  obtain ⟨x, -, y, -, cb, -, h⟩ := h
  split at h
  · cases h; exact .of_eq rfl rfl
  · split at h
    · exact cbRateDematch_keepsLatched h
    · exact cbDecode_keepsLatched h

/-! ### One codeblock -/

/-- The task of codeblock `r`, whose buffer is `cb` (R336). -/
def codeblockTask (t : BitVec 8) (isNew : Bool) (cb : CbBuf) (r : Nat) : Instr :=
  if cb.crcOk = true ∧ isNew = false then .cbRateDematch t (BitVec.ofNat 16 r) else .cbDecode t (BitVec.ofNat 16 r)

theorem codeblockTask_dematch {isNew : Bool} {cb : CbBuf} (h : (cb.crcOk && !isNew) = true) (t : BitVec 8) (r : Nat) :
    codeblockTask t isNew cb r = .cbRateDematch t (BitVec.ofNat 16 r) := if_pos (by simpa using h)

theorem codeblockTask_decode {isNew : Bool} {cb : CbBuf} (h : (cb.crcOk && !isNew) = false) (t : BitVec 8) (r : Nat) :
    codeblockTask t isNew cb r = .cbDecode t (BitVec.ofNat 16 r) := if_neg (by simpa using h)

theorem encode_codeblockTask (t : BitVec 8) (isNew : Bool) (cb : CbBuf) (r : Nat) :
    encode (codeblockTask t isNew cb r) =
      [(if cb.crcOk = true ∧ isNew = false then 0x21#8 else 0x20#8) ++ t ++ BitVec.ofNat 16 r] := by
  unfold codeblockTask
  split <;> rfl

/-- The word that CLOSE_DISPATCH queues is the task's (R150). -/
theorem taskWord_codeblockTask (t : BitVec 8) (isNew : Bool) (cb : CbBuf) (r : Nat) :
    [taskWord (cb.crcOk && !isNew) t.toNat r] = encode (codeblockTask t isNew cb r) := by
  rw [encode_codeblockTask, taskWord, header, ofNat_toNat_self]
  simp only [Bool.and_eq_true, Bool.not_eq_true']

/-- Codeblock `r` takes the block from `s` to `u` (R336): its task is queued, or run inline to its end. `p` are the block's
parameters, `n` the handle, `c` the number of codeblocks. -/
def DispatchesTo (p : Params) (t : BitVec 8) (n c : Nat) (isNew : Bool) (r : Nat) (s u : State) : Prop :=
  ∃ h cb, s.harq[n]? = some h ∧ h.cbs[r]? = some cb ∧
    if 1 ≤ p.nCbe ∧ 1 < c ∧ s.taskq.length < p.taskqDepth then
      u = { s with taskq := s.taskq ++ encode (codeblockTask t isNew cb r) }
    else exec (codeblockTask t isNew cb r) s = .next u ∧ u.held = false ∧ u.fatal = false

theorem queues_iff (s : State) (c : Nat) :
    s.queues c = true ↔ 1 ≤ s.params.nCbe ∧ 1 < c ∧ s.taskq.length < s.params.taskqDepth := by
  simp only [State.queues, Bool.and_eq_true, decide_eq_true_eq, and_assoc]

theorem dispatchCb_of_dispatchesTo {s u : State} {t : BitVec 8} {x : TbCtx} {c r : Nat} (hx : s.tbs[t.toNat]? = some x)
    (small : r < 2 ^ 16) (h : DispatchesTo s.params t x.handle c x.newData r s u) : dispatchCb t.toNat c r s = .ok u := by
  obtain ⟨y, cb, hy, hcb, way⟩ := h
  have index : (BitVec.ofNat 16 r).toNat = r := (BitVec.toNat_ofNat _ _).trans (Nat.mod_eq_of_lt small)
  simp only [dispatchCb, getTb_eq_ok.2 hx, getHarq_eq_ok.2 hy, need_eq_ok.2 hcb, ok_bind]
  split at way
  case isTrue queued => rw [if_pos ((queues_iff _ _).2 queued), way, taskWord_codeblockTask]
  case isFalse inline =>
    obtain ⟨run, unheld, unfatal⟩ := way
    rw [if_neg (mt (queues_iff _ _).1 inline)]
    cases passed : cb.crcOk && !x.newData
    case true =>
      rw [codeblockTask_dematch passed] at run
      exact index ▸ (cbRateDematch_quiet _ _ _).completed run unheld unfatal
    case false =>
      rw [codeblockTask_decode passed] at run
      exact index ▸ (cbDecode_quiet _ _ _).completed run unheld unfatal

/-! ### The codeblocks in turn -/

theorem dispatchAll_append {t c : Nat} {rs rs' : List Nat} {s u : State} (h : dispatchAll t c rs s = .ok u) :
    dispatchAll t c (rs ++ rs') s = dispatchAll t c rs' u := by
  induction rs generalizing s with
  | nil => cases h; rfl
  | cons r rs ih =>
    obtain ⟨v, hv, h⟩ := bind_eq_ok.1 h
    simp only [List.cons_append, dispatchAll, hv, ok_bind]
    exact ih h

theorem dispatchAll_keepsLatched {t c : Nat} {rs : List Nat} {s u : State} (h : dispatchAll t c rs s = .ok u) :
    State.KeepsLatched t s u := by
  induction rs generalizing s with
  | nil => cases h; exact .of_eq rfl rfl
  | cons r rs ih =>
    obtain ⟨v, hv, h⟩ := bind_eq_ok.1 h
    exact (dispatchCb_keepsLatched hv).trans (ih h)

/-- The first `n` codeblocks take the block from `u 0` to `u n`. The step of each is told by what was latched at first, which every
task keeps. -/
theorem dispatchAll_range {t : BitVec 8} {x : TbCtx} {c n : Nat} {u : Nat → State} (hx : (u 0).tbs[t.toNat]? = some x)
    (small : n ≤ 2 ^ 16) (steps : ∀ r, r < n → DispatchesTo (u 0).params t x.handle c x.newData r (u r) (u (r + 1))) :
    dispatchAll t.toNat c (List.range n) (u 0) = .ok (u n) := by
  induction n with
  | zero => rfl
  | succ n ih =>
    have before := ih (by omega) fun r hr => steps r (by omega)
    obtain ⟨y, hy, handle, newData⟩ := (dispatchAll_keepsLatched before).context x hx
    have step := steps n (by omega)
    rw [← (dispatchAll_keeps before).params, ← handle, ← newData] at step
    rw [List.range_succ, dispatchAll_append before]
    exact bind_eq_ok.2 ⟨_, dispatchCb_of_dispatchesTo hy (by omega) step, rfl⟩

/-! ### CLOSE_DISPATCH -/

/-- The block as CLOSE_DISPATCH starts with the codeblocks. -/
def State.started (s : State) (t : BitVec 8) (x : TbCtx) : State :=
  { s.record (.closeDispatch t) with tbs := s.tbs.set t.toNat x.start }

section
variable {s : State} {t : BitVec 8} {x : TbCtx} (hx : s.tbs[t.toNat]? = some x)
include hx

theorem closeDispatch_notCollecting (other : x.fsm ≠ .collecting) :
    closeDispatch t.toNat s = .error (.fatal .stateViolation) := by
  have context : (s.record (.closeDispatch t)).getTb t.toNat = .ok x := getTb_eq_ok.2 hx
  simp only [closeDispatch, ofNat_toNat_self, context, ok_bind, check_neg other, error_bind]

theorem closeDispatch_mismatch (collecting : x.fsm = .collecting) (mismatch : x.sch.count ≠ x.g) :
    closeDispatch t.toNat s = .error (.fatal .softbitCountMismatch) := by
  have context : (s.record (.closeDispatch t)).getTb t.toNat = .ok x := getTb_eq_ok.2 hx
  simp only [closeDispatch, ofNat_toNat_self, context, ok_bind, check_pos collecting, check_neg mismatch, error_bind]

theorem closeDispatch_eq (collecting : x.fsm = .collecting) (complete : x.sch.count = x.g) :
    closeDispatch t.toNat s = dispatchAll t.toNat x.start.seg.c (List.range x.start.seg.c) (s.started t x) := by
  have context : (s.record (.closeDispatch t)).getTb t.toNat = .ok x := getTb_eq_ok.2 hx
  simp only [closeDispatch, ofNat_toNat_self, context, ok_bind, check_pos collecting, check_pos complete]
  rw [modTb_eq_set (s := s.record _) _ hx]
  rfl

/-- From the started state, codeblock by codeblock. -/
theorem closeDispatch_run (collecting : x.fsm = .collecting) (complete : x.sch.count = x.g) (small : x.start.seg.c ≤ 2 ^ 16)
    {u : Nat → State} (first : u 0 = s.started t x)
    (steps : ∀ r, r < x.start.seg.c → DispatchesTo s.params t x.handle x.start.seg.c x.newData r (u r) (u (r + 1))) :
    closeDispatch t.toNat s = .ok (u x.start.seg.c) := by
  have context : (u 0).tbs[t.toNat]? = some x.start := by rw [first]; exact getElem?_set_found _ hx
  have params : (u 0).params = s.params := by rw [first]; rfl
  rw [closeDispatch_eq hx collecting complete, ← first]
  exact dispatchAll_range context small (params ▸ steps)

end

/-! ### Where the task queue takes every task -/

/-- The task words of the codeblocks whose buffers are `cbs`. -/
def codeblockTaskWords (t : BitVec 8) (isNew : Bool) (cbs : List CbBuf) : List Word :=
  cbs.mapIdx fun r cb => (if cb.crcOk = true ∧ isNew = false then 0x21#8 else 0x20#8) ++ t ++ BitVec.ofNat 16 r

theorem codeblockTaskWords_succ {t : BitVec 8} {isNew : Bool} {cbs : List CbBuf} {r : Nat} {cb : CbBuf}
    (hcb : cbs[r]? = some cb) :
    codeblockTaskWords t isNew (cbs.take (r + 1)) =
      codeblockTaskWords t isNew (cbs.take r) ++ encode (codeblockTask t isNew cb r) := by
  obtain ⟨inside, rfl⟩ := List.getElem?_eq_some_iff.1 hcb
  rw [encode_codeblockTask, codeblockTaskWords, List.take_succ_eq_append_getElem inside, List.mapIdx_append,
    codeblockTaskWords, List.length_take_of_le inside.le]
  simp

/-- The block once the tasks of the first `r` codeblocks are queued. -/
def State.queuedTasks (s : State) (t : BitVec 8) (isNew : Bool) (cbs : List CbBuf) (r : Nat) : State :=
  { s with taskq := s.taskq ++ codeblockTaskWords t isNew (cbs.take r) }

theorem queuedTasks_zero (s : State) (t : BitVec 8) (isNew : Bool) (cbs : List CbBuf) : s.queuedTasks t isNew cbs 0 = s := by
  rw [State.queuedTasks, List.take_zero, codeblockTaskWords, List.mapIdx_nil, List.append_nil]

theorem queuedTasks_dispatchesTo {s : State} {t : BitVec 8} {isNew : Bool} {n c r : Nat} {h : Harq} (hh : s.harq[n]? = some h)
    (inside : r < h.cbs.length) (engines : 1 ≤ s.params.nCbe) (several : 1 < c)
    (room : s.taskq.length + r < s.params.taskqDepth) :
    DispatchesTo s.params t n c isNew r (s.queuedTasks t isNew h.cbs r) (s.queuedTasks t isNew h.cbs (r + 1)) := by
  have hcb : h.cbs[r]? = some h.cbs[r] := List.getElem?_eq_getElem inside
  have free : (s.queuedTasks t isNew h.cbs r).taskq.length < s.params.taskqDepth := by
    simp only [State.queuedTasks, codeblockTaskWords, List.length_append, List.length_mapIdx, List.length_take_of_le inside.le]
    exact room
  refine ⟨h, h.cbs[r], hh, hcb, ?_⟩
  rw [if_pos ⟨engines, several, free⟩]
  simp only [State.queuedTasks, codeblockTaskWords_succ hcb, List.append_assoc]

/-- Settles O58: `closeDispatch_run` goes through the codeblocks; where the queue takes every task, the states in between are
`queuedTasks`. -/
theorem closeDispatchResult : Obligations.CloseDispatchResult := by
  intro s t x running hx i seg started task
  refine ⟨fun other => runOp_fatalError running (closeDispatch_notCollecting hx other),
    fun collecting mismatch => runOp_fatalError running (closeDispatch_mismatch hx collecting mismatch),
    fun collecting complete small => ⟨fun u first steps => ?_, fun h hh buffers engines several room => ?_⟩⟩
  · exact runOp_ok running (closeDispatch_run hx collecting complete small first steps)
  · have step : ∀ r, r < seg.c → DispatchesTo s.params t x.handle seg.c x.newData r (started.queuedTasks t x.newData h.cbs r)
        (started.queuedTasks t x.newData h.cbs (r + 1)) := fun r hr =>
      queuedTasks_dispatchesTo (s := started) hh (hr.trans_le buffers) engines several
        ((Nat.add_lt_add_left hr s.taskq.length).trans_le room)
    have queued := closeDispatch_run hx collecting complete small (queuedTasks_zero started t x.newData h.cbs) step
    exact runOp_ok running queued

end Sys2Proof.Machine
end

section
/-!
PROOFS. DESCRAMBLE (spec/44_demod.md R383, R384).
-/

namespace Sys2Proof.Machine

/-! ### The scrambling sequence read bit by bit (R383) -/

theorem goldAdvance_add (m n : Nat) (st : BitVec 31 × BitVec 31) :
    goldAdvance (m + n) st = goldAdvance n (goldAdvance m st) := by
  induction m generalizing st with
  | zero => rw [Nat.zero_add]; rfl
  | succ m ih => rw [Nat.succ_add, goldAdvance_succ, goldAdvance_succ, ih]

theorem goldBits_length (n : Nat) (st : BitVec 31 × BitVec 31) : (goldBits n st).length = n := by
  induction n generalizing st with
  | zero => rfl
  | succ n ih => rw [goldBits_succ, List.length_cons, ih]

theorem goldBits_getElem? {n j : Nat} (h : j < n) (st : BitVec 31 × BitVec 31) :
    (goldBits n st)[j]? = some ((goldAdvance j st).1.getLsbD 0 ^^ (goldAdvance j st).2.getLsbD 0) := by
  induction n generalizing j st with
  | zero => exact absurd h (Nat.not_lt_zero j)
  | succ n ih =>
    rw [goldBits_succ]
    cases j with
    | zero => rfl
    | succ j => rw [List.getElem?_cons_succ, ih (Nat.lt_of_succ_lt_succ h), goldAdvance_succ]

theorem scrambleBits_length (cinit : BitVec 31) (p n : Nat) : (scrambleBits cinit p n).length = n := goldBits_length n _

/-- Bit `j` of the sequence from position `p` on is the bit of position `p + j`. -/
theorem scrambleBits_getElem? (cinit : BitVec 31) (p : Nat) {n j : Nat} (h : j < n) :
    (scrambleBits cinit p n)[j]? = some (scrambleBit cinit (p + j)) := by
  rw [scrambleBits, goldBits_getElem? h, goldAt, ← goldAdvance_add, Nat.add_assoc]
  rfl

/-! ### The soft bits descrambled (R384) -/

@[simp] theorem descrambleLlrs_length (cinit : BitVec 31) (p : Nat) (ls : List Llr) :
    (descrambleLlrs cinit p ls).length = ls.length := by
  rw [descrambleLlrs, List.length_zipWith, scrambleBits_length, Nat.min_self]

theorem descrambleLlrs_getElem? (cinit : BitVec 31) (p : Nat) {ls : List Llr} {j : Nat} {v : Llr} (h : ls[j]? = some v) :
    (descrambleLlrs cinit p ls)[j]? = some (signBy (scrambleBit cinit (p + j)) v) := by
  have inside : j < ls.length := (List.getElem?_eq_some_iff.1 h).1
  rw [descrambleLlrs, List.getElem?_zipWith, scrambleBits_getElem? cinit p inside, h]

/-- The demodulator's soft bits after DESCRAMBLE (R384): those of the current symbol, and behind them what was there. -/
def Bundle.descrambled (x : Bundle) : List Llr :=
  descrambleLlrs (cInit x.d) x.cwPos (x.work.take (symbolBits x.d x.l)) ++ x.work.drop (symbolBits x.d x.l)

@[simp] theorem descrambled_length (x : Bundle) : x.descrambled.length = x.work.length := by
  rw [Bundle.descrambled, List.length_append, descrambleLlrs_length, ← List.length_append, List.take_append_drop]

section
variable {x : Bundle} (enough : symbolBits x.d x.l ≤ x.work.length)
include enough

theorem descrambled_front_length :
    (descrambleLlrs (cInit x.d) x.cwPos (x.work.take (symbolBits x.d x.l))).length = symbolBits x.d x.l := by
  rw [descrambleLlrs_length, List.length_take_of_le enough]

theorem descrambled_inside {j : Nat} {v : Llr} (inside : j < symbolBits x.d x.l) (h : x.work[j]? = some v) :
    x.descrambled[j]? = some (signBy (scrambleBit (cInit x.d) (x.cwPos + j)) v) := by
  rw [Bundle.descrambled, List.getElem?_append_left (by rwa [descrambled_front_length enough])]
  exact descrambleLlrs_getElem? _ _ ((List.getElem?_take_of_lt inside).trans h)

theorem descrambled_outside {j : Nat} (outside : symbolBits x.d x.l ≤ j) : x.descrambled[j]? = x.work[j]? := by
  rw [Bundle.descrambled, List.getElem?_append_right (by rwa [descrambled_front_length enough]),
    descrambled_front_length enough, List.getElem?_drop, Nat.add_sub_cancel' outside]

/-- DESCRAMBLE changes the bundle's soft bits alone, besides the trace. -/
theorem descrambleOp_of_enough {s : State} {b : Nat} (hx : s.bundles[b]? = some x) :
    descrambleOp b s = .ok { s.record (.descramble (BitVec.ofNat 8 b) (BitVec.ofNat 16 (symbolBits x.d x.l))) with
      bundles := s.bundles.set b { x with work := x.descrambled } } := by
  simp only [descrambleOp, getBundle_eq_ok.2 hx, ok_bind, check_pos enough]
  exact congrArg Except.ok (modBundle_eq_set (s := s.record _) _ hx)

end

/-- The check of a DESCRAMBLE word is passed by the current symbol's soft-bit count (log 15). -/
theorem exec_descramble {s : State} {b : BitVec 8} {x : Bundle} (hx : s.bundles[b.toNat]? = some x) :
    exec (.descramble b (BitVec.ofNat 16 (symbolBits x.d x.l))) s =
      runOp (.descramble b (BitVec.ofNat 16 (symbolBits x.d x.l))) 0#8 (descrambleOp b.toNat) s := by
  rw [exec, execDescramble]
  refine runOp_congr ?_
  rw [getBundle_eq_ok.2 hx, ok_bind, check_pos rfl, ok_bind]

/-- Any other count stops the block (log 15). -/
theorem exec_descramble_wrong {s : State} {b : BitVec 8} {n : BitVec 16} {x : Bundle} (running : s.fatal = false)
    (hx : s.bundles[b.toNat]? = some x) (wrong : n ≠ BitVec.ofNat 16 (symbolBits x.d x.l)) :
    exec (.descramble b n) s = .next ((s.record (.descramble b n)).enterFatal .stateViolation) := by
  rw [exec, execDescramble]
  refine runOp_fatalError running ?_
  rw [getBundle_eq_ok.2 hx, ok_bind, check_neg wrong.symm, error_bind]

/-- Settles O45: the sequence from `cwPos` on, read bit by bit, signs the symbol's soft bits, and the others stay behind them. -/
theorem descrambleResult : Obligations.DescrambleResult := by
  intro s b n x running hx enough
  refine ⟨?_, exec_descramble_wrong running hx⟩
  rintro rfl
  have op := descrambleOp_of_enough enough hx
  rw [ofNat_toNat_self] at op
  refine ⟨x.descrambled, ?_, descrambled_length x, fun _ _ => descrambled_inside enough, fun _ => descrambled_outside enough⟩
  rw [exec_descramble hx]
  exact runOp_ok running op

end Sys2Proof.Machine
end

section
/-!
PROOFS. A symbol streamed to DEMUX_IN through one view (spec/44_demod.md R388; spec/40_stream.md R201, R202, R209).
-/

namespace Sys2Proof.Machine

/-! ### A block written and read back (R101, R210) -/

theorem take_put (m : Slots) (i : Nat) (xs : Slots) :
    (Slots.put m i xs).take i = m.take i ++ List.replicate (i - m.length) none := by
  rw [Slots.put, List.append_assoc]
  exact List.take_left' (put_front_length m i)

theorem drop_put (m : Slots) (i : Nat) (xs : Slots) : (Slots.put m i xs).drop i = xs ++ m.drop (i + xs.length) := by
  rw [Slots.put, List.append_assoc]
  exact List.drop_left' (put_front_length m i)

/-- What was put into the slots before does not matter. -/
theorem put_put {m : Slots} {i : Nat} {xs ys : Slots} (same : ys.length = xs.length) :
    Slots.put (Slots.put m i xs) i ys = Slots.put m i ys := by
  have long := put_length_ge m i xs
  have noGap : i - (Slots.put m i xs).length = 0 := by omega
  have behind : (Slots.put m i xs).drop (i + ys.length) = m.drop (i + ys.length) := by
    rw [← List.drop_drop, drop_put, same, List.drop_left]
  rw [Slots.put, take_put, behind, noGap, List.replicate_zero, List.append_nil, Slots.put]

/-- Slots within a block that was written hold its values. -/
theorem get?_write {m : Slots} {i j n : Nat} {ls : List Llr} (inside : j + n ≤ ls.length) :
    Slots.get? (Slots.write m i ls) (i + j) n = some ((ls.drop j).take n) := by
  have long : i + ls.length ≤ (Slots.write m i ls).length := by
    have := put_length_ge m i (ls.map some)
    rwa [List.length_map] at this
  have slots : ((Slots.write m i ls).drop (i + j)).take n = ((ls.drop j).take n).map some := by
    rw [← List.drop_drop, Slots.write, drop_put, List.drop_append_of_le_length (by rw [List.length_map]; omega),
      List.take_append_of_le_length (by rw [List.length_drop, List.length_map]; omega), List.map_take, List.map_drop]
  have values := allSome_map_some (f := some) (g := id) (l := (ls.drop j).take n) fun _ _ => rfl
  rw [Slots.get?, if_pos (by omega), slots, values, List.map_id]

/-- The same of the whole block. -/
theorem get?_write_whole (m : Slots) (i : Nat) (ls : List Llr) : Slots.get? (Slots.write m i ls) i ls.length = some ls := by
  have read := get?_write (m := m) (i := i) (ls := ls) (Nat.zero_add ls.length).le
  rwa [Nat.add_zero, List.drop_zero, List.take_length] at read

/-! ### One bundle in place of another -/

/-- The state with `y` as bundle `b`. -/
def State.setBundle (s : State) (b : Nat) (y : Bundle) : State := { s with bundles := s.bundles.set b y }

theorem setBundle_setBundle (s : State) (b : Nat) (y z : Bundle) : (s.setBundle b y).setBundle b z = s.setBundle b z :=
  congrArg (fun bs => { s with bundles := bs }) (List.set_set _)

theorem record_setBundle (s : State) (b : Nat) (y : Bundle) (i : Instr) :
    (s.setBundle b y).record i = (s.record i).setBundle b y := rfl

theorem getElem?_setBundle {s : State} {b : Nat} {x : Bundle} (hx : s.bundles[b]? = some x) (y : Bundle) :
    (s.setBundle b y).bundles[b]? = some y := getElem?_set_found y hx

/-! ### One view of DEMUX_IN takes the whole symbol (R201, R202, R209, R388) -/

/-- The bundle with a view of `n` slots at DEMUX_IN (R201): the slots behind the soft bits received hold no value. -/
def Bundle.viewing (x : Bundle) (n : Nat) : Bundle :=
  { x with
    demuxIn := { x.demuxIn with viewBase := x.demuxIn.count, viewLen := n }
    dm := { x.dm with symBuf := Slots.forget x.dm.symBuf x.dm.symCnt n } }

/-- The bundle with the soft bits `ls` in DEMUX_IN's view (R210). -/
def Bundle.filling (x : Bundle) (ls : List Llr) : Bundle :=
  { x with dm := { x.dm with symBuf := Slots.write x.dm.symBuf x.dm.symCnt ls } }

/-- The bundle whose DEMUX_IN has no view left, and whose symbol has got the soft bits `ls` (R202, R209). -/
def Bundle.published (x : Bundle) (ls : List Llr) : Bundle :=
  Bundle.receive { x with demuxIn := { x.demuxIn with viewLen := 0 } } ls

/-- The bundle once the soft bits `w` have been streamed to DEMUX_IN as the whole symbol (R388). -/
def Bundle.streamed (x : Bundle) (w : List Llr) : Bundle :=
  { x with
    demuxIn := { x.demuxIn with viewBase := x.demuxIn.count, viewLen := 0 }
    dm := { x.dm with symBuf := Slots.write x.dm.symBuf 0 w, symCnt := symbolBits x.d x.l } }

/-- Reserving, filling and publishing a view at the start of a symbol leaves the soft bits alone in its place. -/
theorem published_filling_viewing {x : Bundle} {w : List Llr} (fresh : x.dm.symCnt = 0)
    (length : w.length = symbolBits x.d x.l) :
    ((x.viewing w.length).filling w).published w = x.streamed w := by
  have size : (w.map some).length = w.length := List.length_map _
  have buffer : Slots.write (Slots.write (Slots.forget x.dm.symBuf 0 w.length) 0 w) 0 w = Slots.write x.dm.symBuf 0 w := by
    rw [Slots.write, Slots.write, put_put rfl, Slots.forget, put_put (by rw [size, List.length_replicate]), Slots.write]
  simp only [Bundle.published, Bundle.receive, Bundle.filling, Bundle.viewing, Bundle.streamed, fresh, Nat.zero_add, buffer,
    ← length]

/-- With every soft bit sent the loop ends (R388). -/
theorem streamLoop_done {b fuel j : Nat} {ls : List Llr} (sent : ls.length ≤ j) (s : State) :
    streamLoop b ls fuel j s = .ok s := by
  cases fuel with
  | zero => rfl
  | succ fuel => exact if_pos sent

/-- The first round of the streaming loop (R388). -/
theorem streamLoop_first {b : Nat} {w : List Llr} (nonempty : w ≠ []) (s : State) :
    streamLoop b w w.length 0 s = (do
      let v ← issueReserve (.demuxIn b) w.length s
      let t ← issuePublishInPlace (.demuxIn b) v.1 (v.2.writeView (.demuxIn b) (w.take v.1))
      streamLoop b w (w.length - 1) (0 + v.1) t) := by
  cases w with
  | nil => exact absurd rfl nonempty
  | cons v w => rfl

section
variable {s : State} {b : Nat} {x : Bundle} (hx : s.bundles[b]? = some x)
include hx

theorem port?_demuxIn : s.port? (.demuxIn b) = some x.demuxIn := Option.map_eq_some_iff.2 ⟨x, hx, rfl⟩

theorem storage?_demuxIn : s.storage? (.demuxIn b) = some (x.dm.symBuf, x.dm.symCnt) := Option.map_eq_some_iff.2 ⟨x, hx, rfl⟩

theorem openView_demuxIn (real : x.demuxIn.bound = .real) (n : Nat) :
    s.openView (.demuxIn b) x.demuxIn n = s.setBundle b (x.viewing n) := by
  have between := storage?_demuxIn (s := s.modPort (.demuxIn b) fun q => { q with viewBase := q.count, viewLen := n })
    (getElem?_modify_self _ hx)
  have notNull : ¬ x.demuxIn.bound = .null := by rw [real]; decide
  simp only [State.openView, if_neg notNull, between]
  exact (modBundle_modBundle _ _ _ _).trans (modBundle_eq_set _ hx)

theorem writeView_demuxIn (ls : List Llr) :
    s.writeView (.demuxIn b) ls = s.setBundle b (x.filling ls) := by
  simp only [State.writeView, storage?_demuxIn hx]
  exact modBundle_eq_set _ hx

/-- A view of all that the symbol lacks is got in full (R201, R205). -/
theorem issueReserve_demuxIn {n : Nat} (opened : x.demuxIn.isOpen = true) (real : x.demuxIn.bound = .real)
    (lacks : symbolBits x.d x.l - x.dm.symCnt = n) (positive : 0 < n) :
    issueReserve (.demuxIn b) n s =
      .ok (n, (s.record (.reserveView 0#4 (BitVec.ofNat 19 n) (BitVec.ofNat 8 b))).setBundle b (x.viewing n)) := by
  have offer : s.offer (.demuxIn b) x.demuxIn = some n := by simp [State.offer, opened, real, hx, lacks]
  have room : s.offer (.demuxIn b) x.demuxIn ≠ some 0 := by
    rw [offer]
    exact fun h => positive.ne' (Option.some.inj h)
  have size : viewSize (s.offer (.demuxIn b) x.demuxIn) n = n := by rw [offer]; exact Nat.min_self n
  refine reserveView_eq_ok.2 ⟨x.demuxIn, port?_demuxIn hx, opened, .inr ?_, ?_⟩
  · rwa [record_offer]
  · rw [record_offer, size, openView_demuxIn (s := s.record _) hx real]
    rfl

/-- A publish of the view that completes the symbol runs DEMUX_SYMBOL (R202, R209). -/
theorem issuePublishInPlace_demuxIn {ls : List Llr} {u : State} (opened : x.demuxIn.isOpen = true)
    (real : x.demuxIn.bound = .real) (inView : ls.length ≤ x.demuxIn.viewLen)
    (written : Slots.get? x.dm.symBuf x.dm.symCnt ls.length = some ls) (nonempty : ls ≠ [])
    (full : x.dm.symCnt + ls.length = symbolBits x.d x.l)
    (run : demuxSymbol b ((s.record (.publishInPlace 0#4 (BitVec.ofNat 19 ls.length) (BitVec.ofNat 8 b))).setBundle b
      (x.published ls)) = .ok u) :
    issuePublishInPlace (.demuxIn b) ls.length s =
      .ok (u.modPort (.demuxIn b) fun q => { q with count := q.count + ls.length }) := by
  have notNull : ¬ x.demuxIn.bound = .null := by rw [real]; decide
  obtain ⟨issued, hIssued⟩ : ∃ t, t = s.record (.publishInPlace 0#4 (BitVec.ofNat 19 ls.length) (BitVec.ofNat 8 b)) :=
    ⟨_, rfl⟩
  have found : issued.bundles[b]? = some x := by rwa [hIssued]
  rw [← hIssued] at run
  have read : issued.viewLlrs (.demuxIn b) x.demuxIn ls.length = some ls := by
    simp only [State.viewLlrs, if_neg notNull, storage?_demuxIn found, written]
  have hEnded := getElem?_modify_self (fun x : Bundle => { x with demuxIn := { x.demuxIn with viewLen := 0 } }) found
  have received : (issued.modPort (.demuxIn b) fun q => { q with viewLen := 0 }).modBundle b (fun x => x.receive ls) =
      issued.setBundle b (x.published ls) :=
    (modBundle_modBundle _ _ _ _).trans (modBundle_eq_set _ found)
  have consumed := consumePublish_demuxIn (s := issued.modPort (.demuxIn b) fun q => { q with viewLen := 0 }) hEnded ls
  rw [if_pos full, received] at consumed
  rw [issuePublishInPlace, PortRef.id, PortRef.owner, ← hIssued]
  refine publishInPlaceWith_eq_ok.2 ⟨x.demuxIn, ls, u, port?_demuxIn found, opened, inView, read, ?_, rfl⟩
  rw [deliver_real real nonempty, consumed]
  exact run

/-- The streaming loop sends a whole symbol through one view (R388). -/
theorem streamLoop_whole {w : List Llr} {u : State} (opened : x.demuxIn.isOpen = true) (real : x.demuxIn.bound = .real)
    (fresh : x.dm.symCnt = 0) (length : w.length = symbolBits x.d x.l) (nonempty : w ≠ [])
    (run : demuxSymbol b (((s.record (.reserveView 0#4 (BitVec.ofNat 19 (symbolBits x.d x.l)) (BitVec.ofNat 8 b))).record
      (.publishInPlace 0#4 (BitVec.ofNat 19 (symbolBits x.d x.l)) (BitVec.ofNat 8 b))).setBundle b (x.streamed w)) = .ok u) :
    streamLoop b w w.length 0 s =
      .ok (u.modPort (.demuxIn b) fun q => { q with count := q.count + symbolBits x.d x.l }) := by
  have lacks : symbolBits x.d x.l - x.dm.symCnt = w.length := by rw [fresh, length, Nat.sub_zero]
  have reserved := issueReserve_demuxIn hx opened real lacks (List.length_pos_iff.2 nonempty)
  obtain ⟨reserving, hReserving⟩ : ∃ t, t = s.record (.reserveView 0#4 (BitVec.ofNat 19 w.length) (BitVec.ofNat 8 b)) :=
    ⟨_, rfl⟩
  rw [← length, ← hReserving] at run
  rw [← hReserving] at reserved
  have hReserved : reserving.bundles[b]? = some x := by rwa [hReserving]
  have filled : (reserving.setBundle b (x.viewing w.length)).writeView (.demuxIn b) w =
      reserving.setBundle b ((x.viewing w.length).filling w) := by
    rw [writeView_demuxIn (getElem?_setBundle hReserved _), setBundle_setBundle]
  have full : ((x.viewing w.length).filling w).dm.symCnt + w.length = symbolBits x.d x.l := by
    rw [← length]
    exact (congrArg (· + w.length) fresh).trans (Nat.zero_add _)
  rw [← published_filling_viewing fresh length, ← setBundle_setBundle _ _ ((x.viewing w.length).filling w),
    ← record_setBundle] at run
  have published := issuePublishInPlace_demuxIn (x := (x.viewing w.length).filling w) (getElem?_setBundle hReserved _)
    opened real (le_refl w.length) (get?_write_whole _ _ w) nonempty full run
  rw [streamLoop_first nonempty, reserved, ok_bind, List.take_length, filled, published, ok_bind, Nat.zero_add, ← length]
  exact streamLoop_done (le_refl w.length) _

end

end Sys2Proof.Machine
end

section
/-!
PROOFS. DEMOD_SYMBOL of a symbol with soft bits (spec/44_demod.md R385, R388, R392, R393).
-/

namespace Sys2Proof.Machine

/-! ### The soft bits of a symbol (R385) -/

theorem symbolPairs_length (d : Descriptor) (l : Nat) : (symbolPairs d l).length = nofPositions d l * nl d :=
  length_flatMap_uniform fun k _ => by rw [List.length_map, List.length_range]

theorem revertPrecoding_length (d : Descriptor) (ys : List (Option SoftSymbol)) :
    (revertPrecoding d ys).length = ys.length := by
  unfold revertPrecoding
  split
  · exact List.length_mapIdx
  · rfl

/-- Every pair gives QM soft bits. -/
theorem demodulate_llrs_length (p : Params) (x : Bundle) : (demodulate p x).llrs.length = symbolBits x.d x.l := by
  have perPair : ∀ t ∈ (symbolPairs x.d x.l).zip ((revertPrecoding x.d ((symbolPairs x.d x.l).map (pairSymbol x))).zip
      ((symbolPairs x.d x.l).map (pairNoise x))), (pairLlrs p x.d t.1.1 t.2.1 t.2.2).length = qm x.d :=
    fun t _ => by rw [pairLlrs, List.length_map, List.length_range]
  refine (length_flatMap_uniform perPair).trans ?_
  simp only [List.length_zip, List.length_map, revertPrecoding_length, Nat.min_self, symbolPairs_length]
  rw [symbolBits, bpr, Nat.mul_comm (qm x.d), Nat.mul_assoc]

/-! ### PROV_STATS (R392) -/

/-- SINR_VALID in bit 8 of the first payload word, the symbol in bits 3:0. -/
theorem provStats_word (v : BitVec 4) :
    0#23 ++ flag false ++ 0#4 ++ v = 0#32 ||| (0#28 ++ v) ∧ 0#23 ++ flag true ++ 0#4 ++ v = 0x100#32 ||| (0#28 ++ v) := by
  revert v
  decide

/-- The PROV_STATS record, written out (R392). -/
theorem provStats_eq (x : Bundle) (y : SymbolData) :
    let fin := y.nvs.filterMap id
    provStats x y = [0x01#8 ++ x.tag ++ 3#16, (if fin = [] then 0#32 else 0x100#32) ||| (0#28 ++ BitVec.ofNat 4 x.l),
      if fin = [] then 0#32 else sinrMean (ExactReal.sum fin) fin.length, realWord (Config.evmSymbol x.d y.ys y.llrs)] := by
  obtain ⟨without, finite⟩ := provStats_word (BitVec.ofNat 4 x.l)
  intro fin
  have record : provStats x y = eventRecord 0x01#8 x.tag [0#23 ++ flag (sinrOf (ExactReal.sum fin) fin.length).1 ++ 0#4 ++
    BitVec.ofNat 4 x.l, (sinrOf (ExactReal.sum fin) fin.length).2, realWord (Config.evmSymbol x.d y.ys y.llrs)] := rfl
  rw [record]
  by_cases none : fin = []
  · simp only [none, List.length_nil, sinrOf, Nat.lt_irrefl, if_true, if_false, without]
    rfl
  · simp only [sinrOf, List.length_pos_iff.2 none, none, if_true, if_false, finite]
    rfl

/-! ### DEMOD_SYMBOL up to the streaming loop (R388) -/

theorem descrambled_of_length {x : Bundle} (all : x.work.length = symbolBits x.d x.l) :
    x.descrambled = descrambleLlrs (cInit x.d) x.cwPos x.work := by
  rw [Bundle.descrambled, ← all, List.take_length, List.drop_length, List.append_nil]

theorem descrambleOp_setBundle {s : State} {b : Nat} {x y : Bundle} (hx : s.bundles[b]? = some x)
    (enough : symbolBits y.d y.l ≤ y.work.length) :
    descrambleOp b (s.setBundle b y) =
      .ok ((s.record (.descramble (BitVec.ofNat 8 b) (BitVec.ofNat 16 (symbolBits y.d y.l)))).setBundle b
        { y with work := y.descrambled }) :=
  (descrambleOp_of_enough enough (getElem?_setBundle hx y)).trans
    (congrArg Except.ok (setBundle_setBundle (s.record _) b y _))

/-- The soft bits of the bundle's current symbol, descrambled (R384, R385). -/
def Bundle.symbolLlrs (x : Bundle) (p : Params) : List Llr :=
  descrambleLlrs (cInit x.d) x.cwPos (demodulate p x).llrs

theorem symbolLlrs_length (x : Bundle) (p : Params) : (x.symbolLlrs p).length = symbolBits x.d x.l := by
  rw [Bundle.symbolLlrs, descrambleLlrs_length, demodulate_llrs_length]

/-- The bundle with its current symbol demodulated and descrambled, before the soft bits are streamed (R388, R393). -/
def Bundle.demodulated (x : Bundle) (p : Params) : Bundle :=
  { x.accumulate (demodulate p x) with work := x.symbolLlrs p }

/-- The state in which the streamed symbol runs DEMUX_SYMBOL (R388). -/
def State.streamedSymbol (s : State) (b : Nat) (x : Bundle) : State :=
  let n := symbolBits x.d x.l
  let ops : List Instr := [.demodSymbol (BitVec.ofNat 8 b) (BitVec.ofNat 16 x.l),
    .descramble (BitVec.ofNat 8 b) (BitVec.ofNat 16 n), .reserveView 0#4 (BitVec.ofNat 19 n) (BitVec.ofNat 8 b),
    .publishInPlace 0#4 (BitVec.ofNat 19 n) (BitVec.ofNat 8 b)]
  State.setBundle { ops.foldl State.record s with evq := s.evq ++ provStats x (demodulate s.params x) } b
    ((x.demodulated s.params).streamed (x.symbolLlrs s.params))

section
variable {s : State} {b : Nat} {x : Bundle} (hx : s.bundles[b]? = some x) (hp : x.phase = .demod)
  (positions : nofPositions x.d x.l ≠ 0)
include hx hp positions

/-- A symbol with positions is demodulated and reports PROV_STATS before it is descrambled and streamed (R388). -/
theorem demodSymbol_of_positions :
    demodSymbol b s = (do
      let t ← emit (provStats x (demodulate s.params x))
        ((s.record (.demodSymbol (BitVec.ofNat 8 b) (BitVec.ofNat 16 x.l))).setBundle b
          { x.accumulate (demodulate s.params x) with work := (demodulate s.params x).llrs })
      let t ← descrambleOp b t
      let z ← t.getBundle b
      streamLoop b z.work z.work.length 0 t) := by
  have demodulated := modBundle_eq_set (s := s.record (.demodSymbol (BitVec.ofNat 8 b) (BitVec.ofNat 16 x.l)))
    (fun y => { y.accumulate (demodulate s.params x) with work := (demodulate s.params x).llrs }) hx
  simp only [demodSymbol, getBundle_eq_ok.2 hx, ok_bind, check_pos hp, State.record_params, if_neg positions, demodulated]
  rfl

/-- PROV_STATS waits for room in the event FIFO (R111). -/
theorem demodSymbol_hold_full (full : s.params.evqDepth < s.evq.length + 4) : demodSymbol b s = .error .hold := by
  rw [demodSymbol_of_positions hx hp positions, emit_hold (by rw [provStats_eq]; exact full), error_bind]

/-- With room for PROV_STATS the symbol reaches the streaming loop (R388). -/
theorem demodSymbol_streams (room : s.evq.length + 4 ≤ s.params.evqDepth) :
    demodSymbol b s = streamLoop b (x.symbolLlrs s.params) (x.symbolLlrs s.params).length 0
      (State.setBundle { (s.record (.demodSymbol (BitVec.ofNat 8 b) (BitVec.ofNat 16 x.l))).record
          (.descramble (BitVec.ofNat 8 b) (BitVec.ofNat 16 (symbolBits x.d x.l))) with
        evq := s.evq ++ provStats x (demodulate s.params x) } b (x.demodulated s.params)) := by
  obtain ⟨y, hy⟩ : ∃ y : Bundle, y = { x.accumulate (demodulate s.params x) with work := (demodulate s.params x).llrs } :=
    ⟨_, rfl⟩
  obtain ⟨reported, hReported⟩ : ∃ t : State, t = { s.record (.demodSymbol (BitVec.ofNat 8 b) (BitVec.ofNat 16 x.l)) with
    evq := s.evq ++ provStats x (demodulate s.params x) } := ⟨_, rfl⟩
  have found : reported.bundles[b]? = some x := by rwa [hReported]
  have emitted : emit (provStats x (demodulate s.params x))
      ((s.record (.demodSymbol (BitVec.ofNat 8 b) (BitVec.ofNat 16 x.l))).setBundle b y) = .ok (reported.setBundle b y) :=
    emit_eq_ok.2 ⟨by rw [provStats_eq]; exact room, by rw [hReported]; rfl⟩
  have all : y.work.length = symbolBits y.d y.l := by rw [hy]; exact demodulate_llrs_length s.params x
  have descrambled := descrambleOp_setBundle found all.ge
  have finished : { y with work := y.descrambled } = x.demodulated s.params := by
    rw [descrambled_of_length all, hy]
    rfl
  rw [finished] at descrambled
  rw [demodSymbol_of_positions hx hp positions, ← hy, emitted, ok_bind, descrambled, ok_bind,
    getBundle_eq_ok.2 (getElem?_setBundle (s := reported.record _) found _), ok_bind, hReported, hy]
  rfl

/-- What DEMUX_SYMBOL leaves of the streamed symbol, with the block counted at DEMUX_IN, is what DEMOD_SYMBOL leaves (R388,
R202). -/
theorem demodSymbol_of_run {u : State} (room : s.evq.length + 4 ≤ s.params.evqDepth) (positive : 0 < symbolBits x.d x.l)
    (opened : x.demuxIn.isOpen = true) (real : x.demuxIn.bound = .real) (fresh : x.dm.symCnt = 0)
    (run : demuxSymbol b (s.streamedSymbol b x) = .ok u) :
    demodSymbol b s = .ok (u.modPort (.demuxIn b) fun q => { q with count := q.count + symbolBits x.d x.l }) := by
  have length := symbolLlrs_length x s.params
  have nonempty : x.symbolLlrs s.params ≠ [] := fun nil => positive.ne' (by rw [← length, nil]; rfl)
  rw [demodSymbol_streams hx hp positions room]
  refine streamLoop_whole (x := x.demodulated s.params) (getElem?_set_found _ hx) opened real fresh length nonempty ?_
  rw [← run, State.streamedSymbol]
  simp only [record_setBundle, setBundle_setBundle]
  rfl

end

/-! ### UL-SCH's soft bits of a whole symbol (R239, R249) -/

/-- UL-SCH's positions are positions of the symbol. -/
theorem lt_of_mem_schPositions {p : Params} {x : Bundle} {i : Nat} (h : i ∈ schPositions p x.d x.l (x.symbolSets p).1) :
    i < nofPositions x.d x.l := by
  unfold schPositions at h
  split at h
  · exact List.mem_range.1 (List.mem_filter.1 h).1
  · exact ((partitionA_parted p x.d x.l x.dm.bud).mem_sch.1 h).1.1

/-- Where every slot read holds a value, UL-SCH's soft bits are known. -/
theorem exists_schLlrs {p : Params} {d : Descriptor} {buf : Slots} {l : Nat} {z : Sets}
    (read : ∀ i ∈ schPositions p d l z, ∃ ls, Slots.get? buf (i * bpr d) (bpr d) = some ls) :
    ∃ ls, schLlrs p d buf l z = some ls := by
  choose! block hBlock using read
  rw [schLlrs, allSome_map_some
    (g := fun i => if p.rsvdForward = .toUlsch ∧ z.a.contains i = true then (block i).map (fun _ => 0#8) else block i)
    fun i hi => by rw [hBlock i hi]]
  exact ⟨_, rfl⟩

/-- A symbol that has got all its soft bits gives UL-SCH `bpr` of them for each of its positions. -/
theorem exists_schLlrs_of_written {p : Params} {x : Bundle} {m : Slots} {w : List Llr}
    (buffer : x.dm.symBuf = Slots.write m 0 w) (length : w.length = symbolBits x.d x.l) :
    ∃ ls, schLlrs p x.d x.dm.symBuf x.l (x.symbolSets p).1 = some ls ∧
      ls.length = (schPositions p x.d x.l (x.symbolSets p).1).length * bpr x.d := by
  have read : ∀ i ∈ schPositions p x.d x.l (x.symbolSets p).1,
      ∃ ls, Slots.get? x.dm.symBuf (i * bpr x.d) (bpr x.d) = some ls := fun i hi => by
    have inside : i * bpr x.d + bpr x.d ≤ w.length := by
      rw [length, symbolBits, ← Nat.succ_mul]
      exact Nat.mul_le_mul_right _ (lt_of_mem_schPositions hi)
    have block := get?_write (m := m) (i := 0) inside
    rw [Nat.zero_add, ← buffer] at block
    exact ⟨_, block⟩
  obtain ⟨ls, hl⟩ := exists_schLlrs read
  exact ⟨ls, hl, (schLlrs_getElem? hl).1⟩

/-! ### The whole operation (R388) -/

theorem exec_demodSymbol_hold_phase {s : State} {b : BitVec 8} {x : Bundle} (running : s.fatal = false)
    (hx : s.bundles[b.toNat]? = some x) (hp : x.phase ≠ .demod) {l : BitVec 16} :
    exec (.demodSymbol b l) s = .next s.hold := by
  rw [exec, execDemodSymbol]
  refine runOp_hold running ?_
  rw [getBundle_eq_ok.2 hx, ok_bind, check_neg hp, error_bind]

/-- The streamed symbol, written out. -/
theorem streamedSymbol_eq (s : State) (b : BitVec 8) (x : Bundle) :
    let i : Instr := .demodSymbol b (BitVec.ofNat 16 x.l)
    let n := symbolBits x.d x.l
    let y := demodulate s.params x
    let fin := y.nvs.filterMap id
    s.streamedSymbol b.toNat x = { s with
      trace := s.trace ++ encode i ++ encode (.descramble b (BitVec.ofNat 16 n)) ++
        encode (.reserveView 0#4 (BitVec.ofNat 19 n) b) ++ encode (.publishInPlace 0#4 (BitVec.ofNat 19 n) b)
      evq := s.evq ++ [0x01#8 ++ x.tag ++ 3#16,
        (if fin = [] then 0#32 else 0x100#32) ||| (0#28 ++ BitVec.ofNat 4 x.l),
        if fin = [] then 0#32 else sinrMean (ExactReal.sum fin) fin.length, realWord (Config.evmSymbol x.d y.ys y.llrs)]
      bundles := s.bundles.set b.toNat ((x.demodulated s.params).streamed (x.symbolLlrs s.params)) } := by
  simp only [State.streamedSymbol, ofNat_toNat_self, provStats_eq, List.foldl_cons, List.foldl_nil, State.setBundle,
    State.record, State.log, traceWords]

/-- Settles O48: the state `s1` is the streamed symbol's, so DEMOD_SYMBOL does what DEMUX_SYMBOL does there; without UCI soft
bits that completes by `demuxSymbolResult`, because a written symbol holds every soft bit UL-SCH gets. -/
theorem demodSymbolStreams : Obligations.DemodSymbolStreams := by
  intro s b x running hx i n y fin w s1 counted
  refine ⟨fun hp => exec_demodSymbol_hold_phase running hx hp, fun hp positions full => ?full,
    fun hp positive room opened real fresh => ?streams⟩
  case full =>
    rw [exec_demodSymbol hx hp]
    exact runOp_hold running (demodSymbol_hold_full hx hp positions full)
  case streams =>
    have positions : nofPositions x.d x.l ≠ 0 := fun none => positive.ne' (symbolBits_of_empty none)
    obtain ⟨z, hz⟩ : ∃ z, z = (x.demodulated s.params).streamed w := ⟨_, rfl⟩
    have streamed : s.streamedSymbol b.toNat x = s1 := streamedSymbol_eq s b x
    have hs1 : s1.bundles[b.toNat]? = some z := by rw [hz]; exact getElem?_set_found _ hx
    have complete : z.dm.symCnt = symbolBits z.d z.l := by rw [hz]; rfl
    have sameSymbol : z.l = x.l := by rw [hz]; rfl
    have goesOn : ∀ u, exec (.demuxSymbol b (BitVec.ofNat 16 x.l)) s1 = .next u → u.held = false → u.fatal = false →
        exec i s = .next (counted u) := fun u run unheld unfatal => by
      rw [← sameSymbol, exec_demuxSymbol hs1 complete] at run
      have op := (demuxSymbol_quiet _ _).completed run unheld unfatal
      rw [← streamed] at op
      rw [exec_demodSymbol hx hp]
      exact runOp_ok running (demodSymbol_of_run hx hp positions room positive opened real fresh op)
    refine ⟨goesOn, fun c hc unheld noUci takes => ?_⟩
    obtain ⟨ls, hl, size⟩ := exists_schLlrs_of_written (p := s.params) (x := z) (m := x.dm.symBuf) (w := w) (by rw [hz]; rfl)
      (by rw [hz]; exact symbolLlrs_length x s.params)
    obtain ⟨nothing, something⟩ := (demuxSymbolResult s1 b z c ls running hs1 (by rw [hz]; exact hc)).1 complete
      (by rw [hz]; exact noUci) hl (by rw [size, hz]; exact takes)
    rw [sameSymbol] at nothing something
    by_cases empty : ls = []
    · exact ⟨_, nothing empty, goesOn _ (nothing empty) unheld running⟩
    · exact ⟨_, something empty, goesOn _ (something empty) unheld running⟩

end Sys2Proof.Machine
end

section
/-!
PROOFS. The phases of the sequencer, and PROCESS_PDU with the pool empty (spec/45_sequencer.md R427, R430).
-/

namespace Sys2Proof.Machine

/-! ### The phase an update leaves a bundle in (R45, R430) -/

/-- The phases that a step of SEQ[b] can leave its bundle in, by the phase it starts from (R430). -/
def Phase.next : Phase → List Phase
  | .free => []
  | .chest => [.demod]
  | .demod => [.demod, .endPdu, .holdCsi2]
  | .holdCsi2 => []
  | .resume => [.demod, .endPdu]
  | .endPdu => [.commit]
  | .commit => [.free]

/-- Bundle `b`, if there is one, is in one of the phases `ps`. -/
def State.PhaseIn (s : State) (b : Nat) (ps : List Phase) : Prop := ∀ y, s.bundles[b]? = some y → y.phase ∈ ps

section
variable {s t : State} {b : Nat} {ps : List Phase} {g : Bundle → Bundle}

theorem State.PhaseIn.of_eq (hs : s.PhaseIn b ps) (h : t.bundles = s.bundles) : t.PhaseIn b ps := by
  unfold State.PhaseIn
  rw [h]
  exact hs

theorem State.PhaseIn.of_subset {qs : List Phase} (hs : s.PhaseIn b ps) (h : ps ⊆ qs) : s.PhaseIn b qs :=
  fun y hy => h (hs y hy)

/-- The last change of a bundle says which phase it is in. -/
theorem modBundle_phaseIn (s : State) (b : Nat) (h : ∀ x, s.bundles[b]? = some x → (g x).phase ∈ ps) :
    (s.modBundle b g).PhaseIn b ps := by
  intro y hy
  rw [State.modBundle_bundles, List.getElem?_modify_eq] at hy
  obtain ⟨x, hx, rfl⟩ := Option.map_eq_some_iff.1 hy
  exact h x hx

theorem State.PhaseIn.modBundle (hs : s.PhaseIn b ps) (h : ∀ x, (g x).phase = x.phase) : (s.modBundle b g).PhaseIn b ps :=
  modBundle_phaseIn s b fun x hx => by rw [h]; exact hs x hx

end

/-! ### The phase that a symbol leaves (R247, R248, R257) -/

theorem finishSymbol_phaseIn {b : Nat} {s t : State} (h : finishSymbol b s = .ok t) : t.PhaseIn b Phase.resume.next := by
  simp only [finishSymbol, bind_eq_ok, ok_eq_ok] at h
  obtain ⟨-, -, -, -, -, -, u, -, rfl⟩ := h
  refine modBundle_phaseIn u b fun x _ => ?_
  unfold Bundle.advance
  by_cases last : x.l + 1 = endSymb x.d <;> simp [last, Phase.next]

theorem demuxSymbol_phaseIn {b : Nat} {s t : State} (h : demuxSymbol b s = .ok t) : t.PhaseIn b Phase.demod.next := by
  simp only [demuxSymbol, bind_eq_ok] at h
  obtain ⟨-, -, -, -, -, -, u, -, x, -, h⟩ := h
  split at h
  case isTrue await => cases h; exact modBundle_phaseIn u b fun _ _ => by simp [Phase.next]
  case isFalse => exact (finishSymbol_phaseIn h).of_subset (by decide)

/-! ### Streaming a symbol into DEMUX_IN (R388) -/

section
variable {s t : State} {b : Nat} {ps : List Phase}

theorem State.PhaseIn.modDemuxIn (hs : s.PhaseIn b ps) (g : Port → Port) : (s.modPort (.demuxIn b) g).PhaseIn b ps :=
  hs.modBundle fun _ => rfl

theorem State.PhaseIn.modSymBuf (hs : s.PhaseIn b ps) (g : Slots → Slots) : (s.modStorage (.demuxIn b) g).PhaseIn b ps :=
  hs.modBundle fun _ => rfl

theorem State.PhaseIn.issueReserve {n : Nat} {v : Nat × State} (hs : s.PhaseIn b ps)
    (h : issueReserve (.demuxIn b) n s = .ok v) : v.2.PhaseIn b ps := by
  obtain ⟨p, -, -, -, rfl⟩ := reserveView_eq_ok.1 h
  have viewed : ∀ f : Port → Port, ((s.record (.reserveView (PortRef.demuxIn b).id (BitVec.ofNat 19 n)
      (PortRef.demuxIn b).owner)).modPort (.demuxIn b) f).PhaseIn b ps := fun f => (hs.of_eq rfl).modDemuxIn f
  simp only [State.openView]
  split
  · exact viewed _
  · split
    · exact (viewed _).modSymBuf _
    · exact viewed _

theorem State.PhaseIn.writeView (hs : s.PhaseIn b ps) (ls : List Llr) : (s.writeView (.demuxIn b) ls).PhaseIn b ps := by
  unfold State.writeView
  split
  · exact hs.modSymBuf _
  · exact hs

/-- A published block leaves the phase alone, or completes the symbol (R209). -/
theorem consumePublish_phaseIn {ls : List Llr} (hs : s.PhaseIn b Phase.demod.next)
    (h : consumePublish (.demuxIn b) ls s = .ok t) : t.PhaseIn b Phase.demod.next := by
  simp only [consumePublish, bind_eq_ok] at h
  obtain ⟨x, -, h⟩ := h
  split at h
  case isTrue complete => exact demuxSymbol_phaseIn h
  case isFalse => cases h; exact hs.modBundle fun _ => rfl

theorem issuePublishInPlace_phaseIn {n : Nat} (hs : s.PhaseIn b Phase.demod.next)
    (h : issuePublishInPlace (.demuxIn b) n s = .ok t) : t.PhaseIn b Phase.demod.next := by
  obtain ⟨p, ls, u, -, -, -, -, delivered, rfl⟩ := publishInPlaceWith_eq_ok.1 h
  have ended := State.PhaseIn.modDemuxIn (hs.of_eq (t := s.record (.publishInPlace (PortRef.demuxIn b).id (BitVec.ofNat 19 n)
    (PortRef.demuxIn b).owner)) rfl) fun q => { q with viewLen := 0 }
  refine State.PhaseIn.modDemuxIn ?_ _
  rcases deliver_eq_ok.1 delivered with ⟨-, rfl⟩ | ⟨-, consumed⟩
  · exact ended
  · rcases whenReal_eq_ok.1 consumed with ⟨-, rfl⟩ | ⟨-, consumed⟩
    · exact ended
    · exact consumePublish_phaseIn ended consumed

theorem streamLoop_phaseIn {ls : List Llr} {fuel j : Nat} (hs : s.PhaseIn b Phase.demod.next)
    (h : streamLoop b ls fuel j s = .ok t) : t.PhaseIn b Phase.demod.next := by
  induction fuel generalizing j s with
  | zero => cases h; exact hs
  | succ fuel ih =>
    unfold streamLoop at h
    split at h
    case isTrue sent => cases h; exact hs
    case isFalse =>
      simp only [bind_eq_ok] at h
      obtain ⟨v, reserved, u, published, h⟩ := h
      exact ih (issuePublishInPlace_phaseIn ((hs.issueReserve reserved).writeView _) published) h

theorem State.PhaseIn.emit {ws : List Word} (hs : s.PhaseIn b ps) (h : emit ws s = .ok t) : t.PhaseIn b ps := by
  obtain ⟨-, rfl⟩ := emit_eq_ok.1 h
  exact hs.of_eq rfl

theorem State.PhaseIn.descrambleOp (hs : s.PhaseIn b ps) (h : descrambleOp b s = .ok t) : t.PhaseIn b ps := by
  simp only [Machine.descrambleOp, bind_eq_ok, ok_eq_ok] at h
  obtain ⟨x, -, -, -, rfl⟩ := h
  exact (hs.of_eq rfl).modBundle fun _ => rfl

theorem demodSymbol_phaseIn (hs : s.PhaseIn b Phase.demod.next) (h : demodSymbol b s = .ok t) :
    t.PhaseIn b Phase.demod.next := by
  simp only [demodSymbol, bind_eq_ok] at h
  obtain ⟨x, -, -, -, h⟩ := h
  split at h
  case isTrue empty =>
    obtain ⟨u, -, h⟩ := bind_eq_ok.1 h
    exact demuxSymbol_phaseIn h
  case isFalse =>
    simp only [bind_eq_ok] at h
    obtain ⟨v, reported, u, descrambled, z, -, h⟩ := h
    have demodulated := State.PhaseIn.modBundle
      (hs.of_eq (t := s.record (.demodSymbol (BitVec.ofNat 8 b) (BitVec.ofNat 16 x.l))) rfl)
      (g := fun y => { y.accumulate (demodulate s.params x) with work := (demodulate s.params x).llrs }) fun _ => rfl
    exact streamLoop_phaseIn ((demodulated.emit reported).descrambleOp descrambled) h

end

/-! ### The other operations of the sequencer (R257, R380, R433) -/

section
variable {s t : State} {b : Nat}

theorem chestOp_phaseIn (h : chestOp b s = .ok t) : t.PhaseIn b Phase.chest.next := by
  simp only [chestOp, bind_eq_ok, ok_eq_ok] at h
  obtain ⟨-, -, -, -, rfl⟩ := h
  exact modBundle_phaseIn _ b fun _ _ => List.mem_singleton.2 rfl

theorem demuxResume_phaseIn (h : demuxResume b s = .ok t) : t.PhaseIn b Phase.resume.next := by
  simp only [demuxResume, bind_eq_ok] at h
  obtain ⟨x, -, -, -, h⟩ := h
  exact finishSymbol_phaseIn h

theorem seqEndOp_phaseIn (h : seqEndOp b s = .ok t) : t.PhaseIn b Phase.endPdu.next := by
  simp only [seqEndOp, bind_eq_ok, ok_eq_ok] at h
  obtain ⟨-, -, -, -, -, -, -, -, -, -, u, -, rfl⟩ := h
  exact modBundle_phaseIn u b fun _ _ => List.mem_singleton.2 rfl

end

/-! ### They raise no command error (R462) -/

theorem chestOp_quiet (b : Nat) (s : State) : Quiet (chestOp b s) :=
  Quiet.bind (getBundle_quiet _ _) fun _ => Quiet.bind (Quiet.check (by simp)) fun _ => Quiet.ok _

theorem descrambleOp_quiet (b : Nat) (s : State) : Quiet (descrambleOp b s) :=
  Quiet.bind (getBundle_quiet _ _) fun _ => Quiet.bind (Quiet.check (by simp)) fun _ => Quiet.ok _

theorem issueReserve_quiet (r : PortRef) (n : Nat) (s : State) : Quiet (issueReserve r n s) :=
  Quiet.bind (getPort_quiet _ _) fun _ => Quiet.bind (Quiet.check (by simp)) fun _ => Quiet.bind (Quiet.check (by simp)) fun _ =>
    Quiet.ok _

theorem consumePublish_quiet (r : PortRef) (ls : List Llr) (s : State) : Quiet (consumePublish r ls s) := by
  cases r with
  | demuxIn b => exact Quiet.bind (getBundle_quiet _ _) fun _ => Quiet.ite (demuxSymbol_quiet _ _) (Quiet.ok _)
  | sch t => exact storeAtCount_quiet _ _ _
  | uci f b => exact storeAtCount_quiet _ _ _

theorem streamLoop_quiet (b : Nat) (ls : List Llr) (fuel j : Nat) (s : State) : Quiet (streamLoop b ls fuel j s) := by
  induction fuel generalizing j s with
  | zero => exact Quiet.ok _
  | succ fuel ih =>
    exact Quiet.ite (Quiet.ok _) <| Quiet.bind (issueReserve_quiet _ _ _) fun _ =>
      Quiet.bind (publishInPlaceWith_quiet _ _ _ fun _ _ => consumePublish_quiet _ _ _) fun _ => ih _ _

theorem demodSymbol_quiet (b : Nat) (s : State) : Quiet (demodSymbol b s) :=
  Quiet.bind (getBundle_quiet _ _) fun _ => Quiet.bind (Quiet.check (by simp)) fun _ => Quiet.ite
    (Quiet.bind (descrambleOp_quiet _ _) fun _ => demuxSymbol_quiet _ _)
    (Quiet.bind (emit_quiet _ _) fun _ => Quiet.bind (descrambleOp_quiet _ _) fun _ =>
      Quiet.bind (getBundle_quiet _ _) fun _ => streamLoop_quiet _ _ _ _ _)

theorem endStats_quiet (b : Nat) (s : State) : Quiet (endStats b s) :=
  Quiet.bind (getBundle_quiet _ _) fun _ => emit_quiet _ _

theorem consumeCloseAll_quiet (r : PortRef) (s : State) : Quiet (consumeCloseAll r s) := by
  cases r with
  | demuxIn b => exact demuxFlush_quiet _ _
  | sch t => exact consumeClose_quiet (.sch t) s
  | uci f b => exact consumeClose_quiet (.uci f b) s

theorem seqEndOp_quiet (b : Nat) (s : State) : Quiet (seqEndOp b s) :=
  Quiet.bind (getBundle_quiet _ _) fun _ => Quiet.bind (Quiet.check (by simp)) fun _ => Quiet.bind (endStats_quiet _ _) fun _ =>
    Quiet.bind (issueClose_quiet _ _ fun _ => consumeCloseAll_quiet _ _) fun _ =>
      Quiet.bind (getBundle_quiet _ _) fun _ => Quiet.bind (emit_quiet _ _) fun _ => Quiet.ok _

theorem exec_demodSymbol_completed {b : BitVec 8} {l : BitVec 16} {s t : State} (h : exec (.demodSymbol b l) s = .next t)
    (running : t.fatal = false) (taken : t.held = false) : demodSymbol b.toNat s = .ok t := by
  rw [exec, execDemodSymbol] at h
  have op := Quiet.completed (by
    exact Quiet.bind (getBundle_quiet _ _) fun _ => Quiet.bind (Quiet.check (by simp)) fun _ =>
      Quiet.bind (Quiet.check (by simp)) fun _ => demodSymbol_quiet _ _)
    h taken running
  simp only [bind_eq_ok] at op
  obtain ⟨-, -, -, -, -, -, op⟩ := op
  exact op

/-! ### The steps of SEQ[b] (R430) -/

/-- A COMMIT step that neither holds nor stops the block frees its bundle (R434). -/
theorem commitStep_phaseIn {b c : Nat} {s t : State} (h : commitStep b c s = .next t) (running : t.fatal = false)
    (taken : t.held = false) : t.PhaseIn b Phase.commit.next := by
  unfold commitStep at h
  split at h
  case h_1 u _ =>
    split at h
    case isTrue stopped => cases h; simp [running, taken] at stopped
    case isFalse => cases h; exact modBundle_phaseIn u b fun _ _ => List.mem_singleton.2 rfl
  all_goals cases h

/-- A step of SEQ[b] that neither holds nor stops the block goes along R430's table. -/
theorem stepSeq_phaseIn {s t : State} {b : Nat} {x : Bundle} (hx : s.bundles[b]? = some x) (small : b < 256)
    (h : stepSeq b s = .next t) (running : t.fatal = false) (taken : t.held = false) : t.PhaseIn b x.phase.next := by
  have index : (BitVec.ofNat 8 b).toNat = b := (BitVec.toNat_ofNat b 8).trans (Nat.mod_eq_of_lt small)
  have hold : s.hold ≠ t := by rintro rfl; simp at taken
  cases hp : x.phase <;> simp only [stepSeq, hx, hp] at h
  case free => exact absurd (Host.Outcome.next.inj h) hold
  case holdCsi2 => exact absurd (Host.Outcome.next.inj h) hold
  case chest =>
    have op := (chestOp_quiet _ _).completed h taken running
    exact chestOp_phaseIn (index ▸ op)
  case demod =>
    have op := exec_demodSymbol_completed h running taken
    have start : s.PhaseIn b Phase.demod.next := fun y hy => by
      rw [← Option.some.inj (hx.symm.trans hy), hp]
      exact List.mem_cons_self
    exact demodSymbol_phaseIn start (index ▸ op)
  case resume => exact demuxResume_phaseIn (index ▸ exec_demuxResume_completed h running taken)
  case endPdu =>
    have op := (seqEndOp_quiet _ _).completed h taken running
    exact seqEndOp_phaseIn (index ▸ op)
  case commit => exact commitStep_phaseIn h running taken

/-- Settles O6: FREE and HOLD_CSI2 enable no operation, and in every other phase the last change that the phase's operation makes
of its bundle gives the phase, as `Phase.next` lists it. -/
theorem sequencerPhases : Obligations.SequencerPhases := by
  intro s b x hx small
  refine ⟨fun waits => ?_, fun t y h taken running hy => ?_⟩
  · rcases waits with hp | hp <;> simp only [runAgent, stepSeq, hx, hp]
  · have reached := stepSeq_phaseIn hx small h running taken y hy
    cases hp : x.phase <;> simp only [hp, Phase.next, List.mem_cons, List.not_mem_nil, or_false] at reached
    case chest => exact .inl ⟨rfl, reached⟩
    case demod => exact .inr (.inl ⟨rfl, reached⟩)
    case resume => exact .inr (.inr (.inl ⟨rfl, reached⟩))
    case endPdu => exact .inr (.inr (.inr (.inl ⟨rfl, reached⟩)))
    case commit => exact .inr (.inr (.inr (.inr ⟨rfl, reached⟩)))

/-! ### PROCESS_PDU with the pool empty (R427) -/

/-- The UCI_RESULT record of a PDU that finds the pool empty: no field is VALID, so no payload follows (R162, R427). -/
theorem uciResult_of_poolEmpty (tag : BitVec 8) (d : Descriptor) :
    uciResult tag (if 0 < ackBits d then .invalid else .unknown) .unknown .unknown [] [] [] =
      [0x03#8 ++ tag ++ 3#16, if 0 < ackBits d then 2#32 else 0#32, 0#32, 0#32] := by
  split <;> rfl

theorem schResult_of_poolEmpty (tag : BitVec 8) : schResult tag false 0 [] = [0x04#8 ++ tag ++ 3#16, 0#32, 0#32, 0#32] :=
  schResult_eq tag false 0 []

section
variable {s : State} {tag : BitVec 8}

theorem poolEmptyResult_of_room {d : Descriptor} (room : s.evq.length + 8 ≤ s.params.evqDepth) :
    poolEmptyResult tag d s = .ok { s with
      windows := s.windows ++ [⟨tag, 0, 0, true, [], []⟩]
      evq := s.evq ++ [0x03#8 ++ tag ++ 3#16, if 0 < ackBits d then 2#32 else 0#32, 0#32, 0#32,
        0x04#8 ++ tag ++ 3#16, 0#32, 0#32, 0#32] } := by
  rw [poolEmptyResult, uciResult_of_poolEmpty, schResult_of_poolEmpty]
  refine bind_eq_ok.2 ⟨_, emit_eq_ok.2 ⟨?uci, rfl⟩, bind_eq_ok.2 ⟨_, emit_eq_ok.2 ⟨?sch, rfl⟩, ?_⟩⟩
  case uci => simp only [List.length_cons, List.length_nil]; omega
  case sch => simp only [List.length_append, List.length_cons, List.length_nil]; omega
  rw [List.append_assoc]
  rfl

/-- Without room for both records not even the first one is emitted: the hold discards it (R15, R111). -/
theorem poolEmptyResult_hold {d : Descriptor} (full : s.params.evqDepth < s.evq.length + 8) :
    poolEmptyResult tag d s = .error .hold := by
  rw [poolEmptyResult, uciResult_of_poolEmpty, schResult_of_poolEmpty]
  by_cases first : s.evq.length + 4 ≤ s.params.evqDepth
  · rw [emit_eq_ok.2 ⟨first, rfl⟩, ok_bind, emit_hold, error_bind]
    simp only [List.length_append, List.length_cons, List.length_nil]
    omega
  · rw [emit_hold, error_bind]
    simp only [List.length_cons, List.length_nil]
    omega

theorem processPdu_poolEmpty (valid : firstFailing (validateChecks s tag s.desc) = none)
    (empty : s.firstFreeBundle = none ∨ s.firstIdleTb = none) :
    processPdu tag s = poolEmptyResult tag s.desc (s.record (.processPdu tag)) := by
  have checked : checkAll (validateChecks (s.record (.processPdu tag)) tag (s.record (.processPdu tag)).desc) = .ok () :=
    checkAll_eq_ok.2 valid
  have bundle : (s.record (.processPdu tag)).firstFreeBundle = s.firstFreeBundle := rfl
  have context : (s.record (.processPdu tag)).firstIdleTb = s.firstIdleTb := rfl
  simp only [processPdu, checked, ok_bind, bundle, context]
  rcases empty with missing | missing
  · rw [missing]; rfl
  · rw [missing]; cases s.firstFreeBundle <;> rfl

end

/-- Settles O33: `poolEmptyResult` emits its two records where the event FIFO has the room for both, and holds where it has not. -/
theorem processPduPoolEmpty : Obligations.ProcessPduPoolEmpty := by
  intro s tag running valid empty
  have op := processPdu_poolEmpty valid empty
  exact ⟨fun room => runOp_ok running (op.trans (poolEmptyResult_of_room (s := s.record _) room)),
    fun full => runOp_hold running (op.trans (poolEmptyResult_hold (s := s.record _) full))⟩

end Sys2Proof.Machine
end

section
/-!
PROOFS. The fatal state (spec/60_exceptions.md R465, R468): nothing but HOST and reset acts in it, HOST's accesses reach neither
ERR nor the units, and only reset leaves it.
-/

namespace Sys2Proof.Machine

/-! ### Nothing runs (R465) -/

section
variable {s : State} (stopped : s.fatal = true)
include stopped

theorem exec_of_fatal (i : Instr) : exec i s = .next s.hold := by
  obtain ⟨_, _, run, -⟩ := exec_eq_runOp i
  exact (run s).trans (if_pos stopped)

theorem stepCmdu_of_fatal : stepCmdu s = .next s.hold := if_pos stopped

/-- The hold of CLOSE_COMMIT leaves the bundle in COMMIT (R434). -/
theorem commitStep_of_fatal (b t : Nat) : commitStep b t s = .next s.hold := by
  simp only [commitStep, exec_of_fatal stopped, State.hold_held, true_or, if_true]

theorem stepSeq_of_fatal (b : Nat) : stepSeq b s = .next s.hold := by
  unfold stepSeq
  split
  case h_1 => rfl
  case h_2 x _ =>
    cases x.phase
    case free => rfl
    case holdCsi2 => rfl
    case commit => exact commitStep_of_fatal stopped b x.tbx
    all_goals exact exec_of_fatal stopped _

theorem runTask_of_fatal (e i : Nat) (head : QueueHead) : runTask e i head s = .next s.hold := if_pos (.inl stopped)

theorem stepCbeAhead_of_fatal (e i : Nat) : stepCbeAhead e i s = .next s.hold := by
  unfold stepCbeAhead
  split
  · exact runTask_of_fatal stopped e i _
  · rfl

theorem stepIssue_of_fatal {ws : List Word} {t : State} (h : stepIssue ws s = .next t) : t = s.hold := by
  unfold stepIssue at h
  split at h
  case h_1 i _ => rw [exec_of_fatal stopped i] at h; cases h; rfl
  all_goals cases h

end

/-- Settles O10: every operation is one effect under `runOp`, which holds in the fatal state, and so does every step that runs
one. -/
theorem nothingRunsWhileFatal : Obligations.NothingRunsWhileFatal := fun _ stopped =>
  ⟨exec_of_fatal stopped, stepCmdu_of_fatal stopped, stepSeq_of_fatal stopped, fun e => runTask_of_fatal stopped e 0 _,
    stepCbeAhead_of_fatal stopped⟩

/-! ### What HOST leaves alone (R465, R468) -/

/-- What every turn but a reset leaves of a stopped block. -/
structure State.Frozen (s t : State) : Prop where
  fatal : t.fatal = s.fatal
  errCode : t.errCode = s.errCode
  errDetail : t.errDetail = s.errDetail
  cmdq : t.cmdq = s.cmdq
  taskq : t.taskq = s.taskq
  bundles : t.bundles = s.bundles
  tbs : t.tbs = s.tbs
  harq : t.harq = s.harq
  evq : t.evq = s.evq ∨ t.evq = s.evq.tail

theorem State.Frozen.refl (s : State) : s.Frozen s := ⟨rfl, rfl, rfl, rfl, rfl, rfl, rfl, rfl, .inl rfl⟩

/-- A load of EVT pops the word at the head of the event FIFO (R39). -/
theorem popEvent_frozen (s : State) : s.Frozen s.popEvent := by
  cases hq : s.evq with
  | nil => rw [popEvent_nil hq]; exact { State.Frozen.refl s with }
  | cons w rest =>
    have popped : rest = s.evq.tail := by rw [hq, List.tail_cons]
    rw [popEvent_cons hq]
    unfold State.notePop
    split <;> exact { State.Frozen.refl s with evq := .inr popped }

theorem csrRead_frozen (s : State) (off : BitVec 12) : s.Frozen (s.csrRead off) := by
  by_cases evt : off = 0x034#12
  · rw [evt]; exact popEvent_frozen s
  · rw [csrRead_of_ne evt]; exact { State.Frozen.refl s with }

/-- Of the registers HOST writes only CMD reaches the command FIFO or ERR, and the fatal state drops its stores (R38). -/
theorem csrWrite_frozen {s : State} (stopped : s.fatal = true) (off : BitVec 12) (v : Word) : s.Frozen (s.csrWrite off v) := by
  unfold State.csrWrite
  split
  case h_3 => rw [pushCommand_of_fatal stopped]; exact .refl s
  all_goals exact { State.Frozen.refl s with }

theorem dmemRead_frozen (s : State) (a : Nat) : s.Frozen (s.dmemRead a) := by
  unfold State.dmemRead
  split <;> exact { State.Frozen.refl s with }

theorem dmemWrite_frozen (s : State) (a : Nat) (v : Byte) : s.Frozen (s.dmemWrite a v) := by
  unfold State.dmemWrite
  split <;> exact { State.Frozen.refl s with }

theorem stepHost_frozen {op : HostOp} {s t : State} (stopped : s.fatal = true) (h : stepHost op s = .next t) : s.Frozen t := by
  cases op with
  | csrRead width off =>
    simp only [stepHost] at h
    split at h <;> cases h
    exact csrRead_frozen s off
  | csrWrite width off v =>
    simp only [stepHost] at h
    split at h <;> cases h
    exact csrWrite_frozen stopped off v
  | dmemRead a => cases h; exact dmemRead_frozen s a.toNat
  | dmemWrite a v => cases h; exact dmemWrite_frozen s a.toNat v

/-! ### Only reset leaves the fatal state (R468) -/

/-- Everything a turn can do in the fatal state. -/
theorem runTurn_of_fatal {u : Turn} {s t : State} (stopped : s.fatal = true) (h : runTurn u s = .next t) :
    u = .agent .resetInput ∨ (∃ op, u = .agent (.host op) ∧ stepHost op s = .next t) ∨ t = s.hold := by
  have held : ∀ {o : Host.Outcome State Fault Refusal}, o = .next s.hold → o = .next t → t = s.hold := by
    rintro _ rfl ⟨⟩; rfl
  cases u with
  | agent a =>
    cases a with
    | host op => exact .inr (.inl ⟨op, rfl, h⟩)
    | cmdu => exact .inr (.inr (held (stepCmdu_of_fatal stopped) h))
    | seq b => exact .inr (.inr (held (stepSeq_of_fatal stopped b) h))
    | cbe e => exact .inr (.inr (held (runTask_of_fatal stopped e 0 _) h))
    | cbeAhead e i => exact .inr (.inr (held (stepCbeAhead_of_fatal stopped e i) h))
    | resetInput => exact .inl rfl
  | issue ws => exact .inr (.inr (stepIssue_of_fatal stopped h))

/-- Taking a turn touches only the turns and `held` (log 7). -/
theorem State.takeTurn_eq (s : State) : ∃ turns n, s.takeTurn.2 = { s with sched := turns, turnNo := n, held := false } := by
  unfold State.takeTurn
  split
  · exact ⟨_, s.turnNo, rfl⟩
  · exact ⟨s.sched, _, rfl⟩

/-- Settles O11: a turn of a stopped block is a reset, an access of HOST, which leaves the block `Frozen`, or a hold. -/
theorem onlyResetLeavesFatal : Obligations.OnlyResetLeavesFatal := by
  intro s t stopped h
  obtain ⟨turns, n, taken⟩ := s.takeTurn_eq
  have run : runTurn s.takeTurn.1 { s with sched := turns, turnNo := n, held := false } = .next t := taken ▸ h
  rcases runTurn_of_fatal (by exact stopped) run with reset | ⟨op, host, access⟩ | rfl
  case inl => exact .inl reset
  case inr.inl =>
    have k := stepHost_frozen (by exact stopped) access
    exact .inr ⟨k.fatal.trans stopped, k.errCode, k.errDetail, k.cmdq, k.taskq, k.bundles, k.tbs, k.harq, k.evq,
      fun other => absurd host (other op)⟩
  case inr.inr => exact .inr ⟨stopped, rfl, rfl, rfl, rfl, rfl, rfl, rfl, .inl rfl, fun _ => ⟨rfl, rfl⟩⟩

end Sys2Proof.Machine
end

section
/-!
PROOFS. The block right after reset (spec/70_reset_and_hazards.md R502, R504): what each register reads, and that no agent
but HOST has anything to run.
-/

namespace Sys2Proof.Machine

/-! ### The registers (R502) -/

theorem descRead_zero (off : BitVec 12) : (descRead Descriptor.zero off).getD 0#32 = 0#32 := by
  unfold descRead
  split <;> rfl

/-- The registers that are not 0 right after reset: ID, PARAM0 to PARAM5 and STATUS. -/
def nonzeroOffsets : List (BitVec 12) :=
  [0x000#12, 0x004#12, 0x008#12, 0x00C#12, 0x010#12, 0x014#12, 0x018#12, 0x020#12]

/-- No source of the interrupt is pending (R36). -/
theorem irqStatus_resetOf (p : Params) : (State.resetOf p).irqStatus = 0#3 :=
  (by decide : flag false ++ flag false ++ flag false = 0#3)

/-- The interrupt output is low (R37, R470). -/
theorem irq_resetOf (p : Params) : (State.resetOf p).irq = false := by
  rw [State.irq, irqStatus_resetOf, BitVec.zero_and]
  rfl

/-- ERR, the interrupt and event registers and DEC_CFG show fields that reset to 0, and every later offset shows the zero
descriptor or nothing. -/
theorem csrValue_resetOf {off : BitVec 12} (h : off ∉ nonzeroOffsets) (p : Params) :
    (State.resetOf p).csrValue off = 0#32 := by
  unfold State.csrValue
  split
  case h_9 => exact BitVec.zero_append_zero
  case h_10 => rw [irqStatus_resetOf]; exact BitVec.zero_append_zero
  case h_11 => exact BitVec.zero_append_zero
  case h_12 => exact BitVec.zero_append_zero
  case h_13 => rfl
  case h_14 => exact descRead_zero off
  all_goals exact absurd (by decide) h

/-- A load of EVT finds the FIFO empty (R39). -/
theorem csrRead_resetOf {off : BitVec 12} (h : off ∉ nonzeroOffsets) (p : Params) :
    ((State.resetOf p).csrRead off).rdata = 0#32 := by
  by_cases evt : off = 0x034#12
  · rw [evt]
    exact congrArg State.rdata (popEvent_nil (s := State.resetOf p) rfl)
  · rw [csrRead_of_ne evt]
    exact csrValue_resetOf h p

theorem freeBundles_resetOf (p : Params) : (State.resetOf p).freeBundles = p.nBundles := by
  rw [State.freeBundles, State.resetOf, List.countP_replicate]
  exact if_pos rfl

theorem freeTbdec_resetOf (p : Params) : (State.resetOf p).freeTbdec = p.nTbdec := by
  rw [State.freeTbdec, State.resetOf, List.countP_replicate]
  exact if_pos rfl

/-- An empty command FIFO is not full where it has any depth at all (R34). -/
theorem cmdqFull_resetOf {p : Params} (depth : 0 < p.cmdqDepth) : (State.resetOf p).cmdqFull = false :=
  decide_eq_false (Nat.not_le_of_lt depth)

/-- The four flags and the reserved bits of STATUS are the low byte 0. -/
theorem statusWord_resetOf {p : Params} (depth : 0 < p.cmdqDepth) : (State.resetOf p).statusWord =
    BitVec.ofNat 16 (min 65535 p.cmdqDepth) ++ BitVec.ofNat 4 p.nTbdec ++ BitVec.ofNat 4 p.nBundles ++ 0#8 := by
  have room : (State.resetOf p).cmdqFree = min 65535 p.cmdqDepth := rfl
  have noCommand : (State.resetOf p).cmdPending = false := rfl
  have noEvent : (State.resetOf p).evqNonempty = false := rfl
  have running : (State.resetOf p).fatal = false := rfl
  apply BitVec.eq_of_toNat_eq
  rw [statusWord_toNat, room, noCommand, noEvent, running, cmdqFull_resetOf depth, freeBundles_resetOf, freeTbdec_resetOf]
  simp only [toNat_append_eq, BitVec.toNat_ofNat, Bool.toNat_false]
  omega

/-- Settles O16: every register but ID, PARAM0 to PARAM5 and STATUS reads 0, and no source of the interrupt is pending. -/
theorem registersAfterReset : Obligations.RegistersAfterReset := by
  intro p legal
  have depth : 0 < p.cmdqDepth := by
    simp only [Params.legal, Bool.and_eq_true, decide_eq_true_eq] at legal
    omega
  refine ⟨rfl, statusWord_resetOf depth, fun off listed => csrRead_resetOf ?_ p, irq_resetOf p⟩
  fin_cases listed <;> decide

/-! ### Nothing to run (R504) -/

section
variable {s : State}

theorem stepCmdu_of_noCommand (h : s.cmdq = []) : stepCmdu s = .next s.hold := by
  simp only [stepCmdu, h, ite_self]

/-- Neither a FREE bundle nor an index beyond the last bundle enables a step (R430). -/
theorem stepSeq_of_free {b : Nat} (h : ∀ x, s.bundles[b]? = some x → x.phase = .free) : stepSeq b s = .next s.hold := by
  unfold stepSeq
  split
  case h_1 => rfl
  case h_2 x hx => rw [h x hx]

theorem runTask_of_noTask (h : s.taskq = []) (e i : Nat) (head : QueueHead) : runTask e i head s = .next s.hold := by
  simp only [runTask, h, List.getElem?_nil, ite_self]

theorem stepCbe_of_noTask (h : s.taskq = []) (e : Nat) : stepCbe e s = .next s.hold := runTask_of_noTask h e 0 _

theorem stepCbeAhead_of_noTask (h : s.taskq = []) (e i : Nat) : stepCbeAhead e i s = .next s.hold := by
  simp only [stepCbeAhead, runTask_of_noTask h, ite_self]

end

/-- Settles O18: after reset both queues are empty and every bundle is FREE. -/
theorem nothingEnabledAfterReset : Obligations.NothingEnabledAfterReset := by
  intro p
  have free : ∀ (b : Nat) x, (State.resetOf p).bundles[b]? = some x → x.phase = .free := fun b x hx => by
    rw [List.eq_of_mem_replicate (List.mem_of_getElem? hx)]; rfl
  exact ⟨stepCmdu_of_noCommand rfl, fun b => stepSeq_of_free (free b), stepCbe_of_noTask rfl, stepCbeAhead_of_noTask rfl⟩

end Sys2Proof.Machine
end
